-- ==== Sys2Proof/Word.lean ====
section
/-! DEFINITION. The byte of the serial ports and the 32-bit words the part keeps (R92, R168). -/

namespace Sys2Proof

/-- A byte of a frame (R184). -/
abbrev Byte := BitVec 8

/-- The 32-bit write count of a trace ring and the sample numbers it gives (R92). -/
abbrev Word32 := BitVec 32

end Sys2Proof
end

