-- ==== Sys2Proof/Config.lean ====
section
/-! DEFINITION. What the part fixes (times, sizes) and the values the manual leaves open.
The opaque constants are free values: nothing can be proved of them, so a claim holds whatever they are. -/

namespace Sys2Proof.Config

/-- Shelf point relay and line relay operate time in milliseconds (R21, R22). -/
def operateMs : Nat := 8

/-- Line relay and shelf point relay release time in milliseconds (R35). -/
def releaseMs : Nat := 6

/-- Length of the access check in milliseconds (R23). -/
def accessCheckMs : Nat := 4

/-- Length of a discharge in milliseconds (R90). -/
def dischargeMs : Nat := 30

/-- Length of one warm-up stage in milliseconds (R78). -/
def warmupStageMs : Nat := 10

/-- A channel whose calibration age is above this many milliseconds calibrates inside the run (R83). -/
def staleMs : Nat := 900000

/-- The calibration age saturates at this value (R76). -/
def maxAgeMs : Nat := 4294967294

/-- Samples of one gain of a calibration: 2 discarded and 64 summed (R79). -/
def calSamples : Nat := 66

/-- Samples of the capture of a CAP step (R106). -/
def captureSamples : Nat := 4096

/-- Slots of a trace ring (R92). -/
def ringSlots : Nat := 8192

/-- The OPEN marker (R104). -/
def openMarker : Nat := 999999999

/-- Free value (R69, log 8): of two reports that belong to one instant and that the manual lets be taken in
either order, whether the one named first is taken first. The argument numbers the choices. -/
opaque firstReportFirst : Nat → Bool

/-- Free value (R184, R185, log 16): the KIND of the UNKNOWN_KIND reply to a frame whose KIND plus 0x80 is no
byte. -/
opaque replyKindBeyond : Byte → Byte

/-- Free value (R92, log 17): what a slot of a trace ring that no sample has been written to reads as; the
manual calls it "content without meaning". Arguments: channel number, slot. -/
opaque traceContent : Nat → Nat → Int

/-- Free value (R119, log 18): which of several values that are equally large in magnitude an FV step's SOFT
finding carries; used modulo their number. -/
opaque tiePick : List Int → Nat

end Sys2Proof.Config
end

