-- ==== Sys2Proof/Syntax.lean ====
section
/-! DEFINITION. The names of ports, desks, buses and channels, and the commands of the part: one constructor
of `Instr` for each row of spec/opcode_table.json. A request command names the port whose oldest request is
taken; the request's own fields stand in that port's request FIFO as received (R174, R175, log 4). -/

namespace Sys2Proof

/-- The serial ports: P0 faces the exchange, P1 to P4 face the desks (11, introduction). -/
inductive Port where
  | p0 | p1 | p2 | p3 | p4
deriving DecidableEq, Repr

/-- The four test-desk positions. -/
inductive Desk where
  | d1 | d2 | d3 | d4
deriving DecidableEq, Repr

/-- The four test buses. -/
inductive Bus where
  | b0 | b1 | b2 | b3
deriving DecidableEq, Repr

/-- The two measurement channels. -/
inductive Channel where
  | mc0 | mc1
deriving DecidableEq, Repr

/-- Bytes received after a SYNC. `rested` as in GOOD_FRAME, of the line before these bytes: a good frame found among
them brings a link UP only after the rest of R184 (log 22). -/
structure LineBytes where
  rested : Bool
  bytes : List Byte
deriving DecidableEq, Repr

/-- The commands, in the order of spec/opcode_table.json. -/
inductive Instr where
  /-- POWER_RESET; `strap` is the value of the two SUPSEL pins (R171, R177). -/
  | powerReset (strap : BitVec 2)
  /-- GOOD_FRAME; `rested`: the receive line has rested at mark for 10 ms without a break since the link went
  down or power was applied (R184). -/
  | goodFrame (port : Port) (rested : Bool) (kind tag : Byte) (payload : List Byte)
  /-- BAD_FRAME; `bytes` are what was received after the SYNC of the discarded frame (R173). -/
  | badFrame (port : Port) (bytes : LineBytes)
  | interruptedFrame (port : Port)
  | exchangeLinkDown
  | deskLinkDown (desk : Desk)
  | frameSent (port : Port)
  | traceData (desk : Desk)
  | callState (port : Port)
  | seize (port : Port)
  | testRequest (port : Port)
  | timeSet (port : Port)
  | timeAdvance
  | connect (port : Port)
  | release (port : Port)
  | setMode (port : Port)
  | renew (port : Port)
  | run (port : Port)
  | cancelRun (port : Port)
  | trace (port : Port)
  | ticketTake (port : Port)
  | ticketDrop (port : Port)
  | ticketClear (port : Port)
  | ticketClose (port : Port)
  | ticketPurge (port : Port)
  | ticketGet (port : Port)
  | ticketList (port : Port)
  | lineGet (port : Port)
  | statusGet (port : Port)
  | busGet (port : Port)
  | channelGet (port : Port)
  | resultGet (port : Port)
  | countersGet (port : Port)
  | subscribe (port : Port)
  | configLines (port : Port)
  | configClass (port : Port)
  | configProgram (port : Port)
  | configPriority (port : Port)
  | configRoutine (port : Port)
  | configStorm (port : Port)
  | configTimes (port : Port)
  | channelSetEnable (port : Port)
  | channelSetDisable (port : Port)
  | configCommit (port : Port)
  | routineStart (port : Port)
  | routineStop (port : Port)
  | restart (port : Port)
  | countersClear (port : Port)
  | shelfPointOperated (bus : Bus)
  | lineRelayOperated (bus : Bus)
  /-- ACCESS_CHECK_END; the three sense inputs at the end of the 4 ms (R23). -/
  | accessCheckEnd (bus : Bus) (splitSense tipContinuity ringContinuity : Bool)
  | lineRelayReleased (bus : Bus)
  | shelfPointReleased (bus : Bus)
  | holdExpired (bus : Bus)
  | toneLimit (bus : Bus)
  | toneDividerExpiry (bus : Bus)
  | toneBurstEnd (bus : Bus)
  | toneSilenceEnd (bus : Bus)
  | warmupStage (channel : Channel)
  | warmupEnd (channel : Channel)
  | calibrationGainDone (channel : Channel)
  | calibrationEnd (channel : Channel)
  | inRunCalibrationEnd (channel : Channel)
  /-- CONVERTER_SAMPLE; `code` is the converter's signed code (R87). -/
  | converterSample (channel : Channel) (code : Int)
  | passEnd (channel : Channel)
  | settleEnd (channel : Channel)
  | captureEnd (channel : Channel)
  | dischargeEnd (channel : Channel)
  | waitStepEnd (bus : Bus)
  | periodTimerExpiry
  | windowEnd
deriving DecidableEq, Repr

end Sys2Proof
end

