-- ==== Sys2Proof/Machine/Types.lean ====
section
/-! DEFINITION. The values, records and messages the blocks of the part keep and send. Every type is plain
data. The order of the constructors of an enumeration is the order section 12.2 counts it in. -/

namespace Sys2Proof.Machine

/-! ## Fixed numbers of like things -/

/-- One thing for each bus. -/
structure PerBus (α : Type) where
  b0 : α
  b1 : α
  b2 : α
  b3 : α
deriving DecidableEq, Repr

/-- One thing for each channel. -/
structure PerChannel (α : Type) where
  mc0 : α
  mc1 : α
deriving DecidableEq, Repr

/-- One thing for each port. -/
structure PerPort (α : Type) where
  p0 : α
  p1 : α
  p2 : α
  p3 : α
  p4 : α
deriving DecidableEq, Repr

/-- A table by number: the entries that differ from what an unlisted number reads as, numbers rising. -/
abbrev Table (α : Type) := List (Nat × α)

/-! ## Time, lines and findings -/

/-- A time stamp (4.4 of the introduction). -/
structure Stamp where
  day : Nat
  sec : Nat
deriving DecidableEq, Repr

/-- Call state of a line (R4). -/
inductive CallState where
  | idle | busy | ringing | lockout
deriving DecidableEq, Repr

/-- Mark of an access state (R5); `settled` is no mark. -/
inductive Mark where
  | settled | operating | releasing
deriving DecidableEq, Repr

/-- Access state of a line (R5). -/
inductive AccessState where
  | normal
  | split (bus : Bus) (mark : Mark)
  | bridge (bus : Bus) (mark : Mark)
deriving DecidableEq, Repr

/-- Severities, rising (4.5). -/
inductive Severity where
  | soft | hard | hazard
deriving DecidableEq, Repr

/-- The seven fault codes, numbered 1 to 7 in this order (R118). -/
inductive FaultCode where
  | foreignV | loopLow | earthT | earthR | openLine | capHigh | accessFail
deriving DecidableEq, Repr

/-- Sub-kinds of routine work (R17, R142). -/
inductive RoutineKind where
  | routine | verify | lockout
deriving DecidableEq, Repr

/-- Holder of a bus, and origin of a run, a finding or a result (4.5, R17). -/
inductive Holder where
  | desk (d : Desk)
  | routine (k : RoutineKind)
deriving DecidableEq, Repr

/-- Verdict of a run, or of a TEST_DONE (R72, R122). -/
inductive Verdict where
  | pass | fault | incomplete | notNeeded
deriving DecidableEq, Repr

/-- Measurement pairs (4.1). -/
inductive Pair where
  | tr | tg | rg
deriving DecidableEq, Repr

/-- Bias levels (R86); `off` is the level B0. -/
inductive Bias where
  | off | b1 | b2 | b3
deriving DecidableEq, Repr

/-- Source ranges (R86). -/
inductive SourceRange where
  | ra | rb | rc
deriving DecidableEq, Repr

/-- Gains of the programmable amplifier (R87). -/
inductive Gain where
  | g1 | g4 | g16 | g64
deriving DecidableEq, Repr

/-- A measured value with its unit (R145, 12.3); a resistance carries its bias level. -/
inductive Quantity where
  | ohm (r : Nat) (bias : Bias)
  | mvDc (v : Int)
  | mvRms (v : Int)
  | tenthNf (c : Nat)
deriving DecidableEq, Repr

/-- The summary of the last run to end on a line (R9). -/
structure LastResult where
  handle : Nat
  time : Stamp
  verdict : Verdict
  origin : Holder
deriving DecidableEq, Repr

/-- A line record (R1). `openCodes` holds codes in rising number, none twice. -/
structure LineRecord where
  equipped : Bool
  cls : Nat
  call : CallState
  access : AccessState
  hazard : Bool
  openCodes : List FaultCode
  unticketed : Bool
  covered : Option Nat
  missed : Option Nat
  last : Option LastResult
deriving DecidableEq, Repr

/-- A class-table entry (R11): voltages in mV, resistances in ohm, capacitances in tenths of a nF. -/
structure ClassEntry where
  priority : Bool
  program : Nat
  capPerKm : Nat
  dcSoft : Nat
  dcHazard : Nat
  acSoft : Nat
  acHazard : Nat
  trHard : Nat
  trSoft : Nat
  tgHard : Nat
  tgSoft : Nat
  rgHard : Nat
  rgSoft : Nat
  openMin : Nat
  capMax : Nat
deriving DecidableEq, Repr

/-! ## Buses -/

/-- Bus states (R18). -/
inductive BusState where
  | idle | connecting | held | talk | tone | monitor | measuring | releasing
deriving DecidableEq, Repr

/-- Connect modes (R17). -/
inductive Mode where
  | split | bridge
deriving DecidableEq, Repr

/-- Release reasons (R33). -/
inductive ReleaseReason where
  | released | holdExpired | preemptedCall | preemptedDesk | noExchange | linkDown | restart | accessFail | runEnd
deriving DecidableEq, Repr

/-- Abort causes of a run (R123). -/
inductive AbortCause where
  | cancelled | preemptedCall | preemptedDesk | holdExpired | linkDown | noExchange | noChannel | channelFault
  | restart
deriving DecidableEq, Repr

/-- The hold timer of a bus (R17, R31), in milliseconds left. -/
inductive HoldTimer where
  | absent
  | running (ms : Nat)
  | stopped
deriving DecidableEq, Repr

/-- The tone parameters of a bus (R28). -/
structure ToneParams where
  divider : Nat
  on : Nat
  off : Nat
  limit : Nat
deriving DecidableEq, Repr

/-- The output of a tone generator (R28). -/
inductive ToneLevel where
  | removed | high | low | rest
deriving DecidableEq, Repr

/-- The cadence of a tone generator: continuous, in a burst or in a silence, with the milliseconds left. -/
inductive Cadence where
  | continuous
  | burst (ms : Nat)
  | silence (ms : Nat)
deriving DecidableEq, Repr

/-- The tone generator and its limit timer (R28, R29). `divider` is the count the divider counter was last
loaded with, absent while it is stopped; `limitMs` is absent while the limit timer does not run. -/
structure ToneGen where
  output : ToneLevel
  divider : Option Nat
  cadence : Cadence
  limitMs : Option Nat
deriving DecidableEq, Repr

/-- The audio path of a bus (R27). -/
inductive AudioPath where
  | disconnected | speech | listening
deriving DecidableEq, Repr

/-- Where a bus stands in its relay sequences (R21 to R25, R35), with the milliseconds left of a timed
operation. -/
inductive RelayPhase where
  | atRest
  | pointOperating (ms : Nat)
  | lineOperating (ms : Nat)
  | checking (ms : Nat)
  | operated
  | lineReleasing (ms : Nat)
  | pointReleasing (ms : Nat)
deriving DecidableEq, Repr

/-- A bus record: the fields of R17, and after `reason` what ACC must hold beside them (the CONNECT's tag and
arrival sequence, R43; the routine program fixed at the grant, R111; the line last held and whether the connect
was reported done, R37; relays, audio path and tone generator). -/
structure BusRecord where
  state : BusState
  holder : Option Holder
  line : Option Nat
  mode : Option Mode
  guard : Bool
  point : Option Nat
  hold : HoldTimer
  tone : ToneParams
  run : Option Nat
  reason : Option ReleaseReason
  tag : Nat
  seq : Nat
  program : Option Nat
  lastLine : Option Nat
  reached : Bool
  relay : RelayPhase
  audio : AudioPath
  gen : ToneGen
deriving DecidableEq, Repr

/-- An entry of the bus request queue (R42). -/
structure QueueEntry where
  desk : Desk
  tag : Nat
  seq : Nat
  line : Nat
  mode : Mode
  guard : Bool
  priority : Nat
deriving DecidableEq, Repr

/-- The priority table (R46). -/
structure Priorities where
  desk1 : Nat
  desk2 : Nat
  desk3 : Nat
  desk4 : Nat
  routine : Nat
  catchup : Nat
  lockout : Nat
deriving DecidableEq, Repr

/-- An entry of the channel wait list (R55); the list order holds the order of arrival. -/
structure WaitEntry where
  handle : Nat
  bus : Bus
  priority : Nat
deriving DecidableEq, Repr

/-- How the command being taken stands in time (log 60), the model's own: apart from every other, or together with the
events that the idle step raises in the same millisecond; and there, that MC1 has become READY while runs waited, or
was given to the head of the list as it did, with its write count at that moment (R56). -/
inductive Moment where
  | apart | together | mc1Ready
  | mc1Given (head : WaitEntry) (written : Word32)
deriving DecidableEq, Repr

/-- The moment once events of one millisecond are queued. -/
def Moment.joined : Moment → Moment
  | .apart | .together | .mc1Ready => .together
  | .mc1Given w n => .mc1Given w n

/-- The moment once a channel, at a write count, has been given to the head of the wait list. -/
def Moment.given (m : Moment) (c : Channel) (w : WaitEntry) (written : Word32) : Moment :=
  match m, c with
  | .mc1Ready, .mc1 => .mc1Given w written
  | .mc1Ready, .mc0 => .together
  | m, _ => m

/-- An entry of the pending seize table (R68); `tags` in order of arrival. -/
structure SeizeEntry where
  line : Nat
  tags : List Byte
  report : Option CallState
deriving DecidableEq, Repr

/-! ## Channels -/

/-- Channel states (R77). -/
inductive ChannelState where
  | off | warming | calibrating | ready | busy | faulted
deriving DecidableEq, Repr

/-- A timed action of a channel (R76). -/
inductive Activity where
  | quiet | settling | discharging | calInRun
deriving DecidableEq, Repr

/-- One signed code for each gain: the offset table (R76). -/
structure Offsets where
  g1 : Int
  g4 : Int
  g16 : Int
  g64 : Int
deriving DecidableEq, Repr

/-- A calibration in progress (R79): the raw samples taken at the gain in hand, newest first, and the offsets
formed so far, in gain order. -/
structure CalWork where
  raw : List Int
  formed : List Int
deriving DecidableEq, Repr

/-- A channel record (R76). `timer` holds the milliseconds left of a warm-up stage, a settle or a discharge;
`stage` counts the warm-up stages begun after the first (R78); `biasNext` is the level to follow a discharge
(R88); `ring` holds the codes the trace ring still has, newest first (R92). -/
structure ChannelRecord where
  state : ChannelState
  enable : Bool
  disablePending : Bool
  offsets : Offsets
  calTime : Option Stamp
  calAge : Option Nat
  run : Option Nat
  bus : Option Bus
  pair : Option Pair
  bias : Bias
  range : SourceRange
  gain : Gain
  activity : Activity
  timer : Nat
  stage : Nat
  biasNext : Option Bias
  cal : Option CalWork
  written : Word32
  ring : List Int
deriving DecidableEq, Repr

/-! ## Programs, runs and results -/

/-- A program step (R111). -/
inductive ProgramStep where
  | fv (n : Nat)
  | res (pair : Pair) (bias : Bias) (range : SourceRange) (n : Nat)
  | cap (bias : Bias) (n : Nat)
  | wait (ms : Nat)
deriving DecidableEq, Repr

/-- Step kinds (12.2). -/
inductive StepKind where
  | fv | res | cap | wait
deriving DecidableEq, Repr

/-- Statuses of a step result (R126). -/
inductive StepStatus where
  | ok | clip | edge | opened | under | over | leaky | invalidFv | skippedHazard | notRun | aborted
deriving DecidableEq, Repr

/-- A voltage reading that stands (R97): clipped or not, in mV, with its AC value (R99). -/
structure FvValue where
  clipped : Bool
  dc : Int
  ac : Int
deriving DecidableEq, Repr

/-- The values of a step result (R126); a value not formed is absent. -/
inductive StepValues where
  | fv (tg rg tr : Option FvValue)
  | res (r : Option Nat) (vf vx q : Option Int)
  | cap (c : Option Nat) (v0 vfin target : Option Int) (k tau : Option Nat)
  | wait
deriving DecidableEq, Repr

/-- A finding as a step result records it (R126). -/
structure StepFinding where
  code : FaultCode
  severity : Severity
  pair : Option Pair
deriving DecidableEq, Repr

/-- A trace reference (R126). -/
structure TraceRef where
  channel : Option Channel
  first : Word32
  length : Nat
deriving DecidableEq, Repr

/-- A step result (R126). -/
structure StepResult where
  kind : StepKind
  pair : Option Pair
  status : StepStatus
  values : StepValues
  bias : Option Bias
  range : Option SourceRange
  gain : Option Gain
  trace : TraceRef
  findings : List StepFinding
  distance : Option Nat
deriving DecidableEq, Repr

/-- A finding as it is passed to the ticket table (R119, R24). -/
structure Finding where
  line : Nat
  code : FaultCode
  severity : Severity
  value : Option Quantity
  distance : Option Nat
  handle : Option Nat
  start : Stamp
  origin : Holder
deriving DecidableEq, Repr

/-- Phases of a run (R116). -/
inductive Phase where
  | waitChannel | calibrate | reading | settle | capture | wait | discharge | ended
deriving DecidableEq, Repr

/-- A voltage reading in progress (R96): the samples to average, the gain of the pass in hand, the gain changes
made, and the raw samples of the pass so far, newest first. -/
structure Reading where
  n : Nat
  gain : Gain
  changes : Nat
  raw : List Int
deriving DecidableEq, Repr

/-- What the step in hand is doing, one stage finer than its phase (R100 to R109). -/
inductive Stage where
  | none | fv (pair : Pair) | resVf | resVx | capDrain | capCapture | capVfin | closing
deriving DecidableEq, Repr

/-- The working values of the step in hand (06, introduction): the reading, Vf and the range changes of a RES
step, the capture of a CAP step (raw codes, newest first, and the level v0 it is judged from), the values of an
FV step that broke a soft limit, and the milliseconds left of a WAIT. -/
structure StepWork where
  stage : Stage
  reading : Option Reading
  vf : Int
  rangeChanges : Nat
  capture : List Int
  captureDone : Bool
  softValues : List Quantity
  waitMs : Nat
deriving DecidableEq, Repr

/-- A run context (R115). The step results of R115 are `done`, oldest first, and then the step in hand `cur`. -/
structure RunContext where
  handle : Nat
  origin : Holder
  line : Nat
  bus : Bus
  cls : Nat
  program : Nat
  ticketing : Bool
  channel : Option Channel
  stepIx : Nat
  phase : Phase
  final : Bool
  gain : Gain
  range : SourceRange
  start : Stamp
  done : List StepResult
  cur : Option StepResult
  pending : List Finding
  abort : Option AbortCause
  work : StepWork
deriving DecidableEq, Repr

/-- A result record (R126). -/
structure ResultRecord where
  handle : Nat
  line : Nat
  cls : Nat
  origin : Holder
  program : Nat
  ticketing : Bool
  verdict : Verdict
  start : Stamp
  finish : Stamp
  abort : Option AbortCause
  channel : Option Channel
  steps : List StepResult
deriving DecidableEq, Repr

/-- Values of a testability report (R120). -/
inductive Testability where
  | able | skippedHazard | notEvaluated | noStep
deriving DecidableEq, Repr

/-! ## Routine work, tickets, storms -/

/-- Scheduler states (R131). -/
inductive SchedState where
  | stopped | running | held
deriving DecidableEq, Repr

/-- Sweep phases (R130). -/
inductive SweepPhase where
  | inSweep | between
deriving DecidableEq, Repr

/-- Sources of routine candidates (R130, R139). -/
inductive Source where
  | verifyList | lockoutList | deferredList | pointer
deriving DecidableEq, Repr

/-- Priority names a routine candidate can carry (R49). -/
inductive PriorityName where
  | routine | catchup | lockout
deriving DecidableEq, Repr

/-- A routine candidate offered at an arbitration (R139, R49). -/
structure Candidate where
  line : Nat
  source : Source
  name : PriorityName
deriving DecidableEq, Repr

/-- The dispatch record of a bus (R130). -/
structure Dispatch where
  source : Source
  name : PriorityName
deriving DecidableEq, Repr

/-- The period timer while it runs (R133, R135): milliseconds left, and the milliseconds it was started with. -/
structure PeriodTimer where
  left : Nat
  total : Nat
deriving DecidableEq, Repr

/-- The six sweep counts (R130). -/
structure SweepCounts where
  tested : Nat
  covered : Nat
  hardSkipped : Nat
  unequipped : Nat
  deferred : Nat
  missed : Nat
deriving DecidableEq, Repr

/-- An entry of the deferred list (R138). -/
structure DeferredEntry where
  line : Nat
  tries : Nat
  due : Stamp
  sweep : Nat
deriving DecidableEq, Repr

/-- Parameters of the routine scheduler (R132): the period and the retry delay in minutes, the lag threshold
in percent. -/
structure RoutineParams where
  rbl : Nat
  sr : Nat
  period : Nat
  lag : Nat
  retry : Nat
deriving DecidableEq, Repr

/-- Ticket states (R145). -/
inductive TicketState where
  | opened | assigned | cleared | closed
deriving DecidableEq, Repr

/-- Close reasons (R145). -/
inductive CloseReason where
  | verified | notFound | manual | untested
deriving DecidableEq, Repr

/-- A ticket record (R145). -/
structure Ticket where
  number : Nat
  line : Nat
  code : FaultCode
  severity : Severity
  origin : Holder
  state : TicketState
  assignee : Option Desk
  clearedBy : Option Desk
  firstSeen : Stamp
  lastSeen : Stamp
  clearedTime : Option Stamp
  closeTime : Option Stamp
  closeReason : Option CloseReason
  repeats : Nat
  reopens : Nat
  notFound : Nat
  worst : Option Quantity
  distance : Option Nat
  handle : Option Nat
  storm : Bool
deriving DecidableEq, Repr

/-- Storm states (R162). -/
inductive StormState where
  | normal | storm
deriving DecidableEq, Repr

/-- Parameters of the storm watch (R162). -/
structure StormParams where
  window : Nat
  sIn : Nat
  sOut : Nat
  quiet : Nat
deriving DecidableEq, Repr

/-! ## Messages -/

/-- Link states (R74, R183). -/
inductive LinkState where
  | up | down
deriving DecidableEq, Repr

/-- Reasons a connect can fail with (R43, 12.2). -/
inductive ConnectReason where
  | release (r : ReleaseReason)
  | notEquipped
  | callActive
deriving DecidableEq, Repr

/-- Reasons a BUS_STATE can carry (R37, 12.2). -/
inductive BusReason where
  | release (r : ReleaseReason)
  | toneLimit
deriving DecidableEq, Repr

/-- Causes a TEST_DONE can carry (R72, 12.2). -/
inductive TestCause where
  | abort (c : AbortCause)
  | notEquipped
  | callActive
deriving DecidableEq, Repr

/-- Causes of a CALL_ATTEMPT (R64). -/
inductive AttemptCause where
  | busy | ringing | seize
deriving DecidableEq, Repr

/-- Causes of a TICKET_CHANGE (R160). -/
inductive TicketCause where
  | taken | dropped | cleared | reopened | escalated | closed (r : CloseReason) | linkDown | evicted
deriving DecidableEq, Repr

/-- Causes of a CHANNEL notice (R80, R82); CAL_FAIL carries the lowest failing gain and its offset. -/
inductive ChannelCause where
  | calDone
  | calFail (gain : Gain) (offset : Int)
  | disabled
deriving DecidableEq, Repr

/-- Causes of a STORM_STATE notice (R164). -/
inductive StormCause where
  | window | restart
deriving DecidableEq, Repr

/-- A fault code found and its highest severity (R72, R127). -/
structure FoundCode where
  code : FaultCode
  severity : Severity
deriving DecidableEq, Repr

/-- The notices (section 11.4), each with the fields its owning rule lists. -/
inductive Notice where
  | connectDone (bus : Bus) (line : Nat) (mode : Mode) (tag seq : Nat)
  | connectFailed (reason : ConnectReason) (tag seq : Nat)
  | busState (bus : Bus) (state : BusState) (line : Option Nat) (reason : BusReason)
  | callAttempt (bus : Bus) (line : Nat) (cause : AttemptCause) (time : Stamp)
  | runDone (handle : Nat) (bus : Bus) (line : Nat) (verdict : Verdict) (abort : Option AbortCause)
      (finish : Stamp) (codes : List FoundCode)
  | traceData (handle step offset : Nat) (codes : List Int)
  | testDone (line : Nat) (verdict : Verdict) (handle : Option Nat) (cause : Option TestCause)
      (codes : List FoundCode)
  | ticketNew (number line : Nat) (code : FaultCode) (severity : Severity) (origin : Holder) (storm : Bool)
      (worst : Option Quantity) (distance : Option Nat) (firstSeen : Stamp)
  | ticketChange (number line : Nat) (code : FaultCode) (state : TicketState) (severity : Severity)
      (cause : TicketCause) (desk : Option Desk) (time : Stamp)
  | stormState (state : StormState) (cause : StormCause) (count : Nat) (time : Stamp)
  | counterCarry (group index : Nat) (time : Stamp)
  | sweepDone (number : Nat) (start : Option Stamp) (finish : Stamp) (counts : SweepCounts)
  | sweepLate (number : Nat) (start : Option Stamp) (pointer : Nat)
  | channel (channel : Channel) (state : ChannelState) (cause : ChannelCause)
  | restart (time : Stamp)
deriving DecidableEq, Repr

/-- Refusal reasons, numbered 1 to 26 in this order (section 11.5, R185). -/
inductive Reason where
  | unknownKind | notPermitted | notConfigured | badField | queueFull | duplicate | full | lineHeld | noBus
  | shelfFull | callActive | noExchange | notEquipped | notLockout | notHolder | wrongState | busy | inUse
  | noChannel | emptyProgram | badProgram | badConfig | stale | taken | noSuch | tooLate
deriving DecidableEq, Repr

/-- Outcome of a reply (R175, R185). -/
inductive ReplyOutcome where
  | ok | clamped | accepted | refused (r : Reason)
deriving DecidableEq, Repr

/-- A reply: its KIND and TAG, its outcome, and the data bytes that follow the outcome (R185). -/
structure Reply where
  kind : Byte
  tag : Byte
  outcome : ReplyOutcome
  data : List Byte
deriving DecidableEq, Repr

/-- The request kinds (section 12.4). -/
inductive RequestKind where
  | callState | seize | testRequest | timeSet
  | connect | release | setMode | renew | run | cancelRun | trace
  | ticketTake | ticketDrop | ticketClear | ticketClose | ticketList | ticketGet | ticketPurge
  | lineGet | statusGet | busGet | channelGet | resultGet | countersGet | subscribe
  | configLines | configClass | configProgram | configPriority | configRoutine | configStorm | configTimes
  | channelSet | configCommit | routineStart | routineStop | restart | countersClear
deriving DecidableEq, Repr

/-- What the bytes after a SYNC are (R173): not yet a whole frame, a bad frame, or a good frame and the bytes
after it. -/
inductive FrameScan where
  | unfinished
  | bad
  | good (kind tag : Byte) (payload rest : List Byte)
deriving DecidableEq, Repr

/-- A request as it stands in a request FIFO (R174). -/
structure Request where
  kind : Byte
  tag : Byte
  payload : List Byte
deriving DecidableEq, Repr

/-- A notice as it stands in a notice FIFO, with the lost count it carries (R176). -/
structure QueuedNotice where
  lost : Nat
  notice : Notice
deriving DecidableEq, Repr

/-- The receiver of a port (R172): hunting, or holding the bytes received after a SYNC. -/
inductive Receiver where
  | hunt
  | collecting (heard : LineBytes)
deriving DecidableEq, Repr

/-- The transmitter of a port (R175): free, or sending the frame of the oldest reply or the oldest notice. -/
inductive Transmitter where
  | free
  | reply (frame : List Byte)
  | notice (frame : List Byte)
deriving DecidableEq, Repr

/-- A trace stream in progress (R129): the run, the step, the offset of the next sample and the samples left. -/
structure Transfer where
  handle : Nat
  step : Nat
  offset : Nat
  samples : List Int
deriving DecidableEq, Repr

/-- The state of a port unit (R172). `transfer` is absent while the transfer buffer is empty and idle. -/
structure PortUnit where
  link : LinkState
  receiver : Receiver
  requests : List Request
  replies : List Reply
  notices : List QueuedNotice
  lost : Nat
  mask : Byte
  transfer : Option Transfer
  tx : Transmitter
deriving DecidableEq, Repr

/-- One group of event counters (R166 to R168); index i of a word is bit i. -/
structure CounterGroup where
  counts : Table Nat
  carries : Word32
  mask : Word32
deriving DecidableEq, Repr

/-- Operating states (section 11.6). -/
inductive OperState where
  | config | operational
deriving DecidableEq, Repr

end Sys2Proof.Machine
end

