-- ==== Sys2Proof/Machine/Formats.lean ====
section
/-! DEFINITION. Frames, the check, and the byte encodings of chapter 12 (R173, R184 to R186). Layouts that
chapter 12 leaves to the order in which a rule names the fields follow that order (R185, log 19). -/

namespace Sys2Proof.Machine

/-! ## Frames -/

/-- One shift of the check register: polynomial x^8 + x^2 + x + 1 (R173). -/
def crcShift (r : Byte) : Byte := if r.msb then (r <<< 1) ^^^ 7 else r <<< 1

/-- One byte into the check register, most significant bit first (R173). -/
def crcByte (r b : Byte) : Byte :=
  crcShift (crcShift (crcShift (crcShift (crcShift (crcShift (crcShift (crcShift (r ^^^ b))))))))

/-- The check over the LEN, KIND, TAG and payload bytes, initial value 0 (R173). -/
def crc8 (bytes : List Byte) : Byte := bytes.foldl crcByte 0

/-- The SYNC byte. -/
def syncByte : Byte := 0xA5

/-- The bytes of a frame on the line (R184). -/
def frameBytes (kind tag : Byte) (payload : List Byte) : List Byte :=
  let body := BitVec.ofNat 8 (payload.length + 2) :: kind :: tag :: payload
  syncByte :: (body ++ [crc8 body])

/-- What the bytes after a SYNC make (R173): LEN, then LEN further bytes, then CHECK. -/
def scanFrame : List Byte → FrameScan
  | [] => .unfinished
  | len :: t =>
    if len.toNat < 2 ∨ 250 < len.toNat then .bad
    else
      match t.drop len.toNat with
      | [] => .unfinished
      | check :: rest =>
        if crc8 (len :: t.take len.toNat) = check then
          match t.take len.toNat with
          | kind :: tag :: payload => .good kind tag payload rest
          | _ => .bad
        else .bad

/-- The bytes behind the first SYNC. -/
def afterSync : List Byte → Option (List Byte)
  | [] => none
  | b :: t => if b = syncByte then some t else afterSync t

/-- What hunting through received bytes comes to (R173): no SYNC, the bytes behind a SYNC that make no whole frame
yet, a bad frame with the bytes behind its SYNC, or a good frame with the bytes behind it. -/
inductive Hunted where
  | nothing
  | partly (bytes : List Byte)
  | bad (bytes : List Byte)
  | good (kind tag : Byte) (payload rest : List Byte)
deriving DecidableEq, Repr

/-- The first frame in received bytes (R173). -/
def huntIn (bytes : List Byte) : Hunted :=
  match afterSync bytes with
  | none => .nothing
  | some t =>
    match scanFrame t with
    | .unfinished => .partly t
    | .bad => .bad t
    | .good kind tag payload rest => .good kind tag payload rest

/-! ## Field encodings (R185) -/

/-- One byte. -/
def u8 (n : Nat) : List Byte := [BitVec.ofNat 8 n]

/-- Two bytes, most significant first. -/
def u16 (n : Nat) : List Byte := [BitVec.ofNat 8 (n / 256), BitVec.ofNat 8 n]

/-- Three bytes, most significant first. -/
def u24 (n : Nat) : List Byte := BitVec.ofNat 8 (n / 65536) :: u16 n

/-- Four bytes, most significant first. -/
def u32 (n : Nat) : List Byte := BitVec.ofNat 8 (n / 16777216) :: u24 n

/-- Two bytes, two's complement. -/
def i16 (v : Int) : List Byte := u16 (v % 65536).toNat

/-- Four bytes, two's complement. -/
def i32 (v : Int) : List Byte := u32 (v % 4294967296).toNat

/-- Yes/no and set/clear. -/
def flagByte (b : Bool) : List Byte := u8 (if b then 1 else 0)

/-- An optional enumeration value, 0xFF for none. -/
def enumOr (code : Option Nat) : List Byte := u8 (code.getD 255)

/-- An optional two-byte field, with its value for none. -/
def u16Or (absent : Nat) (v : Option Nat) : List Byte := u16 (v.getD absent)

/-- A time stamp; second 0xFFFFFF for none or never, where the day is sent as 0, a choice of the model (log 45). -/
def stampBytes : Option Stamp → List Byte
  | some t => u16 t.day ++ u24 t.sec
  | none => u16 0 ++ u24 0xFFFFFF

/-- A voltage; 0x80000000 for absent. -/
def voltageBytes (v : Option Int) : List Byte := i32 (v.getD (-2147483648))

/-- A list of varying length: a count byte and the entries. -/
def listBytes {α : Type} (enc : α → List Byte) (l : List α) : List Byte := u8 l.length ++ (l.map enc).flatten

/-! ## Positions of enumeration values (section 12.2) -/

/-- Number of a port. -/
def portNum : Port → Nat
  | .p0 => 0 | .p1 => 1 | .p2 => 2 | .p3 => 3 | .p4 => 4

/-- Number of a bus. -/
def busNum : Bus → Nat
  | .b0 => 0 | .b1 => 1 | .b2 => 2 | .b3 => 3

/-- Number of a channel. -/
def channelNum : Channel → Nat
  | .mc0 => 0 | .mc1 => 1

/-- Position of a desk in the origin list. -/
def deskCode : Desk → Nat
  | .d1 => 0 | .d2 => 1 | .d3 => 2 | .d4 => 3

/-- Position of an origin; a routine holder is given as its sub-kind. -/
def originCode : Holder → Nat
  | .desk d => deskCode d
  | .routine .routine => 4 | .routine .verify => 5 | .routine .lockout => 6

def severityCode : Severity → Nat
  | .soft => 0 | .hard => 1 | .hazard => 2

def verdictCode : Verdict → Nat
  | .pass => 0 | .fault => 1 | .incomplete => 2 | .notNeeded => 3

def callCode : CallState → Nat
  | .idle => 0 | .busy => 1 | .ringing => 2 | .lockout => 3

/-- Number of a fault code (R118). -/
def faultNum : FaultCode → Nat
  | .foreignV => 1 | .loopLow => 2 | .earthT => 3 | .earthR => 4 | .openLine => 5 | .capHigh => 6
  | .accessFail => 7

def ticketStateCode : TicketState → Nat
  | .opened => 0 | .assigned => 1 | .cleared => 2 | .closed => 3

def closeReasonCode : CloseReason → Nat
  | .verified => 0 | .notFound => 1 | .manual => 2 | .untested => 3

def busStateCode : BusState → Nat
  | .idle => 0 | .connecting => 1 | .held => 2 | .talk => 3 | .tone => 4 | .monitor => 5 | .measuring => 6
  | .releasing => 7

def releaseCode : ReleaseReason → Nat
  | .released => 0 | .holdExpired => 1 | .preemptedCall => 2 | .preemptedDesk => 3 | .noExchange => 4
  | .linkDown => 5 | .restart => 6 | .accessFail => 7 | .runEnd => 8

def abortCode : AbortCause → Nat
  | .cancelled => 0 | .preemptedCall => 1 | .preemptedDesk => 2 | .holdExpired => 3 | .linkDown => 4
  | .noExchange => 5 | .noChannel => 6 | .channelFault => 7 | .restart => 8

def statusCode : StepStatus → Nat
  | .ok => 0 | .clip => 1 | .edge => 2 | .opened => 3 | .under => 4 | .over => 5 | .leaky => 6
  | .invalidFv => 7 | .skippedHazard => 8 | .notRun => 9 | .aborted => 10

def stepKindCode : StepKind → Nat
  | .fv => 0 | .res => 1 | .cap => 2 | .wait => 3

def pairCode : Pair → Nat
  | .tr => 0 | .tg => 1 | .rg => 2

def biasCode : Bias → Nat
  | .off => 0 | .b1 => 1 | .b2 => 2 | .b3 => 3

def rangeCode : SourceRange → Nat
  | .ra => 0 | .rb => 1 | .rc => 2

def modeCode : Mode → Nat
  | .split => 0 | .bridge => 1

/-- A gain is carried as its value. -/
def gainVal : Gain → Nat
  | .g1 => 1 | .g4 => 4 | .g16 => 16 | .g64 => 64

def connectReasonCode : ConnectReason → Nat
  | .release r => releaseCode r | .notEquipped => 9 | .callActive => 10

def busReasonCode : BusReason → Nat
  | .release r => releaseCode r | .toneLimit => 9

def testCauseCode : TestCause → Nat
  | .abort c => abortCode c | .notEquipped => 9 | .callActive => 10

def attemptCode : AttemptCause → Nat
  | .busy => 0 | .ringing => 1 | .seize => 2

def ticketCauseCode : TicketCause → Nat
  | .taken => 0 | .dropped => 1 | .cleared => 2 | .reopened => 3 | .escalated => 4 | .closed _ => 5
  | .linkDown => 6 | .evicted => 7

def channelStateCode : ChannelState → Nat
  | .off => 0 | .warming => 1 | .calibrating => 2 | .ready => 3 | .busy => 4 | .faulted => 5

def channelCauseCode : ChannelCause → Nat
  | .calDone => 0 | .calFail _ _ => 1 | .disabled => 2

def activityCode : Activity → Nat
  | .quiet => 0 | .settling => 1 | .discharging => 2 | .calInRun => 3

def stormCauseCode : StormCause → Nat
  | .window => 0 | .restart => 1

def stormCode : StormState → Nat
  | .normal => 0 | .storm => 1

def schedCode : SchedState → Nat
  | .stopped => 0 | .running => 1 | .held => 2

def sweepPhaseCode : SweepPhase → Nat
  | .inSweep => 0 | .between => 1

def operCode : OperState → Nat
  | .config => 0 | .operational => 1

def linkCode : LinkState → Nat
  | .up => 0 | .down => 1

/-- Numbers of the refusal reasons, 1 to 26 (section 11.5). -/
def reasonCode : Reason → Nat
  | .unknownKind => 1 | .notPermitted => 2 | .notConfigured => 3 | .badField => 4 | .queueFull => 5
  | .duplicate => 6 | .full => 7 | .lineHeld => 8 | .noBus => 9 | .shelfFull => 10 | .callActive => 11
  | .noExchange => 12 | .notEquipped => 13 | .notLockout => 14 | .notHolder => 15 | .wrongState => 16
  | .busy => 17 | .inUse => 18 | .noChannel => 19 | .emptyProgram => 20 | .badProgram => 21
  | .badConfig => 22 | .stale => 23 | .taken => 24 | .noSuch => 25 | .tooLate => 26

/-- A set of fault codes: code c adds 2^(c-1) (R185). -/
def codeSetByte (codes : List FaultCode) : List Byte :=
  u8 ((codes.map fun c => 2 ^ (faultNum c - 1)).foldl (· ||| ·) 0)

/-! ## Values inside records and notices -/

/-- A value with its unit, then the bias level of a resistance (ticket record, offsets 34 to 39). An absent value is
sent as unit 0; its four value bytes, 0x80000000, are a choice of the model (log 47). -/
def quantityBytes : Option Quantity → List Byte
  | none => u8 0 ++ voltageBytes none ++ enumOr none
  | some (.ohm r b) => u8 1 ++ u32 r ++ u8 (biasCode b)
  | some (.mvDc v) => u8 2 ++ i32 v ++ enumOr none
  | some (.mvRms v) => u8 3 ++ i32 v ++ enumOr none
  | some (.tenthNf c) => u8 4 ++ u32 c ++ enumOr none

/-- A fault code and its severity. -/
def foundBytes (f : FoundCode) : List Byte := u8 (faultNum f.code) ++ u8 (severityCode f.severity)

/-- The fields a notice carries after the lost count (R185), in the order of its owning rule (log 19); which of them a
cause leaves out is a choice of the model (log 41). The offset of a TRACE_DATA is sent modulo 65 536, another (log
58). -/
def noticeFields : Notice → List Byte
  | .connectDone b l m tag seq => u8 (busNum b) ++ u16 l ++ u8 (modeCode m) ++ u8 tag ++ u16 seq
  | .connectFailed r tag seq => u8 (connectReasonCode r) ++ u8 tag ++ u16 seq
  | .busState b st l r => u8 (busNum b) ++ u8 (busStateCode st) ++ u16Or 0xFFFF l ++ u8 (busReasonCode r)
  | .callAttempt b l c t => u8 (busNum b) ++ u16 l ++ u8 (attemptCode c) ++ stampBytes (some t)
  | .runDone h b l v a t codes =>
    u16 h ++ u8 (busNum b) ++ u16 l ++ u8 (verdictCode v) ++ enumOr (a.map abortCode) ++ stampBytes (some t)
      ++ listBytes foundBytes codes
  | .traceData h st o codes => u16 h ++ u8 st ++ u16 o ++ listBytes i16 codes
  | .testDone l v h c codes =>
    u16 l ++ u8 (verdictCode v) ++ u16Or 0 h ++ enumOr (c.map testCauseCode) ++ listBytes foundBytes codes
  | .ticketNew n l c sv o st w d t =>
    u16 n ++ u16 l ++ u8 (faultNum c) ++ u8 (severityCode sv) ++ u8 (originCode o) ++ flagByte st
      ++ quantityBytes w ++ u16Or 0xFFFF d ++ stampBytes (some t)
  | .ticketChange n l c st sv cause d t =>
    u16 n ++ u16 l ++ u8 (faultNum c) ++ u8 (ticketStateCode st) ++ u8 (severityCode sv)
      ++ u8 (ticketCauseCode cause)
      ++ enumOr (match cause with | .closed r => some (closeReasonCode r) | _ => none)
      ++ enumOr (d.map deskCode) ++ stampBytes (some t)
  | .stormState st c n t => u8 (stormCode st) ++ u8 (stormCauseCode c) ++ u16 n ++ stampBytes (some t)
  | .counterCarry g i t => u8 g ++ u8 i ++ stampBytes (some t)
  | .sweepDone n a b c =>
    u16 n ++ stampBytes a ++ stampBytes (some b) ++ u16 c.tested ++ u16 c.covered ++ u16 c.hardSkipped
      ++ u16 c.unequipped ++ u16 c.deferred ++ u16 c.missed
  | .sweepLate n a p => u16 n ++ stampBytes a ++ u16 p
  | .channel c st cause =>
    u8 (channelNum c) ++ u8 (channelStateCode st) ++ u8 (channelCauseCode cause)
      ++ (match cause with | .calFail g o => u8 (gainVal g) ++ i16 o | _ => [])
  | .restart t => stampBytes (some t)

/-- KIND values of the notices (section 12.4). -/
def noticeKind : Notice → Byte
  | .connectDone .. => 0x60 | .connectFailed .. => 0x61 | .busState .. => 0x62 | .callAttempt .. => 0x63
  | .runDone .. => 0x64 | .traceData .. => 0x65 | .testDone .. => 0x66 | .ticketNew .. => 0x67
  | .ticketChange .. => 0x68 | .stormState .. => 0x69 | .counterCarry .. => 0x6A | .sweepDone .. => 0x6B
  | .sweepLate .. => 0x6C | .channel .. => 0x6D | .restart .. => 0x6E

/-- Position of a broadcast kind in a subscription mask (R185); an addressed notice has none. -/
def broadcastIndex : Notice → Option Nat
  | .ticketNew .. => some 0 | .ticketChange .. => some 1 | .stormState .. => some 2 | .counterCarry .. => some 3
  | .sweepDone .. => some 4 | .sweepLate .. => some 5 | .channel .. => some 6 | .restart .. => some 7
  | .connectDone .. => none | .connectFailed .. => none | .busState .. => none | .callAttempt .. => none
  | .runDone .. => none | .traceData .. => none | .testDone .. => none

/-- The frame of a queued notice: tag 0, the payload begins with its lost count (R174, R185). -/
def noticeFrame (q : QueuedNotice) : List Byte :=
  frameBytes (noticeKind q.notice) 0 (u8 q.lost ++ noticeFields q.notice)

/-- The outcome byte of a reply, and the reason of a refusal (R185). -/
def outcomeBytes : ReplyOutcome → List Byte
  | .ok => [0] | .clamped => [1] | .accepted => [2] | .refused r => 4 :: u8 (reasonCode r)

/-- The frame of a reply (R185). -/
def replyFrame (r : Reply) : List Byte := frameBytes r.kind r.tag (outcomeBytes r.outcome ++ r.data)

/-! ## Records (section 12.3) -/

/-- The line record as LINE_GET returns it, 28 bytes, with its class-table entry (R10). -/
def lineRecordBytes (line : Nat) (r : LineRecord) (c : ClassEntry) : List Byte :=
  let access : List Byte :=
    match r.access with
    | .normal => u8 0 ++ u8 255 ++ u8 0
    | .split b m => u8 1 ++ u8 (busNum b) ++ u8 (match m with | .settled => 0 | .operating => 1 | .releasing => 2)
    | .bridge b m => u8 2 ++ u8 (busNum b) ++ u8 (match m with | .settled => 0 | .operating => 1 | .releasing => 2)
  u16 line ++ u8 (line / 64) ++ u8 (line % 64) ++ flagByte r.equipped ++ u8 r.cls ++ u8 (callCode r.call)
    ++ access ++ flagByte r.hazard ++ codeSetByte r.openCodes ++ flagByte r.unticketed
    ++ u16Or 0xFFFF r.covered ++ u16Or 0xFFFF r.missed ++ flagByte c.priority ++ u8 c.program
    ++ u16Or 0 (r.last.map (·.handle)) ++ stampBytes (r.last.map (·.time))
    ++ enumOr (r.last.map fun x => verdictCode x.verdict) ++ enumOr (r.last.map fun x => originCode x.origin)

/-- The hold timer as BUS_GET reports it: whole seconds rounded up, 0xFFFE stopped, 0xFFFF none (R31, R41). -/
def holdField : HoldTimer → Nat
  | .absent => 0xFFFF
  | .stopped => 0xFFFE
  | .running ms => (ms + 999) / 1000

/-- The bus record, 19 bytes (R41). A shelf point of none is sent as 0xFF, a choice of the model (log 46). -/
def busRecordBytes (b : Bus) (r : BusRecord) : List Byte :=
  u8 (busNum b) ++ u8 (busStateCode r.state) ++ enumOr (r.holder.map originCode) ++ u16Or 0xFFFF r.line
    ++ enumOr (r.mode.map modeCode) ++ flagByte r.guard ++ enumOr r.point ++ u16 (holdField r.hold)
    ++ u16 r.tone.divider ++ u8 r.tone.on ++ u8 r.tone.off ++ u16 r.tone.limit ++ u16Or 0 r.run
    ++ enumOr (r.reason.map releaseCode)

/-- The ticket record, 45 bytes (R159). -/
def ticketBytes (t : Ticket) : List Byte :=
  u16 t.number ++ u16 t.line ++ u8 (faultNum t.code) ++ u8 (severityCode t.severity) ++ u8 (originCode t.origin)
    ++ u8 (ticketStateCode t.state) ++ enumOr (t.assignee.map deskCode) ++ enumOr (t.clearedBy.map deskCode)
    ++ stampBytes (some t.firstSeen) ++ stampBytes (some t.lastSeen) ++ stampBytes t.clearedTime
    ++ stampBytes t.closeTime ++ enumOr (t.closeReason.map closeReasonCode) ++ u8 t.repeats ++ u8 t.reopens
    ++ u8 t.notFound ++ quantityBytes t.worst ++ u16Or 0xFFFF t.distance ++ u16Or 0 t.handle ++ flagByte t.storm

/-- One entry of a TICKET_LIST reply: number, line, code, severity, state, assignee (R159). -/
def ticketEntryBytes (t : Ticket) : List Byte :=
  u16 t.number ++ u16 t.line ++ u8 (faultNum t.code) ++ u8 (severityCode t.severity)
    ++ u8 (ticketStateCode t.state) ++ enumOr (t.assignee.map deskCode)

/-- The channel record as CHANNEL_GET returns it, fields in the order of R93; that 0xFF stands for no bus is a choice
of the model (log 46). -/
def channelRecordBytes (c : ChannelRecord) : List Byte :=
  u8 (channelStateCode c.state) ++ flagByte c.enable ++ flagByte c.disablePending
    ++ i16 c.offsets.g1 ++ i16 c.offsets.g4 ++ i16 c.offsets.g16 ++ i16 c.offsets.g64
    ++ stampBytes c.calTime ++ u32 ((c.calAge.map (· / 1000)).getD 0xFFFFFFFF)
    ++ u16Or 0 c.run ++ enumOr (c.bus.map busNum) ++ enumOr (c.pair.map pairCode) ++ u8 (biasCode c.bias)
    ++ u8 (rangeCode c.range) ++ u8 (gainVal c.gain) ++ u8 (activityCode c.activity) ++ u32 c.written.toNat

/-- One FV value: status 0 OK, 1 CLIP, 0xFF not read, then DC and AC. -/
def fvValueBytes : Option FvValue → List Byte
  | some v => flagByte v.clipped ++ i32 v.dc ++ i32 v.ac
  | none => u8 255 ++ voltageBytes none ++ voltageBytes none

/-- The 28 bytes of values of a step result (R186). -/
def stepValueBytes : StepValues → List Byte
  | .fv tg rg tr => fvValueBytes tg ++ fvValueBytes rg ++ fvValueBytes tr ++ u8 0
  | .res r vf vx q =>
    u32 (r.getD 0xFFFFFFFF) ++ voltageBytes vf ++ voltageBytes vx ++ i16 (q.getD (-32768)) ++ List.replicate 14 0
  | .cap c v0 vfin target k tau =>
    u16Or 0xFFFF c ++ voltageBytes v0 ++ voltageBytes vfin ++ voltageBytes target ++ u16Or 0xFFFF k
      ++ u16Or 0xFFFF tau ++ List.replicate 10 0
  | .wait => List.replicate 28 0

/-- One finding of a step result: the code, then severity x 16 + pair (R186). An empty entry is sent as code 0; its
second byte, 0, is a choice of the model (log 62). -/
def stepFindingBytes : Option StepFinding → List Byte
  | some f => u8 (faultNum f.code) ++ u8 (severityCode f.severity * 16 + (f.pair.map pairCode).getD 15)
  | none => u8 0 ++ u8 0

/-- A step result, 49 bytes (R186). -/
def stepResultBytes (r : StepResult) : List Byte :=
  u8 (stepKindCode r.kind) ++ enumOr (r.pair.map pairCode) ++ u8 (statusCode r.status)
    ++ enumOr (r.bias.map biasCode) ++ enumOr (r.range.map rangeCode) ++ enumOr (r.gain.map gainVal)
    ++ u32 r.trace.first.toNat ++ u24 r.trace.length
    ++ stepFindingBytes r.findings[0]? ++ stepFindingBytes r.findings[1]? ++ stepFindingBytes r.findings[2]?
    ++ u16Or 0xFFFF r.distance ++ stepValueBytes r.values

/-- How many step results a RESULT_GET reply carries (R186). -/
def stepsCarried (count first : Nat) : Nat := min 4 (count - first)

/-- The record header and at most 4 step results from the first step asked for (R186). -/
def resultBytes (r : ResultRecord) (first : Nat) : List Byte :=
  u16 r.handle ++ u16 r.line ++ u8 r.cls ++ u8 (originCode r.origin) ++ u8 r.program ++ flagByte r.ticketing
    ++ u8 (verdictCode r.verdict) ++ stampBytes (some r.start) ++ stampBytes (some r.finish)
    ++ enumOr (r.abort.map abortCode) ++ enumOr (r.channel.map channelNum)
    ++ u8 r.steps.length ++ u8 first ++ u8 (stepsCarried r.steps.length first)
    ++ (((r.steps.drop first).take 4).map stepResultBytes).flatten

/-- A program step as CONFIG_PROGRAM carries it, 6 bytes (12.4); that a reply sends 0 in the fields a kind does not use
is a choice of the model (log 54). -/
def programStepBytes : ProgramStep → List Byte
  | .fv n => u8 0 ++ u8 0 ++ u8 0 ++ u8 0 ++ u16 n
  | .res p b r n => u8 1 ++ u8 (pairCode p) ++ u8 (biasCode b) ++ u8 (rangeCode r) ++ u16 n
  | .cap b n => u8 2 ++ u8 0 ++ u8 (biasCode b) ++ u8 0 ++ u16 n
  | .wait ms => u8 3 ++ u8 0 ++ u8 0 ++ u8 0 ++ u16 ms

/-- A class-table entry in the order of the table of R11 (12.4). -/
def classEntryBytes (e : ClassEntry) : List Byte :=
  flagByte e.priority ++ u8 e.program ++ u8 e.capPerKm ++ u32 e.dcSoft ++ u32 e.dcHazard ++ u32 e.acSoft
    ++ u32 e.acHazard ++ u32 e.trHard ++ u32 e.trSoft ++ u32 e.tgHard ++ u32 e.tgSoft ++ u32 e.rgHard
    ++ u32 e.rgSoft ++ u16 e.openMin ++ u16 e.capMax

end Sys2Proof.Machine
end

