-- ==== Sys2Proof/Machine/Arithmetic.lean ====
section
/-! DEFINITION. The measurement arithmetic of chapter 6 (R94 to R110): from raw codes to voltages, resistances,
capacitances and distances, exact in whole numbers, with the rounding each rule states. -/

namespace Sys2Proof.Machine

/-! ## Rounding and limits -/

/-- Division rounded half away from zero (4.3), for a divisor above 0. -/
def roundDiv (a : Int) (b : Nat) : Int :=
  if a < 0 then -(((2 * a.natAbs + b) / (2 * b) : Nat) : Int) else (((2 * a.natAbs + b) / (2 * b) : Nat) : Int)

/-- A value brought into lo to hi (4.3). -/
def clampInt (lo hi v : Int) : Int := if v < lo then lo else if hi < v then hi else v

/-- A value brought into lo to hi (4.3). -/
def clampNat (lo hi v : Nat) : Nat := if v < lo then lo else if hi < v then hi else v

/-- One bit of the integer square root: the bit is kept when the square still fits. -/
def sqrtBit (n acc bit : Nat) : Nat := if (acc + bit) * (acc + bit) ≤ n then acc + bit else acc

/-- Integer square root from the bits 2^k-1 down to 2^0. -/
def sqrtFrom : Nat → Nat → Nat → Nat
  | 0, _, acc => acc
  | k + 1, n, acc => sqrtFrom k n (sqrtBit n acc (2 ^ k))

/-- The integer square root, rounded down, of a number below 2^40 (R99 takes it of one below 2^32). -/
def isqrt (n : Nat) : Nat := sqrtFrom 20 n 0

/-! ## From sample to pass (R94, R95) -/

/-- Largest and smallest converter codes (R87). -/
def clipHigh : Int := 32767

def clipLow : Int := -32768

/-- An input at or beyond the full scale gives a clip code (R87). -/
def converterCode (v : Int) : Int := clampInt clipLow clipHigh v

/-- A raw sample at a clip code (R94). -/
def isClip (r : Int) : Bool := r = clipLow || r = clipHigh

/-- The corrected code (R94). -/
def corrected (offset r : Int) : Int := clampInt clipLow clipHigh (r - offset)

/-- The offset of a gain in the offset table. -/
def Offsets.at (o : Offsets) : Gain → Int
  | .g1 => o.g1 | .g4 => o.g4 | .g16 => o.g16 | .g64 => o.g64

/-- What a pass hands to its reading (R95). -/
structure Pass where
  gain : Gain
  mean : Int
  clipped : Bool
  codes : List Int
deriving DecidableEq, Repr

/-- A pass at a gain over its 2 + n raw samples, oldest first: 2 discarded, n corrected and averaged (R95). -/
def passOf (gain : Gain) (offset : Int) (n : Nat) (raw : List Int) : Pass :=
  let used := (raw.drop 2).take n
  let codes := used.map (corrected offset)
  { gain := gain, mean := roundDiv codes.sum n, clipped := used.any isClip, codes := codes }

/-! ## Voltage readings (R96 to R99) -/

def Gain.up : Gain → Gain
  | .g1 => .g4 | .g4 => .g16 | .g16 => .g64 | .g64 => .g64

def Gain.down : Gain → Gain
  | .g1 => .g1 | .g4 => .g1 | .g16 => .g4 | .g64 => .g16

/-- The gain of the next pass, or none when the pass stands; `changes` gain changes have been made (R96). -/
def nextGain (changes : Nat) (p : Pass) : Option Gain :=
  if 3 ≤ changes then none
  else if p.clipped ∧ p.gain ≠ .g1 then some p.gain.down
  else if ¬ p.clipped ∧ 4 * p.mean.natAbs ≤ 24576 ∧ p.gain ≠ .g64 then some p.gain.up
  else none

/-- A code at a gain in millivolts at the pair (R98). -/
def millivolts (gain : Gain) (m : Int) : Int := roundDiv (m * 125000) (32768 * gainVal gain)

/-- The value of a standing pass (R97). -/
def readingValue (p : Pass) : Int :=
  if p.clipped then (if 0 ≤ p.mean then 125000 else -125000) else millivolts p.gain p.mean

/-- The AC value of a standing pass (R99). -/
def acValue (p : Pass) (n : Nat) : Int :=
  if p.clipped then 125000
  else
    let squares := (p.codes.map fun c => ((c - p.mean) * (c - p.mean)).toNat).sum
    millivolts p.gain (isqrt (squares / n))

/-! ## Resistance (R101 to R104) -/

/-- Voltage of a bias level in mV (R86). -/
def biasMv : Bias → Int
  | .off => 0 | .b1 => 10000 | .b2 => 48000 | .b3 => 100000

/-- Source range resistor in ohm (R86). -/
def rangeOhm : SourceRange → Nat
  | .ra => 1000 | .rb => 100000 | .rc => 10000000

/-- The bias cannot dominate the foreign voltage (R101). -/
def invalidFv (clipped : Bool) (vf : Int) (b : Bias) : Bool := clipped || decide (biasMv b - vf < biasMv b / 2)

/-- The ratio q in per-mille (R102). -/
def ratio (vx vf : Int) (b : Bias) : Int := roundDiv (1000 * (vx - vf)) (biasMv b - vf).toNat

/-- The range a ratio asks for, or none when the reading stands by its ratio (R103). -/
def nextRange (q : Int) : SourceRange → Option SourceRange
  | .ra => if 900 < q then some .rb else none
  | .rb => if 900 < q then some .rc else if q < 100 then some .ra else none
  | .rc => if q < 100 then some .rb else none

/-- The resistance and its status (R104). -/
def resistance (vx vf : Int) (b : Bias) (range : SourceRange) : Nat × StepStatus :=
  let q := ratio vx vf b
  let top := biasMv b - vx
  if top ≤ 0 then (Config.openMarker, .opened)
  else if vx - vf ≤ 0 then (0, .edge)
  else
    let r := (rangeOhm range * (vx - vf).toNat + top.toNat / 2) / top.toNat
    if Config.openMarker < r then (Config.openMarker, .opened)
    else if q < 100 ∨ 900 < q then (r, .edge)
    else (r, .ok)

/-! ## Capacitance (R106 to R109) -/

/-- The capture gain of a bias level (R106). -/
def captureGain : Bias → Gain
  | .b1 => .g4 | .off => .g1 | .b2 => .g1 | .b3 => .g1

/-- The captured samples in mV, oldest first (R107). -/
def captureMv (gain : Gain) (offset : Int) (raw : List Int) : List Int :=
  raw.map fun r => millivolts gain (corrected offset r)

/-- The target voltage (R107). -/
def capTarget (v0 vfin : Int) : Int := v0 + roundDiv ((vfin - v0) * 632) 1000

/-- The lowest index at or above the target (R108). -/
def crossing (v : List Int) (target : Int) : Option Nat := v.findIdx? fun x => target ≤ x

/-- The time constant for a crossing at k (R108). -/
def tauOf (v : List Int) (target : Int) (k : Nat) : Nat :=
  let below := v.getD (k - 1) 0
  let above := v.getD k 0
  50 * (k - 1) + (roundDiv (50 * (target - below)) (above - below).toNat).toNat

/-- Capacitance in tenths of a nF from a time constant on range RB (R108). -/
def capOfTau (tau : Nat) : Nat := min 4096 (roundDiv (tau * 10000) (rangeOhm .rb)).toNat

/-- The crossing that a capacitance can be computed from: an index of 1 to 819 (R108). -/
def usable (k : Option Nat) : Option Nat := k.filter fun i => 1 ≤ i ∧ i ≤ 819

/-- The capacitance by the search (R108). -/
def capacitance (v : List Int) (target : Int) : Nat :=
  let k := crossing v target
  if k = some 0 then 0
  else
    match usable k with
    | some i => capOfTau (tauOf v target i)
    | none => 4096

/-- The status of a CAP step, first row that applies (R109). -/
def capStatus (clipped : Bool) (vfin : Int) (b : Bias) (k : Option Nat) : StepStatus :=
  if clipped then .clip
  else if 1000 * vfin < 900 * biasMv b then .leaky
  else if k = some 0 then .under
  else if usable k = none then .over
  else .ok

/-- The values and the status a CAP step records, from its raw capture, oldest first, and Vfin (R107 to R109). -/
def capResult (b : Bias) (offset : Int) (raw : List Int) (vfin : Int) (vfinClipped : Bool) :
    StepValues × StepStatus × Nat :=
  let v := captureMv (captureGain b) offset raw
  let v0 := v.getD 0 0
  let target := capTarget v0 vfin
  let k := crossing v target
  let status := capStatus (raw.any isClip || vfinClipped) vfin b k
  let c := if status = .clip then 0 else capacitance v target
  (.cap (some c) (some v0) (some vfin) (some target) k ((usable k).map (tauOf v target)), status, c)

/-! ## Distance (R110) -/

/-- The distance to an open in metres. -/
def openDistance (c capPerKm : Nat) : Nat := min 65535 (roundDiv (c * 100) capPerKm).toNat

/-! ## Calibration (R79) -/

/-- The offset of a gain from its 66 calibration samples, oldest first. -/
def calOffset (raw : List Int) : Int := roundDiv ((raw.drop 2).take 64).sum 64

/-- A calibration fails when the magnitude of an offset is above 2048 codes. -/
def offsetFails (o : Int) : Bool := 2048 < o.natAbs

/-- The lowest-numbered gain whose offset failed, with that offset (R80). -/
def failedGain (o : Offsets) : Option (Gain × Int) :=
  if offsetFails o.g1 then some (.g1, o.g1)
  else if offsetFails o.g4 then some (.g4, o.g4)
  else if offsetFails o.g16 then some (.g16, o.g16)
  else if offsetFails o.g64 then some (.g64, o.g64)
  else none

end Sys2Proof.Machine
end

