-- ==== Sys2Proof/Machine/Operands.lean ====
section
/-! DEFINITION. Operands of the requests: kinds, payload lengths, roles, and the reading and bounding of the
payload fields (R111, R112, R175, R177 to R180, section 12.4). -/

namespace Sys2Proof.Machine

/-! ## Ports and desks -/

/-- The port of a desk. -/
def deskPort : Desk → Port
  | .d1 => .p1 | .d2 => .p2 | .d3 => .p3 | .d4 => .p4

/-- The desk of a port; P0 has none. -/
def portDesk : Port → Option Desk
  | .p0 => none | .p1 => some .d1 | .p2 => some .d2 | .p3 => some .d3 | .p4 => some .d4

/-- The supervisor desk of a SUPSEL strap value (R177). -/
def strapDesk (strap : BitVec 2) : Desk :=
  if strap = 0 then .d1 else if strap = 1 then .d2 else if strap = 2 then .d3 else .d4

/-! ## Request kinds (section 12.4) -/

/-- KIND value of a request. -/
def kindCode : RequestKind → Byte
  | .callState => 0x01 | .seize => 0x02 | .testRequest => 0x03 | .timeSet => 0x04
  | .connect => 0x10 | .release => 0x11 | .setMode => 0x12 | .renew => 0x13 | .run => 0x14 | .cancelRun => 0x15
  | .trace => 0x16
  | .ticketTake => 0x20 | .ticketDrop => 0x21 | .ticketClear => 0x22 | .ticketClose => 0x23 | .ticketList => 0x24
  | .ticketGet => 0x25 | .ticketPurge => 0x26
  | .lineGet => 0x30 | .statusGet => 0x31 | .busGet => 0x32 | .channelGet => 0x33 | .resultGet => 0x34
  | .countersGet => 0x35 | .subscribe => 0x36
  | .configLines => 0x40 | .configClass => 0x41 | .configProgram => 0x42 | .configPriority => 0x43
  | .configRoutine => 0x44 | .configStorm => 0x45 | .configTimes => 0x46 | .channelSet => 0x47
  | .configCommit => 0x48 | .routineStart => 0x49 | .routineStop => 0x4A | .restart => 0x4B
  | .countersClear => 0x4C

/-- All request kinds. -/
def allKinds : List RequestKind :=
  [.callState, .seize, .testRequest, .timeSet, .connect, .release, .setMode, .renew, .run, .cancelRun, .trace,
   .ticketTake, .ticketDrop, .ticketClear, .ticketClose, .ticketList, .ticketGet, .ticketPurge, .lineGet,
   .statusGet, .busGet, .channelGet, .resultGet, .countersGet, .subscribe, .configLines, .configClass,
   .configProgram, .configPriority, .configRoutine, .configStorm, .configTimes, .channelSet, .configCommit,
   .routineStart, .routineStop, .restart, .countersClear]

/-- The request kind of a KIND byte; none for any other KIND, reply and notice kinds among them (R174). -/
def kindOf (b : Byte) : Option RequestKind := allKinds.find? fun k => kindCode k = b

/-- KIND of the reply to a frame of a KIND (12.4); the sum of an unknown KIND of 0x80 or more is no byte (log
16). -/
def replyKind (b : Byte) : Byte := if b.toNat < 128 then b + 0x80 else Config.replyKindBeyond b

/-- The payload has the length section 12.4 gives for the kind. -/
def lengthOk (k : RequestKind) (payload : List Byte) : Bool :=
  let n := payload.length
  match k with
  | .callState => n = 3
  | .seize => n = 2
  | .testRequest => n = 2
  | .timeSet => n = 5
  | .connect => n = 5
  | .release => n = 1
  | .setMode => n = 8
  | .renew => n = 1
  | .run => n = 3
  | .cancelRun => n = 2
  | .trace => n = 7
  | .ticketTake => n = 2
  | .ticketDrop => n = 2
  | .ticketClear => n = 2
  | .ticketClose => n = 2
  | .ticketList => n = 6
  | .ticketGet => n = 2
  | .ticketPurge => n = 0
  | .lineGet => n = 2
  | .statusGet => n = 0
  | .busGet => n = 1
  | .channelGet => n = 1
  | .resultGet => n = 2 ∨ n = 3
  | .countersGet => n = 1
  | .subscribe => n = 1
  | .configLines => n = 6
  | .configClass => n = 48
  | .configProgram => 2 ≤ n ∧ n = 2 + 6 * (payload.getD 1 0).toNat
  | .configPriority => n = 7
  | .configRoutine => n = 6
  | .configStorm => n = 5
  | .configTimes => n = 10
  | .channelSet => n = 2
  | .configCommit => n = 0
  | .routineStart => n = 0
  | .routineStop => n = 0
  | .restart => n = 0
  | .countersClear => n = 1 ∨ n = 5

/-- The roles that may send a kind (R177). -/
inductive KindRole where
  | exchangeOnly | both | deskOnly | supervisorOnly
deriving DecidableEq, Repr

/-- The table of R177. -/
def kindRole : RequestKind → KindRole
  | .callState => .exchangeOnly | .seize => .exchangeOnly | .testRequest => .exchangeOnly
  | .timeSet => .exchangeOnly
  | .lineGet => .both | .statusGet => .both
  | .connect => .deskOnly | .release => .deskOnly | .setMode => .deskOnly | .renew => .deskOnly | .run => .deskOnly
  | .cancelRun => .deskOnly | .trace => .deskOnly | .ticketTake => .deskOnly | .ticketDrop => .deskOnly
  | .ticketClear => .deskOnly | .ticketClose => .deskOnly | .ticketList => .deskOnly | .ticketGet => .deskOnly
  | .busGet => .deskOnly | .channelGet => .deskOnly | .resultGet => .deskOnly | .countersGet => .deskOnly
  | .subscribe => .deskOnly
  | .ticketPurge => .supervisorOnly | .configLines => .supervisorOnly | .configClass => .supervisorOnly
  | .configProgram => .supervisorOnly | .configPriority => .supervisorOnly | .configRoutine => .supervisorOnly
  | .configStorm => .supervisorOnly | .configTimes => .supervisorOnly | .channelSet => .supervisorOnly
  | .configCommit => .supervisorOnly | .routineStart => .supervisorOnly | .routineStop => .supervisorOnly
  | .restart => .supervisorOnly | .countersClear => .supervisorOnly

/-- The kind is within the sender's role (R177). -/
def roleAllows (supervisor : Desk) (p : Port) (k : RequestKind) : Bool :=
  match kindRole k with
  | .exchangeOnly => p = .p0
  | .both => true
  | .deskOnly => p ≠ .p0
  | .supervisorOnly => p = deskPort supervisor

/-- The kind is taken from the port in CONFIG (R179). -/
def configAllows (supervisor : Desk) (p : Port) (k : RequestKind) : Bool :=
  match p with
  | .p0 =>
    match k with
    | .callState => true | .seize => true | .timeSet => true | .statusGet => true
    | _ => false
  | _ =>
    p = deskPort supervisor &&
      match k with
      | .configLines => true | .configClass => true | .configProgram => true | .configPriority => true
      | .configRoutine => true | .configStorm => true | .configTimes => true | .channelSet => true
      | .configCommit => true | .countersClear => true | .lineGet => true | .busGet => true | .channelGet => true
      | .countersGet => true | .subscribe => true | .statusGet => true
      | _ => false

/-! ## Payload fields (R185) -/

/-- A number from its bytes, most significant first. -/
def beNat (bytes : List Byte) : Nat := bytes.foldl (fun a b => a * 256 + b.toNat) 0

/-- The unsigned field of `len` bytes at `off`. -/
def field (payload : List Byte) (off len : Nat) : Nat := beNat ((payload.drop off).take len)

def busOf : Nat → Option Bus
  | 0 => some .b0 | 1 => some .b1 | 2 => some .b2 | 3 => some .b3 | _ => none

def channelOf : Nat → Option Channel
  | 0 => some .mc0 | 1 => some .mc1 | _ => none

def flagOf : Nat → Option Bool
  | 0 => some false | 1 => some true | _ => none

def callOf : Nat → Option CallState
  | 0 => some .idle | 1 => some .busy | 2 => some .ringing | 3 => some .lockout | _ => none

def modeOf : Nat → Option Mode
  | 0 => some .split | 1 => some .bridge | _ => none

/-- The mode field of SET_MODE: HELD, TALK, TONE (log 19). -/
def setModeOf : Nat → Option BusState
  | 0 => some .held | 1 => some .talk | 2 => some .tone | _ => none

def faultOf : Nat → Option FaultCode
  | 1 => some .foreignV | 2 => some .loopLow | 3 => some .earthT | 4 => some .earthR | 5 => some .openLine
  | 6 => some .capHigh | 7 => some .accessFail | _ => none

/-- All fault codes, in number. -/
def allCodes : List FaultCode := [.foreignV, .loopLow, .earthT, .earthR, .openLine, .capHigh, .accessFail]

def pairOf : Nat → Option Pair
  | 0 => some .tr | 1 => some .tg | 2 => some .rg | _ => none

/-- A bias level of a program step: B1, B2 or B3 (R111). -/
def biasOf : Nat → Option Bias
  | 1 => some .b1 | 2 => some .b2 | 3 => some .b3 | _ => none

def rangeOf : Nat → Option SourceRange
  | 0 => some .ra | 1 => some .rb | 2 => some .rc | _ => none

/-! ## Programs (R111, R112) -/

/-- An N as the table holds it: raised to the next value of the set, at most 1024. -/
def raiseN (n : Nat) : Nat := if n ≤ 16 then 16 else if n ≤ 64 then 64 else if n ≤ 256 then 256 else 1024

/-- A step as it is stored: N raised, a WAIT clamped to 10 to 5000 ms. -/
def boundStep : ProgramStep → ProgramStep
  | .fv n => .fv (raiseN n)
  | .res p b r n => .res p b r (raiseN n)
  | .cap b n => .cap b (raiseN n)
  | .wait ms => .wait (clampNat 10 5000 ms)

/-- A step from its six bytes; fields that its kind does not use are ignored (12.4). -/
def stepOf (bytes : List Byte) : Option ProgramStep :=
  let v := field bytes 4 2
  match field bytes 0 1 with
  | 0 => some (.fv v)
  | 1 =>
    match pairOf (field bytes 1 1), biasOf (field bytes 2 1), rangeOf (field bytes 3 1) with
    | some p, some b, some r => some (.res p b r v)
    | _, _, _ => none
  | 2 => (biasOf (field bytes 2 1)).map fun b => .cap b v
  | 3 => some (.wait v)
  | _ => none

/-- The first `count` steps of a step list; none when one of them is malformed. -/
def stepsOf : Nat → List Byte → Option (List ProgramStep)
  | 0, _ => some []
  | n + 1, bytes =>
    match stepOf (bytes.take 6), stepsOf n (bytes.drop 6) with
    | some s, some rest => some (s :: rest)
    | _, _ => none

/-- The list is empty or begins with an FV step (R112). -/
def beginsWithFv : List ProgramStep → Bool
  | [] => true
  | .fv _ :: _ => true
  | _ => false

def stepKind : ProgramStep → StepKind
  | .fv _ => .fv | .res .. => .res | .cap .. => .cap | .wait _ => .wait

/-- The pair of a step as its result records it: none for CAP and WAIT, and for FV, whose values are given per
pair (R126). -/
def stepPair : ProgramStep → Option Pair
  | .res p .. => some p
  | .fv _ => none | .cap .. => none | .wait _ => none

/-- A step that applies a bias (R121). -/
def isBiasStep : ProgramStep → Bool
  | .res .. => true | .cap .. => true | .fv _ => false | .wait _ => false

/-- The N of a step. -/
def stepN : ProgramStep → Nat
  | .fv n => n | .res _ _ _ n => n | .cap _ n => n | .wait _ => 16

/-! ## Classes (R11, R12) -/

/-- The class-table entry a CONFIG_CLASS payload carries, field by field in the order of R11, and its
priority-line field as sent. -/
def classEntryOf (p : List Byte) : ClassEntry :=
  { priority := field p 1 1 = 1, program := field p 2 1, capPerKm := field p 3 1,
    dcSoft := field p 4 4, dcHazard := field p 8 4, acSoft := field p 12 4, acHazard := field p 16 4,
    trHard := field p 20 4, trSoft := field p 24 4, tgHard := field p 28 4, tgSoft := field p 32 4,
    rgHard := field p 36 4, rgSoft := field p 40 4, openMin := field p 44 2, capMax := field p 46 2 }

/-- Every limit lies in its range (R12, check 2). -/
def ClassEntry.inRange (e : ClassEntry) : Bool :=
  decide (e.dcSoft ≤ 125000 ∧ e.dcHazard ≤ 125000 ∧ e.acSoft ≤ 125000 ∧ e.acHazard ≤ 125000 ∧
    e.trHard ≤ 999999999 ∧ e.trSoft ≤ 999999999 ∧ e.tgHard ≤ 999999999 ∧ e.tgSoft ≤ 999999999 ∧
    e.rgHard ≤ 999999999 ∧ e.rgSoft ≤ 999999999 ∧ e.openMin ≤ 4096 ∧ e.capMax ≤ 4096)

/-- The limits are consistent (R12, check 3). -/
def ClassEntry.consistent (e : ClassEntry) : Bool :=
  decide (e.trHard ≤ e.trSoft ∧ e.tgHard ≤ e.tgSoft ∧ e.rgHard ≤ e.rgSoft ∧ e.dcSoft ≤ e.dcHazard ∧
    e.acSoft ≤ e.acHazard ∧ e.openMin < e.capMax)

/-- The entry as written: its capacitance per km clamped (R12). -/
def ClassEntry.bound (e : ClassEntry) : ClassEntry := { e with capPerKm := clampNat 30 80 e.capPerKm }

/-! ## Tone parameters (R28), parameters of R46, R132, R162, R180 -/

/-- The tone limit as written: 0, or 10 to 1800. -/
def boundToneLimit (n : Nat) : Nat := if n = 0 then 0 else clampNat 10 1800 n

/-- The tone parameters as written: a cadence on of 0 with a cadence off above 0 becomes 1. -/
def ToneParams.bound (t : ToneParams) : ToneParams :=
  let on := clampNat 0 50 t.on
  let off := clampNat 0 50 t.off
  { divider := clampNat 250 1250 t.divider, on := if on = 0 ∧ 0 < off then 1 else on, off := off,
    limit := boundToneLimit t.limit }

/-- The tone parameters of a SET_MODE payload. -/
def toneOf (p : List Byte) : ToneParams :=
  { divider := field p 2 2, on := field p 4 1, off := field p 5 1, limit := field p 6 2 }

/-- The priorities of a CONFIG_PRIORITY payload, in the order of R46. -/
def prioritiesOf (p : List Byte) : Priorities :=
  { desk1 := field p 0 1, desk2 := field p 1 1, desk3 := field p 2 1, desk4 := field p 3 1,
    routine := field p 4 1, catchup := field p 5 1, lockout := field p 6 1 }

/-- The priorities as written: at most 7 each (R46). -/
def Priorities.bound (t : Priorities) : Priorities :=
  { desk1 := clampNat 0 7 t.desk1, desk2 := clampNat 0 7 t.desk2, desk3 := clampNat 0 7 t.desk3,
    desk4 := clampNat 0 7 t.desk4, routine := clampNat 0 7 t.routine, catchup := clampNat 0 7 t.catchup,
    lockout := clampNat 0 7 t.lockout }

/-- The seven values in order, one byte each. -/
def prioritiesBytes (t : Priorities) : List Byte :=
  u8 t.desk1 ++ u8 t.desk2 ++ u8 t.desk3 ++ u8 t.desk4 ++ u8 t.routine ++ u8 t.catchup ++ u8 t.lockout

/-- The parameters of a CONFIG_ROUTINE payload (R132). -/
def routineParamsOf (p : List Byte) : RoutineParams :=
  { rbl := field p 0 1, sr := field p 1 1, period := field p 2 2, lag := field p 4 1, retry := field p 5 1 }

/-- The parameters as written (R132). -/
def RoutineParams.bound (r : RoutineParams) : RoutineParams :=
  { rbl := clampNat 0 4 r.rbl, sr := clampNat 1 8 r.sr, period := clampNat 60 10080 r.period,
    lag := clampNat 1 50 r.lag, retry := clampNat 1 60 r.retry }

def routineParamsBytes (r : RoutineParams) : List Byte :=
  u8 r.rbl ++ u8 r.sr ++ u16 r.period ++ u8 r.lag ++ u8 r.retry

/-- The parameters of a CONFIG_STORM payload (R162). -/
def stormParamsOf (p : List Byte) : StormParams :=
  { window := field p 0 2, sIn := field p 2 1, sOut := field p 3 1, quiet := field p 4 1 }

/-- The parameters as written: S_in first, then S_out against the S_in as written (R162). -/
def StormParams.bound (t : StormParams) : StormParams :=
  let sIn := clampNat 2 255 t.sIn
  { window := clampNat 10 600 t.window, sIn := sIn, sOut := clampNat 0 (sIn - 1) t.sOut,
    quiet := clampNat 1 60 t.quiet }

def stormParamsBytes (t : StormParams) : List Byte := u16 t.window ++ u8 t.sIn ++ u8 t.sOut ++ u8 t.quiet

/-- The five values of CONFIG_TIMES (R180). -/
structure TimeParams where
  hold : Nat
  toneLimit : Nat
  settle1 : Nat
  settle2 : Nat
  settle3 : Nat
deriving DecidableEq, Repr

def timeParamsOf (p : List Byte) : TimeParams :=
  { hold := field p 0 2, toneLimit := field p 2 2, settle1 := field p 4 2, settle2 := field p 6 2,
    settle3 := field p 8 2 }

/-- The times as written (R180). -/
def TimeParams.bound (t : TimeParams) : TimeParams :=
  { hold := clampNat 30 600 t.hold, toneLimit := clampNat 10 1800 t.toneLimit,
    settle1 := clampNat 5 500 t.settle1, settle2 := clampNat 5 500 t.settle2, settle3 := clampNat 5 500 t.settle3 }

def timeParamsBytes (t : TimeParams) : List Byte :=
  u16 t.hold ++ u16 t.toneLimit ++ u16 t.settle1 ++ u16 t.settle2 ++ u16 t.settle3

end Sys2Proof.Machine
end

