-- ==== Sys2Proof/Machine/State.lean ====
section
/-! DEFINITION. The state of the part, block by block (section 3 of the introduction), the reasons a step can
stop, and the state after power reset. -/

namespace Sys2Proof.Machine

/-- Faults. The manual gives no command that stops the part, so there is none (INVENTORY.md, Faults). -/
inductive Fault where
deriving DecidableEq, Repr

/-- Refusals. -/
inductive Refusal where
  /-- Raised by `exec`'s arm of a command that has no meaning yet; no arm raises it. Safe: the machine stops. -/
  | notModelled (mnemonic : String)
deriving DecidableEq, Repr

/-- Line record table (chapter 1). -/
structure LineTable where
  lines : Table LineRecord
  classes : Table ClassEntry
deriving DecidableEq, Repr

/-- Access controller (chapter 2). Point k of shelf n is number 2n + k of `points`; times in seconds. -/
structure AccessController where
  buses : PerBus BusRecord
  points : Table (Option Bus)
  holdTime : Nat
  toneLimit : Nat
deriving DecidableEq, Repr

/-- Grant arbiter (chapter 3). `arbDue` is the model's own: an event of R47 has been taken in the present step
and the arbitration it starts is still to be made (log 7); so is `moment` (log 60). -/
structure GrantArbiter where
  queue : List QueueEntry
  nextSeq : Nat
  prio : Priorities
  ratio : Nat
  waiting : List WaitEntry
  arbDue : Bool
  moment : Moment
deriving DecidableEq, Repr

/-- Exchange coordinator (chapter 4); the exchange link state is the link state of port P0. -/
structure ExchangeCoordinator where
  seizes : List SeizeEntry
  time : Stamp
  subMs : Nat
  unset : Bool
deriving DecidableEq, Repr

/-- The measurement channels and the settle times in milliseconds (chapter 5). -/
structure MeasurementChannels where
  chans : PerChannel ChannelRecord
  settle1 : Nat
  settle2 : Nat
  settle3 : Nat
deriving DecidableEq, Repr

/-- Run sequencer (chapter 7). `history` holds the newest record last. -/
structure RunSequencer where
  contexts : PerBus (Option RunContext)
  programs : Table (List ProgramStep)
  nextHandle : Nat
  history : List ResultRecord
deriving DecidableEq, Repr

/-- Routine scheduler (chapter 8). -/
structure RoutineScheduler where
  state : SchedState
  phase : SweepPhase
  pointer : Nat
  number : Nat
  start : Option Stamp
  period : Option PeriodTimer
  late : Bool
  counts : SweepCounts
  lockout : List Nat
  deferred : List DeferredEntry
  held : Nat
  dispatch : PerBus (Option Dispatch)
  params : RoutineParams
deriving DecidableEq, Repr

/-- Ticket table and storm watch (chapter 9). `tickets` in rising number; `window` in milliseconds left. -/
structure TicketTable where
  tickets : List Ticket
  nextNumber : Nat
  verify : List Nat
  storm : StormState
  count : Nat
  quiet : Nat
  window : Option Nat
  params : StormParams
deriving DecidableEq, Repr

/-- Counter bank (chapter 10). -/
structure CounterBank where
  g0 : CounterGroup
  g1 : CounterGroup
  g2 : CounterGroup
  g3 : CounterGroup
  bins : Table Nat
deriving DecidableEq, Repr

/-- The state of the part. `pending` is the queue of commands that wait; `free` numbers the free choices taken
(log 8). -/
structure State where
  op : OperState
  supervisor : Desk
  lrt : LineTable
  acc : AccessController
  gar : GrantArbiter
  exc : ExchangeCoordinator
  mc : MeasurementChannels
  rsq : RunSequencer
  rts : RoutineScheduler
  tkt : TicketTable
  cnt : CounterBank
  ports : PerPort PortUnit
  pending : List Instr
  free : Nat
deriving DecidableEq, Repr

/-! ## Values at power reset -/

/-- A line record at power reset (R1). -/
def LineRecord.fresh : LineRecord :=
  { equipped := false, cls := 0, call := .idle, access := .normal, hazard := false, openCodes := [],
    unticketed := false, covered := none, missed := none, last := none }

/-- A class-table entry at power reset (R11). -/
def ClassEntry.default : ClassEntry :=
  { priority := false, program := 1, capPerKm := 50, dcSoft := 3000, dcHazard := 50000, acSoft := 3000,
    acHazard := 25000, trHard := 10000, trSoft := 150000, tgHard := 20000, tgSoft := 1000000, rgHard := 20000,
    rgSoft := 1000000, openMin := 200, capMax := 3000 }

/-- The programs at power reset (R111). -/
def defaultProgram : Nat → List ProgramStep
  | 0 => [.fv 64]
  | 1 => [.fv 64, .res .tr .b2 .rb 64, .res .tg .b3 .rc 64, .res .rg .b3 .rc 64, .cap .b1 64]
  | _ => []

/-- A bus record at power reset and at IDLE (R17). -/
def BusRecord.fresh : BusRecord :=
  { state := .idle, holder := none, line := none, mode := none, guard := false, point := none, hold := .absent,
    tone := { divider := 500, on := 10, off := 0, limit := 0 }, run := none, reason := none, tag := 0, seq := 0,
    program := none, lastLine := none, reached := false, relay := .atRest, audio := .disconnected,
    gen := { output := .removed, divider := none, cadence := .continuous, limitMs := none } }

/-- A channel record at power reset (R76). -/
def ChannelRecord.fresh : ChannelRecord :=
  { state := .off, enable := true, disablePending := false, offsets := { g1 := 0, g4 := 0, g16 := 0, g64 := 0 },
    calTime := none, calAge := none, run := none, bus := none, pair := none, bias := .off, range := .rc,
    gain := .g1, activity := .quiet, timer := 0, stage := 0, biasNext := none, cal := none, written := 0,
    ring := [] }

/-- A counter group of `n` counters at power reset: counts 0, carries clear, every position passing (R171). -/
def CounterGroup.fresh (n : Nat) : CounterGroup :=
  { counts := [], carries := 0, mask := BitVec.ofNat 32 (2 ^ n - 1) }

/-- The reset subscription mask of a desk port: TICKET_NEW, TICKET_CHANGE, STORM_STATE (R172). -/
def deskResetMask : Byte := 7

/-- A port unit at power reset, with its subscription mask (R172). -/
def PortUnit.fresh (mask : Byte) : PortUnit :=
  { link := .down, receiver := .hunt, requests := [], replies := [], notices := [], lost := 0, mask := mask,
    transfer := none, tx := .free }

/-- The part right after power reset, with the supervisor desk that the SUPSEL pins name (R171, R177) and the
number of free choices taken so far. -/
def State.powerOn (supervisor : Desk) (free : Nat) : State :=
  { op := .config
    supervisor := supervisor
    lrt := { lines := [], classes := [] }
    acc := { buses := ⟨.fresh, .fresh, .fresh, .fresh⟩, points := [], holdTime := 180, toneLimit := 600 }
    gar := { queue := [], nextSeq := 1,
             prio := { desk1 := 4, desk2 := 4, desk3 := 4, desk4 := 4, routine := 1, catchup := 3, lockout := 5 },
             ratio := 0, waiting := [], arbDue := false, moment := .apart }
    exc := { seizes := [], time := ⟨0, 0⟩, subMs := 0, unset := true }
    mc := { chans := ⟨.fresh, .fresh⟩, settle1 := 20, settle2 := 40, settle3 := 100 }
    rsq := { contexts := ⟨none, none, none, none⟩, programs := [], nextHandle := 1, history := [] }
    rts := { state := .stopped, phase := .between, pointer := 0, number := 0, start := none, period := none,
             late := false,
             counts := { tested := 0, covered := 0, hardSkipped := 0, unequipped := 0, deferred := 0, missed := 0 },
             lockout := [], deferred := [], held := 0, dispatch := ⟨none, none, none, none⟩,
             params := { rbl := 2, sr := 4, period := 1440, lag := 10, retry := 10 } }
    tkt := { tickets := [], nextNumber := 1, verify := [], storm := .normal, count := 0, quiet := 0, window := none,
             params := { window := 60, sIn := 24, sOut := 4, quiet := 5 } }
    cnt := { g0 := .fresh 28, g1 := .fresh 28, g2 := .fresh 13, g3 := .fresh 15, bins := [] }
    ports := ⟨.fresh 0, .fresh deskResetMask, .fresh deskResetMask, .fresh deskResetMask, .fresh deskResetMask⟩
    pending := []
    free := free }

/-- The machine right after reset: power applied with the strap naming P1 (log 6), no command waiting. -/
def State.reset : State := State.powerOn .d1 0

end Sys2Proof.Machine
end

