-- ==== Sys2Proof/Machine/Ops.lean ====
section
/-! DEFINITION. The operations every block uses: tables by number, the records of the state, time stamps,
shelves and held lines, replies and the transmitter. -/

namespace Sys2Proof.Machine

/-! ## Tables -/

/-- What a table holds under a number; an unlisted number reads as `d` gives. -/
def readTable {α : Type} (d : Nat → α) : Table α → Nat → α
  | [], k => d k
  | (j, v) :: t, k => if j = k then v else readTable d t k

/-- The table with the entry of a number replaced, made, or (`none`) taken out; numbers stay rising. -/
def putTable {α : Type} (k : Nat) (v : Option α) : Table α → Table α
  | [] => match v with | some v => [(k, v)] | none => []
  | (j, w) :: t =>
    if j < k then (j, w) :: putTable k v t
    else if j = k then (match v with | some v => (k, v) :: t | none => t)
    else (match v with | some v => (k, v) :: (j, w) :: t | none => (j, w) :: t)

/-- The table after a write; a value that an unlisted number reads as is not listed. -/
def writeTable {α : Type} [DecidableEq α] (d : Nat → α) (t : Table α) (k : Nat) (v : α) : Table α :=
  putTable k (if v = d k then none else some v) t

/-- The canonical form of a table: numbers strictly rising from `low`, no entry equal to what an unlisted number
reads as. -/
def Table.wfFrom {α : Type} [DecidableEq α] (d : Nat → α) : Nat → Table α → Bool
  | _, [] => true
  | low, (k, v) :: t => decide (low ≤ k) && decide (v ≠ d k) && Table.wfFrom d (k + 1) t

/-! ## Numbered things -/

def allBuses : List Bus := [.b0, .b1, .b2, .b3]

def allChannels : List Channel := [.mc0, .mc1]

def allPorts : List Port := [.p0, .p1, .p2, .p3, .p4]

def PerBus.get {α : Type} (t : PerBus α) : Bus → α
  | .b0 => t.b0 | .b1 => t.b1 | .b2 => t.b2 | .b3 => t.b3

def PerBus.set {α : Type} (t : PerBus α) (b : Bus) (v : α) : PerBus α :=
  match b with
  | .b0 => { t with b0 := v } | .b1 => { t with b1 := v } | .b2 => { t with b2 := v } | .b3 => { t with b3 := v }

def PerChannel.get {α : Type} (t : PerChannel α) : Channel → α
  | .mc0 => t.mc0 | .mc1 => t.mc1

def PerChannel.set {α : Type} (t : PerChannel α) (c : Channel) (v : α) : PerChannel α :=
  match c with
  | .mc0 => { t with mc0 := v } | .mc1 => { t with mc1 := v }

def PerPort.get {α : Type} (t : PerPort α) : Port → α
  | .p0 => t.p0 | .p1 => t.p1 | .p2 => t.p2 | .p3 => t.p3 | .p4 => t.p4

def PerPort.set {α : Type} (t : PerPort α) (p : Port) (v : α) : PerPort α :=
  match p with
  | .p0 => { t with p0 := v } | .p1 => { t with p1 := v } | .p2 => { t with p2 := v }
  | .p3 => { t with p3 := v } | .p4 => { t with p4 := v }

/-! ## Records of the state -/

def State.bus (s : State) (b : Bus) : BusRecord := s.acc.buses.get b

def State.setBus (s : State) (b : Bus) (r : BusRecord) : State :=
  { s with acc := { s.acc with buses := s.acc.buses.set b r } }

def State.chan (s : State) (c : Channel) : ChannelRecord := s.mc.chans.get c

def State.setChan (s : State) (c : Channel) (r : ChannelRecord) : State :=
  { s with mc := { s.mc with chans := s.mc.chans.set c r } }

def State.port (s : State) (p : Port) : PortUnit := s.ports.get p

def State.setPort (s : State) (p : Port) (u : PortUnit) : State := { s with ports := s.ports.set p u }

/-- The run context of a bus (R115). -/
def State.ctx (s : State) (b : Bus) : Option RunContext := s.rsq.contexts.get b

def State.setCtx (s : State) (b : Bus) (r : Option RunContext) : State :=
  { s with rsq := { s.rsq with contexts := s.rsq.contexts.set b r } }

/-- The record of a line (R1). -/
def State.line (s : State) (n : Nat) : LineRecord := readTable (fun _ => LineRecord.fresh) s.lrt.lines n

def State.setLine (s : State) (n : Nat) (r : LineRecord) : State :=
  { s with lrt := { s.lrt with lines := writeTable (fun _ => LineRecord.fresh) s.lrt.lines n r } }

def State.setCall (s : State) (n : Nat) (c : CallState) : State := s.setLine n { s.line n with call := c }

def State.setAccess (s : State) (n : Nat) (a : AccessState) : State := s.setLine n { s.line n with access := a }

/-- A class-table entry (R11). -/
def State.cls (s : State) (c : Nat) : ClassEntry := readTable (fun _ => ClassEntry.default) s.lrt.classes c

def State.setCls (s : State) (c : Nat) (e : ClassEntry) : State :=
  { s with lrt := { s.lrt with classes := writeTable (fun _ => ClassEntry.default) s.lrt.classes c e } }

/-- The class-table entry of a line's class (R3). -/
def State.lineClass (s : State) (n : Nat) : ClassEntry := s.cls (s.line n).cls

/-- A test program (R111). -/
def State.program (s : State) (p : Nat) : List ProgramStep := readTable defaultProgram s.rsq.programs p

def State.setProgram (s : State) (p : Nat) (steps : List ProgramStep) : State :=
  { s with rsq := { s.rsq with programs := writeTable defaultProgram s.rsq.programs p steps } }

/-- The bus on a shelf point (R19). -/
def State.point (s : State) (shelf k : Nat) : Option Bus := readTable (fun _ => none) s.acc.points (2 * shelf + k)

def State.setPoint (s : State) (shelf k : Nat) (v : Option Bus) : State :=
  { s with acc := { s.acc with points := writeTable (fun _ => none) s.acc.points (2 * shelf + k) v } }

/-- "Now" (4.4). -/
def State.now (s : State) : Stamp := s.exc.time

/-! ## Lines and shelves -/

/-- Lines are numbered 0 to 2047. -/
def isLine (n : Nat) : Bool := n < 2048

/-- The shelf of a line. -/
def shelfOf (line : Nat) : Nat := line / 64

/-- The bus that holds a line: a bus that is not IDLE and has it in its line field. -/
def State.heldBy (s : State) (line : Nat) : Option Bus :=
  allBuses.find? fun b => (s.bus b).state ≠ .idle && (s.bus b).line = some line

/-- The lower-numbered free access point of a shelf (R19). -/
def State.freePoint (s : State) (shelf : Nat) : Option Nat := [0, 1].find? fun k => s.point shelf k = none

/-- The lowest-numbered IDLE bus. -/
def State.idleBus (s : State) : Option Bus := allBuses.find? fun b => (s.bus b).state = .idle

/-- The desk holds the bus. -/
def BusRecord.heldByDesk (r : BusRecord) (d : Desk) : Bool := r.holder = some (.desk d)

/-- The holder is routine work of any sub-kind. -/
def BusRecord.isRoutine (r : BusRecord) : Bool :=
  match r.holder with
  | some (.routine _) => true
  | _ => false

/-! ## Time stamps (4.4, R73) -/

/-- Stamps compare by day, then by second. -/
def Stamp.before (a b : Stamp) : Bool := a.day < b.day || (a.day = b.day && a.sec < b.sec)

/-- A time a number of seconds later; day 65 535 is followed by day 0. -/
def Stamp.later (t : Stamp) (secs : Nat) : Stamp :=
  { day := (t.day + (t.sec + secs) / 86400) % 65536, sec := (t.sec + secs) % 86400 }

/-- The part's count of a further second (R73). -/
def Stamp.next (t : Stamp) : Stamp := t.later 1

/-! ## Replies and the transmitter (R175) -/

/-- A free transmitter takes the oldest reply if there is one, and otherwise the oldest notice. -/
def PortUnit.kick (u : PortUnit) : PortUnit :=
  match u.tx with
  | .free =>
    match u.replies with
    | r :: _ => { u with tx := .reply (replyFrame r) }
    | [] =>
      match u.notices with
      | q :: _ => { u with tx := .notice (noticeFrame q) }
      | [] => u
  | .reply _ => u
  | .notice _ => u

/-- The unit with a reply at the tail of its reply queue. -/
def PortUnit.withReply (u : PortUnit) (r : Reply) : PortUnit :=
  PortUnit.kick { u with replies := u.replies ++ [r] }

/-- A reply joins the reply queue of a port. -/
def State.reply (s : State) (p : Port) (r : Reply) : State := s.setPort p ((s.port p).withReply r)

/-- A request answered with an outcome and data. -/
def State.answer (s : State) (p : Port) (q : Request) (outcome : ReplyOutcome) (data : List Byte) : State :=
  s.reply p { kind := replyKind q.kind, tag := q.tag, outcome := outcome, data := data }

/-- A request refused without refusal data. -/
def State.refuse (s : State) (p : Port) (q : Request) (r : Reason) : State := s.answer p q (.refused r) []

/-- A request answered OK, marked CLAMPED where a quantity was clamped (R178). -/
def State.ok (s : State) (p : Port) (q : Request) (clamped : Bool) (data : List Byte) : State :=
  s.answer p q (if clamped then .clamped else .ok) data

/-! ## Offering a notice to one port (R176) -/

/-- A notice that is not TRACE_DATA, offered: it joins the tail with the lost count, or it is discarded and adds
to the lost count. -/
def PortUnit.offer (u : PortUnit) (n : Notice) : PortUnit × Bool :=
  if u.link = .up ∧ u.notices.length < 32 then
    (PortUnit.kick { u with notices := u.notices ++ [{ lost := u.lost, notice := n }], lost := 0 }, false)
  else ({ u with lost := min 255 (u.lost + 1) }, true)

/-- A broadcast kind is in a port's subscription mask; addressed notices are in none (R176). -/
def PortUnit.subscribes (u : PortUnit) (n : Notice) : Bool :=
  match broadcastIndex n with
  | some i => u.mask.getLsbD i
  | none => false

end Sys2Proof.Machine
end

