-- ==== Sys2Proof/Machine/Flags.lean ====
section
/-! DEFINITION. The counter bank: counts, carry flags and carry masks, distribution bins (R166 to R171), and with
them the offering of notices, since a lost notice is counted and a wrap sends a notice (R167, R176). -/

namespace Sys2Proof.Machine

/-! ## Event counters -/

/-- A count of a group. -/
def CounterGroup.count (g : CounterGroup) (i : Nat) : Nat := readTable (fun _ => 0) g.counts i

/-- An increase of a counter, and whether it sends COUNTER_CARRY (R167, R168). -/
def CounterGroup.bump (g : CounterGroup) (i : Nat) : CounterGroup × Bool :=
  if g.count i = 65535 then
    ({ g with counts := writeTable (fun _ => 0) g.counts i 0, carries := g.carries ||| (1 <<< i) },
     !g.carries.getLsbD i && g.mask.getLsbD i)
  else ({ g with counts := writeTable (fun _ => 0) g.counts i (g.count i + 1) }, false)

/-- Counters of a group (R166). -/
def groupSize : Nat → Nat
  | 0 => 28 | 1 => 28 | 2 => 13 | 3 => 15 | _ => 18

/-- The mask bits of a group's positions. -/
def groupMask (g : Nat) : Word32 := BitVec.ofNat 32 (2 ^ groupSize g - 1)

/-- A group of event counters; groups 0 to 3. -/
def CounterBank.group (c : CounterBank) : Nat → CounterGroup
  | 0 => c.g0 | 1 => c.g1 | 2 => c.g2 | _ => c.g3

def CounterBank.setGroup (c : CounterBank) (n : Nat) (g : CounterGroup) : CounterBank :=
  match n with
  | 0 => { c with g0 := g } | 1 => { c with g1 := g } | 2 => { c with g2 := g } | _ => { c with g3 := g }

/-- An increase of a counter of the bank. -/
def State.bump (s : State) (g i : Nat) : State × Bool :=
  let r := (s.cnt.group g).bump i
  ({ s with cnt := s.cnt.setGroup g r.1 }, r.2)

/-- Index of a port's lost-notice counter in group 3. -/
def lostIndex (p : Port) : Nat := portNum p * 3 + 2

/-- Offers a notice to a port, counting it there if it is lost (R176). -/
def offerWith (count : Nat → Nat → State → State) (n : Notice) (s : State) (p : Port) : State :=
  let r := (s.port p).offer n
  let s := s.setPort p r.1
  if r.2 then count 3 (lostIndex p) s else s

/-- Offers a broadcast notice to each port whose subscription mask holds its kind (R176), in port order; what is
counted at one port comes before the offer to the next, a choice of the model (log 51). -/
def broadcastWith (count : Nat → Nat → State → State) (n : Notice) (s : State) : State :=
  allPorts.foldl (fun s p => if (s.port p).subscribes n then offerWith count n s p else s) s

/-- An increase with its COUNTER_CARRY. A carry can be lost and so wrap a lost-notice counter, which carries
again; each carry sets a flag that was clear, and there are 5 such counters, so `fuel` 6 suffices (R167). -/
def countWith : Nat → Nat → Nat → State → State
  | 0, g, i, s => (s.bump g i).1
  | fuel + 1, g, i, s =>
    let r := s.bump g i
    if r.2 then broadcastWith (countWith fuel) (.counterCarry g i s.now) r.1 else r.1

/-- A counted event (R166). -/
def State.count (s : State) (g i : Nat) : State := countWith 6 g i s

/-- An addressed notice to a port (R176). -/
def State.notify (s : State) (p : Port) (n : Notice) : State := offerWith (countWith 6) n s p

/-- A notice to a desk. -/
def State.notifyDesk (s : State) (d : Desk) (n : Notice) : State := s.notify (deskPort d) n

/-- A broadcast notice (R176). -/
def State.broadcast (s : State) (n : Notice) : State := broadcastWith (countWith 6) n s

/-! ## Indices (R166) -/

/-- Disposals of a finding, counted in group 0. -/
inductive Disposal where
  | created | merged | suppressed | overflow
deriving DecidableEq, Repr

def findingIndex (c : FaultCode) (k : Disposal) : Nat :=
  (faultNum c - 1) * 4 + (match k with | .created => 0 | .merged => 1 | .suppressed => 2 | .overflow => 3)

def closeIndex (c : FaultCode) (r : CloseReason) : Nat := (faultNum c - 1) * 4 + closeReasonCode r

/-- Index of a run's end in group 2. -/
def runEndIndex (origin : Holder) (abort : Option AbortCause) : Nat :=
  match abort with
  | some c => 4 + abortCode c
  | none => match origin with | .desk _ => 0 | .routine .routine => 1 | .routine .verify => 2 | .routine .lockout => 3

def State.countFinding (s : State) (c : FaultCode) (k : Disposal) : State := s.count 0 (findingIndex c k)

def State.countBadFrame (s : State) (p : Port) : State := s.count 3 (portNum p * 3)

def State.countUnknownKind (s : State) (p : Port) : State := s.count 3 (portNum p * 3 + 1)

/-- A notice thrown out of a FIFO, or refused by one, counts on the port and in the bank (R176). -/
def State.countLost (s : State) (p : Port) : State :=
  (s.setPort p { s.port p with lost := min 255 ((s.port p).lost + 1) }).count 3 (lostIndex p)

/-! ## Distribution bins (R169) -/

/-- The bin of a resistance, 0 to 5. -/
def decadeBin (r : Nat) : Nat :=
  if r < 10000 then 0 else if r < 100000 then 1 else if r < 1000000 then 2 else if r < 10000000 then 3
  else if r < 100000000 then 4 else 5

/-- Adds 1 to the bin of a pair and value; a bin saturates at 65 535. -/
def State.addBin (s : State) (p : Pair) (r : Nat) : State :=
  let i := pairCode p * 6 + decadeBin r
  let n := readTable (fun _ => 0) s.cnt.bins i
  { s with cnt := { s.cnt with bins := writeTable (fun _ => 0) s.cnt.bins i (min 65535 (n + 1)) } }

/-! ## Reading and clearing (R170) -/

/-- The counts of a group in index order, 2 bytes each after a count byte, then for groups 0 to 3 the carry
flags, one byte each, and the carry mask (log 19). -/
def State.groupBytes (s : State) (g : Nat) : List Byte :=
  let ixs := List.range (groupSize g)
  if g = 4 then listBytes u16 (ixs.map fun i => readTable (fun _ => 0) s.cnt.bins i)
  else
    let grp := s.cnt.group g
    listBytes u16 (ixs.map grp.count) ++ (ixs.map fun i => flagByte (grp.carries.getLsbD i)).flatten
      ++ u32 grp.mask.toNat

/-- Every count 0 and every carry flag clear, with the mask written when one is carried (log 31). -/
def State.clearGroup (s : State) (g : Nat) (mask : Option Word32) : State :=
  if g = 4 then { s with cnt := { s.cnt with bins := [] } }
  else
    let grp := s.cnt.group g
    let m := match mask with | some m => m &&& groupMask g | none => grp.mask
    { s with cnt := s.cnt.setGroup g { counts := [], carries := 0, mask := m } }

end Sys2Proof.Machine
end

