-- ==== Sys2Proof/Machine/Requests.lean ====
section
/-! DEFINITION. Taking a request from the head of a port's request FIFO, and the checks every request meets
before its owning block (R175, R177, R179). -/

namespace Sys2Proof.Machine

/-- The first refusal of R175 steps 1 to 3: role, operating state, payload length. -/
def State.gate (s : State) (p : Port) (k : RequestKind) (q : Request) : Option Reason :=
  if ¬ roleAllows s.supervisor p k then some .notPermitted
  else if s.op = .config ∧ ¬ configAllows s.supervisor p k then some .notConfigured
  else if ¬ lengthOk k q.payload then some .badField
  else none

/-- The request at the head of a port's FIFO, where it is of a kind and passes a test. -/
def State.headRequest (s : State) (p : Port) (k : RequestKind) (test : Request → Bool) : Option Request :=
  match (s.port p).requests with
  | q :: _ => if kindOf q.kind = some k && test q then some q else none
  | [] => none

/-- The FIFO after its head has been handed on. -/
def State.popRequest (s : State) (p : Port) : State :=
  s.setPort p { s.port p with requests := (s.port p).requests.drop 1 }

/-- The request leaves its FIFO, is checked, and is refused or passed to its owning block (R175). -/
def takeRequest (k : RequestKind) (owner : Port → Request → State → State) (p : Port) (q : Request) (s : State) :
    State :=
  match s.gate p k q with
  | some r => (s.popRequest p).refuse p q r
  | none => owner p q (s.popRequest p)

/-- Serves the head of a port's FIFO where it is the request the command names; otherwise nothing happens (log
4). -/
def serveWhere (test : Request → Bool) (k : RequestKind) (owner : Port → Request → State → State) (p : Port)
    (s : State) : State :=
  match s.headRequest p k test with
  | some q => takeRequest k owner p q s
  | none => s

/-- As `serveWhere`, for a kind that is one command. -/
def serve (k : RequestKind) (owner : Port → Request → State → State) (p : Port) (s : State) : State :=
  serveWhere (fun _ => true) k owner p s

/-- The desk that sends a request; the role check has passed only desks where this is used. -/
def senderDesk (p : Port) : Desk := (portDesk p).getD .d1

/-- Work to offer, or another event of R47: the grant arbiter is to arbitrate (log 7). -/
def State.arbitrationDue (s : State) : State := { s with gar := { s.gar with arbDue := true } }

end Sys2Proof.Machine
end

