-- ==== Sys2Proof/Machine/Findings.lean ====
section
/-! DEFINITION. Findings: the judgement of values against class limits (R118), what is handed on (R119), the
testability report (R120), and the comparison of values by their direction of harm (R145). -/

namespace Sys2Proof.Machine

/-! ## Severity and worst values -/

/-- Rank of a severity; SOFT < HARD < HAZARD (4.5). -/
def severityRank : Severity → Nat
  | .soft => 0 | .hard => 1 | .hazard => 2

def Severity.higher (a b : Severity) : Severity := if severityRank a < severityRank b then b else a

/-- HARD or HAZARD. -/
def Severity.isGrave : Severity → Bool
  | .soft => false | .hard => true | .hazard => true

/-- Magnitude of a value. -/
def Quantity.magnitude : Quantity → Nat
  | .ohm r _ => r | .mvDc v => v.natAbs | .mvRms v => v.natAbs | .tenthNf c => c

/-- The lower value is worse: a resistance, and the capacitance of an OPEN_LINE. -/
def lowerIsWorse : FaultCode → Bool
  | .foreignV => false | .loopLow => true | .earthT => true | .earthR => true | .openLine => true
  | .capHigh => false | .accessFail => false

/-- The value `new` is worse than `old` (R145); an equal value is not. -/
def worseThan (c : FaultCode) (new old : Quantity) : Bool :=
  if lowerIsWorse c then new.magnitude < old.magnitude else old.magnitude < new.magnitude

/-- The worst value and its distance after a merge. -/
def mergeWorst (c : FaultCode) (old : Option Quantity × Option Nat) (new : Option Quantity × Option Nat) :
    Option Quantity × Option Nat :=
  match old.1, new.1 with
  | some o, some n => if worseThan c n o then new else old
  | _, _ => old

/-! ## Judging values (R118) -/

/-- The severity of one pair's FV value. -/
def judgeFv (e : ClassEntry) (v : FvValue) : Option Severity :=
  if e.dcHazard < v.dc.natAbs ∨ e.acHazard < v.ac.natAbs then some .hazard
  else if e.dcSoft < v.dc.natAbs ∨ e.acSoft < v.ac.natAbs then some .soft
  else none

/-- The deciding value of a HAZARD: the DC value where both limits broke (R119). -/
def hazardValue (e : ClassEntry) (v : FvValue) : Quantity :=
  if e.dcHazard < v.dc.natAbs then .mvDc v.dc else .mvRms v.ac

/-- The values of a pair that broke a soft limit. -/
def softValuesOf (e : ClassEntry) (v : FvValue) : List Quantity :=
  (if e.dcSoft < v.dc.natAbs then [Quantity.mvDc v.dc] else [])
    ++ (if e.acSoft < v.ac.natAbs then [Quantity.mvRms v.ac] else [])

/-- A signed value of a quantity, as the free choice among equals sees it. -/
def Quantity.signed : Quantity → Int
  | .ohm r _ => r | .mvDc v => v | .mvRms v => v | .tenthNf c => c

/-- The largest in magnitude of the values that broke a soft limit (R119); which of several equally large ones
is left open (log 18). -/
def largestValue (values : List Quantity) : Option Quantity :=
  let top := (values.map Quantity.magnitude).foldl max 0
  let ties := values.filter fun v => v.magnitude = top
  ties[Config.tiePick (ties.map Quantity.signed) % ties.length]?

/-- The code of a resistance finding. -/
def pairFault : Pair → FaultCode
  | .tr => .loopLow | .tg => .earthT | .rg => .earthR

def ClassEntry.hardLimit (e : ClassEntry) : Pair → Nat
  | .tr => e.trHard | .tg => e.tgHard | .rg => e.rgHard

def ClassEntry.softLimit (e : ClassEntry) : Pair → Nat
  | .tr => e.trSoft | .tg => e.tgSoft | .rg => e.rgSoft

/-- Statuses with which a RES step is evaluated. -/
def resEvaluated : StepStatus → Bool
  | .ok => true | .edge => true | .opened => true
  | .clip => false | .under => false | .over => false | .leaky => false | .invalidFv => false
  | .skippedHazard => false | .notRun => false | .aborted => false

/-- The severity of a resistance. -/
def judgeRes (e : ClassEntry) (p : Pair) (status : StepStatus) (r : Nat) : Option Severity :=
  if ¬ resEvaluated status then none
  else if r < e.hardLimit p then some .hard
  else if r < e.softLimit p then some .soft
  else none

/-- The finding of a capacitance. -/
def judgeCap (e : ClassEntry) (status : StepStatus) (c : Nat) : Option (FaultCode × Severity) :=
  if (status = .ok ∨ status = .under) ∧ c < e.openMin then some (.openLine, .hard)
  else if (status = .ok ∨ status = .over) ∧ e.capMax < c then some (.capHigh, .soft)
  else none

/-! ## Testability (R120) -/

/-- The step is of the right kind and pair to find a code. -/
def couldFind (c : FaultCode) (r : StepResult) : Bool :=
  match c, r.kind with
  | .foreignV, .fv => true
  | .loopLow, .res => r.pair = some .tr
  | .earthT, .res => r.pair = some .tg
  | .earthR, .res => r.pair = some .rg
  | .openLine, .cap => true
  | .capHigh, .cap => true
  | _, _ => false

/-- The step ended with a status that made it able to find a code it could find. -/
def ableStatus (c : FaultCode) (st : StepStatus) : Bool :=
  match c with
  | .foreignV => st = .ok || st = .clip
  | .loopLow => resEvaluated st | .earthT => resEvaluated st | .earthR => resEvaluated st
  | .openLine => st = .ok || st = .under
  | .capHigh => st = .ok || st = .over
  | .accessFail => true

/-- The testability of a code in a completed run's step results. -/
def testability (steps : List StepResult) (c : FaultCode) : Testability :=
  if c = .accessFail ∨ steps.any (fun r => couldFind c r && ableStatus c r.status) then .able
  else if steps.any (fun r => couldFind c r && r.status = .skippedHazard) then .skippedHazard
  else if steps.any (couldFind c) then .notEvaluated
  else .noStep

/-! ## Lists of codes found (R72, R127) -/

/-- The highest severity recorded for a code. -/
def highestOf (fs : List StepFinding) (c : FaultCode) : Option Severity :=
  fs.foldl (fun acc f => if f.code = c then some (match acc with | some a => a.higher f.severity | none => f.severity)
    else acc) none

/-- The distinct codes found in some step results, each with its highest severity, in code order (log 27). -/
def foundCodes (steps : List StepResult) : List FoundCode :=
  let fs := (steps.map StepResult.findings).flatten
  allCodes.filterMap fun c => (highestOf fs c).map fun sv => { code := c, severity := sv }

end Sys2Proof.Machine
end

