-- ==== Sys2Proof/Machine/Tickets.lean ====
section
/-! DEFINITION. The ticket table: findings, completion reports, closing, the line summaries, the verify list and
the desk requests on tickets (R145 to R161); the storm window count (R163). -/

namespace Sys2Proof.Machine

/-! ## The table -/

def State.mapTkt (s : State) (f : TicketTable → TicketTable) : State := { s with tkt := f s.tkt }

def TicketState.isLive : TicketState → Bool
  | .opened => true | .assigned => true | .cleared => true | .closed => false

/-- A ticket is live while it is not CLOSED (R145). -/
def Ticket.isLive (t : Ticket) : Bool := t.state.isLive

def State.ticket (s : State) (n : Nat) : Option Ticket := s.tkt.tickets.find? fun t => t.number = n

/-- The live ticket of a line and code. -/
def State.liveTicket (s : State) (line : Nat) (c : FaultCode) : Option Ticket :=
  s.tkt.tickets.find? fun t => t.line = line && t.code = c && t.isLive

/-- The line has a live ticket of severity HARD (R153). -/
def State.hasHardTicket (s : State) (line : Nat) : Bool :=
  s.tkt.tickets.any fun t => t.line = line && t.isLive && t.severity = .hard

/-- The line has a CLEARED ticket. -/
def State.hasCleared (s : State) (line : Nat) : Bool :=
  s.tkt.tickets.any fun t => t.line = line && t.state = .cleared

/-- The ticket of a number, rewritten. -/
def State.putTicket (s : State) (t : Ticket) : State :=
  s.mapTkt fun k => { k with tickets := k.tickets.map fun u => if u.number = t.number then t else u }

/-- A ticket put in its place by rising number. -/
def insertTicket (t : Ticket) : List Ticket → List Ticket
  | [] => [t]
  | u :: rest => if t.number < u.number then t :: u :: rest else u :: insertTicket t rest

/-- The first value from `n` on that is neither 0 nor in use; 65 535 is followed by 0. `fuel` exceeds the number
of values in use. -/
def firstFree (used : Nat → Bool) : Nat → Nat → Nat
  | 0, n => n
  | fuel + 1, n => if n = 0 || used n then firstFree used fuel ((n + 1) % 65536) else n

/-- The CLOSED ticket with the oldest close time, the lowest number among equals (R149). -/
def oldestClosed : List Ticket → Option Ticket
  | [] => none
  | t :: rest =>
    match oldestClosed rest, t.closeTime with
    | some u, some ct =>
      if t.state = .closed then
        (match u.closeTime with
        | some cu => if cu.before ct then some u else some t
        | none => some t)
      else some u
    | some u, none => some u
    | none, _ => if t.state = .closed then some t else none

/-! ## Line summaries (R153 to R155) -/

/-- Codes in rising number, one more among them. -/
def addCode (c : FaultCode) (codes : List FaultCode) : List FaultCode :=
  allCodes.filter fun d => d = c || codes.contains d

def State.openCode (s : State) (line : Nat) (c : FaultCode) : State :=
  s.setLine line { s.line line with openCodes := addCode c (s.line line).openCodes }

def State.closeCode (s : State) (line : Nat) (c : FaultCode) : State :=
  s.setLine line { s.line line with openCodes := (s.line line).openCodes.filter fun d => d ≠ c }

def State.setUnticketed (s : State) (line : Nat) (v : Bool) : State :=
  s.setLine line { s.line line with unticketed := v }

/-- The line joins the verify list at its tail, unless it is on it; the change is work to offer. -/
def State.verifyAppend (s : State) (line : Nat) : State :=
  if s.tkt.verify.contains line then s
  else (s.mapTkt fun k => { k with verify := k.verify ++ [line] }).arbitrationDue

/-- The line moves to the tail of the verify list; the change is work to offer. -/
def State.verifyToTail (s : State) (line : Nat) : State :=
  (s.mapTkt fun k => { k with verify := (k.verify.filter fun l => l ≠ line) ++ [line] }).arbitrationDue

/-- The line leaves the verify list unless it still has a CLEARED ticket. -/
def State.verifyReview (s : State) (line : Nat) : State :=
  if s.hasCleared line then s else s.mapTkt fun k => { k with verify := k.verify.filter fun l => l ≠ line }

/-! ## Notices (R160) -/

def Ticket.change (t : Ticket) (cause : TicketCause) (desk : Option Desk) (now : Stamp) : Notice :=
  .ticketChange t.number t.line t.code t.state t.severity cause desk now

def State.sendChange (s : State) (t : Ticket) (cause : TicketCause) (desk : Option Desk) : State :=
  s.broadcast (t.change cause desk s.now)

/-! ## Storm window count (R163) -/

def State.hardFault (s : State) : State := s.mapTkt fun k => { k with count := min 65535 (k.count + 1) }

/-! ## Findings (R147 to R149) -/

/-- The ticket after the fields every merge writes. -/
def Ticket.merged (t : Ticket) (f : Finding) (now : Stamp) : Ticket :=
  let w := mergeWorst t.code (t.worst, t.distance) (f.value, f.distance)
  { t with repeats := min 255 (t.repeats + 1), lastSeen := now, handle := f.handle, notFound := 0,
           severity := t.severity.higher f.severity, worst := w.1, distance := w.2 }

/-- The finding's run, or failed check, began after the clear. -/
def Ticket.clearedBefore (t : Ticket) (start : Stamp) : Bool :=
  t.state = .cleared &&
    match t.clearedTime with
    | some c => c.before start
    | none => false

/-- The link of a desk's port is up. -/
def State.deskUp (s : State) (d : Desk) : Bool := (s.port (deskPort d)).link = .up

/-- A CLEARED ticket goes back to ASSIGNED, or to OPEN while its cleared-by desk's link is down (R147). -/
def State.reopen (s : State) (t : Ticket) : State :=
  let desk := t.clearedBy.filter s.deskUp
  let u := { t with state := if desk = none then .opened else .assigned, assignee := desk, clearedBy := none,
                    clearedTime := none, reopens := min 255 (t.reopens + 1) }
  ((s.putTicket u).verifyReview t.line).sendChange u .reopened desk

/-- A finding merged into the live ticket of its line and code (R147). The ESCALATED notice of a merge that also reopens
the ticket carries the state before the reopen, CLEARED, a choice of the model (log 55). -/
def State.mergeFinding (s : State) (t : Ticket) (f : Finding) : State :=
  let u := t.merged f s.now
  let raised := severityRank t.severity < severityRank f.severity
  let s := (s.putTicket u).countFinding f.code .merged
  let s := if raised ∧ ¬ t.severity.isGrave then s.hardFault else s
  let s := if raised then s.sendChange u .escalated none else s
  if t.clearedBefore f.start then s.reopen u else s

/-- A SOFT finding without a live ticket, during a storm (R148). -/
def State.suppressFinding (s : State) (f : Finding) : State :=
  (s.countFinding f.code .suppressed).setUnticketed f.line true

/-- An evicted ticket leaves the table (R149); its EVICTED notice carries the state it left with, CLOSED, a choice of
the model (log 56). -/
def State.evict (s : State) (t : Ticket) : State :=
  (s.mapTkt fun k => { k with tickets := k.tickets.filter fun u => u.number ≠ t.number }).sendChange t .evicted none

/-- The ticket a creation makes (R149). -/
def newTicket (number : Nat) (f : Finding) (now : Stamp) (storm : Bool) : Ticket :=
  { number := number, line := f.line, code := f.code, severity := f.severity, origin := f.origin, state := .opened,
    assignee := none, clearedBy := none, firstSeen := now, lastSeen := now, clearedTime := none, closeTime := none,
    closeReason := none, repeats := 0, reopens := 0, notFound := 0, worst := f.value, distance := f.distance,
    handle := f.handle, storm := storm }

/-- A ticket made in a table that has room, under the number R146 gives. -/
def State.createTicket (s : State) (f : Finding) : State :=
  let number := firstFree (fun n => (s.ticket n).isSome) 200 s.tkt.nextNumber
  let t := newTicket number f s.now (s.tkt.storm = .storm)
  let s := s.mapTkt fun k => { k with tickets := insertTicket t k.tickets, nextNumber := (number + 1) % 65536 }
  let s := ((s.openCode f.line f.code).setUnticketed f.line false).countFinding f.code .created
  let s := if f.severity.isGrave then s.hardFault else s
  s.broadcast (.ticketNew t.number t.line t.code t.severity t.origin t.storm t.worst t.distance t.firstSeen)

/-- Every ticket is live: no ticket is made (R149, 3). -/
def State.overflowFinding (s : State) (f : Finding) : State :=
  let s := (s.countFinding f.code .overflow).setUnticketed f.line true
  if f.severity.isGrave then s.hardFault else s

/-- The entry for a new ticket is found (R149). -/
def State.raiseTicket (s : State) (f : Finding) : State :=
  if s.tkt.tickets.length < 128 then s.createTicket f
  else
    match oldestClosed s.tkt.tickets with
    | some t => (s.evict t).createTicket f
    | none => s.overflowFinding f

/-- A finding passed to the ticket table (9.2). -/
def State.takeFinding (s : State) (f : Finding) : State :=
  match s.liveTicket f.line f.code with
  | some t => s.mergeFinding t f
  | none => if f.severity = .soft ∧ s.tkt.storm = .storm then s.suppressFinding f else s.raiseTicket f

/-! ## Closing and completion reports (R150 to R152) -/

/-- A ticket closes; `desk` is the closing desk of a MANUAL close. -/
def State.closeTicket (s : State) (t : Ticket) (reason : CloseReason) (desk : Option Desk) : State :=
  let u := { t with state := .closed, closeTime := some s.now, closeReason := some reason, assignee := none,
                    clearedTime := none }
  let s := (s.putTicket u).closeCode t.line t.code
  let s := if t.state = .cleared then s.verifyReview t.line else s
  (s.count 1 (closeIndex t.code reason)).sendChange u (.closed reason) desk

/-- The run found the ticket: its findings hold the code, or the ticket's last handle is the run's (R150). -/
def Ticket.foundBy (t : Ticket) (handle : Nat) (findings : List Finding) : Bool :=
  findings.any (fun f => f.code = t.code) || t.handle = some handle

/-- A live ticket the completing run did not find (R151). -/
def State.decideTicket (s : State) (t : Ticket) (start : Stamp) (found : Testability) : State :=
  match t.state with
  | .closed => s
  | .cleared =>
    if t.clearedBefore start then
      match found with
      | .able => s.closeTicket t .verified none
      | .skippedHazard => s.verifyToTail t.line
      | .notEvaluated => s.verifyToTail t.line
      | .noStep => s.closeTicket t .untested none
    else s
  | .opened | .assigned =>
    if t.severity ≠ .hard ∧ found = .able then
      let u := { t with notFound := t.notFound + 1 }
      if 2 ≤ u.notFound then s.closeTicket u .notFound none else s.putTicket u
    else s

/-- Step 2 of R150 over ticket numbers, lowest first. -/
def State.decideTickets (s : State) (start : Stamp) (able : FaultCode → Testability) : List Nat → State
  | [] => s
  | n :: rest =>
    match s.ticket n with
    | some t => (s.decideTicket t start (able t.code)).decideTickets start able rest
    | none => s.decideTickets start able rest

/-- The completion report of a ticketing run, one transaction (R150). -/
def State.takeReport (s : State) (line handle : Nat) (start : Stamp) (findings : List Finding)
    (able : FaultCode → Testability) (pass : Bool) : State :=
  let s := findings.foldl State.takeFinding s
  let unconfirmed := s.tkt.tickets.filter fun t => t.line = line && t.isLive && !t.foundBy handle findings
  let s := s.decideTickets start able (unconfirmed.map Ticket.number)
  if pass then s.setUnticketed line false else s

/-! ## Desk requests (R156 to R159) -/

/-- The checks of every request that names a ticket (9.5), then the rule's own. -/
def withTicket (act : Ticket → State → State) (p : Port) (q : Request) (s : State) : State :=
  let n := field q.payload 0 2
  if n = 0 then s.refuse p q .badField
  else
    match s.ticket n with
    | none => s.refuse p q .noSuch
    | some t => act t s

/-- OK with the ticket's state. -/
def State.okTicket (s : State) (p : Port) (q : Request) (st : TicketState) : State :=
  s.ok p q false (u8 (ticketStateCode st))

/-- TICKET_TAKE (R156). -/
def ticketTake (p : Port) (q : Request) (s : State) : State :=
  withTicket (fun t s =>
    match t.state with
    | .opened =>
      let u := { t with state := .assigned, assignee := some (senderDesk p) }
      ((s.putTicket u).okTicket p q u.state).sendChange u .taken (some (senderDesk p))
    | .assigned => s.answer p q (.refused .taken) (enumOr (t.assignee.map deskCode))
    | .cleared => s.refuse p q .wrongState
    | .closed => s.refuse p q .wrongState) p q s

/-- The checks of TICKET_DROP and TICKET_CLEAR: ASSIGNED, to the sender. -/
def withAssigned (act : Ticket → State → State) (p : Port) (q : Request) (s : State) : State :=
  withTicket (fun t s =>
    if t.state ≠ .assigned then s.refuse p q .wrongState
    else if t.assignee ≠ some (senderDesk p) then s.refuse p q .notHolder
    else act t s) p q s

/-- TICKET_DROP (R156). -/
def ticketDrop (p : Port) (q : Request) (s : State) : State :=
  withAssigned (fun t s =>
    let u := { t with state := .opened, assignee := none }
    ((s.putTicket u).okTicket p q u.state).sendChange u .dropped (some (senderDesk p))) p q s

/-- TICKET_CLEAR (R157). -/
def ticketClear (p : Port) (q : Request) (s : State) : State :=
  withAssigned (fun t s =>
    let u := { t with state := .cleared, assignee := none, clearedBy := some (senderDesk p),
                      clearedTime := some s.now }
    (((s.putTicket u).okTicket p q u.state).verifyAppend t.line).sendChange u .cleared (some (senderDesk p))) p q s

/-- The desk has standing to close the ticket (R158). -/
def mayClose (supervisor desk : Desk) (t : Ticket) : Bool :=
  match t.state with
  | .opened => desk = supervisor
  | .assigned => t.assignee = some desk || desk = supervisor
  | .cleared => t.clearedBy = some desk || desk = supervisor
  | .closed => false

/-- TICKET_CLOSE (R158). -/
def ticketClose (p : Port) (q : Request) (s : State) : State :=
  withTicket (fun t s =>
    if t.state = .closed then s.refuse p q .wrongState
    else if ¬ mayClose s.supervisor (senderDesk p) t then s.refuse p q .notHolder
    else (s.okTicket p q .closed).closeTicket t .manual (some (senderDesk p))) p q s

/-- TICKET_PURGE (R158): the numbers of tickets removed and left. -/
def ticketPurge (p : Port) (q : Request) (s : State) : State :=
  let left := s.tkt.tickets.filter Ticket.isLive
  (s.mapTkt fun k => { k with tickets := left }).ok p q false
    (u8 (s.tkt.tickets.length - left.length) ++ u8 left.length)

/-- TICKET_GET (R159). -/
def ticketGet (p : Port) (q : Request) (s : State) : State :=
  withTicket (fun t s => s.ok p q false (ticketBytes t)) p q s

/-- The state filter of TICKET_LIST passes a ticket state. -/
def stateFilter (states : Byte) (t : Ticket) : Bool := states.getLsbD (ticketStateCode t.state)

/-- The tickets a TICKET_LIST asks for, in ascending number (R159). -/
def ticketsAsked (tickets : List Ticket) (states : Byte) (line code start : Nat) : List Ticket :=
  tickets.filter fun t =>
    stateFilter states t && (line = 0xFFFF || t.line = line) && (code = 0 || faultNum t.code = code)
      && start ≤ t.number

/-- Up to 24 entries, then the more mark and the number to start at next, 0 when there are no more (log 19); that it is
the number of the next ticket that passes is a choice of the model (log 57). -/
def ticketListBytes (asked : List Ticket) : List Byte :=
  listBytes ticketEntryBytes (asked.take 24) ++ flagByte (24 < asked.length)
    ++ u16 ((asked[24]?.map Ticket.number).getD 0)

/-- TICKET_LIST (R159). -/
def ticketList (p : Port) (q : Request) (s : State) : State :=
  let states := field q.payload 0 1
  let line := field q.payload 1 2
  let code := field q.payload 3 1
  if states = 0 ∨ 15 < states ∨ (2047 < line ∧ line ≠ 0xFFFF) ∨ 7 < code then s.refuse p q .badField
  else
    s.ok p q false
      (ticketListBytes (ticketsAsked s.tkt.tickets (BitVec.ofNat 8 states) line code (field q.payload 4 2)))

/-- At a desk's link down its ASSIGNED tickets go to OPEN (R161). -/
def State.returnTickets (s : State) (d : Desk) : List Nat → State
  | [] => s
  | n :: rest =>
    match s.ticket n with
    | some t =>
      if t.state = .assigned ∧ t.assignee = some d then
        let u := { t with state := .opened, assignee := none }
        ((s.putTicket u).sendChange u .linkDown (some d)).returnTickets d rest
      else s.returnTickets d rest
    | none => s.returnTickets d rest

end Sys2Proof.Machine
end

