-- ==== Sys2Proof/Machine/Scheduler.lean ====
section
/-! DEFINITION. The routine scheduler: sweeps, lag, the lockout and deferred lists, the choice of a candidate and
the ends of dispatches (R130 to R144), and the notice TEST_DONE (R72). -/

namespace Sys2Proof.Machine

def State.mapRts (s : State) (f : RoutineScheduler → RoutineScheduler) : State := { s with rts := f s.rts }

def State.mapCounts (s : State) (f : SweepCounts → SweepCounts) : State :=
  s.mapRts fun r => { r with counts := f r.counts }

/-- A sweep count one higher; counts saturate at 65 535 (R130). -/
def countUp (n : Nat) : Nat := min 65535 (n + 1)

/-- TEST_DONE to P0 (R72). -/
def State.testDone (s : State) (line : Nat) (v : Verdict) (handle : Option Nat) (cause : Option TestCause)
    (codes : List FoundCode) : State :=
  s.notify .p0 (.testDone line v handle cause codes)

/-! ## The deferred list (R138) -/

/-- An entry is due when now is at or after its due time. -/
def DeferredEntry.isDue (e : DeferredEntry) (now : Stamp) : Bool := !now.before e.due

def dueCount (now : Stamp) (l : List DeferredEntry) : Nat := (l.filter fun e => e.isDue now).length

/-- The deferred list rewritten; a change in the number of due entries is reported as work to offer. -/
def State.setDeferred (s : State) (l : List DeferredEntry) : State :=
  let t := s.mapRts fun r => { r with deferred := l }
  if dueCount s.now l = dueCount s.now s.rts.deferred then t else t.arbitrationDue

/-- An entry put in its place: earliest due time first, later insertion behind equals. -/
def insertDeferred (e : DeferredEntry) : List DeferredEntry → List DeferredEntry
  | [] => [e]
  | d :: rest => if e.due.before d.due then e :: d :: rest else d :: insertDeferred e rest

def dropDeferred (line : Nat) (l : List DeferredEntry) : List DeferredEntry := l.filter fun e => e.line ≠ line

def State.onDeferred (s : State) (line : Nat) : Bool := s.rts.deferred.any fun e => e.line = line

/-- The due time of an entry written now: now + retry delay. -/
def State.retryTime (s : State) : Stamp := s.now.later (60 * s.rts.params.retry)

/-- The line is given up for the sweep (R8, R138, R141). -/
def State.missLine (s : State) (line : Nat) : State :=
  (s.mapCounts fun c => { c with missed := countUp c.missed }).setLine line
    { s.line line with missed := some s.rts.number }

/-- RTS defers a line (R138); a list entry gained is work to offer (R47). -/
def State.deferLine (s : State) (line : Nat) : State :=
  if s.onDeferred line then s
  else if 32 ≤ s.rts.deferred.length then s.missLine line
  else (s.setDeferred (insertDeferred { line := line, tries := 1, due := s.retryTime, sweep := s.rts.number }
    s.rts.deferred)).arbitrationDue

/-! ## Sweeps (R133 to R135) -/

def SweepCounts.zero : SweepCounts :=
  { tested := 0, covered := 0, hardSkipped := 0, unequipped := 0, deferred := 0, missed := 0 }

/-- A sweep starts, and is reported as work to offer. -/
def State.sweepStart (s : State) : State :=
  let ms := s.rts.params.period * 60000
  (s.mapRts fun r => { r with phase := .inSweep, start := some s.now, counts := SweepCounts.zero, late := false,
                              period := some { left := ms, total := ms } }).arbitrationDue

/-- A mark that holds a sweep number becomes none. -/
def clearMark (n : Nat) (m : Option Nat) : Option Nat := if m = some n then none else m

/-- The sweep marks that hold a number are cleared on every line (R8). -/
def clearMarks (n : Nat) (lines : Table LineRecord) : Table LineRecord :=
  lines.filterMap fun e =>
    let r := { e.2 with covered := clearMark n e.2.covered, missed := clearMark n e.2.missed }
    if r = LineRecord.fresh then none else some (e.1, r)

/-- The sweep ends as the pointer passes line 2047 (R134). -/
def State.sweepEnd (s : State) : State :=
  let n := (s.rts.number + 1) % 256
  let s := s.broadcast (.sweepDone s.rts.number s.rts.start s.now s.rts.counts)
  let s := s.mapRts fun r => { r with pointer := 0, number := n }
  let s := { s with lrt := { s.lrt with lines := clearMarks n s.lrt.lines } }
  if s.rts.late then s.sweepStart else s.mapRts fun r => { r with phase := .between }

/-- The pointer goes to the next line; past line 2047 the sweep ends. -/
def State.advancePointer (s : State) : State :=
  if 2047 ≤ s.rts.pointer then s.sweepEnd else s.mapRts fun r => { r with pointer := r.pointer + 1 }

/-- Expected position of the pointer (R135). -/
def RoutineScheduler.expected (r : RoutineScheduler) : Nat :=
  match r.period with
  | some t => min 2048 (2048 * (t.total - t.left) / t.total)
  | none => 2048

/-- The sweep lags (R135). -/
def RoutineScheduler.lags (r : RoutineScheduler) : Bool :=
  r.phase = .inSweep && r.pointer + r.params.lag * 2048 / 100 < r.expected

/-! ## Choosing a candidate (R136 to R141) -/

/-- The line is held by no bus, has a free point on its shelf, and no queued request names it. -/
def State.offerable (s : State) (line : Nat) : Bool :=
  (s.heldBy line).isNone && (s.freePoint (shelfOf line)).isSome && !s.gar.queue.any fun e => e.line = line

/-- A call is active on the line. -/
def State.callActive (s : State) (line : Nat) : Bool :=
  match (s.line line).call with
  | .busy => true
  | .ringing => true
  | .idle => false
  | .lockout => false

/-- The line has an ACCESS_FAIL ticket in OPEN or ASSIGNED (R137). -/
def State.accessFailing (s : State) (line : Nat) : Bool :=
  s.tkt.tickets.any fun t =>
    t.line = line && t.code = .accessFail && (t.state = .opened || t.state = .assigned)

/-- A verify line that is not passed over (R137). -/
def State.verifiable (s : State) (line : Nat) : Bool :=
  !(s.line line).hazard && !s.callActive line && (s.line line).equipped && !s.accessFailing line
    && s.offerable line && !s.onDeferred line

/-- The lockout list, head to tail (R136). -/
def State.reviewLockout (s : State) : List Nat → State × Option Nat
  | [] => (s, none)
  | l :: rest =>
    if (s.line l).call ≠ .lockout ∨ ¬ (s.line l).equipped then
      ((s.mapRts fun r => { r with lockout := r.lockout.filter fun k => k ≠ l }).testDone l .notNeeded none none
        []).reviewLockout rest
    else if s.offerable l then (s, some l)
    else s.reviewLockout rest

/-- A due entry that is still blocked gains a try, or is given up (R141, row 4). -/
def State.retryEntry (s : State) (e : DeferredEntry) : State :=
  let rest := dropDeferred e.line s.rts.deferred
  if 3 ≤ e.tries + 1 then (s.setDeferred rest).missLine e.line
  else s.setDeferred (insertDeferred { e with tries := e.tries + 1, due := s.retryTime } rest)

/-- The due entries, in list order (R141). -/
def State.reviewDeferred (s : State) : List DeferredEntry → State × Option Nat
  | [] => (s, none)
  | e :: rest =>
    let r := s.line e.line
    if ¬ r.equipped ∨ r.covered = some e.sweep ∨ r.covered = some s.rts.number ∨ s.hasHardTicket e.line then
      (s.setDeferred (dropDeferred e.line s.rts.deferred)).reviewDeferred rest
    else if s.callActive e.line ∨ ¬ s.offerable e.line then (s.retryEntry e).reviewDeferred rest
    else (s, some e.line)

/-- What the pointer does at a line (R140): pass it with a count, defer it, or stop. -/
inductive PointerRow where
  | unequipped | hardSkipped | covered | deferred | blocked | stop
deriving DecidableEq, Repr

/-- The first row of R140 that applies to a line. -/
def State.pointerRow (s : State) (line : Nat) : PointerRow :=
  if ¬ (s.line line).equipped then .unequipped
  else if s.hasHardTicket line then .hardSkipped
  else if (s.line line).covered = some s.rts.number then .covered
  else if s.onDeferred line then .deferred
  else if s.callActive line ∨ ¬ s.offerable line then .blocked
  else .stop

/-- A blocked line at the pointer is deferred and counted; with the list full it is missed instead (R140). -/
def State.deferAtPointer (s : State) (line : Nat) : State :=
  if 32 ≤ s.rts.deferred.length then s.deferLine line
  else (s.deferLine line).mapCounts fun c => { c with deferred := countUp c.deferred }

/-- The counts of a line the pointer passes. -/
def State.passLine (s : State) (line : Nat) : PointerRow → State
  | .unequipped => s.mapCounts fun c => { c with unequipped := countUp c.unequipped }
  | .hardSkipped => s.mapCounts fun c => { c with hardSkipped := countUp c.hardSkipped }
  | .covered => s.mapCounts fun c => { c with covered := countUp c.covered }
  | .deferred => s.mapCounts fun c => { c with deferred := countUp c.deferred }
  | .blocked => s.deferAtPointer line
  | .stop => s

/-- The pointer consulted (R140); `fuel` is the number of lines from the pointer to line 2047. An ask in which the
review passes line 2047 is answered with none, also where the next sweep starts at that instant, a choice of the
model (log 48). -/
def State.reviewPointer : Nat → State → State × Option Nat
  | 0, s => (s, none)
  | fuel + 1, s =>
    let line := s.rts.pointer
    match s.pointerRow line with
    | .stop => (s, some line)
    | row =>
      if 2047 ≤ line then ((s.passLine line row).advancePointer, none)
      else State.reviewPointer fuel (s.passLine line row).advancePointer

/-- The name of the priority a candidate carries; whether the sweep lags is decided at the ask (log 37). -/
def nameFor (lags : Bool) : Source → PriorityName
  | .lockoutList => .lockout
  | .verifyList => if lags then .catchup else .routine
  | .deferredList => if lags then .catchup else .routine
  | .pointer => if lags then .catchup else .routine

/-- The four sources in their order (R139): the state the review leaves, the line and its source. -/
def State.review (s : State) : State × Option (Nat × Source) :=
  match s.tkt.verify.find? s.verifiable with
  | some l => (s, some (l, .verifyList))
  | none =>
    match s.reviewLockout s.rts.lockout with
    | (s, some l) => (s, some (l, .lockoutList))
    | (s, none) =>
      match s.reviewDeferred (s.rts.deferred.filter fun e => e.isDue s.now) with
      | (s, some l) => (s, some (l, .deferredList))
      | (s, none) =>
        if s.rts.phase = .inSweep then
          match State.reviewPointer (2048 - s.rts.pointer) s with
          | (s, some l) => (s, some (l, .pointer))
          | (s, none) => (s, none)
        else (s, none)

/-- RTS answers an ask with one candidate or none (R139). -/
def State.askCandidate (s : State) : State × Option Candidate :=
  let r := s.review
  (r.1, r.2.map fun c => { line := c.1, source := c.2, name := nameFor s.rts.lags c.2 })

/-! ## Grants and ends of dispatches (R142, R143) -/

/-- The sub-kind a source gives. -/
def subKind : Source → RoutineKind
  | .verifyList => .verify | .lockoutList => .lockout | .deferredList => .routine | .pointer => .routine

/-- The change a grant makes to the candidate's source (R142). A grant of line 2047 from the pointer is counted before
the sweep ends, a choice of the model (log 49). -/
def State.leaveSource (s : State) (c : Candidate) : State :=
  match c.source with
  | .verifyList => s
  | .lockoutList => s.mapRts fun r => { r with lockout := r.lockout.filter fun k => k ≠ c.line }
  | .deferredList =>
    (s.setDeferred (dropDeferred c.line s.rts.deferred)).mapCounts fun k => { k with tested := countUp k.tested }
  | .pointer => (s.mapCounts fun k => { k with tested := countUp k.tested }).advancePointer

/-- The routine candidate is granted a bus (R142). -/
def State.routineGranted (s : State) (c : Candidate) (b : Bus) : State :=
  (s.leaveSource c).mapRts fun r =>
    { r with held := r.held + 1, dispatch := r.dispatch.set b (some { source := c.source, name := c.name }) }

/-- The routine holding of a bus is over: the count falls and the dispatch record becomes none (R130). -/
def State.routineLeft (s : State) (b : Bus) : State :=
  s.mapRts fun r => { r with held := r.held - 1, dispatch := r.dispatch.set b none }

/-- A routine grant that failed at R20 (R142). -/
def State.routineGrantFailed (s : State) (c : Candidate) (b : Bus) (cause : TestCause) : State :=
  let s := s.routineLeft b
  match c.source with
  | .verifyList => s
  | .lockoutList => (s.deferLine c.line).testDone c.line .incomplete none (some cause) []
  | .deferredList => s.deferLine c.line
  | .pointer => s.deferLine c.line

/-- The causes for which an interrupted dispatch defers its line (R143). -/
def AbortCause.defers : AbortCause → Bool
  | .preemptedCall => true | .preemptedDesk => true | .noExchange => true | .noChannel => true
  | .channelFault => true
  | .cancelled => false | .holdExpired => false | .linkDown => false | .restart => false

/-- RTS is told that a dispatch was interrupted with a cause. -/
def State.dispatchInterrupted (s : State) (line : Nat) (cause : AbortCause) : State :=
  if cause.defers then s.deferLine line else s

/-! ## Scheduler states (R131) -/

/-- A holding condition holds: STORM, or the exchange link is down. -/
def State.held (s : State) : Bool := s.tkt.storm = .storm || (s.port .p0).link = .down

/-- A holding condition has begun. -/
def State.holdScheduler (s : State) : State :=
  if s.rts.state = .running then s.mapRts fun r => { r with state := .held } else s

/-- A holding condition has ended; with the last one RTS resumes and reports work to offer. -/
def State.resumeScheduler (s : State) : State :=
  if s.rts.state = .held ∧ ¬ s.held then (s.mapRts fun r => { r with state := .running }).arbitrationDue else s

/-- ROUTINE_START (R131, R133). -/
def routineStart (p : Port) (q : Request) (s : State) : State :=
  let t :=
    if s.rts.state = .stopped then
      let u := if s.held then s.mapRts fun r => { r with state := .held }
        else (s.mapRts fun r => { r with state := .running }).arbitrationDue
      if u.rts.phase = .between ∧ u.rts.period = none then u.sweepStart else u
    else s
  t.ok p q false (u8 (schedCode t.rts.state))

/-- ROUTINE_STOP (R131). -/
def routineStop (p : Port) (q : Request) (s : State) : State :=
  (s.mapRts fun r => { r with state := .stopped }).ok p q false (u8 (schedCode .stopped))

/-- The period timer expires (R133). -/
def State.periodExpired (s : State) : State :=
  let t := s.mapRts fun r => { r with period := none }
  if s.rts.phase = .between then t.sweepStart
  else (t.mapRts fun r => { r with late := true }).broadcast (.sweepLate s.rts.number s.rts.start s.rts.pointer)

/-- Every lockout entry removed at RESTART, each with TEST_DONE(INCOMPLETE, RESTART) (R144). -/
def State.dropLockouts (s : State) : List Nat → State
  | [] => s
  | l :: rest =>
    ((s.mapRts fun r => { r with lockout := r.lockout.filter fun k => k ≠ l }).testDone l .incomplete none
      (some (.abort .restart)) []).dropLockouts rest

/-- RTS at RESTART (R144). -/
def State.restartScheduler (s : State) : State :=
  let s := s.mapRts fun r => { r with state := .stopped }
  (s.dropLockouts s.rts.lockout).setDeferred []

end Sys2Proof.Machine
end

