-- ==== Sys2Proof/Machine/Buses.lean ====
section
/-! DEFINITION. The access controller: grants and their check, relay sequences, tone, hold timers, notices of bus
changes, and the answer of a pending seize (R17 to R41, R69). Releases of a bus with a run stand in
Machine/Releases.lean. -/

namespace Sys2Proof.Machine

/-! ## Hold timers (R31) -/

def HoldTimer.stop : HoldTimer → HoldTimer
  | .running _ => .stopped
  | .stopped => .stopped
  | .absent => .absent

/-- A timer started again at the hold time; one that has stopped does not run again for that holding. -/
def HoldTimer.renew (ms : Nat) : HoldTimer → HoldTimer
  | .running _ => .running ms
  | .stopped => .stopped
  | .absent => .absent

/-- The hold time in milliseconds. -/
def State.holdMs (s : State) : Nat := s.acc.holdTime * 1000

def State.renewHold (s : State) (b : Bus) : State :=
  s.setBus b { s.bus b with hold := (s.bus b).hold.renew s.holdMs }

/-! ## Tone (R26, R28, R29) -/

/-- The generator at rest. -/
def ToneGen.off : ToneGen := { output := .removed, divider := none, cadence := .continuous, limitMs := none }

/-- The generator as it starts, with the limit timer as given. -/
def ToneGen.burst (t : ToneParams) (limitMs : Option Nat) : ToneGen :=
  { output := .high, divider := some t.divider,
    cadence := if t.off = 0 then .continuous else .burst (t.on * 100), limitMs := limitMs }

/-- The length of the tone limit timer, in milliseconds (R29). -/
def State.toneLimitMs (s : State) (t : ToneParams) : Nat :=
  (if t.limit = 0 then s.acc.toneLimit else t.limit) * 1000

/-- The other level of a running output. -/
def ToneLevel.toggle : ToneLevel → ToneLevel
  | .high => .low | .low => .high | .rest => .rest | .removed => .removed

/-! ## Relays, notices and the record (R35, R37) -/

/-- The access state of a mode with a mark (R5). -/
def accessOf (m : Option Mode) (b : Bus) (k : Mark) : AccessState :=
  match m with
  | some .bridge => .bridge b k
  | some .split => .split b k
  | none => .split b k

/-- The abort cause of a bound run for a release reason (R33). -/
def causeOf : ReleaseReason → Option AbortCause
  | .released => some .cancelled | .holdExpired => some .holdExpired | .preemptedCall => some .preemptedCall
  | .preemptedDesk => some .preemptedDesk | .noExchange => some .noExchange | .linkDown => some .linkDown
  | .restart => some .restart | .accessFail => none | .runEnd => none

/-- The reasons a BUS_STATE at RELEASING is sent for (R37). -/
def ReleaseReason.tellsReleasing : ReleaseReason → Bool
  | .holdExpired => true | .preemptedCall => true | .noExchange => true | .restart => true
  | .released => false | .preemptedDesk => false | .linkDown => false | .accessFail => false | .runEnd => false

/-- The reasons a BUS_STATE at IDLE is sent for (R37). -/
def ReleaseReason.tellsIdle : ReleaseReason → Bool
  | .released => true | .holdExpired => true | .preemptedCall => true | .noExchange => true | .restart => true
  | .preemptedDesk => false | .linkDown => false | .accessFail => false | .runEnd => false

/-- A notice to the bus's holder, where it is a desk. -/
def State.tellHolder (s : State) (r : BusRecord) (n : Notice) : State :=
  match r.holder with
  | some (.desk d) => s.notifyDesk d n
  | _ => s

/-- A connect that ends before HELD or MONITOR is reported (R24, R25, R39, R72, R143). -/
def State.reportConnectEnd (s : State) (r : BusRecord) (reason : ReleaseReason) : State :=
  match r.holder with
  | some (.desk d) =>
    if reason = .linkDown then s else s.notifyDesk d (.connectFailed (.release reason) r.tag r.seq)
  | some (.routine k) =>
    let line := r.line.getD 0
    match causeOf reason with
    | some c =>
      (if k = .lockout then s.testDone line .incomplete none (some (.abort c)) [] else s).dispatchInterrupted line c
    | none =>
      if k = .lockout then s.testDone line .fault none none [{ code := .accessFail, severity := .hard }] else s
  | none => s

/-- The end of a connect, or the BUS_STATE at RELEASING, as the bus begins its release. -/
def State.reportReleasing (s : State) (b : Bus) (r : BusRecord) (reason : ReleaseReason) : State :=
  if r.reached then
    (if reason.tellsReleasing then s.tellHolder r (.busState b .releasing r.line (.release reason)) else s)
  else s.reportConnectEnd r reason

/-- Entry to RELEASING with the line relay operated (R35, 1). -/
def State.enterReleasing (s : State) (b : Bus) (reason : ReleaseReason) : State :=
  let r := s.bus b
  let s := s.setBus b { r with state := .releasing, reason := some reason, hold := r.hold.stop, gen := ToneGen.off,
                               audio := .disconnected, run := none, relay := .lineReleasing Config.releaseMs }
  let s := match r.line with
    | some l => s.setAccess l (accessOf r.mode b .releasing)
    | none => s
  s.reportReleasing b r reason

/-- The line is NORMAL and leaves the bus record; the shelf point relay starts to release (R35, 2; R25). -/
def State.leaveLine (s : State) (b : Bus) : State :=
  let r := s.bus b
  let s := s.setBus b { r with state := .releasing, line := none, lastLine := r.line, hold := r.hold.stop,
                               relay := .pointReleasing Config.releaseMs }
  match r.line with
  | some l => s.setAccess l .normal
  | none => s

/-- End of the shelf point release: the point is free and the bus IDLE (R35, 3). -/
def State.becomeIdle (s : State) (b : Bus) : State :=
  let r := s.bus b
  let s := match r.lastLine, r.point with
    | some l, some k => s.setPoint (shelfOf l) k none
    | _, _ => s
  let s := s.setBus b BusRecord.fresh
  let s := match r.reason with
    | some reason =>
      if r.reached ∧ reason.tellsIdle then s.tellHolder r (.busState b .idle r.lastLine (.release reason)) else s
    | none => s
  (if r.isRoutine then s.routineLeft b else s).arbitrationDue

/-- The bus moves on at its run's end (R30). -/
def State.busAfterRun (s : State) (b : Bus) : State :=
  let r := s.bus b
  match r.reason with
  | some reason => s.enterReleasing b reason
  | none =>
    if r.isRoutine then s.enterReleasing b .runEnd
    else s.setBus b { r with state := .held, run := none }

/-! ## The pending seize of a line that reaches NORMAL (R69) -/

def State.seizeEntry (s : State) (line : Nat) : Option SeizeEntry := s.exc.seizes.find? fun e => e.line = line

/-- The reply to a SEIZE: 0 for GRANTED, 1 for HELD_TEST (R185). -/
def seizeReply (tag : Byte) (heldTest : Bool) : Reply :=
  { kind := replyKind (kindCode .seize), tag := tag, outcome := .ok, data := flagByte heldTest }

def State.grantTags (s : State) : List Byte → State
  | [] => s
  | t :: rest => (s.reply .p0 (seizeReply t false)).grantTags rest

/-- EXC answers the pending entry of a line that has reached NORMAL. -/
def State.answerSeizes (s : State) (line : Nat) : State :=
  match s.seizeEntry line with
  | none => s
  | some e =>
    let s := { s with exc := { s.exc with seizes := s.exc.seizes.filter fun f => f.line ≠ line } }
    let s := match e.report with
      | some c => s.setCall line c
      | none => s
    s.grantTags e.tags

/-! ## Grants (R20, R21) -/

/-- What a grant hands to the access controller. -/
structure Claim where
  holder : Holder
  line : Nat
  mode : Mode
  guard : Bool
  tag : Nat
  seq : Nat
deriving DecidableEq, Repr

def Holder.isDesk : Holder → Bool
  | .desk _ => true | .routine _ => false

/-- The check at a grant; none when the connect proceeds (R20). -/
def State.grantCheck (s : State) (c : Claim) : Option ConnectReason :=
  if ¬ (s.line c.line).equipped then some .notEquipped
  else
    match c.mode with
    | .bridge => none
    | .split =>
      if c.holder.isDesk ∧ (s.port .p0).link = .down then some (.release .noExchange)
      else if s.callActive c.line then some .callActive
      else none

/-- A reason of R20 as the cause of a TEST_DONE. -/
def grantCause : ConnectReason → TestCause
  | .notEquipped => .notEquipped
  | .callActive => .callActive
  | .release _ => .abort .noExchange

/-- The hold timer a grant starts (R21, R31). -/
def State.newHold (s : State) : Holder → HoldTimer
  | .desk _ => .running s.holdMs
  | .routine _ => .absent

/-- The program fixed at a routine grant (R142). -/
def State.fixedProgram (s : State) (c : Claim) : Option Nat :=
  match c.holder with
  | .desk _ => none
  | .routine _ => some (s.lineClass c.line).program

/-- The bus goes from IDLE to CONNECTING (R21). -/
def State.beginConnect (s : State) (b : Bus) (c : Claim) : State :=
  let point := (s.freePoint (shelfOf c.line)).getD 0
  let s' := s.setBus b { BusRecord.fresh with
    state := .connecting, holder := some c.holder, line := some c.line, mode := some c.mode, guard := c.guard,
    point := some point, hold := s.newHold c.holder, tag := c.tag, seq := c.seq, program := s.fixedProgram c,
    relay := .pointOperating Config.operateMs }
  (s'.setPoint (shelfOf c.line) point (some b)).setAccess c.line (accessOf (some c.mode) b .operating)

/-! ## Relay operations (R22, R23) -/

/-- CONNECT_DONE to a desk holder. -/
def State.connectDone (s : State) (b : Bus) (r : BusRecord) : State :=
  s.tellHolder r (.connectDone b (r.line.getD 0) (r.mode.getD .split) r.tag r.seq)

/-- The bus reaches MONITOR or HELD: relays operated, the line's access state without mark. -/
def State.reachState (s : State) (b : Bus) (st : BusState) (audio : AudioPath) : State :=
  let r := s.bus b
  let s := s.setBus b { r with state := st, relay := .operated, audio := audio, reached := true }
  let s := match r.line with
    | some l => s.setAccess l (accessOf r.mode b .settled)
    | none => s
  s.connectDone b r

/-- End of the line relay operation (R22, R25). -/
def State.lineOperated (s : State) (b : Bus) : State :=
  let r := s.bus b
  match r.reason with
  | some reason => s.enterReleasing b reason
  | none =>
    match r.mode with
    | some .bridge => s.reachState b .monitor .listening
    | some .split => s.setBus b { r with relay := .checking Config.accessCheckMs }
    | none => s.setBus b { r with relay := .checking Config.accessCheckMs }

/-- The finding of a failed access check (R24). -/
def accessFinding (line : Nat) (origin : Holder) (now : Stamp) : Finding :=
  { line := line, code := .accessFail, severity := .hard, value := none, distance := none, handle := none,
    start := now, origin := origin }

/-- A failed access check (R24). -/
def State.accessFailed (s : State) (b : Bus) : State :=
  let r := s.bus b
  let s := match r.line, r.holder with
    | some l, some h => s.takeFinding (accessFinding l h s.now)
    | _, _ => s
  s.enterReleasing b .accessFail

/-! ## Desk requests that need no release (R18, R26, R31, R41) -/

/-- Refusals of R18 in order 1 to 3 for a request that acts on a held bus, then the rule's own part. -/
def withHeldBus (act : Bus → BusRecord → State → State) (valid : Bool) (p : Port) (q : Request) (s : State) :
    State :=
  match busOf (field q.payload 0 1) with
  | none => s.refuse p q .badField
  | some b =>
    let r := s.bus b
    if ¬ valid then s.refuse p q .badField
    else if ¬ r.heldByDesk (senderDesk p) then s.refuse p q .notHolder
    else if r.state = .releasing ∨ r.reason.isSome then s.refuse p q .notHolder
    else act b r s

/-- A bus state that admits SET_MODE (R18). -/
def BusState.admitsMode : BusState → Bool
  | .held => true | .talk => true | .tone => true
  | .idle => false | .connecting => false | .monitor => false | .measuring => false | .releasing => false

/-- The record after an accepted SET_MODE (R26). -/
def State.modeRecord (s : State) (r : BusRecord) (st : BusState) (t : ToneParams) : BusRecord :=
  match st with
  | .talk => { r with state := .talk, audio := .speech, gen := ToneGen.off }
  | .tone => { r with state := .tone, audio := .disconnected, tone := t,
                      gen := ToneGen.burst t (some (s.toneLimitMs t)) }
  | _ => { r with state := .held, audio := .disconnected, gen := ToneGen.off }

/-- The new state and the tone parameters as written (R26, log 19). -/
def modeBytes (r : BusRecord) : List Byte :=
  u8 (busStateCode r.state) ++ u16 r.tone.divider ++ u8 r.tone.on ++ u8 r.tone.off ++ u16 r.tone.limit

/-- SET_MODE (R26). -/
def setMode (p : Port) (q : Request) (s : State) : State :=
  let wanted := setModeOf (field q.payload 1 1)
  withHeldBus (fun b r s =>
    if ¬ r.state.admitsMode then s.refuse p q .wrongState
    else
      let asked := toneOf q.payload
      let st := wanted.getD .held
      let u := s.modeRecord r st asked.bound
      let s := s.setBus b { u with hold := u.hold.renew s.holdMs }
      s.ok p q (st = .tone && asked ≠ asked.bound) (modeBytes u)) wanted.isSome p q s

/-- RENEW (R31): the hold time the timer now counts from. -/
def renew (p : Port) (q : Request) (s : State) : State :=
  withHeldBus (fun b _ s => (s.renewHold b).ok p q false (u16 s.acc.holdTime)) true p q s

/-- BUS_GET (R41); one from the holder renews the hold timer, after the record is read (log 13). -/
def busGet (p : Port) (q : Request) (s : State) : State :=
  match busOf (field q.payload 0 1) with
  | none => s.refuse p q .badField
  | some b =>
    let r := s.bus b
    let s := if r.heldByDesk (senderDesk p) then s.renewHold b else s
    s.ok p q false (busRecordBytes b r)

/-! ## Tone events (R28, R29) -/

/-- The tone limit timer expires. -/
def State.toneLimitExpired (s : State) (b : Bus) : State :=
  let r := s.bus b
  match r.state, r.gen.limitMs with
  | .tone, some _ =>
    (s.setBus b { r with state := .held, gen := ToneGen.off }).tellHolder r (.busState b .held r.line .toneLimit)
  | _, _ => s

/-- The divider counter expires: the level changes and the counter is loaded with D again. -/
def State.dividerExpired (s : State) (b : Bus) : State :=
  let r := s.bus b
  match r.state, r.gen.divider with
  | .tone, some _ =>
    s.setBus b { r with gen := { r.gen with output := r.gen.output.toggle, divider := some r.tone.divider } }
  | _, _ => s

/-- A tone burst ends. -/
def State.burstEnded (s : State) (b : Bus) : State :=
  let r := s.bus b
  match r.state, r.gen.cadence with
  | .tone, .burst _ =>
    s.setBus b { r with gen := { r.gen with output := .rest, divider := none,
                                            cadence := .silence (r.tone.off * 100) } }
  | _, _ => s

/-- A silence ends: the generator starts again as at entry to TONE. -/
def State.silenceEnded (s : State) (b : Bus) : State :=
  let r := s.bus b
  match r.state, r.gen.cadence with
  | .tone, .silence _ => s.setBus b { r with gen := ToneGen.burst r.tone r.gen.limitMs }
  | _, _ => s

end Sys2Proof.Machine
end

