-- ==== Sys2Proof/Machine/Channels.lean ====
section
/-! DEFINITION. The measurement channels: service, warm-up, calibration, front end, settle and discharge, and the
trace ring (R76 to R93). -/

namespace Sys2Proof.Machine

def State.mapGar (s : State) (f : GrantArbiter → GrantArbiter) : State := { s with gar := f s.gar }

/-! ## Service (R54, R77) -/

/-- A state in which an enabled channel is in service. -/
def ChannelState.serves : ChannelState → Bool
  | .warming => true | .calibrating => true | .ready => true | .busy => true
  | .off => false | .faulted => false

def ChannelRecord.inService (r : ChannelRecord) : Bool := r.enable && !r.disablePending && r.state.serves

/-- The number of channels in service. -/
def State.served (s : State) : Nat := (allChannels.filter fun c => (s.chan c).inService).length

/-- The lower-numbered READY channel (R55, R56). -/
def State.readyChannel (s : State) : Option Channel := allChannels.find? fun c => (s.chan c).state = .ready

/-- The run a BUSY channel works for: its bus and its context. -/
def State.runOn (s : State) (c : Channel) : Option (Bus × RunContext) :=
  let r := s.chan c
  match r.state, r.bus with
  | .busy, some b =>
    match s.ctx b with
    | some x => if r.run = some x.handle ∧ x.channel = some c then some (b, x) else none
    | none => none
  | _, _ => none

/-- The front end at rest: no pair, bias B0, range RC, gain 1, no bus, no activity (R76); that a channel abandoning a
calibration takes gain 1 with them is a choice of the model (log 52). -/
def ChannelRecord.atRest (r : ChannelRecord) : ChannelRecord :=
  { r with run := none, bus := none, pair := none, bias := .off, range := .rc, gain := .g1, activity := .quiet,
           timer := 0, biasNext := none, cal := none }

/-- The CHANNEL notice (R80, R82). -/
def State.tellChannel (s : State) (c : Channel) (st : ChannelState) (cause : ChannelCause) : State :=
  s.broadcast (.channel c st cause)

/-! ## Warm-up and calibration (R78 to R80) -/

/-- Entry to WARMING: the voltage reference is powered. -/
def ChannelRecord.warmUp (r : ChannelRecord) : ChannelRecord :=
  { r.atRest with state := .warming, stage := 0, timer := Config.warmupStageMs }

/-- A stage of the warm-up is over and the next one begins. -/
def ChannelRecord.nextStage (r : ChannelRecord) : ChannelRecord :=
  if r.state = .warming ∧ r.stage < 2 then { r with stage := r.stage + 1, timer := Config.warmupStageMs } else r

/-- The start of a calibration at gain 1. -/
def ChannelRecord.startCal (r : ChannelRecord) : ChannelRecord :=
  { r with gain := .g1, cal := some { raw := [], formed := [] } }

/-- End of warm-up: CALIBRATING (R78). -/
def ChannelRecord.endWarmUp (r : ChannelRecord) : ChannelRecord :=
  if r.state = .warming ∧ r.stage = 2 then { r.startCal with state := .calibrating, stage := 0, timer := 0 } else r

/-- The gain a calibration works at after a number of offsets formed. -/
def calGain : Nat → Gain
  | 0 => .g1 | 1 => .g4 | 2 => .g16 | _ => .g64

/-- The offset of the gain in hand formed from its 66 samples, if they are all there (R79). -/
def CalWork.formNext (w : CalWork) : Option CalWork :=
  if w.raw.length = Config.calSamples ∧ w.formed.length < 4 then
    some { raw := [], formed := w.formed ++ [calOffset w.raw.reverse] }
  else none

/-- The four offsets of a calibration that is over; the fourth may be formed as it ends (log 32). -/
def CalWork.offsets (w : CalWork) : Option Offsets :=
  match (w.formNext.getD w).formed with
  | [a, b, c, d] => some { g1 := a, g4 := b, g16 := c, g64 := d }
  | _ => none

/-- A gain of a calibration, in CALIBRATING or in a run, is over. -/
def ChannelRecord.calGainDone (r : ChannelRecord) : ChannelRecord :=
  match r.cal.bind CalWork.formNext with
  | some w => { r with cal := some w, gain := calGain w.formed.length }
  | none => r

/-- The record with the offsets of a calibration that has ended; time and age are written when it passed. That the
gain goes back to 1, whatever the outcome, is a choice of the model (log 52). -/
def ChannelRecord.calibrated (r : ChannelRecord) (o : Offsets) (now : Stamp) : ChannelRecord :=
  let r := { r with offsets := o, cal := none, gain := .g1 }
  if (failedGain o).isNone then { r with calTime := some now, calAge := some 0 } else r

/-- A sample of a calibration. -/
def CalWork.take (w : CalWork) (code : Int) : CalWork :=
  if w.raw.length < Config.calSamples then { w with raw := code :: w.raw } else w

/-- A calibration age that calls for a calibration inside the run; never counts as old (R83, log 37). -/
def ChannelRecord.stale (r : ChannelRecord) : Bool :=
  match r.calAge with
  | some a => Config.staleMs < a
  | none => true

/-! ## Working for a run (R83, R85) -/

/-- The channel is given to a run. -/
def ChannelRecord.give (r : ChannelRecord) (handle : Nat) (b : Bus) : ChannelRecord :=
  let r := { r.atRest with state := .busy, run := some handle, bus := some b }
  if r.stale then { r.startCal with activity := .calInRun } else r

/-- The channel works for no run any more: it is at rest in READY, or in OFF where a disable is pending (R85). -/
def State.leaveRun (s : State) (c : Channel) : State :=
  let r := (s.chan c).atRest
  if r.disablePending then
    (s.setChan c { r with state := .off, disablePending := false }).tellChannel c .off .disabled
  else s.setChan c { r with state := .ready }

/-! ## Both channels READY at one instant (R56) -/

def StepWork.idle : StepWork :=
  { stage := .none, reading := none, vf := 0, rangeChanges := 0, capture := [], captureDone := false,
    softValues := [], waitMs := 0 }

/-- The context as it stands while its run waits for a channel (R116, log 44). -/
def RunContext.unstarted (x : RunContext) : RunContext :=
  { x with channel := none, phase := .waitChannel, stepIx := 0, final := false, gain := .g1, range := .rc, done := [],
           cur := none, work := StepWork.idle }

/-- The run that was given MC1 as it became READY at this instant, while MC1 has taken no sample for it and it has not
been aborted. -/
def State.givenMc1 (s : State) : Option (WaitEntry × RunContext) :=
  match s.gar.moment, s.runOn .mc1 with
  | .mc1Given w n, some (_, x) =>
    let r := s.chan .mc1
    if x.handle = w.handle ∧ x.abort = none ∧ r.written = n ∧ r.cal.all (fun k => k.raw = [] && k.formed = []) then
      some (w, x)
    else none
  | _, _ => none

/-- The run given MC1 at this instant stands at the head of the wait list again, and MC1 works for no run. -/
def State.takeBackMc1 (s : State) : State :=
  match s.givenMc1 with
  | none => s
  | some (w, x) =>
    let s := (s.setCtx w.bus (some x.unstarted)).leaveRun .mc1
    s.mapGar fun g => { g with waiting := w :: g.waiting, moment := .together }

/-- A channel has become READY (R56), to be given at the end of the step. Where both become READY at one instant and
MC1 does first, MC0 takes MC1's run and MC1 is given anew, as MC0 is matched with the earlier head whichever event is
taken first (log 60). -/
def State.channelReady (s : State) : Channel → State
  | .mc0 => s.takeBackMc1
  | .mc1 =>
    if s.gar.moment ≠ .apart ∧ s.gar.waiting ≠ [] then s.mapGar fun g => { g with moment := .mc1Ready } else s

/-- The channel is freed at its run's end (R85). -/
def State.freeChannel (s : State) (c : Channel) : State :=
  if (s.chan c).disablePending then s.leaveRun c else (s.leaveRun c).channelReady c

/-! ## The trace ring (R92) -/

/-- A sample written to the ring. -/
def ChannelRecord.writeSample (r : ChannelRecord) (code : Int) : ChannelRecord :=
  { r with ring := (code :: r.ring).take Config.ringSlots, written := r.written + 1 }

/-- The sample stored under a sample number (R92): the ring's newest sample has number W - 1. -/
def ChannelRecord.sampleAt (c : Channel) (r : ChannelRecord) (n : Word32) : Int :=
  (r.ring[(r.written - n).toNat - 1]?).getD (Config.traceContent (channelNum c) (n.toNat % Config.ringSlots))

/-! ## Front end (R86 to R91) -/

/-- The settle time of a bias level, in milliseconds. -/
def State.settleMs (s : State) : Bias → Nat
  | .off => 0 | .b1 => s.mc.settle1 | .b2 => s.mc.settle2 | .b3 => s.mc.settle3

/-- The hazard flag of the line on the channel's bus (R88). -/
def State.channelHazard (s : State) (r : ChannelRecord) : Bool :=
  match r.bus.bind fun b => (s.bus b).line with
  | some l => (s.line l).hazard
  | none => false

/-- A pair change; refused with the bias on or during a discharge (R86). -/
def State.selectPair (s : State) (c : Channel) (p : Option Pair) : State :=
  let r := s.chan c
  if r.bias ≠ .off ∨ r.activity = .discharging then s else s.setChan c { r with pair := p }

/-- A gain change (R87). -/
def State.selectGain (s : State) (c : Channel) (g : Gain) : State := s.setChan c { s.chan c with gain := g }

/-- A range change; with the bias on a settle starts, or starts again (R89). -/
def State.selectRange (s : State) (c : Channel) (range : SourceRange) : State :=
  let r := s.chan c
  if r.activity = .discharging then s
  else if r.bias = .off then s.setChan c { r with range := range }
  else s.setChan c { r with range := range, activity := .settling, timer := s.settleMs r.bias }

/-- The discharge path is connected for 30 ms, the bias off (R90). -/
def ChannelRecord.drain (r : ChannelRecord) : ChannelRecord :=
  { r with bias := .off, activity := .discharging, timer := Config.dischargeMs }

/-- A bias switch-on from B0, with the hazard check (R88). -/
def State.connectBias (s : State) (c : Channel) (level : Bias) : State :=
  let r := s.chan c
  if s.channelHazard r then s
  else s.setChan c { r with bias := level, activity := .settling, timer := s.settleMs level }

/-- A bias switch-on asked for; from another level it waits for the discharge (R88). None is taken during a
discharge or a settle (R88, R89). -/
def State.switchOn (s : State) (c : Channel) (level : Bias) : State :=
  let r := s.chan c
  if r.activity = .discharging ∨ r.activity = .settling then s
  else if r.bias = .off then s.connectBias c level
  else s.setChan c { r.drain with biasNext := some level }

/-- A bias switch-off; at B0 it starts no discharge (R90). -/
def State.switchOff (s : State) (c : Channel) : State :=
  let r := s.chan c
  if r.bias = .off then s else s.setChan c { r.drain with biasNext := none }

/-- A discharge asked for with the bias off (R90). -/
def State.discharge (s : State) (c : Channel) : State := s.setChan c (s.chan c).drain

end Sys2Proof.Machine
end

