-- ==== Sys2Proof/Machine/Runs.lean ====
section
/-! DEFINITION. The run sequencer: starting a run, its steps, readings, aborts and end, the result record and the
channel wait list (R55 to R57, R96 to R109, R114 to R127). -/

namespace Sys2Proof.Machine

def State.mapRsq (s : State) (f : RunSequencer → RunSequencer) : State := { s with rsq := f s.rsq }

/-! ## Step results (R126) -/

/-- The values of a step that has formed none. -/
def noValues : StepKind → StepValues
  | .fv => .fv none none none
  | .res => .res none none none none
  | .cap => .cap none none none none none none
  | .wait => .wait

/-- A step result with a status and no values. -/
def blankResult (st : ProgramStep) (status : StepStatus) (trace : TraceRef) : StepResult :=
  { kind := stepKind st, pair := stepPair st, status := status, values := noValues (stepKind st), bias := none,
    range := none, gain := none, trace := trace, findings := [], distance := none }

/-- The trace length at a write count: the samples written since the step's start. -/
def StepResult.closeTrace (r : StepResult) (written : Word32) : StepResult :=
  { r with trace := { r.trace with length := (written - r.trace.first).toNat } }

/-! ## Contexts -/

def State.mapCtx (s : State) (b : Bus) (f : RunContext → RunContext) : State := s.setCtx b ((s.ctx b).map f)

/-- The step in hand of a run. -/
def State.stepInHand (s : State) (x : RunContext) : Option ProgramStep := (s.program x.program)[x.stepIx]?

/-- The step in hand is the program's last. -/
def State.onLastStep (s : State) (x : RunContext) : Bool := x.stepIx + 1 = (s.program x.program).length

/-- The bus whose run in flight has a handle. -/
def State.runBus (s : State) (handle : Nat) : Option Bus :=
  allBuses.find? fun b => (s.ctx b).any fun x => x.handle = handle

def State.handleUsed (s : State) (h : Nat) : Bool :=
  (s.runBus h).isSome || s.rsq.history.any fun r => r.handle = h

/-! ## The end of a run (R122, R125, R127) -/

/-- The step results at a run's end: done, the one in hand as ABORTED, the rest NOT_RUN (R123). -/
def State.finalSteps (s : State) (x : RunContext) : List StepResult :=
  let written := match x.channel with | some c => (s.chan c).written | none => 0
  let begun := x.done ++ (x.cur.map fun r => { r.closeTrace written with status := .aborted }).toList
  begun ++ ((s.program x.program).drop begun.length).map fun st =>
    blankResult st .notRun { channel := x.channel, first := 0, length := 0 }

def runVerdict (abort : Option AbortCause) (steps : List StepResult) : Verdict :=
  if abort.isSome then .incomplete else if steps.all fun r => r.findings.isEmpty then .pass else .fault

/-- The result history holds the 16 most recent records, the newest last. -/
def pushRecord (r : ResultRecord) (h : List ResultRecord) : List ResultRecord :=
  let l := h ++ [r]
  l.drop (l.length - 16)

def State.setCovered (s : State) (line : Nat) : State :=
  s.setLine line { s.line line with covered := some s.rts.number }

/-- The resistances of a completed routine run go to the bins (R169). -/
def State.binResults (s : State) : List StepResult → State
  | [] => s
  | r :: rest =>
    match r.kind, r.pair, r.values with
    | .res, some p, .res (some ohm) _ _ _ =>
      if resEvaluated r.status then (s.addBin p ohm).binResults rest else s.binResults rest
    | _, _, _ => s.binResults rest

/-- The end is reported to the origin (R125, 5). -/
def State.reportRun (s : State) (b : Bus) (x : RunContext) (v : Verdict) (codes : List FoundCode) : State :=
  match x.origin with
  | .desk d => s.notifyDesk d (.runDone x.handle b x.line v x.abort s.now codes)
  | .routine k =>
    let s := if k = .lockout then s.testDone x.line v (some x.handle) (x.abort.map TestCause.abort) codes else s
    match x.abort with
    | some c => s.dispatchInterrupted x.line c
    | none => s

/-- The channel of a run is freed, where it still holds one (R84, R125, 6). -/
def State.freeOf (s : State) (x : RunContext) : State :=
  match x.channel with
  | some c => if (s.chan c).run = some x.handle then s.freeChannel c else s
  | none => s

/-- Everything R125 asks at a run's end, in its order. -/
def State.endRun (s : State) (b : Bus) : State :=
  match s.ctx b with
  | none => s
  | some x =>
    let steps := s.finalSteps x
    let v := runVerdict x.abort steps
    let s := if x.abort.isNone ∧ x.ticketing then
        (s.takeReport x.line x.handle x.start x.pending (testability steps) (v = .pass)).setCovered x.line
      else s
    let record : ResultRecord :=
      { handle := x.handle, line := x.line, cls := x.cls, origin := x.origin, program := x.program,
        ticketing := x.ticketing, verdict := v, start := x.start, finish := s.now, abort := x.abort,
        channel := x.channel, steps := steps }
    let s := s.mapRsq fun k => { k with history := pushRecord record k.history }
    let last : LastResult := { handle := x.handle, time := s.now, verdict := v, origin := x.origin }
    let s := s.setLine x.line { s.line x.line with last := some last }
    let s := s.count 2 (runEndIndex x.origin x.abort)
    let s := if x.abort.isNone ∧ ¬ x.origin.isDesk then s.binResults steps else s
    let s := s.reportRun b x v (foundCodes steps)
    ((s.freeOf x).busAfterRun b).setCtx b none

/-! ## Readings (R96) -/

/-- A voltage reading begins at a gain, as part of a stage of the step in hand. -/
def State.beginReading (s : State) (b : Bus) (c : Channel) (stage : Stage) (g : Gain) (n : Nat) : State :=
  (s.selectGain c g).mapCtx b fun x =>
    { x with phase := .reading, gain := g,
             work := { x.work with stage := stage, reading := some { n := n, gain := g, changes := 0, raw := [] } } }

/-- The FV reading of a pair begins (R100). -/
def State.beginFvPair (s : State) (b : Bus) (c : Channel) (p : Pair) (n : Nat) : State :=
  (s.selectPair c (some p)).beginReading b c (.fv p) .g1 n

/-! ## Steps (R116, R121) -/

/-- A step that is not passed over begins. -/
def State.startStep (s : State) (b : Bus) (x : RunContext) (c : Channel) (i : Nat) (st : ProgramStep) : State :=
  let trace : TraceRef := { channel := some c, first := (s.chan c).written, length := 0 }
  let x := { x with stepIx := i, final := false, cur := some (blankResult st .ok trace), work := StepWork.idle }
  match st with
  | .fv n => (s.setCtx b (some x)).beginFvPair b c .tg n
  | .res p _ range n =>
    (((s.setCtx b (some { x with range := range })).selectPair c (some p)).selectRange c range).beginReading b c
      .resVf .g1 n
  | .cap _ _ =>
    (((s.setCtx b (some { x with range := .rb, phase := .discharge, work := { x.work with stage := .capDrain } })
      ).selectPair c (some .tr)).selectRange c .rb).discharge c
  | .wait ms =>
    (s.setCtx b (some { x with phase := .wait, work := { x.work with waitMs := ms } })).selectPair c none

/-- The steps from step `i` on: bias steps are passed over while the hazard flag is set, the first other step
begins, and after the last step the run completes (R116, R121). -/
def State.beginSteps (b : Bus) (c : Channel) : List ProgramStep → Nat → State → State
  | [], _, s => s.endRun b
  | st :: rest, i, s =>
    match s.ctx b with
    | none => s
    | some x =>
      if isBiasStep st ∧ (s.line x.line).hazard then
        let trace : TraceRef := { channel := some c, first := (s.chan c).written, length := 0 }
        State.beginSteps b c rest (i + 1)
          (s.setCtx b (some { x with stepIx := i, done := x.done ++ [blankResult st .skippedHazard trace] }))
      else s.startStep b x c i st

/-- The step in hand is over: its result is complete, and the next step begins. -/
def State.endStep (s : State) (b : Bus) (c : Channel) : State :=
  match s.ctx b with
  | none => s
  | some x =>
    let r := x.cur.map fun r => r.closeTrace (s.chan c).written
    let s := s.setCtx b (some { x with done := x.done ++ r.toList, cur := none, final := false,
                                       work := StepWork.idle })
    State.beginSteps b c ((s.program x.program).drop (x.stepIx + 1)) (x.stepIx + 1) s

/-- The discharge that ends a RES or CAP step begins; it is final on the program's last step (R105, R116). -/
def State.closingDischarge (s : State) (b : Bus) (c : Channel) : State :=
  (s.discharge c).mapCtx b fun x =>
    { x with phase := .discharge, final := s.onLastStep x,
             work := { x.work with stage := .closing, reading := none } }

/-! ## What follows a reading that stands (R97 to R109) -/

/-- The step result in hand rewritten. -/
def RunContext.mapCur (x : RunContext) (f : StepResult → StepResult) : RunContext := { x with cur := x.cur.map f }

/-- A pair's value written into the values of an FV step. -/
def putFv (p : Pair) (v : FvValue) : StepValues → StepValues
  | .fv tg rg tr =>
    match p with
    | .tg => .fv (some v) rg tr
    | .rg => .fv tg (some v) tr
    | .tr => .fv tg rg (some v)
  | other => other

/-- A pair of an FV step was clipped. -/
def anyClipped : StepValues → Bool
  | .fv tg rg tr => tg.any (·.clipped) || rg.any (·.clipped) || tr.any (·.clipped)
  | _ => false

/-- A HAZARD finding stands in a step result. -/
def StepResult.hasHazard (r : StepResult) : Bool := r.findings.any fun f => f.severity = .hazard

def State.setHazard (s : State) (line : Nat) (v : Bool) : State := s.setLine line { s.line line with hazard := v }

/-- A finding of a run, as it is passed on (R119). -/
def RunContext.finding (x : RunContext) (c : FaultCode) (sv : Severity) (v : Option Quantity) (d : Option Nat) :
    Finding :=
  { line := x.line, code := c, severity := sv, value := v, distance := d, handle := some x.handle,
    start := x.start, origin := x.origin }

/-- A finding placed on the pending findings. -/
def RunContext.pend (x : RunContext) (f : Finding) : RunContext := { x with pending := x.pending ++ [f] }

/-- The context after the value of one pair of an FV step (R118, R119). -/
def RunContext.withFv (x : RunContext) (e : ClassEntry) (p : Pair) (v : FvValue) : RunContext :=
  let sev := judgeFv e v
  let fs := match sev with
    | some sv => [({ code := .foreignV, severity := sv, pair := some p } : StepFinding)]
    | none => []
  let x := x.mapCur fun r => { r with values := putFv p v r.values, findings := r.findings ++ fs }
  if sev = some .soft then
    { x with work := { x.work with softValues := x.work.softValues ++ softValuesOf e v } }
  else x

/-- The end of an FV step: status, gain, the hazard flag, and the one SOFT finding of the step (R100, R119,
R121). -/
def State.endFv (s : State) (b : Bus) (c : Channel) (x : RunContext) (g : Gain) : State :=
  let x := x.mapCur fun r =>
    { r with status := if anyClipped r.values then .clip else .ok, gain := some g }
  let hazard := x.cur.any StepResult.hasHazard
  let x := if ¬ hazard ∧ ¬ x.work.softValues.isEmpty then
      x.pend (x.finding .foreignV .soft (largestValue x.work.softValues) none)
    else x
  let s := s.setCtx b (some x)
  (if hazard then s else s.setHazard x.line false).endStep b c

/-- An FV reading stands (R97, R99, R100, R118, R119). -/
def State.fvStands (s : State) (b : Bus) (c : Channel) (x : RunContext) (p : Pair) (pass : Pass) (n : Nat) :
    State :=
  let e := s.cls x.cls
  let v : FvValue := { clipped := pass.clipped, dc := readingValue pass, ac := acValue pass n }
  let hazardBefore := x.cur.any StepResult.hasHazard
  let y := x.withFv e p v
  let s := s.setCtx b (some y)
  let s := if judgeFv e v = some .hazard then s.setHazard x.line true else s
  let s := if judgeFv e v = some .hazard ∧ ¬ hazardBefore then
      s.takeFinding (x.finding .foreignV .hazard (some (hazardValue e v)) none)
    else s
  match p with
  | .tg => s.beginFvPair b c .rg n
  | .rg => s.beginFvPair b c .tr n
  | .tr => s.endFv b c y pass.gain

/-- The Vf reading of a RES step stands (R101, R102). An INVALID_FV result records the step's bias level and range,
and no gain, a choice of the model (log 42). -/
def State.vfStands (s : State) (b : Bus) (c : Channel) (x : RunContext) (level : Bias) (pass : Pass) : State :=
  let vf := readingValue pass
  if invalidFv pass.clipped vf level then
    let x := x.mapCur fun r =>
      { r with status := .invalidFv, values := .res (some 0) (some vf) none none, bias := some level,
               range := some x.range }
    (s.setCtx b (some x)).closingDischarge b c
  else
    let x := x.mapCur fun r => { r with values := .res none (some vf) none none }
    (s.setCtx b (some { x with phase := .settle,
                               work := { x.work with vf := vf, stage := .resVx, reading := none } })).switchOn c level

/-- The context with the resistance of a RES step and its finding (R104, R118). -/
def RunContext.withRes (x : RunContext) (e : ClassEntry) (pair : Pair) (level : Bias) (vx : Int) (g : Gain) :
    RunContext :=
  let vf := x.work.vf
  let (ohm, status) := resistance vx vf level x.range
  let x := x.mapCur fun r =>
    { r with status := status, values := .res (some ohm) (some vf) (some vx) (some (ratio vx vf level)),
             bias := some level, range := some x.range, gain := some g }
  match judgeRes e pair status ohm with
  | some sv =>
    (x.mapCur fun r => { r with findings := [{ code := pairFault pair, severity := sv, pair := none }] }).pend
      (x.finding (pairFault pair) sv (some (.ohm ohm level)) none)
  | none => x

/-- A Vx reading of a RES step stands (R102 to R105). A reading that a range change supersedes leaves no Vx and no q
in the result, a choice of the model (log 43). -/
def State.vxStands (s : State) (b : Bus) (c : Channel) (x : RunContext) (pair : Pair) (level : Bias)
    (pass : Pass) : State :=
  let vx := readingValue pass
  match (if x.work.rangeChanges < 2 then nextRange (ratio vx x.work.vf level) x.range else none) with
  | some range =>
    (s.setCtx b (some { x with phase := .settle, range := range,
                               work := { x.work with rangeChanges := x.work.rangeChanges + 1, reading := none } })
      ).selectRange c range
  | none => (s.setCtx b (some (x.withRes (s.cls x.cls) pair level vx pass.gain))).closingDischarge b c

/-- The context with the capacitance of a CAP step and its finding (R107 to R110, R118). -/
def RunContext.withCap (x : RunContext) (e : ClassEntry) (level : Bias) (offset : Int) (pass : Pass) : RunContext :=
  let (values, status, cap) := capResult level offset x.work.capture.reverse (readingValue pass) pass.clipped
  let x := x.mapCur fun r =>
    { r with status := status, values := values, bias := some level, range := some .rb,
             gain := some (captureGain level) }
  match judgeCap e status cap with
  | some (code, sv) =>
    let d := if code = .openLine then some (openDistance cap e.capPerKm) else none
    (x.mapCur fun r => { r with findings := [{ code := code, severity := sv, pair := none }], distance := d }).pend
      (x.finding code sv (some (.tenthNf cap)) d)
  | none => x

/-- The Vfin reading of a CAP step stands. -/
def State.vfinStands (s : State) (b : Bus) (c : Channel) (x : RunContext) (level : Bias) (pass : Pass) : State :=
  let offset := (s.chan c).offsets.at (captureGain level)
  (s.setCtx b (some (x.withCap (s.cls x.cls) level offset pass))).closingDischarge b c

/-- A reading stands: the step's next activity follows (R97). -/
def State.readingStands (s : State) (b : Bus) (c : Channel) (x : RunContext) (pass : Pass) (n : Nat) : State :=
  match x.work.stage, s.stepInHand x with
  | .fv p, _ => s.fvStands b c x p pass n
  | .resVf, some (.res _ level _ _) => s.vfStands b c x level pass
  | .resVx, some (.res p level _ _) => s.vxStands b c x p level pass
  | .capVfin, some (.cap level _) => s.vfinStands b c x level pass
  | _, _ => s

/-! ## Channel events of a run -/

/-- A pass is over (R95, R96). -/
def State.passOver (s : State) (c : Channel) : State :=
  match s.runOn c with
  | none => s
  | some (b, x) =>
    match x.phase, x.work.reading with
    | .reading, some rd =>
      if rd.raw.length ≠ 2 + rd.n then s
      else
        let pass := passOf rd.gain ((s.chan c).offsets.at rd.gain) rd.n rd.raw.reverse
        match nextGain rd.changes pass with
        | some g =>
          (s.selectGain c g).setCtx b (some { x with gain := g, work := { x.work with
            reading := some { rd with gain := g, changes := rd.changes + 1, raw := [] } } })
        | none => s.readingStands b c x pass rd.n
    | _, _ => s

/-- The Vfin reading begins once capture and settle are over (R107). -/
def State.beginVfin (s : State) (b : Bus) (c : Channel) (x : RunContext) : State :=
  match s.stepInHand x with
  | some (.cap level n) => s.beginReading b c .capVfin (captureGain level) n
  | _ => s

/-- A settle is over (R88, R102, R107). -/
def State.settleOver (s : State) (c : Channel) : State :=
  let r := s.chan c
  if r.activity ≠ .settling then s
  else
    let s := s.setChan c { r with activity := .quiet, timer := 0 }
    match s.runOn c with
    | none => s
    | some (b, x) =>
      match x.phase, x.work.stage, s.stepInHand x with
      | .settle, .resVx, some (.res _ _ _ n) =>
        s.beginReading b c .resVx (if x.work.rangeChanges = 0 then .g1 else x.gain) n
      | .capture, .capCapture, _ => if x.work.captureDone then s.beginVfin b c x else s
      | _, _, _ => s

/-- The capture is over (R106, R107). -/
def State.captureOver (s : State) (c : Channel) : State :=
  match s.runOn c with
  | none => s
  | some (b, x) =>
    if x.phase = .capture ∧ x.work.capture.length = Config.captureSamples ∧ ¬ x.work.captureDone then
      let x := { x with work := { x.work with captureDone := true } }
      let s := s.setCtx b (some x)
      if (s.chan c).activity = .settling then s else s.beginVfin b c x
    else s

/-- The capture begins with the switch-on, at the capture gain (R106). That the gain is set at the end of the discharge
before it, and not while it runs, is a choice of the model (log 61). -/
def State.beginCapture (s : State) (b : Bus) (c : Channel) (level : Bias) : State :=
  ((s.mapCtx b fun x => { x with phase := .capture, gain := captureGain level,
                                 work := { x.work with stage := .capCapture } }).selectGain c (captureGain level)
    ).switchOn c level

/-- The run moves on at the end of a discharge: to its end, the capture, or the next step (R90, R116, R123). -/
def State.afterDischarge (s : State) (b : Bus) (c : Channel) (x : RunContext) : State :=
  if x.phase ≠ .discharge then s
  else if x.abort.isSome then s.endRun b
  else
    match x.work.stage, s.stepInHand x with
    | .capDrain, some (.cap level _) => s.beginCapture b c level
    | .closing, _ => s.endStep b c
    | _, _ => s

/-- A discharge is over; a switch-on that waited for it is made (R88, R90). -/
def State.dischargeOver (s : State) (c : Channel) : State :=
  let r := s.chan c
  if r.activity ≠ .discharging then s
  else
    let s := s.setChan c { r with activity := .quiet, timer := 0, biasNext := none }
    match r.biasNext with
    | some level => s.connectBias c level
    | none =>
      match s.runOn c with
      | some (b, x) => s.afterDischarge b c x
      | none => s

/-- The duration of a WAIT step is over (R116). -/
def State.waitOver (s : State) (b : Bus) : State :=
  match s.ctx b with
  | none => s
  | some x =>
    match x.phase, x.channel with
    | .wait, some c => s.endStep b c
    | _, _ => s

/-- A sample of a reading or of a capture. -/
def StepWork.take (w : StepWork) (phase : Phase) (code : Int) : StepWork :=
  match phase, w.reading with
  | .reading, some rd =>
    if rd.raw.length < 2 + rd.n then { w with reading := some { rd with raw := code :: rd.raw } } else w
  | .capture, _ =>
    if w.capture.length < Config.captureSamples then { w with capture := code :: w.capture } else w
  | _, _ => w

/-- The converter produces a code (R87, R92, R95, R106). -/
def State.sample (s : State) (c : Channel) (code : Int) : State :=
  let r := s.chan c
  match r.cal with
  | some w => s.setChan c { r with cal := some (w.take code) }
  | none =>
    if r.state ≠ .busy then s
    else
      let s := s.setChan c (r.writeSample code)
      match s.runOn c with
      | some (b, x) => s.setCtx b (some { x with work := x.work.take x.phase code })
      | none => s

/-! ## The wait list and channels for runs (R55 to R57) -/

/-- The value of a priority name. -/
def Priorities.ofName (t : Priorities) : PriorityName → Nat
  | .routine => t.routine | .catchup => t.catchup | .lockout => t.lockout

def Priorities.ofDesk (t : Priorities) : Desk → Nat
  | .d1 => t.desk1 | .d2 => t.desk2 | .d3 => t.desk3 | .d4 => t.desk4

/-- The priority with which a run joins the wait list (R55). -/
def State.runPriority (s : State) (b : Bus) : Holder → Nat
  | .desk d => s.gar.prio.ofDesk d
  | .routine .lockout => s.gar.prio.lockout
  | .routine _ =>
    match s.rts.dispatch.get b with
    | some d => s.gar.prio.ofName d.name
    | none => s.gar.prio.routine

/-- Behind every run of the same or higher priority, ahead of every run of lower priority (R55). -/
def insertWaiting (w : WaitEntry) : List WaitEntry → List WaitEntry
  | [] => [w]
  | v :: rest => if v.priority < w.priority then w :: v :: rest else v :: insertWaiting w rest

def State.joinWaiting (s : State) (b : Bus) (x : RunContext) : State :=
  let w : WaitEntry := { handle := x.handle, bus := b, priority := s.runPriority b x.origin }
  s.mapGar fun g => { g with waiting := insertWaiting w g.waiting }

def State.leaveWaiting (s : State) (handle : Nat) : State :=
  s.mapGar fun g => { g with waiting := g.waiting.filter fun w => w.handle ≠ handle }

/-- The head of the wait list leaves it, to be given a channel (R56). -/
def State.takeHead (s : State) (c : Channel) (w : WaitEntry) : State :=
  (s.leaveWaiting w.handle).mapGar fun g => { g with moment := g.moment.given c w (s.chan c).written }

/-- A READY channel is given to the run of a bus, which goes to its first step or calibrates first (R56, R83). -/
def State.giveChannel (s : State) (c : Channel) (b : Bus) : State :=
  match s.ctx b with
  | none => s
  | some x =>
    let r := (s.chan c).give x.handle b
    let s := (s.setChan c r).setCtx b (some { x with channel := some c, gain := .g1, range := .rc,
                                                     phase := .calibrate })
    if r.activity = .calInRun then s else State.beginSteps b c (s.program x.program) 0 s

/-- READY channels are given to the head of the wait list, as long as there are both (R55, R56); `fuel` bounds the
number given. -/
def State.serveWaiting : Nat → State → State
  | 0, s => s
  | fuel + 1, s =>
    match s.readyChannel, s.gar.waiting with
    | some c, w :: _ => State.serveWaiting fuel ((s.takeHead c w).giveChannel c w.bus)
    | _, _ => s

/-! ## Aborts (R123) -/

/-- The run acts on an abort by its phase. -/
def State.actOnAbort (s : State) (b : Bus) (x : RunContext) : State :=
  match x.phase, x.channel with
  | .waitChannel, _ => (s.leaveWaiting x.handle).endRun b
  | .discharge, _ => s
  | .reading, some c | .settle, some c | .capture, some c =>
    if (s.chan c).bias = .off then s.endRun b
    else
      (s.switchOff c).mapCtx b fun x =>
        { x with phase := .discharge, work := { x.work with stage := .closing, reading := none } }
  | _, _ => s.endRun b

/-- An abort asked for a run in flight; the first one taken counts, and none in the final discharge. -/
def State.abortRun (s : State) (b : Bus) (cause : AbortCause) : State :=
  match s.ctx b with
  | none => s
  | some x =>
    if x.abort.isSome ∨ x.final then s
    else (s.setCtx b (some { x with abort := some cause })).actOnAbort b { x with abort := some cause }

/-- The runs of some wait-list entries are aborted, in list order (R57). -/
def State.abortWaiting (s : State) (cause : AbortCause) : List WaitEntry → State
  | [] => s
  | w :: rest => (s.abortRun w.bus cause).abortWaiting cause rest

/-- The number of channels in service may have changed from `before`: from 0, the arbiter arbitrates; to 0, the
waiting runs are aborted (R77, R57). -/
def State.serviceReview (before : Nat) (s : State) : State :=
  if before = 0 ∧ s.served ≠ 0 then s.arbitrationDue
  else if before ≠ 0 ∧ s.served = 0 then s.abortWaiting .noChannel s.gar.waiting
  else s

/-! ## Calibrations (R80, R83, R84) -/

/-- The cause of a CHANNEL notice for a failed calibration. -/
def calFailCause (o : Offsets) : ChannelCause :=
  match failedGain o with
  | some (g, v) => .calFail g v
  | none => .calDone

/-- End of a calibration in CALIBRATING (R80). -/
def State.calibrationOver (s : State) (c : Channel) : State :=
  let r := s.chan c
  match r.state, r.cal.bind CalWork.offsets with
  | .calibrating, some o =>
    let u := r.calibrated o s.now
    if (failedGain o).isNone then
      ((s.setChan c { u with state := .ready }).channelReady c).tellChannel c .ready .calDone
    else
      ((s.setChan c { u with state := .faulted }).tellChannel c .faulted (calFailCause o)).serviceReview s.served
  | _, _ => s

/-- End of an in-run calibration (R83, R84). -/
def State.inRunCalibrationOver (s : State) (c : Channel) : State :=
  let r := s.chan c
  match s.runOn c, r.activity, r.cal.bind CalWork.offsets with
  | some (b, x), .calInRun, some o =>
    let u := r.calibrated o s.now
    if (failedGain o).isNone then
      State.beginSteps b c (s.program x.program) 0 (s.setChan c { u with activity := .quiet })
    else
      (((s.setChan c { u.atRest with state := .faulted, disablePending := false }).tellChannel c .faulted
        (calFailCause o)).abortRun b .channelFault).serviceReview s.served
  | _, _, _ => s

/-! ## Starting a run (R113, R114, R117) -/

/-- A run is bound to a bus and asks for a channel; its handle is returned. A channel is given from the wait list
at the end of the step. Until then the context's step index, gain and range are 0, 1 and RC, a choice of the model
(log 44). -/
def State.startRun (s : State) (b : Bus) (origin : Holder) (program : Nat) (ticketing : Bool) : State × Nat :=
  let h := firstFree s.handleUsed 40 s.rsq.nextHandle
  let r := s.bus b
  let line := r.line.getD 0
  let x : RunContext :=
    { handle := h, origin := origin, line := line, bus := b, cls := (s.line line).cls, program := program,
      ticketing := ticketing, channel := none, stepIx := 0, phase := .waitChannel, final := false, gain := .g1,
      range := .rc, start := s.now, done := [], cur := none, pending := [], abort := none, work := StepWork.idle }
  let s := (s.mapRsq fun k => { k with nextHandle := (h + 1) % 65536 }).setCtx b (some x)
  ((s.setBus b { r with state := .measuring, run := some h }).joinWaiting b x, h)

/-- The run of a routine bus that has reached HELD; with no channel in service it is aborted at once (R54,
R117). -/
def State.startRoutineRun (s : State) (b : Bus) (k : RoutineKind) : State :=
  let s := (s.startRun b (.routine k) ((s.bus b).program.getD 0) true).1
  if s.served = 0 then s.abortRun b .noChannel else s

/-- End of the access check (R23, R24). -/
def State.accessCheckOver (s : State) (b : Bus) (pass : Bool) : State :=
  if pass then
    let s := s.reachState b .held .disconnected
    match (s.bus b).holder with
    | some (.routine k) => s.startRoutineRun b k
    | _ => s
  else s.accessFailed b

/-- RUN (R113). -/
def runRequest (p : Port) (q : Request) (s : State) : State :=
  let program := field q.payload 1 1
  let ticketing := flagOf (field q.payload 2 1)
  withHeldBus (fun b r s =>
    if r.state ≠ .held then s.refuse p q .wrongState
    else if (s.program program).isEmpty then s.refuse p q .emptyProgram
    else if s.served = 0 then s.refuse p q .noChannel
    else
      let t := s.startRun b (.desk (senderDesk p)) program (ticketing.getD false)
      (t.1.renewHold b).answer p q .accepted (u16 t.2)) (program ≤ 7 && ticketing.isSome) p q s

/-- CANCEL_RUN (R124); accepted, it renews the hold timer of the run's bus (log 14). -/
def cancelRun (p : Port) (q : Request) (s : State) : State :=
  let h := field q.payload 0 2
  if h = 0 then s.refuse p q .badField
  else
    match s.runBus h with
    | none => s.refuse p q .noSuch
    | some b =>
      match s.ctx b with
      | none => s.refuse p q .noSuch
      | some x =>
        if x.origin ≠ .desk (senderDesk p) then s.refuse p q .notHolder
        else if x.final then s.refuse p q .tooLate
        else ((s.ok p q false []).renewHold b).abortRun b .cancelled

end Sys2Proof.Machine
end

