-- ==== Sys2Proof/Machine/Releases.lean ====
section
/-! DEFINITION. Release requests (R25, R33, R34, R36, R38 to R40). -/

namespace Sys2Proof.Machine

/-- The release reason is written; the hold timer stops (R31, R33). -/
def State.markRelease (s : State) (b : Bus) (reason : ReleaseReason) : State :=
  let r := s.bus b
  s.setBus b { r with reason := some reason, hold := r.hold.stop }

/-- An access check is in progress on the bus (R23, R25). -/
def RelayPhase.isChecking : RelayPhase → Bool
  | .checking _ => true
  | .atRest => false | .pointOperating _ => false | .lineOperating _ => false | .operated => false
  | .lineReleasing _ => false | .pointReleasing _ => false

/-- A release request for a bus (R33, R36). -/
def State.requestRelease (s : State) (b : Bus) (reason : ReleaseReason) : State :=
  let r := s.bus b
  if r.reason.isSome then s
  else
    match r.state with
    | .idle | .releasing => s
    | .held | .talk | .tone | .monitor => s.enterReleasing b reason
    | .connecting => if r.relay.isChecking then s.enterReleasing b reason else s.markRelease b reason
    | .measuring =>
      match causeOf reason with
      | some c => (s.markRelease b reason).abortRun b c
      | none => s.markRelease b reason

/-- A release request for every bus of a set: buses whose runs wait for a channel first, in list order, then in
bus order (log 10). -/
def State.releaseEach (s : State) (which : BusRecord → Bool) (reason : ReleaseReason) : List Bus → State
  | [] => s
  | b :: rest =>
    (if which (s.bus b) then s.requestRelease b reason else s).releaseEach which reason rest

def State.releaseAll (s : State) (which : BusRecord → Bool) (reason : ReleaseReason) : State :=
  s.releaseEach which reason (s.gar.waiting.map WaitEntry.bus ++ allBuses)

/-- RELEASE (R18, R34). -/
def releaseRequest (p : Port) (q : Request) (s : State) : State :=
  match busOf (field q.payload 0 1) with
  | none => s.refuse p q .badField
  | some b =>
    if ¬ (s.bus b).heldByDesk (senderDesk p) then s.refuse p q .notHolder
    else (s.ok p q false []).requestRelease b .released

end Sys2Proof.Machine
end

