-- ==== Sys2Proof/Machine/Arbiter.lean ====
section
/-! DEFINITION. The grant arbiter: arbitrations and grants (R47 to R52), CONNECT (R42 to R45), and the end of a
step, at which waiting runs are given channels and the arbiter arbitrates (log 7). -/

namespace Sys2Proof.Machine

/-! ## Claimants (R48, R49) -/

/-- A queued desk entry is eligible. -/
def State.eligible (s : State) (e : QueueEntry) : Bool :=
  (s.heldBy e.line).isNone && (s.freePoint (shelfOf e.line)).isSome

/-- The routine scheduler may be asked (R49, R131). -/
def State.mayAsk (s : State) : Bool :=
  s.rts.state = .running && s.rts.held < s.rts.params.rbl && s.served ≠ 0

/-- One candidate of RTS, or none where it is not asked. -/
def State.candidate (s : State) : State × Option Candidate :=
  if s.mayAsk then s.askCandidate else (s, none)

/-- A claimant among desk requests: an entry, and whether it stands in the queue or is the NOWAIT request. -/
abbrev DeskClaim := QueueEntry × Bool

/-- The highest priority, the earliest among equals (R50, 2 and 3). -/
def bestDesk : List DeskClaim → Option DeskClaim
  | [] => none
  | c :: rest =>
    match bestDesk rest with
    | some d => if c.1.priority < d.1.priority then some d else some c
    | none => some c

/-- The winner of an arbitration. -/
inductive Winner where
  | nobody
  | desk (c : DeskClaim)
  | routine (c : Candidate)
deriving DecidableEq, Repr

/-- The choice of R50; `ratio` is the service-ratio counter. -/
def chooseWinner (ratio sr : Nat) (prio : Priorities) (desk : Option DeskClaim) (cand : Option Candidate) :
    Winner :=
  match desk, cand with
  | none, none => .nobody
  | some d, none => .desk d
  | none, some c => .routine c
  | some d, some c =>
    if sr ≤ ratio then .routine c
    else if d.1.priority < prio.ofName c.name then .routine c
    else .desk d

/-- The service-ratio counter after an arbitration (R51). -/
def nextRatio (ratio : Nat) (offered : Bool) : Winner → Nat
  | .desk _ => if offered then ratio + 1 else 0
  | .routine _ => 0
  | .nobody => if offered then ratio else 0

/-- One decision: the desk claimants, the candidate, the winner, the counter (R48 to R51). -/
def State.decideWinner (s : State) (nowait : Option QueueEntry) : State × Winner :=
  let (s, cand) := s.candidate
  let desks := (s.gar.queue.map fun e => (e, true)) ++ (nowait.map fun e => (e, false)).toList
  let w := chooseWinner s.gar.ratio s.rts.params.sr s.gar.prio (bestDesk (desks.filter fun c => s.eligible c.1))
    cand
  (s.mapGar fun g => { g with ratio := nextRatio g.ratio cand.isSome w }, w)

/-! ## Grants (R52) -/

/-- The entry of a desk and line leaves the queue. -/
def State.dequeue (s : State) (e : QueueEntry) : State :=
  s.mapGar fun g => { g with queue := g.queue.filter fun f => f.desk ≠ e.desk ∨ f.line ≠ e.line }

/-- A desk claimant is granted a bus; either way the arbiter is to arbitrate again (R47, R52). -/
def State.grantDesk (s : State) (b : Bus) (e : QueueEntry) : State :=
  let c : Claim := { holder := .desk e.desk, line := e.line, mode := e.mode, guard := e.guard, tag := e.tag,
                     seq := e.seq }
  match s.grantCheck c with
  | some reason => (s.notifyDesk e.desk (.connectFailed reason e.tag e.seq)).arbitrationDue
  | none => (s.beginConnect b c).arbitrationDue

/-- The routine candidate is granted a bus. -/
def State.grantRoutine (s : State) (b : Bus) (k : Candidate) : State :=
  let s := s.routineGranted k b
  let c : Claim := { holder := .routine (subKind k.source), line := k.line, mode := .split, guard := false, tag := 0,
                     seq := 0 }
  match s.grantCheck c with
  | some reason => (s.routineGrantFailed k b (grantCause reason)).arbitrationDue
  | none => (s.beginConnect b c).arbitrationDue

/-- The winner is granted the bus; a queued entry leaves the queue. -/
def State.grant (s : State) (b : Bus) : Winner → State
  | .nobody => s
  | .desk c => (if c.2 then s.dequeue c.1 else s).grantDesk b c.1
  | .routine c => s.grantRoutine b c

/-- One arbitration for the lowest-numbered IDLE bus. -/
def State.arbitrateOnce (s : State) (b : Bus) : State :=
  let r := s.decideWinner none
  r.1.grant b r.2

/-- Arbitrations as long as one is due and a bus is IDLE, in OPERATIONAL (R47). `fuel` bounds their number: each
follows a grant, an entry that left the queue, or a change of a routine list. -/
def State.arbitrate : Nat → State → State
  | 0, s => s.mapGar fun g => { g with arbDue := false }
  | fuel + 1, s =>
    let t := s.mapGar fun g => { g with arbDue := false }
    if s.gar.arbDue ∧ s.op = .operational then
      match s.idleBus with
      | some b => State.arbitrate fuel (t.arbitrateOnce b)
      | none => t
    else t

/-- The end of a step: waiting runs take READY channels, then the arbiter arbitrates if it is due (log 7). A run that
ends as it is given its channel can put the run of MC1 back on the list (R56, log 60), so twice the length of the list
and 2 more bound the number of channels given. -/
def State.settle (s : State) : State := State.arbitrate 256 (State.serveWaiting (2 * s.gar.waiting.length + 2) s)

/-! ## CONNECT (R43 to R45) -/

/-- The arrival sequence after a number; 65 535 is followed by 1 (R42). -/
def nextSequence (n : Nat) : Nat := if n = 65535 then 1 else n + 1

def State.takeSequence (s : State) : State := s.mapGar fun g => { g with nextSeq := nextSequence g.nextSeq }

/-- A NOWAIT CONNECT that has passed steps 1 to 5 (R44). The notices of its arbitration, such as the SWEEP_DONE of the
scheduler's review, and of a grant to another claimant are offered before the ACCEPTED or NO_BUS reply joins its
queue, a choice of the model (log 53). -/
def State.connectNow (s : State) (p : Port) (q : Request) (e : QueueEntry) : State :=
  if (s.heldBy e.line).isSome then s.refuse p q .lineHeld
  else if (s.freePoint (shelfOf e.line)).isNone then s.refuse p q .shelfFull
  else
    match s.idleBus with
    | none => s.refuse p q .noBus
    | some b =>
      match s.decideWinner (some e) with
      | (s, .desk (f, false)) => ((s.takeSequence).answer p q .accepted (u16 e.seq)).grantDesk b f
      | (s, w) => (s.grant b w).refuse p q .noBus

/-- A queued CONNECT for a line that routine work holds asks for that bus (R45). -/
def State.preemptRoutine (s : State) (line : Nat) : State :=
  match s.heldBy line with
  | some b => if (s.bus b).isRoutine then s.requestRelease b .preemptedDesk else s
  | none => s

/-- A CONNECT appended to the queue (R43, 8). -/
def State.enqueue (s : State) (p : Port) (q : Request) (e : QueueEntry) : State :=
  let s := (s.mapGar fun g => { g with queue := g.queue ++ [e] }).takeSequence
  ((s.answer p q .accepted (u16 e.seq)).preemptRoutine e.line).arbitrationDue

/-- The desk has the line queued or held (R43, 5). -/
def State.duplicateConnect (s : State) (d : Desk) (line : Nat) : Bool :=
  s.gar.queue.any (fun e => e.desk = d && e.line = line)
    || allBuses.any fun b => (s.bus b).heldByDesk d && (s.bus b).line = some line

/-- CONNECT (R43). -/
def connectRequest (p : Port) (q : Request) (s : State) : State :=
  let line := field q.payload 0 2
  match modeOf (field q.payload 2 1), flagOf (field q.payload 3 1), flagOf (field q.payload 4 1) with
  | some mode, some guard, some nowait =>
    let d := senderDesk p
    let e : QueueEntry :=
      { desk := d, tag := q.tag.toNat, seq := s.gar.nextSeq, line := line, mode := mode,
        guard := guard && mode = .split, priority := s.gar.prio.ofDesk d }
    if ¬ isLine line then s.refuse p q .badField
    else if ¬ (s.line line).equipped then s.refuse p q .notEquipped
    else if s.duplicateConnect d line then s.refuse p q .duplicate
    else if nowait then s.connectNow p q e
    else if 8 ≤ s.gar.queue.length ∨ 2 ≤ (s.gar.queue.filter fun f => f.desk = d).length then
      s.refuse p q .queueFull
    else s.enqueue p q e
  | _, _, _ => s.refuse p q .badField

/-! ## A line reaches NORMAL (R35, R69) -/

/-- EXC answers the line's pending seize and the arbiter arbitrates, in the order the free choice gives where
there is a seize to answer (R69, log 8). -/
def State.lineFree (s : State) (line : Nat) : State :=
  let s := s.arbitrationDue
  if (s.seizeEntry line).isNone then s
  else
    let t := { s with free := s.free + 1 }
    if Config.firstReportFirst s.free then t.answerSeizes line else (t.settle).answerSeizes line

/-- The bus leaves its line, which is reported free. -/
def State.freeLine (s : State) (b : Bus) : State :=
  match (s.bus b).line with
  | some l => (s.leaveLine b).lineFree l
  | none => s.leaveLine b

/-- End of the shelf point operation: the line relay operates, or a pending release is applied; the line relay is
then not operated and the line returns to NORMAL (R22, R25). The TEST_DONE of a lockout test is offered to P0 before
the GRANTED reply that the free line brings, a choice of the model (log 53). -/
def State.pointOperated (s : State) (b : Bus) : State :=
  let r := s.bus b
  match r.reason with
  | none => s.setBus b { r with relay := .lineOperating Config.operateMs }
  | some reason => (s.reportConnectEnd r reason).freeLine b

end Sys2Proof.Machine
end

