-- ==== Sys2Proof/Machine/Exchange.lean ====
section
/-! DEFINITION. The exchange coordinator: call-state reports, seizes, test requests, time of day (R59 to R73). -/

namespace Sys2Proof.Machine

/-! ## Call-state reports (R61 to R64, R70) -/

/-- The bus that holds a line in SPLIT: access state SPLIT(b) or SPLIT(b) OPERATING (R62). -/
def AccessState.splitBus : AccessState → Option Bus
  | .split b .settled => some b
  | .split b .operating => some b
  | .split _ .releasing => none
  | .bridge _ _ => none
  | .normal => none

/-- CALL_ATTEMPT to a desk holder (R64). -/
def State.callAttempt (s : State) (b : Bus) (line : Nat) (cause : AttemptCause) : State :=
  s.tellHolder (s.bus b) (.callAttempt b line cause s.now)

/-- A call on a line held in SPLIT with no release pending (R62). -/
def State.callOnSplit (s : State) (line : Nat) (cause : AttemptCause) : State :=
  match (s.line line).access.splitBus with
  | none => s
  | some b =>
    if (s.bus b).reason.isSome then s
    else if (s.bus b).isRoutine then s.requestRelease b .preemptedCall
    else s.callAttempt b line cause

/-- A report of IDLE takes the line off the lockout list (R63). -/
def State.unlock (s : State) (line : Nat) : State :=
  if s.rts.lockout.contains line then
    (s.mapRts fun r => { r with lockout := r.lockout.filter fun k => k ≠ line }).testDone line .notNeeded none none []
  else s

/-- The actions of a report once it is written (R62, R63). -/
def State.actOnCall (s : State) (line : Nat) : CallState → State
  | .busy => s.callOnSplit line .busy
  | .ringing => s.callOnSplit line .ringing
  | .idle => s.unlock line
  | .lockout => s

/-- The report placed in the line's pending seize entry (R70). -/
def State.holdReport (s : State) (line : Nat) (c : CallState) : State :=
  { s with exc := { s.exc with
      seizes := s.exc.seizes.map fun e => if e.line = line then { e with report := some c } else e } }

/-- CALL_STATE (R61, R70). -/
def callStateRequest (p : Port) (q : Request) (s : State) : State :=
  let line := field q.payload 0 2
  match callOf (field q.payload 2 1) with
  | none => s.refuse p q .badField
  | some c =>
    if ¬ isLine line then s.refuse p q .badField
    else
      let s := s.ok p q false []
      if (s.seizeEntry line).isSome then
        let s := s.holdReport line c
        if c = .idle then s.unlock line else s
      else (s.setCall line c).actOnCall line c

/-! ## Seizes (R65 to R68) -/

/-- The tag joins the line's entry, or a new entry is made (R68). -/
def addTag (line : Nat) (tag : Byte) (table : List SeizeEntry) : List SeizeEntry :=
  if table.any fun e => e.line = line then
    table.map fun e => if e.line = line then { e with tags := e.tags ++ [tag] } else e
  else table ++ [{ line := line, tags := [tag], report := none }]

/-- The SEIZE waits for the line (R66, 1 and 2). -/
def State.seizeWaits (s : State) (line : Nat) (tag : Byte) : State :=
  let s := s.setCall line .busy
  { s with exc := { s.exc with seizes := addTag line tag s.exc.seizes } }

/-- The line is with the exchange: GRANTED at once (R65). -/
def State.seizeGranted (s : State) (p : Port) (q : Request) (line : Nat) : State :=
  (s.setCall line .busy).ok p q false (flagByte false)

/-- A desk's guard protects its test (R65, R67). -/
def State.guarded (s : State) (b : Bus) (line : Nat) : Bool :=
  !(s.bus b).isRoutine && (s.bus b).guard && !(s.lineClass line).priority

/-- A SEIZE for a line in SPLIT or SPLIT OPERATING on a bus (R65 to R67). -/
def State.seizeSplit (s : State) (p : Port) (q : Request) (line : Nat) (b : Bus) : State :=
  if (s.bus b).reason.isSome then s.seizeWaits line q.tag
  else if s.guarded b line then (s.ok p q false (flagByte true)).callAttempt b line .seize
  else (s.seizeWaits line q.tag).requestRelease b .preemptedCall

/-- SEIZE (R65). -/
def seizeRequest (p : Port) (q : Request) (s : State) : State :=
  let line := field q.payload 0 2
  if ¬ isLine line then s.refuse p q .badField
  else if (s.seizeEntry line).any fun e => 2 ≤ e.tags.length then s.refuse p q .duplicate
  else
    match (s.line line).access with
    | .normal => s.seizeGranted p q line
    | .bridge _ _ => s.seizeGranted p q line
    | .split _ .releasing => s.seizeWaits line q.tag
    | .split b .operating => s.seizeSplit p q line b
    | .split b .settled => s.seizeSplit p q line b

/-! ## Test requests (R71) -/

/-- A routine bus of sub-kind LOCKOUT holds the line. -/
def State.lockoutTestOn (s : State) (line : Nat) : Bool :=
  allBuses.any fun b =>
    (s.bus b).state ≠ .idle && (s.bus b).line = some line && (s.bus b).holder = some (.routine .lockout)

/-- TEST_REQUEST (R71). -/
def testRequest (p : Port) (q : Request) (s : State) : State :=
  let line := field q.payload 0 2
  if ¬ isLine line then s.refuse p q .badField
  else if ¬ (s.line line).equipped then s.refuse p q .notEquipped
  else if (s.line line).call ≠ .lockout then s.refuse p q .notLockout
  else if s.rts.lockout.contains line ∨ s.lockoutTestOn line then s.refuse p q .duplicate
  else if 16 ≤ s.rts.lockout.length then s.refuse p q .full
  else
    let s := s.mapRts fun r => { r with lockout := r.lockout ++ [line] }
    (s.ok p q false (u8 s.rts.lockout.length)).arbitrationDue

/-! ## Time of day (R73) -/

/-- The time of day written; a change in the number of due deferred entries is work to offer (R138). -/
def State.setTime (s : State) (t : Stamp) : State :=
  let u := { s with exc := { s.exc with time := t, subMs := 0 } }
  if dueCount t s.rts.deferred = dueCount s.now s.rts.deferred then u else u.arbitrationDue

/-- TIME_SET (R73). -/
def timeSet (p : Port) (q : Request) (s : State) : State :=
  let t : Stamp := { day := field q.payload 0 2, sec := field q.payload 2 3 }
  if 86399 < t.sec then s.refuse p q .badField
  else
    let s := { s with exc := { s.exc with unset := false } }
    (s.setTime t).ok p q false (stampBytes (some t))

end Sys2Proof.Machine
end

