-- ==== Sys2Proof/Machine/Configuration.lean ====
section
/-! DEFINITION. The configuration requests, the commit, RESTART and the clearing of counters (R12 to R15, R46,
R81, R82, R112, R132, R162, R170, R180 to R182). -/

namespace Sys2Proof.Machine

/-- At least one equipped line has the class (R2). -/
def State.classUsed (s : State) (c : Nat) : Bool := s.lrt.lines.any fun e => e.2.equipped && e.2.cls = c

/-- The program is the routine program of a class that an equipped line has. -/
def State.routineProgramUsed (s : State) (n : Nat) : Bool :=
  (List.range 8).any fun c => (s.cls c).program = n && s.classUsed c

/-- The program is in use (R111). -/
def State.programInUse (s : State) (n : Nat) : Bool :=
  allBuses.any fun b =>
    (s.ctx b).any (fun x => x.program = n) || ((s.bus b).state = .connecting && (s.bus b).program = some n)

/-! ## Lines and classes (R12, R14, R15) -/

/-- A line record with the class and equipped value of a CONFIG_LINES. -/
def LineRecord.configured (r : LineRecord) (c : Nat) (equipped : Bool) : LineRecord :=
  { r with cls := c, equipped := equipped }

/-- The lines of a list given a class and an equipped value (R15). -/
def State.writeLines (s : State) (c : Nat) (equipped : Bool) : List Nat → State
  | [] => s
  | n :: rest => (s.setLine n ((s.line n).configured c equipped)).writeLines c equipped rest

/-- The lines of a run of consecutive numbers. -/
def lineRun (first count : Nat) : List Nat := (List.range count).map fun i => first + i

/-- CONFIG_LINES (R14, R15). -/
def configLines (p : Port) (q : Request) (s : State) : State :=
  let first := field q.payload 0 2
  let asked := field q.payload 2 2
  let c := field q.payload 4 1
  match flagOf (field q.payload 5 1) with
  | none => s.refuse p q .badField
  | some equipped =>
    if ¬ isLine first ∨ 7 < c then s.refuse p q .badField
    else
      let count := clampNat 1 (2048 - first) asked
      match (lineRun first count).find? fun n => (s.line n).access ≠ .normal with
      | some n => s.answer p q (.refused .inUse) (u16 n)
      | none =>
        if s.op = .operational ∧ equipped ∧ (s.program (s.cls c).program).isEmpty then s.refuse p q .emptyProgram
        else (s.writeLines c equipped (lineRun first count)).ok p q (count ≠ asked) (u16 first ++ u16 count)

/-- CONFIG_CLASS (R12). -/
def configClass (p : Port) (q : Request) (s : State) : State :=
  let c := field q.payload 0 1
  let e := classEntryOf q.payload
  if 7 < c ∨ 7 < e.program ∨ (flagOf (field q.payload 1 1)).isNone then s.refuse p q .badField
  else if ¬ e.inRange then s.refuse p q .badField
  else if ¬ e.consistent then s.refuse p q .badField
  else if s.op = .operational ∧ s.classUsed c ∧ (s.program e.program).isEmpty then s.refuse p q .emptyProgram
  else (s.setCls c e.bound).ok p q (e.bound ≠ e) (classEntryBytes e.bound)

/-- CONFIG_PROGRAM (R112). -/
def configProgram (p : Port) (q : Request) (s : State) : State :=
  let n := field q.payload 0 1
  let count := field q.payload 1 1
  match stepsOf count (q.payload.drop 2) with
  | none => s.refuse p q .badField
  | some steps =>
    if 7 < n ∨ 12 < count then s.refuse p q .badField
    else if ¬ beginsWithFv steps then s.refuse p q .badProgram
    else if s.programInUse n then s.refuse p q .inUse
    else if s.op = .operational ∧ steps.isEmpty ∧ s.routineProgramUsed n then s.refuse p q .emptyProgram
    else
      let stored := steps.map boundStep
      (s.setProgram n stored).ok p q (stored ≠ steps) (listBytes programStepBytes stored)

/-! ## Parameters (R46, R132, R162, R180) -/

/-- CONFIG_PRIORITY (R46). The reply returns the seven values as written also where none was clamped, a choice of the
model (log 59). -/
def configPriority (p : Port) (q : Request) (s : State) : State :=
  let t := prioritiesOf q.payload
  (s.mapGar fun g => { g with prio := t.bound }).ok p q (t.bound ≠ t) (prioritiesBytes t.bound)

/-- CONFIG_ROUTINE (R132). -/
def configRoutine (p : Port) (q : Request) (s : State) : State :=
  let t := routineParamsOf q.payload
  (s.mapRts fun r => { r with params := t.bound }).ok p q (t.bound ≠ t) (routineParamsBytes t.bound)

/-- CONFIG_STORM (R162). -/
def configStorm (p : Port) (q : Request) (s : State) : State :=
  let t := stormParamsOf q.payload
  (s.mapTkt fun k => { k with params := t.bound }).ok p q (t.bound ≠ t) (stormParamsBytes t.bound)

/-- The times of CONFIG_TIMES written (R180). -/
def State.setTimes (s : State) (t : TimeParams) : State :=
  { s with acc := { s.acc with holdTime := t.hold, toneLimit := t.toneLimit },
           mc := { s.mc with settle1 := t.settle1, settle2 := t.settle2, settle3 := t.settle3 } }

/-- CONFIG_TIMES (R180). -/
def configTimes (p : Port) (q : Request) (s : State) : State :=
  let t := timeParamsOf q.payload
  (s.setTimes t.bound).ok p q (t.bound ≠ t) (timeParamsBytes t.bound)

/-! ## Channels (R81, R82) -/

/-- The channel after an enable (R81). -/
def ChannelRecord.enabled (op : OperState) (r : ChannelRecord) : ChannelRecord :=
  let r := { r with enable := true }
  if op = .config then r
  else
    match r.state with
    | .off | .faulted => r.warmUp
    | .warming | .calibrating | .ready => r
    | .busy => { r with disablePending := false }

/-- The channel after a disable (R82). -/
def ChannelRecord.disabled (r : ChannelRecord) : ChannelRecord :=
  let r := { r with enable := false }
  match r.state with
  | .off => r
  | .warming | .calibrating | .ready | .faulted => { r.atRest with state := .off, stage := 0 }
  | .busy => { r with disablePending := true }

/-- A disable, with its notice where the channel enters OFF, and the loss of service (R57, R82). -/
def State.disableChannel (s : State) (c : Channel) : State :=
  let before := s.served
  let old := s.chan c
  let s := s.setChan c old.disabled
  let s := if old.state ≠ .off ∧ old.disabled.state = .off then s.tellChannel c .off .disabled else s
  s.serviceReview before

def State.enableChannel (s : State) (c : Channel) : State :=
  (s.setChan c ((s.chan c).enabled s.op)).serviceReview s.served

/-- The channel's state and disable-pending field (5.4). -/
def State.okChannel (s : State) (p : Port) (q : Request) (c : Channel) : State :=
  s.ok p q false (u8 (channelStateCode (s.chan c).state) ++ flagByte (s.chan c).disablePending)

/-- The value of a CHANNEL_SET: 1 for enable, 0 for disable (log 19). -/
def setsDisable (q : Request) : Bool := q.payload[1]? = some 0

/-- CHANNEL_SET(enable), and CHANNEL_SET with a value that is neither (R81, log 25). -/
def channelSetEnable (p : Port) (q : Request) (s : State) : State :=
  match channelOf (field q.payload 0 1), flagOf (field q.payload 1 1) with
  | some c, some true => (s.enableChannel c).okChannel p q c
  | _, _ => s.refuse p q .badField

/-- CHANNEL_SET(disable) (R82). The reply, which carries the state after the request, joins its queue after the notices
of the disable were offered, a choice of the model (log 53). -/
def channelSetDisable (p : Port) (q : Request) (s : State) : State :=
  match channelOf (field q.payload 0 1) with
  | some c => (s.disableChannel c).okChannel p q c
  | none => s.refuse p q .badField

/-! ## Commit (R181) -/

/-- The first class used by equipped lines whose routine program is empty. -/
def State.failingClass (s : State) : Option Nat :=
  (List.range 8).find? fun c => s.classUsed c && (s.program (s.cls c).program).isEmpty

/-- A channel at the commit that enters OPERATIONAL (R81). -/
def ChannelRecord.commit (r : ChannelRecord) : ChannelRecord := if r.enable then r.warmUp else r

/-- The window timer at the window length (R162). -/
def State.startWindow (s : State) : State := s.mapTkt fun k => { k with window := some (k.params.window * 1000) }

/-- Entry to OPERATIONAL. -/
def State.enterOperational (s : State) : State :=
  let before := s.served
  let chans : PerChannel ChannelRecord := ⟨s.mc.chans.mc0.commit, s.mc.chans.mc1.commit⟩
  let s := { s with op := .operational, mc := { s.mc with chans := chans } }
  s.startWindow.serviceReview before

/-- CONFIG_COMMIT (R181). -/
def configCommit (p : Port) (q : Request) (s : State) : State :=
  if s.op = .operational then s.refuse p q .wrongState
  else
    match s.failingClass with
    | some c => s.answer p q (.refused .badConfig) (u8 c ++ u8 (s.cls c).program)
    | none => (s.ok p q false []).enterOperational

/-! ## RESTART (R58, R144, R162, R182) -/

/-- Every queued CONNECT ended with CONNECT_FAILED(RESTART), in queue order (R58). -/
def State.failQueue (s : State) : List QueueEntry → State
  | [] => s
  | e :: rest => (s.notifyDesk e.desk (.connectFailed (.release .restart) e.tag e.seq)).failQueue rest

/-- The storm watch at RESTART (R162). -/
def State.restartStorm (s : State) : State :=
  let old := s.tkt.storm
  let count := s.tkt.count
  let s := (s.mapTkt fun k => { k with storm := .normal, count := 0, quiet := 0 }).startWindow
  if old = .storm then s.broadcast (.stormState .normal .restart count s.now) else s

/-- The blocks act in the order of the table of R182 (log 11). The releases abort the runs: a run in flight is bound
to a bus in MEASURING (R30), and its release is written before its abort (R33), so that a run that ends at once
leaves its bus releasing with reason RESTART. -/
def State.restartBlocks (s : State) : State :=
  let s := s.releaseAll (fun r => r.state ≠ .idle) .restart
  let queue := s.gar.queue
  let s := (s.mapGar fun g => { g with queue := [], ratio := 0 }).failQueue queue
  s.restartScheduler.restartStorm

/-- RESTART (R182). -/
def restartRequest (p : Port) (q : Request) (s : State) : State :=
  let s := (s.ok p q false []).restartBlocks
  s.broadcast (.restart s.now)

/-! ## Counters (R170) -/

/-- The carry mask a COUNTERS_CLEAR carries. -/
def maskOf (payload : List Byte) : Option Word32 :=
  if payload.length = 5 then some (BitVec.ofNat 32 (field payload 1 4)) else none

/-- COUNTERS_CLEAR (R170). -/
def countersClear (p : Port) (q : Request) (s : State) : State :=
  let g := field q.payload 0 1
  if 4 < g then s.refuse p q .badField
  else if g = 4 ∧ (maskOf q.payload).isSome then s.refuse p q .badField
  else
    let s := s.clearGroup g (maskOf q.payload)
    s.ok p q false (u8 g ++ (if g = 4 then [] else u32 (s.cnt.group g).mask.toNat))

end Sys2Proof.Machine
end

