-- ==== Sys2Proof/Machine/Reports.lean ====
section
/-! DEFINITION. The requests that read: LINE_GET, STATUS_GET, CHANNEL_GET, RESULT_GET, COUNTERS_GET, and
SUBSCRIBE and TRACE (R10, R93, R126, R128, R170, R176, R179, R186). -/

namespace Sys2Proof.Machine

/-- LINE_GET (R10). -/
def lineGet (p : Port) (q : Request) (s : State) : State :=
  let n := field q.payload 0 2
  if ¬ isLine n then s.refuse p q .badField
  else s.ok p q false (lineRecordBytes n (s.line n) (s.lineClass n))

/-- The status record, 29 bytes (R179). -/
def State.statusBytes (s : State) : List Byte :=
  u8 (operCode s.op) ++ u8 (portNum (deskPort s.supervisor))
    ++ (allPorts.map fun p => u8 (linkCode (s.port p).link)).flatten ++ stampBytes (some s.now)
    ++ flagByte s.exc.unset ++ u8 (stormCode s.tkt.storm) ++ u8 (channelStateCode (s.chan .mc0).state)
    ++ u8 (channelStateCode (s.chan .mc1).state) ++ u8 s.gar.queue.length ++ u8 s.gar.waiting.length
    ++ u8 (schedCode s.rts.state) ++ u8 (sweepPhaseCode s.rts.phase) ++ u16 s.rts.pointer ++ u16 s.rts.number
    ++ flagByte s.rts.lags ++ flagByte s.rts.late ++ u8 s.tkt.verify.length ++ u8 s.rts.lockout.length
    ++ u8 s.rts.deferred.length

/-- STATUS_GET (R179). -/
def statusGet (p : Port) (q : Request) (s : State) : State := s.ok p q false s.statusBytes

/-- CHANNEL_GET (R93). -/
def channelGet (p : Port) (q : Request) (s : State) : State :=
  match channelOf (field q.payload 0 1) with
  | none => s.refuse p q .badField
  | some c => s.ok p q false (channelRecordBytes (s.chan c))

/-- The record of a handle in the result history. -/
def State.result (s : State) (h : Nat) : Option ResultRecord := s.rsq.history.find? fun r => r.handle = h

/-- The first step a RESULT_GET asks for; the short form asks for 0 (R186). -/
def firstStep (payload : List Byte) : Nat := if payload.length = 3 then field payload 2 1 else 0

/-- RESULT_GET (R126, R186). -/
def resultGet (p : Port) (q : Request) (s : State) : State :=
  let h := field q.payload 0 2
  if h = 0 ∨ 11 < firstStep q.payload then s.refuse p q .badField
  else
    match s.result h with
    | none => s.refuse p q .noSuch
    | some r => s.ok p q false (resultBytes r (firstStep q.payload))

/-- COUNTERS_GET (R170). -/
def countersGet (p : Port) (q : Request) (s : State) : State :=
  let g := field q.payload 0 1
  if 4 < g then s.refuse p q .badField else s.ok p q false (s.groupBytes g)

/-- SUBSCRIBE (R176); each of the 8 bits of the mask names a broadcast kind. -/
def subscribe (p : Port) (q : Request) (s : State) : State :=
  let mask := BitVec.ofNat 8 (field q.payload 0 1)
  (s.setPort p { s.port p with mask := mask }).ok p q false [mask]

/-! ## TRACE (R128) -/

/-- The step result a trace names: its channel, first sample number and length. -/
def ResultRecord.traceOf (r : ResultRecord) (step : Nat) : Option TraceRef := (r.steps[step]?).map StepResult.trace

/-- The availability of the samples a to a + count - 1 at write count w. -/
def available (w a : Word32) (count : Nat) : Bool :=
  (w - a).toNat ≤ 8192 && (w - (a + BitVec.ofNat 32 count)).toNat < 2147483648

/-- The samples a to a + count - 1 copied from a ring. -/
def copySamples (c : Channel) (r : ChannelRecord) (a : Word32) (count : Nat) : List Int :=
  (List.range count).map fun i => r.sampleAt c (a + BitVec.ofNat 32 i)

/-- The number of TRACE_DATA notices of a count of samples. -/
def noticesOf (count : Nat) : Nat := (count + 31) / 32

/-- Steps 6 to 8 of R128. -/
def State.startTrace (s : State) (p : Port) (q : Request) (t : TraceRef) (handle step offset asked : Nat) : State :=
  let count := min (clampNat 1 1024 asked) (t.length - offset)
  let a := t.first + BitVec.ofNat 32 offset
  if (s.port p).transfer.isSome then s.refuse p q .busy
  else
    match t.channel with
    | none => s.refuse p q .stale
    | some c =>
      if ¬ available (s.chan c).written a count then s.refuse p q .stale
      else
        let samples := copySamples c (s.chan c) a count
        let transfer : Transfer := { handle := handle, step := step, offset := offset, samples := samples }
        (s.setPort p { s.port p with transfer := some transfer }).ok p q (count ≠ asked)
          (u16 handle ++ u8 step ++ u16 offset ++ u16 count ++ u8 (noticesOf count))

/-- TRACE (R128). -/
def traceRequest (p : Port) (q : Request) (s : State) : State :=
  let h := field q.payload 0 2
  let step := field q.payload 2 1
  let offset := field q.payload 3 2
  if h = 0 ∨ 11 < step then s.refuse p q .badField
  else
    match (s.result h).bind fun r => r.traceOf step with
    | none => s.refuse p q .noSuch
    | some t =>
      if t.length = 0 ∨ t.length ≤ offset then s.refuse p q .badField
      else s.startTrace p q t h step offset (field q.payload 5 2)

end Sys2Proof.Machine
end

