-- ==== Sys2Proof/Machine/Links.lean ====
section
/-! DEFINITION. The port units: frames received, frames sent, trace streams, and links going up and down (R74,
R75, R129, R173 to R176, R183, R184). -/

namespace Sys2Proof.Machine

/-- The subscription mask of a port at reset and after a link down (R172, R183). -/
def resetMask : Port → Byte
  | .p0 => 0
  | .p1 => deskResetMask | .p2 => deskResetMask | .p3 => deskResetMask | .p4 => deskResetMask

/-! ## Frames received (R173, R174, R184) -/

/-- The request path of R174. -/
def State.handRequest (s : State) (p : Port) (q : Request) : State :=
  let u := s.port p
  if 8 ≤ u.replies.length + u.requests.length then s
  else if (kindOf q.kind).isNone then (s.refuse p q .unknownKind).countUnknownKind p
  else if 4 ≤ u.requests.length then s.refuse p q .queueFull
  else s.setPort p { u with requests := u.requests ++ [q] }

/-- A link comes UP (R74, R183). -/
def State.linkUp (s : State) (p : Port) : State :=
  let s := s.setPort p { s.port p with link := .up }
  if p = .p0 then s.resumeScheduler else s

/-- The receiver of a port rewritten. -/
def State.setReceiver (s : State) (p : Port) (r : Receiver) : State := s.setPort p { s.port p with receiver := r }

/-- A good frame handed on (R174); on a link that is DOWN it first brings the link UP, or is discarded where the line
had not rested at mark (R184). -/
def State.handFrame (s : State) (p : Port) (rested : Bool) (q : Request) : State :=
  match (s.port p).link with
  | .up => s.handRequest p q
  | .down => if rested then (s.linkUp p).handRequest p q else s

/-- A good frame: the receiver has consumed it and hunts on (R173, R174). -/
def State.goodFrame (s : State) (p : Port) (rested : Bool) (q : Request) : State :=
  (s.setReceiver p .hunt).handFrame p rested q

/-- The hunt through bytes already received (R173): each frame found whole among them is handed on or counted as a bad
frame at once, in the order of the line, and a frame still without its CHECK goes on being collected. Each frame found
takes at least its SYNC, so the number of bytes suffices for `fuel`. -/
def State.huntBytes (p : Port) (rested : Bool) : Nat → List Byte → State → State
  | 0, _, s => s.setReceiver p .hunt
  | fuel + 1, bytes, s =>
    match huntIn bytes with
    | .nothing => s.setReceiver p .hunt
    | .partly t => s.setReceiver p (.collecting { rested := rested, bytes := t })
    | .bad t => State.huntBytes p rested fuel t (s.countBadFrame p)
    | .good kind tag payload rest =>
      State.huntBytes p rested fuel rest
        ((s.setReceiver p .hunt).handFrame p rested { kind := kind, tag := tag, payload := payload })

/-- A bad frame: counted, and the bytes after its SYNC are hunted again (R173). -/
def State.badFrame (s : State) (p : Port) (heard : LineBytes) : State :=
  State.huntBytes p heard.rested heard.bytes.length heard.bytes (s.countBadFrame p)

/-- An interrupted frame: counted, and the next byte received is hunted from (R173). -/
def State.interruptedFrame (s : State) (p : Port) : State := (s.setReceiver p .hunt).countBadFrame p

/-! ## Frames sent and trace streams (R129, R175, R176) -/

/-- The port unit once its transmitter has sent its frame. -/
def PortUnit.sent (u : PortUnit) : PortUnit :=
  match u.tx with
  | .free => u
  | .reply _ => PortUnit.kick { u with tx := .free, replies := u.replies.drop 1 }
  | .notice _ => PortUnit.kick { u with tx := .free, notices := u.notices.drop 1 }

/-- The port unit once a waiting TRACE_DATA has joined its FIFO; at least 9 places are free (R129, R176). -/
def PortUnit.stream (u : PortUnit) : PortUnit :=
  match u.transfer with
  | none => u
  | some t =>
    if 23 < u.notices.length then u
    else
      let n : QueuedNotice := { lost := u.lost, notice := .traceData t.handle t.step t.offset (t.samples.take 32) }
      let rest := t.samples.drop 32
      PortUnit.kick { u with notices := u.notices ++ [n], lost := 0,
                             transfer := if rest.isEmpty then none
                               else some { t with offset := t.offset + 32, samples := rest } }

/-! ## Links going down (R75, R183) -/

/-- The port unit at a link down, its notices apart: FIFOs and stream emptied, mask reset, transmitter and
receiver idle (log 24). -/
def PortUnit.broken (mask : Byte) (u : PortUnit) : PortUnit :=
  { u with link := .down, receiver := .hunt, requests := [], replies := [], notices := [], mask := mask,
           transfer := none, tx := .free }

/-- The notices of the FIFO are discarded, each counted lost (R75, R176, R183). -/
def State.loseNotices (p : Port) : Nat → State → State
  | 0, s => s
  | n + 1, s => State.loseNotices p n (s.countLost p)

/-- The port unit goes down. -/
def State.breakPort (s : State) (p : Port) : State :=
  State.loseNotices p (s.port p).notices.length (s.setPort p ((s.port p).broken (resetMask p)))

/-- A break while the link is DOWN only ends a frame in progress (R173). -/
def State.breakAgain (s : State) (p : Port) : State := s.setReceiver p .hunt

/-- Buses the exchange link down releases (R40). -/
def splitHeld (r : BusRecord) : Bool := r.mode = some .split && r.state ≠ .idle && r.state ≠ .releasing

/-- Exchange link down (R75). -/
def State.exchangeDown (s : State) : State :=
  let s := s.breakPort .p0
  let s := { s with exc := { s.exc with seizes := [] } }
  (s.releaseAll splitHeld .noExchange).holdScheduler

/-- Desk link down (R183), the port unit first (log 15). -/
def State.deskDown (s : State) (d : Desk) : State :=
  let s := s.breakPort (deskPort d)
  let s := s.mapGar fun g => { g with queue := g.queue.filter fun e => e.desk ≠ d }
  let s := s.releaseAll (fun r => r.heldByDesk d && r.state ≠ .idle) .linkDown
  s.returnTickets d (s.tkt.tickets.map Ticket.number)

end Sys2Proof.Machine
end

