-- ==== Sys2Proof/Machine/Clock.lean ====
section
/-! DEFINITION. Time: what is due when no command waits, and the passing of one millisecond (log 1 to log 3). The
durations counted here are independent of the time of day (R73). -/

namespace Sys2Proof.Machine

/-! ## One millisecond -/

def HoldTimer.tick : HoldTimer → HoldTimer
  | .running ms => .running (ms - 1)
  | .stopped => .stopped
  | .absent => .absent

def Cadence.tick : Cadence → Cadence
  | .continuous => .continuous
  | .burst ms => .burst (ms - 1)
  | .silence ms => .silence (ms - 1)

def RelayPhase.tick : RelayPhase → RelayPhase
  | .atRest => .atRest
  | .pointOperating ms => .pointOperating (ms - 1)
  | .lineOperating ms => .lineOperating (ms - 1)
  | .checking ms => .checking (ms - 1)
  | .operated => .operated
  | .lineReleasing ms => .lineReleasing (ms - 1)
  | .pointReleasing ms => .pointReleasing (ms - 1)

/-- Hold timer, tone limit, cadence and relay operation of a bus. -/
def BusRecord.tick (r : BusRecord) : BusRecord :=
  { r with hold := r.hold.tick, relay := r.relay.tick,
           gen := { r.gen with cadence := r.gen.cadence.tick, limitMs := r.gen.limitMs.map (· - 1) } }

/-- Warm-up, settle and discharge of a channel, and its calibration age (R76). -/
def ChannelRecord.tick (r : ChannelRecord) : ChannelRecord :=
  { r with timer := r.timer - 1, calAge := r.calAge.map fun a => min Config.maxAgeMs (a + 1) }

/-- The duration of a WAIT step. -/
def RunContext.tick (x : RunContext) : RunContext :=
  if x.phase = .wait then { x with work := { x.work with waitMs := x.work.waitMs - 1 } } else x

def PerBus.map {α β : Type} (f : α → β) (t : PerBus α) : PerBus β := ⟨f t.b0, f t.b1, f t.b2, f t.b3⟩

def PerChannel.map {α β : Type} (f : α → β) (t : PerChannel α) : PerChannel β := ⟨f t.mc0, f t.mc1⟩

/-- Every timer counts one millisecond. -/
def State.tickMs (s : State) : State :=
  { s with
    acc := { s.acc with buses := s.acc.buses.map BusRecord.tick }
    mc := { s.mc with chans := s.mc.chans.map ChannelRecord.tick }
    rsq := { s.rsq with contexts := s.rsq.contexts.map (Option.map RunContext.tick) }
    rts := { s.rts with period := s.rts.period.map fun t => { t with left := t.left - 1 } }
    tkt := { s.tkt with window := s.tkt.window.map (· - 1) }
    exc := { s.exc with subMs := s.exc.subMs + 1 } }

/-! ## Events that are due -/

/-- An event, where its condition holds. -/
def dueIf (due : Bool) (i : Instr) : List Instr := if due then [i] else []

/-- The relay operation of a bus that is over; the end of an access check needs its sense inputs and comes from
outside (log 21). -/
def relayDue (b : Bus) : RelayPhase → List Instr
  | .pointOperating 0 => [.shelfPointOperated b]
  | .lineOperating 0 => [.lineRelayOperated b]
  | .lineReleasing 0 => [.lineRelayReleased b]
  | .pointReleasing 0 => [.shelfPointReleased b]
  | _ => []

def cadenceDue (b : Bus) : Cadence → List Instr
  | .burst 0 => [.toneBurstEnd b]
  | .silence 0 => [.toneSilenceEnd b]
  | _ => []

def State.busDue (s : State) (b : Bus) : List Instr :=
  let r := s.bus b
  relayDue b r.relay ++ dueIf (r.hold = .running 0) (.holdExpired b)
    ++ dueIf (r.state = .tone && r.gen.limitMs = some 0) (.toneLimit b)
    ++ (if r.state = .tone then cadenceDue b r.gen.cadence else [])
    ++ dueIf ((s.ctx b).any fun x => x.phase = .wait && x.work.waitMs = 0) (.waitStepEnd b)

/-- A gain of a calibration, or the whole of it, is over. -/
def calDue (c : Channel) (r : ChannelRecord) : List Instr :=
  match r.cal with
  | none => []
  | some w =>
    if w.formed.length = 4 then
      [if r.state = .calibrating then .calibrationEnd c else .inRunCalibrationEnd c]
    else dueIf (w.raw.length = Config.calSamples) (.calibrationGainDone c)

/-- A pass or a capture is over. -/
def runDue (c : Channel) (x : RunContext) : List Instr :=
  dueIf (x.phase = .reading && x.work.reading.any fun rd => rd.raw.length = 2 + rd.n) (.passEnd c)
    ++ dueIf (x.phase = .capture && x.work.capture.length = Config.captureSamples && !x.work.captureDone)
        (.captureEnd c)

def State.channelDue (s : State) (c : Channel) : List Instr :=
  let r := s.chan c
  dueIf (r.state = .warming && r.timer = 0) (if r.stage < 2 then .warmupStage c else .warmupEnd c)
    ++ calDue c r ++ dueIf (r.activity = .settling && r.timer = 0) (.settleEnd c)
    ++ dueIf (r.activity = .discharging && r.timer = 0) (.dischargeEnd c)
    ++ (match s.runOn c with | some (_, x) => runDue c x | none => [])

/-- The command that takes a request of a kind from a port. -/
def requestCommand (p : Port) (q : Request) : RequestKind → Instr
  | .callState => .callState p | .seize => .seize p | .testRequest => .testRequest p | .timeSet => .timeSet p
  | .connect => .connect p | .release => .release p | .setMode => .setMode p | .renew => .renew p
  | .run => .run p | .cancelRun => .cancelRun p | .trace => .trace p
  | .ticketTake => .ticketTake p | .ticketDrop => .ticketDrop p | .ticketClear => .ticketClear p
  | .ticketClose => .ticketClose p | .ticketList => .ticketList p | .ticketGet => .ticketGet p
  | .ticketPurge => .ticketPurge p
  | .lineGet => .lineGet p | .statusGet => .statusGet p | .busGet => .busGet p | .channelGet => .channelGet p
  | .resultGet => .resultGet p | .countersGet => .countersGet p | .subscribe => .subscribe p
  | .configLines => .configLines p | .configClass => .configClass p | .configProgram => .configProgram p
  | .configPriority => .configPriority p | .configRoutine => .configRoutine p | .configStorm => .configStorm p
  | .configTimes => .configTimes p
  | .channelSet => if setsDisable q then .channelSetDisable p else .channelSetEnable p
  | .configCommit => .configCommit p | .routineStart => .routineStart p | .routineStop => .routineStop p
  | .restart => .restart p | .countersClear => .countersClear p

/-- The request at the head of a port's FIFO is to be taken (R175). -/
def headDue (p : Port) (u : PortUnit) : List Instr :=
  match u.requests with
  | q :: _ => (kindOf q.kind).toList.map (requestCommand p q)
  | [] => []

/-- A waiting TRACE_DATA has room (R129). -/
def streamDue (p : Port) (u : PortUnit) : List Instr :=
  match portDesk p with
  | some d => dueIf (u.transfer.isSome && u.notices.length ≤ 23) (.traceData d)
  | none => []

def State.portDue (s : State) (p : Port) : List Instr :=
  let u := s.port p
  headDue p u ++ streamDue p u

/-- The events whose condition holds, in a fixed order (log 2). -/
def State.dueEvents (s : State) : List Instr :=
  (allBuses.map s.busDue).flatten ++ (allChannels.map s.channelDue).flatten
    ++ dueIf (s.rts.period.any fun t => t.left = 0) .periodTimerExpiry
    ++ dueIf (s.tkt.window = some 0) .windowEnd ++ dueIf (1000 ≤ s.exc.subMs) .timeAdvance
    ++ (allPorts.map s.portDue).flatten

/-- The events of an instant have been taken (log 60). -/
def State.endInstant (s : State) : State := s.mapGar fun g => { g with moment := .apart }

/-- What a step does while no command waits: the events that are due join the queue; where there is none, the instant
they belonged to ends, and where none is open one millisecond passes (log 2, log 60). -/
def State.idle (s : State) : State :=
  match s.dueEvents with
  | [] => if s.gar.moment = .apart then s.tickMs else s.endInstant
  | events => { s with pending := events, gar := { s.gar with moment := s.gar.moment.joined } }

end Sys2Proof.Machine
end

