-- ==== Sys2Proof/Machine/BusEvents.lean ====
section
/-! DEFINITION. Ends of relay operations, of the access check and of the timers of a bus. An event
of an operation that is not in progress changes nothing (log 5). -/

namespace Sys2Proof.Machine

/-- SHELF_POINT_OPERATED (R22, R25). -/
def execShelfPointOperated (b : Bus) (s : State) : Host.Outcome State Fault Refusal :=
  .next (match (s.bus b).relay with
  | .pointOperating _ => (s.pointOperated b).settle
  | _ => s)

/-- LINE_RELAY_OPERATED (R22, R25). -/
def execLineRelayOperated (b : Bus) (s : State) : Host.Outcome State Fault Refusal :=
  .next (match (s.bus b).relay with
  | .lineOperating _ => (s.lineOperated b).settle
  | _ => s)

/-- ACCESS_CHECK_END (R23, R24, R117); the check passes when the line relay is sensed operated in the split
configuration and both paths show continuity. -/
def execAccessCheckEnd (b : Bus) (split tip ring : Bool) (s : State) : Host.Outcome State Fault Refusal :=
  .next (match (s.bus b).relay with
  | .checking _ => (s.accessCheckOver b (split && tip && ring)).settle
  | _ => s)

/-- LINE_RELAY_RELEASED (R35, R69). -/
def execLineRelayReleased (b : Bus) (s : State) : Host.Outcome State Fault Refusal :=
  .next (match (s.bus b).relay with
  | .lineReleasing _ => (s.freeLine b).settle
  | _ => s)

/-- SHELF_POINT_RELEASED (R35). -/
def execShelfPointReleased (b : Bus) (s : State) : Host.Outcome State Fault Refusal :=
  .next (match (s.bus b).relay with
  | .pointReleasing _ => (s.becomeIdle b).settle
  | _ => s)

/-- HOLD_EXPIRED (R32). -/
def execHoldExpired (b : Bus) (s : State) : Host.Outcome State Fault Refusal :=
  .next (match (s.bus b).hold with
  | .running _ => (s.requestRelease b .holdExpired).settle
  | _ => s)

/-- TONE_LIMIT (R29). -/
def execToneLimit (b : Bus) (s : State) : Host.Outcome State Fault Refusal :=
  .next (s.toneLimitExpired b)

/-- TONE_DIVIDER_EXPIRY (R28). -/
def execToneDividerExpiry (b : Bus) (s : State) : Host.Outcome State Fault Refusal :=
  .next (s.dividerExpired b)

/-- TONE_BURST_END (R28). -/
def execToneBurstEnd (b : Bus) (s : State) : Host.Outcome State Fault Refusal :=
  .next (s.burstEnded b)

/-- TONE_SILENCE_END (R28). -/
def execToneSilenceEnd (b : Bus) (s : State) : Host.Outcome State Fault Refusal :=
  .next (s.silenceEnded b)

/-- WAIT_STEP_END (R116). -/
def execWaitStepEnd (b : Bus) (s : State) : Host.Outcome State Fault Refusal :=
  .next (s.waitOver b).settle

end Sys2Proof.Machine
end

