-- ==== Sys2Proof/Machine/ChannelEvents.lean ====
section
/-! DEFINITION. Warm-up, calibration, samples and the ends of a channel's activities. An event of an
activity that is not in progress changes nothing (log 5). -/

namespace Sys2Proof.Machine

/-- WARMUP_STAGE (R78). -/
def execWarmupStage (c : Channel) (s : State) : Host.Outcome State Fault Refusal :=
  .next (s.setChan c (s.chan c).nextStage)

/-- WARMUP_END (R78). -/
def execWarmupEnd (c : Channel) (s : State) : Host.Outcome State Fault Refusal :=
  .next (s.setChan c (s.chan c).endWarmUp)

/-- CALIBRATION_GAIN_DONE (R79). -/
def execCalibrationGainDone (c : Channel) (s : State) : Host.Outcome State Fault Refusal :=
  .next (s.setChan c (s.chan c).calGainDone)

/-- CALIBRATION_END (R80). -/
def execCalibrationEnd (c : Channel) (s : State) : Host.Outcome State Fault Refusal :=
  .next (s.calibrationOver c).settle

/-- IN_RUN_CALIBRATION_END (R83, R84). -/
def execInRunCalibrationEnd (c : Channel) (s : State) : Host.Outcome State Fault Refusal :=
  .next (s.inRunCalibrationOver c).settle

/-- CONVERTER_SAMPLE (R87, R92, R95, R106). -/
def execConverterSample (c : Channel) (code : Int) (s : State) : Host.Outcome State Fault Refusal :=
  .next (s.sample c (converterCode code))

/-- PASS_END (R96). -/
def execPassEnd (c : Channel) (s : State) : Host.Outcome State Fault Refusal :=
  .next (s.passOver c).settle

/-- SETTLE_END (R88, R102, R107). -/
def execSettleEnd (c : Channel) (s : State) : Host.Outcome State Fault Refusal :=
  .next (s.settleOver c)

/-- CAPTURE_END (R107). -/
def execCaptureEnd (c : Channel) (s : State) : Host.Outcome State Fault Refusal :=
  .next (s.captureOver c)

/-- DISCHARGE_END (R90, R116). -/
def execDischargeEnd (c : Channel) (s : State) : Host.Outcome State Fault Refusal :=
  .next (s.dischargeOver c).settle

end Sys2Proof.Machine
end

