-- ==== Sys2Proof/Machine/ConfigCommands.lean ====
section
/-! DEFINITION. The requests of the supervisor desk. -/

namespace Sys2Proof.Machine

/-- CONFIG_LINES (R14, R15). -/
def execConfigLines (p : Port) (s : State) : Host.Outcome State Fault Refusal :=
  .next (serve .configLines configLines p s).settle

/-- CONFIG_CLASS (R12). -/
def execConfigClass (p : Port) (s : State) : Host.Outcome State Fault Refusal :=
  .next (serve .configClass configClass p s).settle

/-- CONFIG_PROGRAM (R112). -/
def execConfigProgram (p : Port) (s : State) : Host.Outcome State Fault Refusal :=
  .next (serve .configProgram configProgram p s).settle

/-- CONFIG_PRIORITY (R46). -/
def execConfigPriority (p : Port) (s : State) : Host.Outcome State Fault Refusal :=
  .next (serve .configPriority configPriority p s).settle

/-- CONFIG_ROUTINE (R132). -/
def execConfigRoutine (p : Port) (s : State) : Host.Outcome State Fault Refusal :=
  .next (serve .configRoutine configRoutine p s).settle

/-- CONFIG_STORM (R162). -/
def execConfigStorm (p : Port) (s : State) : Host.Outcome State Fault Refusal :=
  .next (serve .configStorm configStorm p s).settle

/-- CONFIG_TIMES (R180). -/
def execConfigTimes (p : Port) (s : State) : Host.Outcome State Fault Refusal :=
  .next (serve .configTimes configTimes p s).settle

/-- CHANNEL_SET_ENABLE: a CHANNEL_SET whose value is not the disable (R81, log 25). -/
def execChannelSetEnable (p : Port) (s : State) : Host.Outcome State Fault Refusal :=
  .next (serveWhere (fun q => !setsDisable q) .channelSet channelSetEnable p s).settle

/-- CHANNEL_SET_DISABLE: a CHANNEL_SET whose value is the disable (R82, log 25). -/
def execChannelSetDisable (p : Port) (s : State) : Host.Outcome State Fault Refusal :=
  .next (serveWhere setsDisable .channelSet channelSetDisable p s).settle

/-- CONFIG_COMMIT (R181). -/
def execConfigCommit (p : Port) (s : State) : Host.Outcome State Fault Refusal :=
  .next (serve .configCommit configCommit p s).settle

/-- ROUTINE_START (R131, R133). -/
def execRoutineStart (p : Port) (s : State) : Host.Outcome State Fault Refusal :=
  .next (serve .routineStart routineStart p s).settle

/-- ROUTINE_STOP (R131). -/
def execRoutineStop (p : Port) (s : State) : Host.Outcome State Fault Refusal :=
  .next (serve .routineStop routineStop p s).settle

/-- RESTART (R182). -/
def execRestart (p : Port) (s : State) : Host.Outcome State Fault Refusal :=
  .next (serve .restart restartRequest p s).settle

/-- COUNTERS_CLEAR (R170). -/
def execCountersClear (p : Port) (s : State) : Host.Outcome State Fault Refusal :=
  .next (serve .countersClear countersClear p s).settle

end Sys2Proof.Machine
end

