-- ==== Sys2Proof/Machine/DeskCommands.lean ====
section
/-! DEFINITION. The requests of a desk on buses, runs and traces. -/

namespace Sys2Proof.Machine

/-- CONNECT (R43 to R45). -/
def execConnect (p : Port) (s : State) : Host.Outcome State Fault Refusal :=
  .next (serve .connect connectRequest p s).settle

/-- RELEASE (R34). -/
def execRelease (p : Port) (s : State) : Host.Outcome State Fault Refusal :=
  .next (serve .release releaseRequest p s).settle

/-- SET_MODE (R26). -/
def execSetMode (p : Port) (s : State) : Host.Outcome State Fault Refusal :=
  .next (serve .setMode setMode p s).settle

/-- RENEW (R31). -/
def execRenew (p : Port) (s : State) : Host.Outcome State Fault Refusal :=
  .next (serve .renew renew p s).settle

/-- RUN (R113). -/
def execRun (p : Port) (s : State) : Host.Outcome State Fault Refusal :=
  .next (serve .run runRequest p s).settle

/-- CANCEL_RUN (R124). -/
def execCancelRun (p : Port) (s : State) : Host.Outcome State Fault Refusal :=
  .next (serve .cancelRun cancelRun p s).settle

/-- TRACE (R128). -/
def execTrace (p : Port) (s : State) : Host.Outcome State Fault Refusal :=
  .next (serve .trace traceRequest p s).settle

end Sys2Proof.Machine
end

