-- ==== Sys2Proof/Machine/ExchangeCommands.lean ====
section
/-! DEFINITION. The requests of the exchange, and the advance of the clock. -/

namespace Sys2Proof.Machine

/-- CALL_STATE (R61 to R64, R70). -/
def execCallState (p : Port) (s : State) : Host.Outcome State Fault Refusal :=
  .next (serve .callState callStateRequest p s).settle

/-- SEIZE (R65 to R68). -/
def execSeize (p : Port) (s : State) : Host.Outcome State Fault Refusal :=
  .next (serve .seize seizeRequest p s).settle

/-- TEST_REQUEST (R71). -/
def execTestRequest (p : Port) (s : State) : Host.Outcome State Fault Refusal :=
  .next (serve .testRequest testRequest p s).settle

/-- TIME_SET (R73). -/
def execTimeSet (p : Port) (s : State) : Host.Outcome State Fault Refusal :=
  .next (serve .timeSet timeSet p s).settle

/-- TIME_ADVANCE: the part's count of a second (R73), and deferred entries that come due (R138). -/
def execTimeAdvance (s : State) : Host.Outcome State Fault Refusal := .next (s.setTime s.now.next).settle

end Sys2Proof.Machine
end

