-- ==== Sys2Proof/Machine/PortEvents.lean ====
section
/-! DEFINITION. Power reset, frames received and sent, links going down, trace streams. -/

namespace Sys2Proof.Machine

/-- POWER_RESET (R171, R177): every block takes its power-reset values. The commands that wait and the count of free
choices are the model's own and stand (log 8, log 26). -/
def execPowerReset (strap : BitVec 2) (s : State) : Host.Outcome State Fault Refusal :=
  .next { State.powerOn (strapDesk strap) s.free with pending := s.pending }

/-- GOOD_FRAME (R174, R184). -/
def execGoodFrame (p : Port) (rested : Bool) (kind tag : Byte) (payload : List Byte) (s : State) : Host.Outcome State Fault Refusal :=
  .next (s.goodFrame p rested { kind := kind, tag := tag, payload := payload }).settle

/-- BAD_FRAME (R173). -/
def execBadFrame (p : Port) (heard : LineBytes) (s : State) : Host.Outcome State Fault Refusal :=
  .next (s.badFrame p heard).settle

/-- INTERRUPTED_FRAME (R173). -/
def execInterruptedFrame (p : Port) (s : State) : Host.Outcome State Fault Refusal :=
  .next (s.interruptedFrame p).settle

/-- EXCHANGE_LINK_DOWN (R74, R75); a break that continues has no further effect. -/
def execExchangeLinkDown (s : State) : Host.Outcome State Fault Refusal :=
  .next (if (s.port .p0).link = .up then s.exchangeDown else s.breakAgain .p0).settle

/-- DESK_LINK_DOWN (R183); a break that continues has no further effect. -/
def execDeskLinkDown (d : Desk) (s : State) : Host.Outcome State Fault Refusal :=
  .next (if s.deskUp d then s.deskDown d else s.breakAgain (deskPort d)).settle

/-- FRAME_SENT (R175). -/
def execFrameSent (p : Port) (s : State) : Host.Outcome State Fault Refusal :=
  .next (s.setPort p (s.port p).sent)

/-- TRACE_DATA (R129). -/
def execTraceData (d : Desk) (s : State) : Host.Outcome State Fault Refusal :=
  .next (s.setPort (deskPort d) (s.port (deskPort d)).stream)

end Sys2Proof.Machine
end

