-- ==== Sys2Proof/Machine/QueryCommands.lean ====
section
/-! DEFINITION. The requests that read the part's state, and SUBSCRIBE. -/

namespace Sys2Proof.Machine

/-- LINE_GET (R10). -/
def execLineGet (p : Port) (s : State) : Host.Outcome State Fault Refusal :=
  .next (serve .lineGet lineGet p s).settle

/-- STATUS_GET (R179). -/
def execStatusGet (p : Port) (s : State) : Host.Outcome State Fault Refusal :=
  .next (serve .statusGet statusGet p s).settle

/-- BUS_GET (R41). -/
def execBusGet (p : Port) (s : State) : Host.Outcome State Fault Refusal :=
  .next (serve .busGet busGet p s).settle

/-- CHANNEL_GET (R93). -/
def execChannelGet (p : Port) (s : State) : Host.Outcome State Fault Refusal :=
  .next (serve .channelGet channelGet p s).settle

/-- RESULT_GET (R126, R186). -/
def execResultGet (p : Port) (s : State) : Host.Outcome State Fault Refusal :=
  .next (serve .resultGet resultGet p s).settle

/-- COUNTERS_GET (R170). -/
def execCountersGet (p : Port) (s : State) : Host.Outcome State Fault Refusal :=
  .next (serve .countersGet countersGet p s).settle

/-- SUBSCRIBE (R176). -/
def execSubscribe (p : Port) (s : State) : Host.Outcome State Fault Refusal :=
  .next (serve .subscribe subscribe p s).settle

end Sys2Proof.Machine
end

