-- ==== Sys2Proof/Machine/TicketCommands.lean ====
section
/-! DEFINITION. The requests of a desk on tickets. -/

namespace Sys2Proof.Machine

/-- TICKET_TAKE (R156). -/
def execTicketTake (p : Port) (s : State) : Host.Outcome State Fault Refusal :=
  .next (serve .ticketTake ticketTake p s).settle

/-- TICKET_DROP (R156). -/
def execTicketDrop (p : Port) (s : State) : Host.Outcome State Fault Refusal :=
  .next (serve .ticketDrop ticketDrop p s).settle

/-- TICKET_CLEAR (R157). -/
def execTicketClear (p : Port) (s : State) : Host.Outcome State Fault Refusal :=
  .next (serve .ticketClear ticketClear p s).settle

/-- TICKET_CLOSE (R158). -/
def execTicketClose (p : Port) (s : State) : Host.Outcome State Fault Refusal :=
  .next (serve .ticketClose ticketClose p s).settle

/-- TICKET_PURGE (R158). -/
def execTicketPurge (p : Port) (s : State) : Host.Outcome State Fault Refusal :=
  .next (serve .ticketPurge ticketPurge p s).settle

/-- TICKET_GET (R159). -/
def execTicketGet (p : Port) (s : State) : Host.Outcome State Fault Refusal :=
  .next (serve .ticketGet ticketGet p s).settle

/-- TICKET_LIST (R159). -/
def execTicketList (p : Port) (s : State) : Host.Outcome State Fault Refusal :=
  .next (serve .ticketList ticketList p s).settle

end Sys2Proof.Machine
end

