-- ==== Sys2Proof/Machine/TimerEvents.lean ====
section
/-! DEFINITION. The sweep period timer and the storm window (R133, R164). -/

namespace Sys2Proof.Machine

/-- The storm state and quiet count after a window with a count (R164). A quiet window that takes the quiet count to
or above Q, which CONFIG_STORM may have lowered since, ends the STORM, a choice of the model (log 50). -/
def stormAfter (t : TicketTable) : StormState × Nat :=
  match t.storm with
  | .normal => if t.params.sIn ≤ t.count then (.storm, 0) else (.normal, t.quiet)
  | .storm =>
    if t.params.sOut < t.count then (.storm, 0)
    else if t.params.quiet ≤ t.quiet + 1 then (.normal, 0)
    else (.storm, t.quiet + 1)

/-- A change of storm state is broadcast and told to the routine scheduler (R164). -/
def State.stormChanged (s : State) (old : StormState) (count : Nat) : State :=
  if s.tkt.storm = old then s
  else
    let s := s.broadcast (.stormState s.tkt.storm .window count s.now)
    if s.tkt.storm = .storm then s.holdScheduler else s.resumeScheduler

/-- The window timer expires (R162, R164). -/
def State.windowOver (s : State) : State :=
  let r := stormAfter s.tkt
  ((s.mapTkt fun k => { k with storm := r.1, quiet := r.2, count := 0 }).startWindow).stormChanged s.tkt.storm
    s.tkt.count

/-- PERIOD_TIMER_EXPIRY (R133). -/
def execPeriodTimerExpiry (s : State) : Host.Outcome State Fault Refusal :=
  .next (match s.rts.period with
  | some _ => s.periodExpired.settle
  | none => s)

/-- WINDOW_END (R164). -/
def execWindowEnd (s : State) : Host.Outcome State Fault Refusal :=
  .next (match s.tkt.window with
  | some _ => s.windowOver.settle
  | none => s)

end Sys2Proof.Machine
end

