-- ==== Sys2Proof/Machine/Dispatch.lean ====
section
/-! DEFINITION. The effect of each command on everything but the queue, one arm per row of the table. -/

namespace Sys2Proof.Machine

/-- One command taken: its meaning, by name. -/
def exec (i : Instr) (s : State) : Host.Outcome State Fault Refusal :=
  match i with
  | .powerReset strap => Sys2Proof.Machine.execPowerReset strap s
  | .goodFrame port rested kind tag payload => Sys2Proof.Machine.execGoodFrame port rested kind tag payload s
  | .badFrame port bytes => Sys2Proof.Machine.execBadFrame port bytes s
  | .interruptedFrame port => Sys2Proof.Machine.execInterruptedFrame port s
  | .exchangeLinkDown => Sys2Proof.Machine.execExchangeLinkDown s
  | .deskLinkDown desk => Sys2Proof.Machine.execDeskLinkDown desk s
  | .frameSent port => Sys2Proof.Machine.execFrameSent port s
  | .traceData desk => Sys2Proof.Machine.execTraceData desk s
  | .callState port => Sys2Proof.Machine.execCallState port s
  | .seize port => Sys2Proof.Machine.execSeize port s
  | .testRequest port => Sys2Proof.Machine.execTestRequest port s
  | .timeSet port => Sys2Proof.Machine.execTimeSet port s
  | .timeAdvance => Sys2Proof.Machine.execTimeAdvance s
  | .connect port => Sys2Proof.Machine.execConnect port s
  | .release port => Sys2Proof.Machine.execRelease port s
  | .setMode port => Sys2Proof.Machine.execSetMode port s
  | .renew port => Sys2Proof.Machine.execRenew port s
  | .run port => Sys2Proof.Machine.execRun port s
  | .cancelRun port => Sys2Proof.Machine.execCancelRun port s
  | .trace port => Sys2Proof.Machine.execTrace port s
  | .ticketTake port => Sys2Proof.Machine.execTicketTake port s
  | .ticketDrop port => Sys2Proof.Machine.execTicketDrop port s
  | .ticketClear port => Sys2Proof.Machine.execTicketClear port s
  | .ticketClose port => Sys2Proof.Machine.execTicketClose port s
  | .ticketPurge port => Sys2Proof.Machine.execTicketPurge port s
  | .ticketGet port => Sys2Proof.Machine.execTicketGet port s
  | .ticketList port => Sys2Proof.Machine.execTicketList port s
  | .lineGet port => Sys2Proof.Machine.execLineGet port s
  | .statusGet port => Sys2Proof.Machine.execStatusGet port s
  | .busGet port => Sys2Proof.Machine.execBusGet port s
  | .channelGet port => Sys2Proof.Machine.execChannelGet port s
  | .resultGet port => Sys2Proof.Machine.execResultGet port s
  | .countersGet port => Sys2Proof.Machine.execCountersGet port s
  | .subscribe port => Sys2Proof.Machine.execSubscribe port s
  | .configLines port => Sys2Proof.Machine.execConfigLines port s
  | .configClass port => Sys2Proof.Machine.execConfigClass port s
  | .configProgram port => Sys2Proof.Machine.execConfigProgram port s
  | .configPriority port => Sys2Proof.Machine.execConfigPriority port s
  | .configRoutine port => Sys2Proof.Machine.execConfigRoutine port s
  | .configStorm port => Sys2Proof.Machine.execConfigStorm port s
  | .configTimes port => Sys2Proof.Machine.execConfigTimes port s
  | .channelSetEnable port => Sys2Proof.Machine.execChannelSetEnable port s
  | .channelSetDisable port => Sys2Proof.Machine.execChannelSetDisable port s
  | .configCommit port => Sys2Proof.Machine.execConfigCommit port s
  | .routineStart port => Sys2Proof.Machine.execRoutineStart port s
  | .routineStop port => Sys2Proof.Machine.execRoutineStop port s
  | .restart port => Sys2Proof.Machine.execRestart port s
  | .countersClear port => Sys2Proof.Machine.execCountersClear port s
  | .shelfPointOperated bus => Sys2Proof.Machine.execShelfPointOperated bus s
  | .lineRelayOperated bus => Sys2Proof.Machine.execLineRelayOperated bus s
  | .accessCheckEnd bus splitSense tipContinuity ringContinuity => Sys2Proof.Machine.execAccessCheckEnd bus splitSense tipContinuity ringContinuity s
  | .lineRelayReleased bus => Sys2Proof.Machine.execLineRelayReleased bus s
  | .shelfPointReleased bus => Sys2Proof.Machine.execShelfPointReleased bus s
  | .holdExpired bus => Sys2Proof.Machine.execHoldExpired bus s
  | .toneLimit bus => Sys2Proof.Machine.execToneLimit bus s
  | .toneDividerExpiry bus => Sys2Proof.Machine.execToneDividerExpiry bus s
  | .toneBurstEnd bus => Sys2Proof.Machine.execToneBurstEnd bus s
  | .toneSilenceEnd bus => Sys2Proof.Machine.execToneSilenceEnd bus s
  | .warmupStage channel => Sys2Proof.Machine.execWarmupStage channel s
  | .warmupEnd channel => Sys2Proof.Machine.execWarmupEnd channel s
  | .calibrationGainDone channel => Sys2Proof.Machine.execCalibrationGainDone channel s
  | .calibrationEnd channel => Sys2Proof.Machine.execCalibrationEnd channel s
  | .inRunCalibrationEnd channel => Sys2Proof.Machine.execInRunCalibrationEnd channel s
  | .converterSample channel code => Sys2Proof.Machine.execConverterSample channel code s
  | .passEnd channel => Sys2Proof.Machine.execPassEnd channel s
  | .settleEnd channel => Sys2Proof.Machine.execSettleEnd channel s
  | .captureEnd channel => Sys2Proof.Machine.execCaptureEnd channel s
  | .dischargeEnd channel => Sys2Proof.Machine.execDischargeEnd channel s
  | .waitStepEnd bus => Sys2Proof.Machine.execWaitStepEnd bus s
  | .periodTimerExpiry => Sys2Proof.Machine.execPeriodTimerExpiry s
  | .windowEnd => Sys2Proof.Machine.execWindowEnd s

end Sys2Proof.Machine
end

