-- ==== Sys2Proof/Safety.lean ====
section
/-! DEFINITION. What a safe state of the part is, and the words the statements use for a request that is taken,
the answer it gets, and a step that leaves nothing for the grant arbiter to do. -/

namespace Sys2Proof

open Machine

/-! ## Sizes of the port units (R172) -/

/-- A port unit within the sizes of R172: at most 4 requests and 32 notices. -/
def PortBounded (u : PortUnit) : Prop := u.requests.length ≤ 4 ∧ u.notices.length ≤ 32

/-- Every port unit is within its sizes. -/
def PortsBounded (s : State) : Prop := ∀ p : Port, PortBounded (s.port p)

/-! ## The tables (R1, R11, R19, R111, R166, R169) -/

/-- Every table of the state is in its canonical form: numbers rising, and no entry that reads as an unlisted one. -/
structure Canonical (s : State) : Prop where
  lines : Table.wfFrom (fun _ => LineRecord.fresh) 0 s.lrt.lines = true
  classes : Table.wfFrom (fun _ => ClassEntry.default) 0 s.lrt.classes = true
  points : Table.wfFrom (fun _ => none) 0 s.acc.points = true
  programs : Table.wfFrom defaultProgram 0 s.rsq.programs = true
  counts : ∀ g, Table.wfFrom (fun _ => 0) 0 (s.cnt.group g).counts = true
  bins : Table.wfFrom (fun _ => 0) 0 s.cnt.bins = true

/-! ## Nothing left to grant (R47, R55, log 7) -/

/-- No run waits while a channel is READY. -/
abbrev NoRunToServe (s : State) : Prop := s.gar.waiting = [] ∨ s.readyChannel = none

/-- What every step leaves: no arbitration is due, and no run waits while a channel is READY. -/
abbrev Settled (s : State) : Prop := s.gar.arbDue = false ∧ NoRunToServe s

/-- Every bus is in use, so an event of R47 starts no arbitration. -/
abbrev NoIdleBus (s : State) : Prop := s.idleBus = none

/-- No desk request is queued and RTS is not dispatching, so an arbitration has no claimant (R48, R49). -/
abbrev NoClaimant (s : State) : Prop := s.gar.queue = [] ∧ s.rts.state ≠ .running

/-- The state after an arbitration without claimant: the service-ratio counter is 0 (R51). -/
def ratioCleared (s : State) : State := { s with gar := { s.gar with ratio := 0, arbDue := false } }

/-! ## A request taken and answered (R175) -/

/-- `q` is the oldest request of port `p`, it is of kind `k`, and R175 passes it to its owning block. -/
abbrev Asks (s : State) (p : Port) (k : RequestKind) (q : Request) : Prop :=
  (s.port p).requests.head? = some q ∧ kindOf q.kind = some k ∧ s.gate p k q = none

/-- The ports once `q` has left the FIFO of `p` and its reply stands at the tail of the reply queue; a free
transmitter takes the oldest reply, or else the oldest notice. No other port changes. -/
def answeredPorts (s : State) (p : Port) (q : Request) (o : ReplyOutcome) (data : List Byte) : PerPort PortUnit :=
  s.ports.set p (PortUnit.kick
    { s.port p with
      requests := (s.port p).requests.drop 1
      replies := (s.port p).replies ++ [{ kind := replyKind q.kind, tag := q.tag, outcome := o, data := data }] })

/-- A state with the answer given, and nothing else changed. -/
def answered (s : State) (p : Port) (q : Request) (o : ReplyOutcome) (data : List Byte) : State :=
  { s with ports := answeredPorts s p q o data }

/-- OK, marked CLAMPED where a quantity was clamped (R178). -/
def okOutcome (clamped : Bool) : ReplyOutcome := if clamped then .clamped else .ok

end Sys2Proof
end

