-- ==== Sys2Proof/Certificates/Slice0/Obligations.lean ====
section
/-! DEFINITION. The statements about the model: what the part does by the rules of the manual, for every state.
A statement speaks of one step; where an event could also start a grant, its hypotheses say that no bus is IDLE or
that nothing claims one, so that what is stated is the command's own effect. -/

open Sys2Proof Sys2Proof.Machine

/-! ## The whole part -/

/-- A step of a state with a command at the front of its queue is that command's effect on the state with the
queue's rest (the row's interface; the queue is the model's own field). -/
def Obligations.StepTakesFrontCommand : Prop :=
  ∀ (c : Instr) (rest : List Instr) (s : State),
    step { s with pending := c :: rest } = exec c { s with pending := rest }

/-- No command touches the queue of commands that wait. -/
def Obligations.CommandsKeepQueue : Prop :=
  ∀ (c : Instr) (s t : State), exec c s = .next t → t.pending = s.pending

/-- The sizes of two of the FIFOs of R172 hold after every step that starts from a state in which they hold: at most
4 requests in a request FIFO, at most 32 notices in a notice FIFO. The reply queue, the lost count and the transfer
buffer are not part of it. -/
def Obligations.StepKeepsPortSizes : Prop :=
  ∀ s t : State, PortsBounded s → step s = .next t → PortsBounded t

/-- Every step leaves no arbitration due and no run waiting beside a READY channel (R47, R55, R56), from every state
that is settled. That both are settled at the end of a step is the model's choice (log 7). -/
def Obligations.StepKeepsSettled : Prop :=
  ∀ s t : State, Settled s → step s = .next t → Settled t

/-- The tables keep their canonical form through every step: numbers rising, and no entry that reads as an unlisted
one (the form is the model's, log 30). -/
def Obligations.StepKeepsTablesCanonical : Prop :=
  ∀ s t : State, Canonical s → step s = .next t → Canonical t

/-- After power reset every request FIFO and notice FIFO is within its size (R172), the tables are in canonical form,
no arbitration is due and no run waits beside a READY channel. -/
def Obligations.ResetMeetsInvariants : Prop :=
  PortsBounded State.reset ∧ Canonical State.reset ∧ Settled State.reset

/-- Power reset (R1, R11, R17, R19, R29, R31, R42, R46, R58, R59, R76, R91, R111, R114, R130, R132, R145, R146, R162,
R171, R172, R177): the values the manual gives, the supervisor desk from the straps. The queue and the count of free
choices are the model's own and stand (log 8, log 26). The trace ring, whose content has no meaning (R76), and the
model's other fields of its own are not part of it. -/
def Obligations.PowerResetValues : Prop :=
  ∀ (strap : BitVec 2) (s : State), ∃ t, exec (.powerReset strap) s = .next t ∧
    t.op = .config ∧ portNum (deskPort t.supervisor) = strap.toNat + 1 ∧
    (∀ n, t.line n = { equipped := false, cls := 0, call := .idle, access := .normal, hazard := false,
                       openCodes := [], unticketed := false, covered := none, missed := none, last := none }) ∧
    (∀ c, t.cls c = { priority := false, program := 1, capPerKm := 50, dcSoft := 3000, dcHazard := 50000,
                      acSoft := 3000, acHazard := 25000, trHard := 10000, trSoft := 150000, tgHard := 20000,
                      tgSoft := 1000000, rgHard := 20000, rgSoft := 1000000, openMin := 200, capMax := 3000 }) ∧
    (∀ b, (t.bus b).state = .idle ∧ (t.bus b).holder = none ∧ (t.bus b).line = none ∧ (t.bus b).mode = none ∧
      (t.bus b).guard = false ∧ (t.bus b).point = none ∧ (t.bus b).hold = .absent ∧ (t.bus b).run = none ∧
      (t.bus b).tone = { divider := 500, on := 10, off := 0, limit := 0 } ∧ (t.bus b).reason = none ∧
      t.ctx b = none ∧ t.rts.dispatch.get b = none) ∧
    (∀ shelf k, t.point shelf k = none) ∧ t.acc.holdTime = 180 ∧ t.acc.toneLimit = 600 ∧
    t.gar.queue = [] ∧ t.gar.nextSeq = 1 ∧ t.gar.ratio = 0 ∧ t.gar.waiting = [] ∧
    t.gar.prio = { desk1 := 4, desk2 := 4, desk3 := 4, desk4 := 4, routine := 1, catchup := 3, lockout := 5 } ∧
    t.exc.seizes = [] ∧ t.now = ⟨0, 0⟩ ∧ t.exc.unset = true ∧
    (∀ c, (t.chan c).state = .off ∧ (t.chan c).enable = true ∧ (t.chan c).disablePending = false ∧
      (t.chan c).offsets = ⟨0, 0, 0, 0⟩ ∧ (t.chan c).calTime = none ∧ (t.chan c).calAge = none ∧
      (t.chan c).run = none ∧ (t.chan c).bus = none ∧ (t.chan c).pair = none ∧ (t.chan c).bias = .off ∧
      (t.chan c).range = .rc ∧ (t.chan c).gain = .g1 ∧ (t.chan c).activity = .quiet ∧ (t.chan c).written = 0) ∧
    t.mc.settle1 = 20 ∧ t.mc.settle2 = 40 ∧ t.mc.settle3 = 100 ∧
    (∀ n, 2 ≤ n → t.program n = []) ∧ t.program 0 = [.fv 64] ∧
    t.program 1 = [.fv 64, .res .tr .b2 .rb 64, .res .tg .b3 .rc 64, .res .rg .b3 .rc 64, .cap .b1 64] ∧
    t.rsq.nextHandle = 1 ∧ t.rsq.history = [] ∧
    t.rts.state = .stopped ∧ t.rts.phase = .between ∧ t.rts.pointer = 0 ∧ t.rts.number = 0 ∧ t.rts.start = none ∧
    t.rts.period = none ∧ t.rts.late = false ∧ t.rts.counts = ⟨0, 0, 0, 0, 0, 0⟩ ∧ t.rts.lockout = [] ∧
    t.rts.deferred = [] ∧ t.rts.held = 0 ∧
    t.rts.params = { rbl := 2, sr := 4, period := 1440, lag := 10, retry := 10 } ∧
    t.tkt.tickets = [] ∧ t.tkt.nextNumber = 1 ∧ t.tkt.verify = [] ∧ t.tkt.storm = .normal ∧ t.tkt.count = 0 ∧
    t.tkt.quiet = 0 ∧ t.tkt.window = none ∧ t.tkt.params = { window := 60, sIn := 24, sOut := 4, quiet := 5 } ∧
    (∀ g i, (t.cnt.group g).count i = 0 ∧ (t.cnt.group g).carries = 0) ∧ t.cnt.bins = [] ∧
    (∀ g, g < 4 → (t.cnt.group g).mask = groupMask g) ∧
    (∀ p, (t.port p).link = .down ∧ (t.port p).receiver = .hunt ∧ (t.port p).requests = [] ∧
      (t.port p).replies = [] ∧ (t.port p).notices = [] ∧ (t.port p).lost = 0 ∧ (t.port p).transfer = none ∧
      (t.port p).mask = (if p = .p0 then 0 else 7)) ∧
    t.pending = s.pending ∧ t.free = s.free

/-! ## Frames and ports (R129, R172 to R176, R183 to R185) -/

/-- A frame as the part builds it, with a payload of at most 248 bytes, is a good frame to the receiver of R173, with
its own KIND, TAG and payload, and the bytes after it are left. That every reply and notice the part forms has a
payload of at most 248 bytes is not part of it. -/
def Obligations.FramesSentAreGoodFrames : Prop :=
  ∀ (kind tag : Byte) (payload rest : List Byte), payload.length ≤ 248 →
    ∃ body, frameBytes kind tag payload = 0xA5 :: body ∧ scanFrame (body ++ rest) = .good kind tag payload rest

/-- Numbers in payloads are sent most significant byte first (R185): what is written in 1, 2, 3 or 4 bytes reads
back, at any offset. -/
def Obligations.FieldsReadBack : Prop :=
  ∀ (before after : List Byte) (n : Nat),
    (n < 256 → field (before ++ u8 n ++ after) before.length 1 = n) ∧
    (n < 65536 → field (before ++ u16 n ++ after) before.length 2 = n) ∧
    (n < 16777216 → field (before ++ u24 n ++ after) before.length 3 = n) ∧
    (n < 4294967296 → field (before ++ u32 n ++ after) before.length 4 = n)

/-- The checks at the head of a FIFO (R175, R177, R179): role, then operating state, then length. For every kind, the
command that takes a request of that kind refuses one that fails a check with that check's reason, and changes
nothing but the port. CHANNEL_SET is two commands (the model's choice, log 25); the one that the request's value
names takes it. -/
def Obligations.RequestChecksInOrder : Prop :=
  ∀ (s : State) (p : Port) (k : RequestKind) (q : Request),
    let exchange : Prop := k = .callState ∨ k = .seize ∨ k = .testRequest ∨ k = .timeSet
    let everyone : Prop := k = .lineGet ∨ k = .statusGet
    let supervisors : Prop := k = .configLines ∨ k = .configClass ∨ k = .configProgram ∨ k = .configPriority ∨
      k = .configRoutine ∨ k = .configStorm ∨ k = .configTimes ∨ k = .channelSet ∨ k = .configCommit ∨
      k = .routineStart ∨ k = .routineStop ∨ k = .restart ∨ k = .countersClear ∨ k = .ticketPurge
    let inRole : Prop := everyone ∨ (exchange ∧ p = .p0) ∨
      (¬ exchange ∧ p ≠ .p0 ∧ (supervisors → p = deskPort s.supervisor))
    let inConfig : Prop :=
      (p = .p0 ∧ (k = .callState ∨ k = .seize ∨ k = .timeSet ∨ k = .statusGet)) ∨
      (p = deskPort s.supervisor ∧
        ((supervisors ∧ k ≠ .routineStart ∧ k ≠ .routineStop ∧ k ≠ .restart ∧ k ≠ .ticketPurge) ∨ k = .lineGet ∨
          k = .busGet ∨ k = .channelGet ∨ k = .countersGet ∨ k = .subscribe ∨ k = .statusGet))
    (¬ inRole → s.gate p k q = some .notPermitted) ∧
    (inRole → s.op = .config → ¬ inConfig → s.gate p k q = some .notConfigured) ∧
    (inRole → (s.op = .operational ∨ inConfig) → lengthOk k q.payload = false → s.gate p k q = some .badField) ∧
    (inRole → (s.op = .operational ∨ inConfig) → lengthOk k q.payload = true → s.gate p k q = none) ∧
    (∀ r, Settled s → s.gate p k q = some r → (s.port p).requests.head? = some q → kindOf q.kind = some k →
      exec (requestCommand p q k) s = .next (answered s p q (.refused r) []))

/-- The request path of R174, on a link that is UP: the first row that applies decides. A good frame on a link that
is DOWN, before the line has rested at mark, is discarded with no reply and no count (R184). -/
def Obligations.GoodFrameRequestPath : Prop :=
  ∀ (s : State) (p : Port) (rested : Bool) (kind tag : Byte) (payload : List Byte), Settled s →
    let u : PortUnit := { s.port p with receiver := .hunt }
    let refused (r : Reason) : PortUnit :=
      PortUnit.kick { u with replies := u.replies ++
        [{ kind := replyKind kind, tag := tag, outcome := .refused r, data := [] }] }
    let i := portNum p * 3 + 1
    (u.link = .down → rested = false → exec (.goodFrame p rested kind tag payload) s = .next (s.setPort p u)) ∧
    (u.link = .up →
      if 8 ≤ u.replies.length + u.requests.length then
        exec (.goodFrame p rested kind tag payload) s = .next (s.setPort p u)
      else if kindOf kind = none then
        s.cnt.g3.count i < 65535 →
          exec (.goodFrame p rested kind tag payload) s = .next
            { s.setPort p (refused .unknownKind) with
              cnt := { s.cnt with g3 := { s.cnt.g3 with
                counts := writeTable (fun _ => 0) s.cnt.g3.counts i (s.cnt.g3.count i + 1) } } }
      else if 4 ≤ u.requests.length then
        exec (.goodFrame p rested kind tag payload) s = .next (s.setPort p (refused .queueFull))
      else
        exec (.goodFrame p rested kind tag payload) s = .next (s.setPort p
          { u with requests := u.requests ++ [{ kind := kind, tag := tag, payload := payload }] }))

/-- A link comes UP at the first good frame after the rest at mark (R74, R183, R184), and the frame then takes the
request path; on P0 a HELD scheduler that no storm holds returns to RUNNING (R131). Desk ports first, then P0; where
the scheduler is HELD, with every bus in use. -/
def Obligations.GoodFrameBringsLinkUp : Prop :=
  (∀ (s : State) (d : Desk) (kind tag : Byte) (payload : List Byte), Settled s → kindOf kind ≠ none →
    (s.port (deskPort d)).link = .down → (s.port (deskPort d)).requests.length < 4 →
    (s.port (deskPort d)).replies.length + (s.port (deskPort d)).requests.length < 8 →
    exec (.goodFrame (deskPort d) true kind tag payload) s = .next (s.setPort (deskPort d)
      { s.port (deskPort d) with
        link := .up
        receiver := .hunt
        requests := (s.port (deskPort d)).requests ++ [{ kind := kind, tag := tag, payload := payload }] })) ∧
  (∀ (s : State) (kind tag : Byte) (payload : List Byte), Settled s → (s.rts.state = .held → NoIdleBus s) →
    kindOf kind ≠ none → (s.port .p0).link = .down → (s.port .p0).requests.length < 4 →
    (s.port .p0).replies.length + (s.port .p0).requests.length < 8 →
    exec (.goodFrame .p0 true kind tag payload) s = .next
      { s.setPort .p0 { s.port .p0 with
          link := .up
          receiver := .hunt
          requests := (s.port .p0).requests ++ [{ kind := kind, tag := tag, payload := payload }] } with
        rts := { s.rts with
          state := if s.rts.state = .held ∧ s.tkt.storm = .normal then .running else s.rts.state } })

/-- A discarded frame adds 1 to the port's bad-frame counter (R166, R173), and after an interrupted one the next byte
received is hunted from. The bytes behind the SYNC of a bad frame are hunted again in the same step: with no SYNC
among them the receiver hunts on, a frame begun among them goes on being collected, a further bad frame is discarded
as if it had come by itself, and a good frame hidden among them joins the request FIFO, bringing a desk link that is
DOWN UP where its line had rested at mark (R174, R183, R184). That BAD_FRAME carries those bytes, and that they are
hunted, counted and handed on in its own step, is the model's choice (log 22). -/
def Obligations.DiscardedFramesAreCounted : Prop :=
  ∀ (s : State) (p : Port) (heard : LineBytes), Settled s → s.cnt.g3.count (portNum p * 3) < 65535 →
    let counted (u : PortUnit) : State :=
      { s.setPort p u with
        cnt := { s.cnt with g3 := { s.cnt.g3 with
          counts := writeTable (fun _ => 0) s.cnt.g3.counts (portNum p * 3) (s.cnt.g3.count (portNum p * 3) + 1) } } }
    let receives (r : Receiver) : PortUnit := { s.port p with receiver := r }
    exec (.interruptedFrame p) s = .next (counted (receives .hunt)) ∧
    (syncByte ∉ heard.bytes → exec (.badFrame p heard) s = .next (counted (receives .hunt))) ∧
    (∀ junk begun, heard.bytes = junk ++ syncByte :: begun → syncByte ∉ junk →
      (scanFrame begun = .unfinished → exec (.badFrame p heard) s = .next (counted (receives
        (.collecting { rested := heard.rested, bytes := begun })))) ∧
      (scanFrame begun = .bad → exec (.badFrame p heard) s =
        exec (.badFrame p { rested := heard.rested, bytes := begun }) (counted (s.port p)))) ∧
    (∀ junk kind tag payload tail, heard.bytes = junk ++ frameBytes kind tag payload ++ tail → syncByte ∉ junk →
      syncByte ∉ tail → payload.length ≤ 248 → kindOf kind ≠ none →
      ((s.port p).link = .up ∨ (p ≠ .p0 ∧ heard.rested = true)) → (s.port p).requests.length < 4 →
      (s.port p).replies.length + (s.port p).requests.length < 8 →
      exec (.badFrame p heard) s = .next (counted { s.port p with
        link := .up, receiver := .hunt
        requests := (s.port p).requests ++ [{ kind := kind, tag := tag, payload := payload }] }))

/-- The transmitter (R175): a frame sent leaves its queue, and the oldest reply, or else the oldest notice, is sent
next. An event of an idle transmitter changes nothing (log 5). The trace stream (R129, R176): the next TRACE_DATA,
of 32 samples or the rest, joins the notice FIFO when at least 9 places are free, and waits otherwise; the buffer
streams until its last notice has joined. -/
def Obligations.QueuedFramesAreSent : Prop :=
  (∀ (s : State) (p : Port),
    let u := s.port p
    let next (replies : List Reply) (notices : List QueuedNotice) : Transmitter :=
      match replies, notices with
      | r :: _, _ => .reply (replyFrame r)
      | [], q :: _ => .notice (noticeFrame q)
      | [], [] => .free
    (u.tx = .free → exec (.frameSent p) s = .next s) ∧
    (∀ f, u.tx = .reply f → exec (.frameSent p) s = .next (s.setPort p
      { u with replies := u.replies.drop 1, tx := next (u.replies.drop 1) u.notices })) ∧
    (∀ f, u.tx = .notice f → exec (.frameSent p) s = .next (s.setPort p
      { u with notices := u.notices.drop 1, tx := next u.replies (u.notices.drop 1) }))) ∧
  (∀ (s : State) (d : Desk) (x : Transfer), (s.port (deskPort d)).transfer = some x →
    let u := s.port (deskPort d)
    if u.notices.length + 9 ≤ 32 then
      ∃ v : PortUnit, exec (.traceData d) s = .next (s.setPort (deskPort d) v) ∧
        v.notices = u.notices ++
          [{ lost := u.lost, notice := .traceData x.handle x.step x.offset (x.samples.take 32) }] ∧
        v.lost = 0 ∧ v.replies = u.replies ∧ v.requests = u.requests ∧ v.link = u.link ∧ v.mask = u.mask ∧
        v.transfer = (if x.samples.length ≤ 32 then none
          else some { x with offset := x.offset + 32, samples := x.samples.drop 32 })
    else exec (.traceData d) s = .next s)

/-- Link down. Exchange (R74, R75), while every SPLIT bus is already on its way out and no notice waits on P0: the
FIFOs and the reply queue are emptied, the pending seize table is emptied, and a RUNNING scheduler is HELD (R131).
Desk (R183), for a desk that holds no bus and no ticket, with no notice waiting: its queued CONNECT requests leave
the queue without notice (R53), its port is emptied, and its subscription mask is reset. A break while the link is
DOWN ends a frame in progress (R173). Both empty the transmitter (log 24). -/
def Obligations.LinkDownEffects : Prop :=
  (∀ s : State, Settled s →
    ((s.port .p0).link = .down →
      exec .exchangeLinkDown s = .next (s.setPort .p0 { s.port .p0 with receiver := .hunt })) ∧
    ((s.port .p0).link = .up → (s.port .p0).notices = [] → (∀ b, (s.bus b).mode = some .split → (s.bus b).state = .releasing) →
      exec .exchangeLinkDown s = .next
        { s.setPort .p0 { s.port .p0 with link := .down, receiver := .hunt, requests := [], replies := [],
                                          notices := [], mask := 0, transfer := none, tx := .free } with
          exc := { s.exc with seizes := [] }
          rts := { s.rts with state := if s.rts.state = .running then .held else s.rts.state } })) ∧
  (∀ (s : State) (d : Desk), Settled s →
    ((s.port (deskPort d)).link = .down →
      exec (.deskLinkDown d) s = .next (s.setPort (deskPort d) { s.port (deskPort d) with receiver := .hunt })) ∧
    ((s.port (deskPort d)).link = .up → (s.port (deskPort d)).notices = [] →
      (∀ b, (s.bus b).holder ≠ some (.desk d)) → (∀ t ∈ s.tkt.tickets, t.assignee ≠ some d) →
      exec (.deskLinkDown d) s = .next
        { s.setPort (deskPort d)
            { s.port (deskPort d) with link := .down, receiver := .hunt, requests := [], replies := [],
                                       notices := [], mask := 7, transfer := none, tx := .free } with
          gar := { s.gar with queue := s.gar.queue.filter fun e => e.desk ≠ d } }))

/-- A broadcast notice (R176) is offered to each port whose subscription mask holds its kind and to no other. Where
every subscribing port is UP with room, it joins the tail of each of their FIFOs with the port's lost count, and
nothing is counted. A notice to a port that is DOWN or whose FIFO holds 32 is lost (R166, R176): the port's lost
count and its lost-notice counter grow by 1. -/
def Obligations.NoticesReachPorts : Prop :=
  (∀ (s : State) (n : Notice),
    (∀ p, (s.port p).subscribes n = true → (s.port p).link = .up ∧ (s.port p).notices.length < 32) →
    s.broadcast n = { s with ports := (s.broadcast n).ports } ∧
    ∀ p,
      ((s.port p).subscribes n = false → (s.broadcast n).port p = s.port p) ∧
      ((s.port p).subscribes n = true →
        ((s.broadcast n).port p).notices = (s.port p).notices ++ [{ lost := (s.port p).lost, notice := n }] ∧
        ((s.broadcast n).port p).lost = 0 ∧ ((s.broadcast n).port p).replies = (s.port p).replies ∧
        ((s.broadcast n).port p).requests = (s.port p).requests ∧ ((s.broadcast n).port p).link = .up)) ∧
  (∀ (s : State) (p : Port) (n : Notice),
    ((s.port p).link = .down ∨ 32 ≤ (s.port p).notices.length) → s.cnt.g3.count (portNum p * 3 + 2) < 65535 →
    s.notify p n = { s.setPort p { s.port p with lost := if (s.port p).lost < 255 then (s.port p).lost + 1 else 255 } with
      cnt := { s.cnt with g3 := { s.cnt.g3 with
        counts := writeTable (fun _ => 0) s.cnt.g3.counts (portNum p * 3 + 2)
          (s.cnt.g3.count (portNum p * 3 + 2) + 1) } } })

/-! ## The exchange (R60 to R75) -/

/-- CALL_STATE (R61 to R63, R70): a report for a line without a pending seize writes the call state. LOCKOUT does
nothing more, nor does BUSY or RINGING on a line that no bus holds in SPLIT, nor IDLE on a line that is not on the
lockout list. A line number or a state outside its set is refused. -/
def Obligations.CallStateIsRecorded : Prop :=
  ∀ (s : State) (p : Port) (q : Request), Asks s p .callState q → Settled s → Canonical s →
    let line := field q.payload 0 2
    let state := callOf (field q.payload 2 1)
    ((2047 < line ∨ state = none) → exec (.callState p) s = .next (answered s p q (.refused .badField) [])) ∧
    (∀ c, state = some c → line ≤ 2047 → (∀ e ∈ s.exc.seizes, e.line ≠ line) →
      (c = .lockout ∨ (c = .idle ∧ line ∉ s.rts.lockout) ∨
        (c ≠ .idle ∧ ∀ b m, (s.line line).access ≠ .split b m)) →
      exec (.callState p) s = .next (answered (s.setLine line { s.line line with call := c }) p q .ok []))

/-- A call, BUSY or RINGING, on a line that a desk holds in SPLIT, connected or still OPERATING, with no release
pending (R62, R64): the holder's desk gets one CALL_ATTEMPT with the bus, the line, the cause and the time, whatever
its subscription mask, and the bus stays as it is. A guarded desk test on a line of a class without emergency service
is not given up (R65, R67): the SEIZE is answered HELD_TEST, the desk is told, and the call state, the bus and the
pending seize table stay as they are. -/
def Obligations.CallsOnDeskHeldLines : Prop :=
  (∀ (s : State) (q : Request) (b : Bus) (d : Desk) (c : CallState) (cause : AttemptCause),
    Asks s .p0 .callState q → Settled s → Canonical s →
    let line := field q.payload 0 2
    line ≤ 2047 → (field q.payload 2 1, c, cause) ∈ [(1, .busy, .busy), (2, .ringing, .ringing)] →
    (∀ e ∈ s.exc.seizes, e.line ≠ line) →
    ((s.line line).access = .split b .settled ∨ (s.line line).access = .split b .operating) → (s.bus b).reason = none → (s.bus b).holder = some (.desk d) →
    (s.port (deskPort d)).link = .up → (s.port (deskPort d)).notices.length < 32 →
    ∃ t, exec (.callState .p0) s = .next t ∧
      (t.port (deskPort d)).notices = (s.port (deskPort d)).notices ++
        [{ lost := (s.port (deskPort d)).lost, notice := .callAttempt b line cause s.now }] ∧
      (t.port .p0).replies = (s.port .p0).replies ++
        [{ kind := replyKind q.kind, tag := q.tag, outcome := .ok, data := [] }] ∧
      t.acc = s.acc ∧ t.lrt = (s.setLine line { s.line line with call := c }).lrt ∧ t.exc = s.exc ∧
      t.rsq = s.rsq ∧ t.mc = s.mc ∧ t.gar = s.gar ∧ t.rts = s.rts ∧ t.tkt = s.tkt ∧ t.cnt = s.cnt) ∧
  (∀ (s : State) (q : Request) (b : Bus) (d : Desk), Asks s .p0 .seize q → Settled s →
    let line := field q.payload 0 2
    line ≤ 2047 → (∀ e ∈ s.exc.seizes, e.line ≠ line) →
    ((s.line line).access = .split b .settled ∨ (s.line line).access = .split b .operating) → (s.bus b).reason = none → (s.bus b).holder = some (.desk d) → (s.bus b).guard = true →
    (s.lineClass line).priority = false →
    (s.port (deskPort d)).link = .up → (s.port (deskPort d)).notices.length < 32 →
    ∃ t, exec (.seize .p0) s = .next t ∧
      (t.port .p0).replies = (s.port .p0).replies ++
        [{ kind := replyKind q.kind, tag := q.tag, outcome := .ok, data := [1] }] ∧
      (t.port (deskPort d)).notices = (s.port (deskPort d)).notices ++
        [{ lost := (s.port (deskPort d)).lost, notice := .callAttempt b line .seize s.now }] ∧
      t.lrt = s.lrt ∧ t.acc = s.acc ∧ t.exc = s.exc ∧ t.rsq = s.rsq ∧ t.mc = s.mc ∧ t.gar = s.gar ∧ t.rts = s.rts ∧
      t.tkt = s.tkt ∧ t.cnt = s.cnt)

/-- SEIZE (R65 to R68): GRANTED at once on a line that is with the exchange; held back without a reply while a release
is under way; DUPLICATE with two tags pending. A SEIZE that takes a split line back (R65, R66), as routine work, no
guard or a class with emergency service holds nothing against it: the call state is BUSY, its tag makes an entry of
the pending seize table, no reply is sent, and the bus is released with reason PREEMPTED_CALL, which in CONNECTING,
outside the access check, only becomes pending (R25; that CONNECT_FAILED is sent as it is applied, and not with the
SEIZE, is the model's reading, log 12), and in HELD, TALK or TONE starts the release and is told the desk (R33, R35,
R37). A call on a line that routine work holds in SPLIT (R62): the call state is written and the bus is released with
reason PREEMPTED_CALL; in MEASURING the run is aborted PREEMPTED_CALL, and one with its bias on drops it and
discharges for 30 ms first (R33, R90, R123). -/
def Obligations.SeizeOutcomes : Prop :=
  (∀ (s : State) (p : Port) (q : Request), Asks s p .seize q → Settled s →
    let line := field q.payload 0 2
    let pending := s.exc.seizes.find? fun e => e.line = line
    (2047 < line → exec (.seize p) s = .next (answered s p q (.refused .badField) [])) ∧
    (line ≤ 2047 → ∀ e, pending = some e → 2 ≤ e.tags.length →
      exec (.seize p) s = .next (answered s p q (.refused .duplicate) [])) ∧
    (line ≤ 2047 → (∀ e, pending = some e → e.tags.length < 2) →
      ((s.line line).access = .normal ∨ ∃ b m, (s.line line).access = .bridge b m) →
      exec (.seize p) s = .next (answered (s.setLine line { s.line line with call := .busy }) p q .ok [0])) ∧
    (∀ b, line ≤ 2047 → pending = none → (s.line line).access = .split b .releasing →
      exec (.seize p) s = .next
        { (s.popRequest p).setLine line { s.line line with call := .busy } with
          exc := { s.exc with seizes := s.exc.seizes ++ [{ line := line, tags := [q.tag], report := none }] } })) ∧
  (∀ (s : State) (q : Request) (b : Bus), Asks s .p0 .seize q → Settled s →
    let line := field q.payload 0 2
    let r := s.bus b
    let hold : HoldTimer := match r.hold with | .absent => .absent | _ => .stopped
    let pending : ExchangeCoordinator :=
      { s.exc with seizes := s.exc.seizes ++ [{ line := line, tags := [q.tag], report := none }] }
    line ≤ 2047 → (∀ e ∈ s.exc.seizes, e.line ≠ line) → r.reason = none →
    ((s.line line).access = .split b .settled ∨ (s.line line).access = .split b .operating) →
    (r.guard = false ∨ (s.lineClass line).priority = true ∨ ∃ k, r.holder = some (.routine k)) →
    (r.state = .connecting → (∀ ms, r.relay ≠ .checking ms) → exec (.seize .p0) s = .next
      { ((s.popRequest .p0).setLine line { s.line line with call := .busy }).setBus b
          { r with reason := some .preemptedCall, hold := hold } with exc := pending }) ∧
    (∀ d, Canonical s → (r.state = .held ∨ r.state = .talk ∨ r.state = .tone) → r.holder = some (.desk d) →
      r.line = some line → r.mode = some .split → r.reached = true → (s.port (deskPort d)).link = .up →
      (s.port (deskPort d)).notices.length < 32 →
      ∃ z, exec (.seize .p0) s = .next z ∧ z.exc = pending ∧
        z.acc = (s.setBus b { r with
          state := .releasing, reason := some .preemptedCall, hold := hold, gen := ToneGen.off,
          audio := .disconnected, run := none, relay := .lineReleasing 6 }).acc ∧
        (∀ n, z.line n = if n = line then { s.line line with call := .busy, access := .split b .releasing }
          else s.line n) ∧
        (z.port (deskPort d)).notices = (s.port (deskPort d)).notices ++
          [{ lost := (s.port (deskPort d)).lost
             notice := .busState b .releasing (some line) (.release .preemptedCall) }] ∧
        z.port .p0 = { s.port .p0 with requests := (s.port .p0).requests.drop 1 } ∧
        z.lrt.classes = s.lrt.classes ∧ z.gar = s.gar ∧ z.mc = s.mc ∧ z.rsq = s.rsq ∧ z.rts = s.rts ∧
        z.tkt = s.tkt ∧ z.cnt = s.cnt)) ∧
  (∀ (s : State) (q : Request) (b : Bus) (k : RoutineKind) (c : CallState), Asks s .p0 .callState q → Settled s →
    let line := field q.payload 0 2
    let r := s.bus b
    let hold : HoldTimer := match r.hold with | .absent => .absent | _ => .stopped
    let marked : State := (s.setLine line { s.line line with call := c }).setBus b
      { r with reason := some .preemptedCall, hold := hold }
    line ≤ 2047 → (field q.payload 2 1, c) ∈ [(1, .busy), (2, .ringing)] → (∀ e ∈ s.exc.seizes, e.line ≠ line) →
    ((s.line line).access = .split b .settled ∨ (s.line line).access = .split b .operating) →
    r.reason = none → r.holder = some (.routine k) →
    (r.state = .connecting → (∀ ms, r.relay ≠ .checking ms) →
      exec (.callState .p0) s = .next (answered marked .p0 q .ok [])) ∧
    (∀ x ch, r.state = .measuring → s.ctx b = some x → x.final = false → x.abort = none → x.channel = some ch →
      (x.phase = .reading ∨ x.phase = .settle ∨ x.phase = .capture) → (s.chan ch).bias ≠ .off →
      exec (.callState .p0) s = .next (answered
        ((marked.setCtx b (some { x with
            abort := some .preemptedCall, phase := .discharge,
            work := { x.work with stage := .closing, reading := none } })).setChan ch
          { s.chan ch with bias := .off, activity := .discharging, timer := 30, biasNext := none }) .p0 q .ok [])))

/-- The table of R71 after its first row, which is R175's, with every bus in use: a TEST_REQUEST that is accepted
puts its line at the tail of the lockout list and is answered with the new length. With a bus IDLE, RTS dispatching,
and neither a desk request nor another candidate waiting, the arbitration that follows grants the line (R49, R136,
R142): the entry leaves the list, the lowest-numbered IDLE bus goes to CONNECTING for LOCKOUT in SPLIT with the
program of the line's class, the routine-held bus count rises by 1, and the dispatch record holds the source and the
priority name. -/
def Obligations.TestRequestTable : Prop :=
  (∀ (s : State) (p : Port) (q : Request), Asks s p .testRequest q → Settled s → NoIdleBus s →
    let line := field q.payload 0 2
    if 2047 < line then exec (.testRequest p) s = .next (answered s p q (.refused .badField) [])
    else if (s.line line).equipped = false then
      exec (.testRequest p) s = .next (answered s p q (.refused .notEquipped) [])
    else if (s.line line).call ≠ .lockout then
      exec (.testRequest p) s = .next (answered s p q (.refused .notLockout) [])
    else if line ∈ s.rts.lockout ∨ ∃ b ∈ allBuses,
        (s.bus b).state ≠ .idle ∧ (s.bus b).line = some line ∧ (s.bus b).holder = some (.routine .lockout) then
      exec (.testRequest p) s = .next (answered s p q (.refused .duplicate) [])
    else if 16 ≤ s.rts.lockout.length then exec (.testRequest p) s = .next (answered s p q (.refused .full) [])
    else exec (.testRequest p) s = .next (answered
      { s with rts := { s.rts with lockout := s.rts.lockout ++ [line] } } p q .ok
      [BitVec.ofNat 8 (s.rts.lockout.length + 1)])) ∧
  (∀ (s : State) (p : Port) (q : Request) (b : Bus) (k : Nat), Asks s p .testRequest q → Settled s →
    let line := field q.payload 0 2
    line ≤ 2047 → (s.line line).equipped = true → (s.line line).call = .lockout →
    (∀ c, (s.bus c).line ≠ some line) → s.freePoint (line / 64) = some k → s.idleBus = some b → s.op = .operational →
    s.gar.queue = [] → s.rts.state = .running → s.rts.held < s.rts.params.rbl →
    (∃ c, (s.chan c).enable = true ∧ (s.chan c).disablePending = false ∧ (s.chan c).state = .ready) →
    s.tkt.verify = [] → s.rts.lockout = [] → s.rts.deferred = [] → s.rts.phase = .between →
    exec (.testRequest p) s = .next (answered
      { ((s.setBus b
          { BusRecord.fresh with
            state := .connecting, holder := some (.routine .lockout), line := some line, mode := some .split,
            point := some k, program := some (s.lineClass line).program, relay := .pointOperating 8 }).setPoint
          (line / 64) k (some b)).setLine line { s.line line with access := .split b .operating } with
        gar := { s.gar with ratio := 0 }
        rts := { s.rts with
          held := s.rts.held + 1
          dispatch := s.rts.dispatch.set b (some { source := .lockoutList, name := .lockout }) } } p q .ok [1]))

/-- TIME_SET (R73): the time takes the values given, the unset flag is cleared and the part's own second starts
afresh; a second above 86 399 is refused. Stated where every bus is in use or no entry waits on the deferred list, so
that no entry that comes due starts a grant. The part's own count of a second (R73): the second increases by 1, 86
400 is second 0 of the next day, and day 65 535 is followed by day 0; that TIME_ADVANCE counts a second whatever part
of one has passed is the model's choice (log 1). -/
def Obligations.TimeOfDay : Prop :=
  (∀ (s : State) (p : Port) (q : Request), Asks s p .timeSet q → Settled s →
    (NoIdleBus s ∨ s.rts.deferred = []) →
    let day := field q.payload 0 2
    let sec := field q.payload 2 3
    if 86399 < sec then exec (.timeSet p) s = .next (answered s p q (.refused .badField) [])
    else exec (.timeSet p) s = .next (answered
      { s with exc := { s.exc with time := ⟨day, sec⟩, subMs := 0, unset := false } } p q .ok (u16 day ++ u24 sec))) ∧
  (∀ s : State, Settled s → (NoIdleBus s ∨ s.rts.deferred = []) → s.exc.time.sec ≤ 86399 → s.exc.time.day ≤ 65535 →
    exec .timeAdvance s = .next
      { s with exc := { s.exc with
          subMs := 0
          time := if s.exc.time.sec = 86399 then ⟨if s.exc.time.day = 65535 then 0 else s.exc.time.day + 1, 0⟩
            else ⟨s.exc.time.day, s.exc.time.sec + 1⟩ } })

/-! ## Buses (R18, R21 to R37, R41 to R45, R50, R51) -/

/-- The refusals of R43, rows 3 to 5 and 7, and of R44, rows 1 to 3; a refused CONNECT changes nothing but its port.
-/
def Obligations.ConnectRefusals : Prop :=
  ∀ (s : State) (d : Desk) (q : Request), Asks s (deskPort d) .connect q → Settled s →
    let line := field q.payload 0 2
    let refusedWith (r : Reason) : Prop :=
      exec (.connect (deskPort d)) s = .next (answered s (deskPort d) q (.refused r) [])
    let twice : Prop := (∃ e ∈ s.gar.queue, e.desk = d ∧ e.line = line) ∨
      ∃ b, (s.bus b).holder = some (.desk d) ∧ (s.bus b).line = some line
    let held : Prop := ∃ b, (s.bus b).state ≠ .idle ∧ (s.bus b).line = some line
    ((2047 < line ∨ 1 < field q.payload 2 1 ∨ 1 < field q.payload 3 1 ∨ 1 < field q.payload 4 1) →
      refusedWith .badField) ∧
    (line ≤ 2047 → field q.payload 2 1 ≤ 1 → field q.payload 3 1 ≤ 1 → field q.payload 4 1 ≤ 1 →
      ((s.line line).equipped = false → refusedWith .notEquipped) ∧
      ((s.line line).equipped = true → twice → refusedWith .duplicate) ∧
      ((s.line line).equipped = true → ¬ twice → field q.payload 4 1 = 0 →
        (8 ≤ s.gar.queue.length ∨ 2 ≤ (s.gar.queue.filter fun e => e.desk = d).length) → refusedWith .queueFull) ∧
      ((s.line line).equipped = true → ¬ twice → field q.payload 4 1 = 1 → held → refusedWith .lineHeld) ∧
      ((s.line line).equipped = true → ¬ twice → field q.payload 4 1 = 1 → ¬ held →
        (∀ k, k < 2 → s.point (line / 64) k ≠ none) → refusedWith .shelfFull) ∧
      ((s.line line).equipped = true → ¬ twice → field q.payload 4 1 = 1 → ¬ held →
        (∃ k, k < 2 ∧ s.point (line / 64) k = none) → NoIdleBus s → refusedWith .noBus))

/-- An accepted CONNECT while every bus is in use and its line is with no bus or with a bus that another desk holds
(R42, R43): one entry joins the tail of the queue with the tag, the next arrival sequence, the guard of a SPLIT
connect, and the desk's priority of that moment; the reply is ACCEPTED with the arrival sequence, and 65 535 is
followed by 1. -/
def Obligations.ConnectJoinsQueue : Prop :=
  ∀ (s : State) (d : Desk) (q : Request) (mode : Mode), Asks s (deskPort d) .connect q → Settled s → NoIdleBus s →
    let line := field q.payload 0 2
    line ≤ 2047 → field q.payload 2 1 = modeCode mode → field q.payload 3 1 ≤ 1 → field q.payload 4 1 = 0 →
    (s.line line).equipped = true →
    (∀ e ∈ s.gar.queue, e.desk ≠ d ∨ e.line ≠ line) →
    (∀ b, (s.bus b).line = some line → ∃ e, e ≠ d ∧ (s.bus b).holder = some (.desk e)) →
    s.gar.queue.length < 8 → (s.gar.queue.filter fun e => e.desk = d).length < 2 →
    exec (.connect (deskPort d)) s = .next (answered
      { s with gar := { s.gar with
          nextSeq := if s.gar.nextSeq = 65535 then 1 else s.gar.nextSeq + 1
          queue := s.gar.queue ++
            [{ desk := d, tag := q.tag.toNat, seq := s.gar.nextSeq, line := line, mode := mode,
               guard := field q.payload 3 1 = 1 && mode = .split, priority := s.gar.prio.ofDesk d }] } }
      (deskPort d) q .accepted (u16 s.gar.nextSeq))

/-- A NOWAIT CONNECT that finds an IDLE bus, a free line and point, and no other claimant is granted at once (R21,
R44): the lowest-numbered IDLE bus goes to CONNECTING for the desk, takes the lower-numbered free point of the
shelf, starts its hold timer and the shelf point relay, and the line's access state is OPERATING; nothing else
changes. -/
def Obligations.NowaitConnectTakesIdleBus : Prop :=
  ∀ (s : State) (d : Desk) (q : Request) (b : Bus) (mode : Mode) (k : Nat),
    Asks s (deskPort d) .connect q → Settled s → NoClaimant s → s.op = .operational → s.idleBus = some b →
    let line := field q.payload 0 2
    line ≤ 2047 → field q.payload 2 1 = modeCode mode → field q.payload 3 1 ≤ 1 → field q.payload 4 1 = 1 →
    (s.line line).equipped = true → (∀ c, (s.bus c).line ≠ some line) → s.freePoint (line / 64) = some k →
    (mode = .split → (s.port .p0).link = .up ∧ (s.line line).call ≠ .busy ∧ (s.line line).call ≠ .ringing) →
    exec (.connect (deskPort d)) s = .next (answered
      { ((s.setBus b
          { BusRecord.fresh with
            state := .connecting, holder := some (.desk d), line := some line, mode := some mode,
            guard := field q.payload 3 1 = 1 && mode = .split, point := some k,
            hold := .running (s.acc.holdTime * 1000), tag := q.tag.toNat, seq := s.gar.nextSeq,
            relay := .pointOperating 8 }).setPoint (line / 64) k (some b)).setLine line
          { s.line line with access := match mode with | .split => .split b .operating | .bridge => .bridge b .operating }
        with gar := { s.gar with
          ratio := 0, nextSeq := if s.gar.nextSeq = 65535 then 1 else s.gar.nextSeq + 1 } }
      (deskPort d) q .accepted (u16 s.gar.nextSeq))

/-- The choice of an arbitration among its claimants (R50) and the service-ratio counter after it (R51): with the
counter at SR a candidate wins; otherwise the highest priority, the earliest of equal desk claims, and a desk claim
before a candidate of its priority. `desks` are the eligible claims in queue order, a NOWAIT claim last. -/
def Obligations.ArbitrationChoosesWinner : Prop :=
  ∀ (count sr : Nat) (prio : Priorities) (desks : List DeskClaim) (cand : Option Candidate),
    let w := chooseWinner count sr prio (bestDesk desks) cand
    (desks = [] → cand = none → w = .nobody) ∧
    (∀ c, cand = some c → (desks = [] ∨ sr ≤ count ∨ ∀ d ∈ desks, d.1.priority < prio.ofName c.name) →
      w = .routine c) ∧
    (∀ before d after, desks = before ++ d :: after → (∀ e ∈ before, e.1.priority < d.1.priority) →
      (∀ e ∈ after, e.1.priority ≤ d.1.priority) →
      (∀ c, cand = some c → count < sr ∧ prio.ofName c.name ≤ d.1.priority) → w = .desk d) ∧
    (cand = none → nextRatio count cand.isSome w = 0) ∧
    (∀ c, cand = some c → w = .routine c → nextRatio count cand.isSome w = 0) ∧
    (∀ c d, cand = some c → w = .desk d → nextRatio count cand.isSome w = count + 1)

/-- The order of refusals of R18 for the requests that act on a held bus, SET_MODE, RENEW and RUN: a bus number above
3 or another bad field, then a desk that does not hold the bus or a release pending or under way. RELEASE asks only
for the holder. A refused request does not renew the hold timer (R31). That the mode codes of SET_MODE are 0, 1 and 2
is the model's reading (log 19). -/
def Obligations.HeldBusRefusals : Prop :=
  ∀ (s : State) (d : Desk) (q : Request), Settled s →
    let p := deskPort d
    let bus := busOf (field q.payload 0 1)
    let notMine (b : Bus) : Prop := (s.bus b).holder ≠ some (.desk d)
    let leaving (b : Bus) : Prop := (s.bus b).state = .releasing ∨ (s.bus b).reason ≠ none
    (Asks s p .renew q →
      (bus = none → exec (.renew p) s = .next (answered s p q (.refused .badField) [])) ∧
      (∀ b, bus = some b → notMine b ∨ leaving b →
        exec (.renew p) s = .next (answered s p q (.refused .notHolder) []))) ∧
    (Asks s p .setMode q →
      ((bus = none ∨ 2 < field q.payload 1 1) →
        exec (.setMode p) s = .next (answered s p q (.refused .badField) [])) ∧
      (∀ b, bus = some b → field q.payload 1 1 ≤ 2 → notMine b ∨ leaving b →
        exec (.setMode p) s = .next (answered s p q (.refused .notHolder) []))) ∧
    (Asks s p .run q →
      ((bus = none ∨ 7 < field q.payload 1 1 ∨ 1 < field q.payload 2 1) →
        exec (.run p) s = .next (answered s p q (.refused .badField) [])) ∧
      (∀ b, bus = some b → field q.payload 1 1 ≤ 7 → field q.payload 2 1 ≤ 1 → notMine b ∨ leaving b →
        exec (.run p) s = .next (answered s p q (.refused .notHolder) []))) ∧
    (Asks s p .release q →
      (bus = none → exec (.release p) s = .next (answered s p q (.refused .badField) [])) ∧
      (∀ b, bus = some b → notMine b →
        exec (.release p) s = .next (answered s p q (.refused .notHolder) [])))

/-- RELEASE of a bus that is connected and not measuring (R33, R34, R35): answered OK at once; the bus enters
RELEASING with reason RELEASED, its hold timer and tone stop, its audio path opens, its line relay starts to release,
and its line is marked RELEASING. In CONNECTING, outside the access check, the release only becomes pending (R25);
that CONNECT_FAILED is sent as it is applied, and not with the RELEASE, is the model's reading (log 12). A bus already
on its way out keeps its first reason (R36). -/
def Obligations.ReleaseStartsRelease : Prop :=
  ∀ (s : State) (d : Desk) (q : Request) (b : Bus) (line : Nat), Asks s (deskPort d) .release q → Settled s →
    busOf (field q.payload 0 1) = some b →
    let r := s.bus b
    r.holder = some (.desk d) →
    let hold : HoldTimer := match r.hold with | .absent => .absent | _ => .stopped
    ((r.state = .held ∨ r.state = .talk ∨ r.state = .tone ∨ r.state = .monitor) → r.reason = none → r.reached = true →
      r.line = some line →
      exec (.release (deskPort d)) s = .next (answered
        ((s.setBus b { r with
            state := .releasing, reason := some .released, hold := hold, gen := ToneGen.off, audio := .disconnected,
            run := none, relay := .lineReleasing 6 }).setLine line
          { s.line line with access := match r.mode with
              | some .bridge => .bridge b .releasing
              | _ => .split b .releasing }) (deskPort d) q .ok [])) ∧
    (r.state = .connecting → r.reason = none → (∀ ms, r.relay ≠ .checking ms) →
      exec (.release (deskPort d)) s = .next (answered
        (s.setBus b { r with reason := some .released, hold := hold }) (deskPort d) q .ok [])) ∧
    ((r.state = .releasing ∨ r.reason ≠ none) →
      exec (.release (deskPort d)) s = .next (answered s (deskPort d) q .ok []))

/-- SET_MODE (R26, R28, R29) on a bus in HELD, TALK or TONE that its desk holds: the state named, the audio path and
the tone generator of that state, the tone parameters clamped into the ranges of R28 and written for TONE only, and
the hold timer renewed; in any other state WRONG_STATE. That HELD, TALK and TONE are the mode codes 0, 1 and 2 is the
model's reading (log 19). -/
def Obligations.SetModeMovesBus : Prop :=
  ∀ (s : State) (d : Desk) (q : Request) (b : Bus), Asks s (deskPort d) .setMode q → Settled s →
    busOf (field q.payload 0 1) = some b →
    let r := s.bus b
    r.holder = some (.desk d) → r.state ≠ .releasing → r.reason = none →
    let admitted : Prop := r.state = .held ∨ r.state = .talk ∨ r.state = .tone
    let hold : HoldTimer := match r.hold with | .running _ => .running (s.acc.holdTime * 1000) | h => h
    let asked := toneOf q.payload
    let into (lo hi v : Nat) : Nat := max lo (min hi v)
    let t : ToneParams :=
      { divider := into 250 1250 asked.divider
        on := if asked.on = 0 ∧ 0 < asked.off then 1 else min 50 asked.on
        off := min 50 asked.off
        limit := if asked.limit = 0 then 0 else into 10 1800 asked.limit }
    let limit := (if t.limit = 0 then s.acc.toneLimit else t.limit) * 1000
    let rest : ToneGen := { output := .removed, divider := none, cadence := .continuous, limitMs := none }
    let start : ToneGen :=
      { output := .high, divider := some t.divider,
        cadence := if t.off = 0 then .continuous else .burst (t.on * 100), limitMs := some limit }
    (admitted → field q.payload 1 1 = 0 → exec (.setMode (deskPort d)) s = .next (answered
      (s.setBus b { r with state := .held, audio := .disconnected, gen := rest, hold := hold }) (deskPort d) q .ok
      ([2] ++ u16 r.tone.divider ++ u8 r.tone.on ++ u8 r.tone.off ++ u16 r.tone.limit))) ∧
    (admitted → field q.payload 1 1 = 1 → exec (.setMode (deskPort d)) s = .next (answered
      (s.setBus b { r with state := .talk, audio := .speech, gen := rest, hold := hold }) (deskPort d) q .ok
      ([3] ++ u16 r.tone.divider ++ u8 r.tone.on ++ u8 r.tone.off ++ u16 r.tone.limit))) ∧
    (admitted → field q.payload 1 1 = 2 → exec (.setMode (deskPort d)) s = .next (answered
      (s.setBus b { r with state := .tone, audio := .disconnected, tone := t, gen := start, hold := hold }) (deskPort d)
      q (okOutcome (asked ≠ t)) ([4] ++ u16 t.divider ++ u8 t.on ++ u8 t.off ++ u16 t.limit))) ∧
    (¬ admitted → field q.payload 1 1 ≤ 2 →
      exec (.setMode (deskPort d)) s = .next (answered s (deskPort d) q (.refused .wrongState) []))

/-- RENEW from the holder starts the running hold timer again at the configured hold time and answers that time; a
BUS_GET answers the record as it stands, and one from the holder renews the timer (R31, R41; that the record is read
before the renewal is the model's reading, log 13). A timer that has stopped does not run again. The byte that BUS_GET
sends for a bus without a shelf point is the model's choice (log 46). -/
def Obligations.RenewAndBusGet : Prop :=
  ∀ (s : State) (d : Desk) (q : Request), Settled s →
    let p := deskPort d
    let hold (b : Bus) : HoldTimer := match (s.bus b).hold with | .running _ => .running (s.acc.holdTime * 1000) | h => h
    let renewed (b : Bus) : State := s.setBus b { s.bus b with hold := hold b }
    (∀ b, Asks s p .renew q → busOf (field q.payload 0 1) = some b → (s.bus b).holder = some (.desk d) →
      (s.bus b).state ≠ .releasing → (s.bus b).reason = none →
      exec (.renew p) s = .next (answered (renewed b) p q .ok (u16 s.acc.holdTime))) ∧
    (∀ b, Asks s p .busGet q → busOf (field q.payload 0 1) = some b →
      exec (.busGet p) s = .next (answered (if (s.bus b).holder = some (.desk d) then renewed b else s) p q .ok
        (busRecordBytes b (s.bus b)))) ∧
    (Asks s p .busGet q → busOf (field q.payload 0 1) = none →
      exec (.busGet p) s = .next (answered s p q (.refused .badField) []))

/-- The relay sequence of a connect (R22, R23) with no release pending: shelf point, line relay, access check; a
BRIDGE bus reaches MONITOR and a SPLIT bus whose check passes HELD, the line's access state loses its mark, and the
desk gets CONNECT_DONE. A routine connect, with every bus in use, that a pending release for a call, a desk or the
exchange ends at the shelf point (R25, R143): the line is NORMAL, the shelf point relay releases, and the line joins
the deferred list in its place by due time, with tries 1, the due time a retry delay from now and the current sweep
number (R138); that the dispatch ends as the pending release is applied, at the end of the shelf point operation, is
the model's reading (log 12). The end of an operation that is not in progress changes nothing (log 5), and one that is
may be ended with time still left (log 1): both are the model's choices. -/
def Obligations.ConnectRelaySequence : Prop :=
  ∀ (s : State) (b : Bus), Settled s →
    let r := s.bus b
    let reached (line : Nat) (d : Desk) (z : State) (st : BusState) (audio : AudioPath) (m : Mode) : Prop :=
      z.acc = (s.setBus b { r with state := st, relay := .operated, audio := audio, reached := true }).acc ∧
      z.lrt = (s.setLine line { s.line line with
        access := match m with | .split => .split b .settled | .bridge => .bridge b .settled }).lrt ∧
      (z.port (deskPort d)).notices = (s.port (deskPort d)).notices ++
        [{ lost := (s.port (deskPort d)).lost, notice := .connectDone b line m r.tag r.seq }] ∧
      z.gar = s.gar ∧ z.exc = s.exc ∧ z.mc = s.mc ∧ z.rsq = s.rsq ∧ z.rts = s.rts ∧ z.tkt = s.tkt ∧ z.cnt = s.cnt
    ((∀ ms, r.relay ≠ .pointOperating ms) → exec (.shelfPointOperated b) s = .next s) ∧
    ((∀ ms, r.relay ≠ .lineOperating ms) → exec (.lineRelayOperated b) s = .next s) ∧
    ((∀ ms, r.relay ≠ .checking ms) → ∀ u v w, exec (.accessCheckEnd b u v w) s = .next s) ∧
    (r.reason = none →
      (∀ ms, r.relay = .pointOperating ms →
        exec (.shelfPointOperated b) s = .next (s.setBus b { r with relay := .lineOperating 8 })) ∧
      (∀ ms, r.relay = .lineOperating ms → r.mode = some .split →
        exec (.lineRelayOperated b) s = .next (s.setBus b { r with relay := .checking 4 })) ∧
      (∀ ms line d, r.relay = .lineOperating ms → r.mode = some .bridge → r.line = some line →
        r.holder = some (.desk d) → (s.port (deskPort d)).link = .up → (s.port (deskPort d)).notices.length < 32 →
        ∃ z, exec (.lineRelayOperated b) s = .next z ∧ reached line d z .monitor .listening .bridge) ∧
      (∀ ms line d, r.relay = .checking ms → r.mode = some .split → r.line = some line →
        r.holder = some (.desk d) → (s.port (deskPort d)).link = .up → (s.port (deskPort d)).notices.length < 32 →
        ∃ z, exec (.accessCheckEnd b true true true) s = .next z ∧ reached line d z .held .disconnected .split) ∧
      (∀ ms u v w line d, r.relay = .checking ms → r.line = some line → r.holder = some (.desk d) →
        (u && v && w) = false → ∃ z, exec (.accessCheckEnd b u v w) s = .next z ∧
          (z.bus b).state = .releasing ∧ (z.bus b).reason = some .accessFail ∧
          (z.bus b).relay = .lineReleasing 6 ∧ (z.bus b).line = some line ∧ ∀ c, c ≠ b → z.bus c = s.bus c)) ∧
    (∀ ms line k e before after, r.relay = .pointOperating ms → r.line = some line → r.holder = some (.routine k) →
      k ≠ .lockout → (r.reason = some e ∧ (e = .preemptedCall ∨ e = .preemptedDesk ∨ e = .noExchange)) →
      NoIdleBus s → r.state = .connecting → (∀ f ∈ s.exc.seizes, f.line ≠ line) →
      (∀ f ∈ s.rts.deferred, f.line ≠ line) → s.rts.deferred.length < 32 → s.rts.deferred = before ++ after →
      let due := s.now.later (60 * s.rts.params.retry)
      (∀ f ∈ before, due.before f.due = false) → (∀ f ∈ after, due.before f.due = true) →
      exec (.shelfPointOperated b) s = .next
        { (s.setBus b { r with
            state := .releasing, line := none, lastLine := some line, relay := .pointReleasing 6
            hold := match r.hold with | .absent => .absent | _ => .stopped }).setLine line
            { s.line line with access := .normal } with
          rts := { s.rts with
            deferred := before ++ { line := line, tries := 1, due := due, sweep := s.rts.number } :: after } })

/-- The release sequence (R35, R37): at the end of the line relay release the line is NORMAL and leaves the bus
record, and the shelf point relay releases; at its end the point is free and every field of the bus has its IDLE
value. For a bus of routine work the routine-held bus count then falls by 1 and its dispatch record becomes none
(R130). A line with a pending SEIZE (R69, R70): each tag of its entry is answered GRANTED in the order of the list,
the entry leaves the table, and the call state becomes the held report or stays where none is held. Stated for the
line relay while every bus is in use, and for the shelf point with no other claim waiting. The end of an operation
that is not in progress changes nothing, one that is may be ended with time still left, and an answered SEIZE uses
one free choice of order: all three are the model's (log 5, log 1, log 8). -/
def Obligations.ReleaseRelaySequence : Prop :=
  ∀ (s : State) (b : Bus), Settled s →
    let r := s.bus b
    let left (line : Nat) : BusRecord :=
      { r with line := none, lastLine := some line, relay := .pointReleasing 6
               hold := match r.hold with | .absent => .absent | _ => .stopped }
    ((∀ ms, r.relay ≠ .lineReleasing ms) → exec (.lineRelayReleased b) s = .next s) ∧
    ((∀ ms, r.relay ≠ .pointReleasing ms) → exec (.shelfPointReleased b) s = .next s) ∧
    (∀ ms line, r.relay = .lineReleasing ms → r.line = some line → NoIdleBus s → r.state = .releasing →
      (∀ e ∈ s.exc.seizes, e.line ≠ line) →
      exec (.lineRelayReleased b) s = .next ((s.setBus b (left line)).setLine line
        { s.line line with access := .normal })) ∧
    (∀ ms line e, Canonical s → r.relay = .lineReleasing ms → r.line = some line → NoIdleBus s →
      r.state = .releasing → s.exc.seizes.find? (fun e => e.line = line) = some e →
      ∃ z, exec (.lineRelayReleased b) s = .next z ∧
        z.acc = (s.setBus b (left line)).acc ∧
        z.exc = { s.exc with seizes := s.exc.seizes.filter fun f => f.line ≠ line } ∧
        (∀ n, z.line n = if n = line then
            { s.line line with access := .normal, call := e.report.getD (s.line line).call }
          else s.line n) ∧
        (z.port .p0).replies = (s.port .p0).replies ++
          e.tags.map (fun t => { kind := 0x82, tag := t, outcome := .ok, data := [0] }) ∧
        (z.port .p0).requests = (s.port .p0).requests ∧ (z.port .p0).notices = (s.port .p0).notices ∧
        (z.port .p0).link = (s.port .p0).link ∧ (∀ p, p ≠ .p0 → z.port p = s.port p) ∧
        z.lrt.classes = s.lrt.classes ∧ z.gar = s.gar ∧ z.mc = s.mc ∧ z.rsq = s.rsq ∧ z.rts = s.rts ∧ z.tkt = s.tkt ∧
        z.cnt = s.cnt ∧ z.free = s.free + 1) ∧
    (∀ ms line k d, r.relay = .pointReleasing ms → r.lastLine = some line → r.point = some k →
      r.holder = some (.desk d) → NoClaimant s → s.op = .operational →
      ∃ z, exec (.shelfPointReleased b) s = .next z ∧
        z.acc = ((s.setPoint (line / 64) k none).setBus b BusRecord.fresh).acc ∧
        z.gar = { s.gar with ratio := 0 } ∧ z.lrt = s.lrt ∧ z.exc = s.exc ∧ z.mc = s.mc ∧ z.rsq = s.rsq ∧
        z.rts = s.rts ∧ z.tkt = s.tkt) ∧
    (∀ ms line k n, r.relay = .pointReleasing ms → r.lastLine = some line → r.point = some k →
      r.holder = some (.routine n) → NoClaimant s → s.op = .operational →
      exec (.shelfPointReleased b) s = .next
        { (s.setPoint (line / 64) k none).setBus b BusRecord.fresh with
          gar := { s.gar with ratio := 0 }
          rts := { s.rts with held := s.rts.held - 1, dispatch := s.rts.dispatch.set b none } })

/-- The timers of a bus (R28, R29, R32, R37): the hold timer's expiry releases a connected bus with
BUS_STATE(RELEASING, HOLD_EXPIRED); the tone limit's returns it to HELD with BUS_STATE(HELD, TONE_LIMIT); the divider
turns the level and loads D again; a burst ends in silence for its off time, and a silence in a generator that starts
afresh, the limit running on. A timer that does not run changes nothing (log 5), and one that runs may be ended with
time still left (log 1): both are the model's choices. -/
def Obligations.HoldAndToneTimers : Prop :=
  ∀ (s : State) (b : Bus), Settled s →
    let r := s.bus b
    let told (d : Desk) (n : Notice) (z : State) : Prop :=
      (z.port (deskPort d)).notices = (s.port (deskPort d)).notices ++ [{ lost := (s.port (deskPort d)).lost, notice := n }]
    ((∀ ms, r.hold ≠ .running ms) → exec (.holdExpired b) s = .next s) ∧
    (∀ ms line d, r.hold = .running ms → r.line = some line → r.holder = some (.desk d) → r.reason = none →
      r.reached = true → (r.state = .held ∨ r.state = .talk ∨ r.state = .tone ∨ r.state = .monitor) →
      (s.port (deskPort d)).link = .up → (s.port (deskPort d)).notices.length < 32 →
      ∃ z, exec (.holdExpired b) s = .next z ∧
        z.acc = (s.setBus b { r with
          state := .releasing, reason := some .holdExpired, hold := .stopped, gen := ToneGen.off,
          audio := .disconnected, run := none, relay := .lineReleasing 6 }).acc ∧
        told d (.busState b .releasing (some line) (.release .holdExpired)) z) ∧
    (r.state ≠ .tone → exec (.toneLimit b) s = .next s ∧ exec (.toneDividerExpiry b) s = .next s ∧
      exec (.toneBurstEnd b) s = .next s ∧ exec (.toneSilenceEnd b) s = .next s) ∧
    (r.state = .tone →
      (∀ ms d, r.gen.limitMs = some ms → r.holder = some (.desk d) → (s.port (deskPort d)).link = .up →
        (s.port (deskPort d)).notices.length < 32 → ∃ z, exec (.toneLimit b) s = .next z ∧
          z.acc = (s.setBus b { r with state := .held, gen := ToneGen.off }).acc ∧
          told d (.busState b .held r.line .toneLimit) z) ∧
      (∀ n, r.gen.divider = some n → r.gen.output = .high → exec (.toneDividerExpiry b) s = .next (s.setBus b
        { r with gen := { r.gen with output := .low, divider := some r.tone.divider } })) ∧
      (∀ n, r.gen.divider = some n → r.gen.output = .low → exec (.toneDividerExpiry b) s = .next (s.setBus b
        { r with gen := { r.gen with output := .high, divider := some r.tone.divider } })) ∧
      (∀ ms, r.gen.cadence = .burst ms → exec (.toneBurstEnd b) s = .next (s.setBus b
        { r with gen := { r.gen with output := .rest, divider := none, cadence := .silence (r.tone.off * 100) } })) ∧
      (∀ ms, r.gen.cadence = .silence ms → r.tone.off ≠ 0 → exec (.toneSilenceEnd b) s = .next (s.setBus b
        { r with gen := { output := .high, divider := some r.tone.divider, cadence := .burst (r.tone.on * 100),
                          limitMs := r.gen.limitMs } })))

/-! ## Runs, results and traces (R55, R113, R114, R124 to R129) -/

/-- RUN (R113) on a bus in HELD: the run gets the handle of R114, its context is filled with the desk as origin and
the line's class of that moment, the bus enters MEASURING with its hold timer renewed, and the reply is ACCEPTED with
the handle. While no channel is READY, the run joins the channel wait list with the desk's priority; that its context
then holds step index 0, gain 1 and range RC is the model's choice (log 44). A READY channel is given to it at once
(R55, R83), and what the model keeps of the instant at which it is given is its own (log 60): one whose calibration
age is never, or above 900 s, calibrates inside the run, never counting as old by the model's reading (log 37), and
any other begins the program's first step, an FV step (R96, R100, R112, R126). Refusals in the order of the table. -/
def Obligations.RunBindsBus : Prop :=
  ∀ (s : State) (d : Desk) (q : Request) (b : Bus) (line : Nat), Asks s (deskPort d) .run q → Settled s →
    busOf (field q.payload 0 1) = some b →
    let n := field q.payload 1 1
    let r := s.bus b
    n ≤ 7 → field q.payload 2 1 ≤ 1 → r.holder = some (.desk d) → r.line = some line → r.state ≠ .releasing →
    r.reason = none →
    let inService (c : Channel) : Prop := (s.chan c).enable = true ∧ (s.chan c).disablePending = false ∧
      ((s.chan c).state = .warming ∨ (s.chan c).state = .calibrating ∨ (s.chan c).state = .ready ∨
        (s.chan c).state = .busy)
    let h := firstFree s.handleUsed 40 s.rsq.nextHandle
    let hold : HoldTimer := match r.hold with | .running _ => .running (s.acc.holdTime * 1000) | t => t
    let x : RunContext :=
      { handle := h, origin := .desk d, line := line, bus := b, cls := (s.line line).cls, program := n,
        ticketing := field q.payload 2 1 = 1, channel := none, stepIx := 0, phase := .waitChannel, final := false,
        gain := .g1, range := .rc, start := s.now, done := [], cur := none, pending := [], abort := none,
        work := StepWork.idle }
    let joining : WaitEntry := { handle := h, bus := b, priority := s.gar.prio.ofDesk d }
    (r.state ≠ .held → exec (.run (deskPort d)) s = .next (answered s (deskPort d) q (.refused .wrongState) [])) ∧
    (r.state = .held → s.program n = [] →
      exec (.run (deskPort d)) s = .next (answered s (deskPort d) q (.refused .emptyProgram) [])) ∧
    (r.state = .held → s.program n ≠ [] → (∀ c, ¬ inService c) →
      exec (.run (deskPort d)) s = .next (answered s (deskPort d) q (.refused .noChannel) [])) ∧
    (r.state = .held → s.program n ≠ [] → (∃ c, inService c) → s.readyChannel = none →
      exec (.run (deskPort d)) s = .next (answered
        { (s.setBus b { r with state := .measuring, run := some h, hold := hold }).setCtx b (some x) with
          rsq := { (s.setCtx b (some x)).rsq with nextHandle := (h + 1) % 65536 }
          gar := { s.gar with waiting := insertWaiting joining s.gar.waiting } }
        (deskPort d) q .accepted (u16 h))) ∧
    (∀ c, r.state = .held → s.program n ≠ [] → (∃ e, inService e) → s.readyChannel = some c →
      let given : ChannelRecord :=
        { s.chan c with state := .busy, run := some h, bus := some b, pair := none, bias := .off, range := .rc,
                        gain := .g1, activity := .quiet, timer := 0, biasNext := none, cal := none }
      let bound (y : RunContext) (v : ChannelRecord) : State :=
        { ((s.setBus b { r with state := .measuring, run := some h, hold := hold }).setCtx b (some y)).setChan c v with
          rsq := { (s.setCtx b (some y)).rsq with nextHandle := (h + 1) % 65536 }
          gar := { s.gar with moment := s.gar.moment.given c joining (s.chan c).written } }
      let old : Prop := ∀ a, (s.chan c).calAge = some a → 900000 < a
      (old → exec (.run (deskPort d)) s = .next (answered
        (bound { x with channel := some c, phase := .calibrate }
          { given with activity := .calInRun, cal := some ⟨[], []⟩ }) (deskPort d) q .accepted (u16 h))) ∧
      (∀ m rest, ¬ old → s.program n = .fv m :: rest →
        exec (.run (deskPort d)) s = .next (answered
          (bound { x with
              channel := some c, phase := .reading
              cur := some { kind := .fv, pair := none, status := .ok, values := .fv none none none, bias := none,
                            range := none, gain := none, trace := ⟨some c, (s.chan c).written, 0⟩, findings := [],
                            distance := none }
              work := { StepWork.idle with
                stage := .fv .tg, reading := some { n := m, gain := .g1, changes := 0, raw := [] } } }
            { given with pair := some .tg }) (deskPort d) q .accepted (u16 h))))

/-- The number search of R114 and R146: from the next-number value on, counting past 65 535 to 0, the first value
that is neither 0 nor in use. The channel wait list (R55): a run joins behind every run of the same or a higher
priority and ahead of every run of a lower one; the others keep their places. -/
def Obligations.NumbersAndWaitList : Prop :=
  (∀ (used : Nat → Bool) (fuel n k : Nat), n < 65536 → k < fuel →
    (∀ j, j < k → (n + j) % 65536 = 0 ∨ used ((n + j) % 65536) = true) →
    (n + k) % 65536 ≠ 0 → used ((n + k) % 65536) = false →
    firstFree used fuel n = (n + k) % 65536) ∧
  (∀ (w : WaitEntry) (l : List WaitEntry), l.Pairwise (fun a b => b.priority ≤ a.priority) →
    insertWaiting w l = l.filter (fun v => w.priority ≤ v.priority) ++ w :: l.filter (fun v => v.priority < w.priority) ∧
    (insertWaiting w l).Pairwise (fun a b => b.priority ≤ a.priority))

/-- CANCEL_RUN (R124): the refusals of rows 3 to 6; a run already aborted keeps its cause (row 7); a run in a
discharge that is not final records CANCELLED and goes on with its discharge; a run with its bias on drops it at
once and discharges for 30 ms (R90, R123). An accepted request renews the hold timer (R31, log 14). -/
def Obligations.CancelRunTable : Prop :=
  ∀ (s : State) (d : Desk) (q : Request), Asks s (deskPort d) .cancelRun q → Settled s →
    let h := field q.payload 0 2
    let p := deskPort d
    let inFlight : Prop := ∃ b x, s.ctx b = some x ∧ x.handle = h
    let hold (b : Bus) : HoldTimer := match (s.bus b).hold with | .running _ => .running (s.acc.holdTime * 1000) | t => t
    let renewed (b : Bus) : State := s.setBus b { s.bus b with hold := hold b }
    (h = 0 → exec (.cancelRun p) s = .next (answered s p q (.refused .badField) [])) ∧
    (h ≠ 0 → ¬ inFlight → exec (.cancelRun p) s = .next (answered s p q (.refused .noSuch) [])) ∧
    (∀ b x, h ≠ 0 → s.runBus h = some b → s.ctx b = some x →
      (x.origin ≠ .desk d → exec (.cancelRun p) s = .next (answered s p q (.refused .notHolder) [])) ∧
      (x.origin = .desk d → x.final = true →
        exec (.cancelRun p) s = .next (answered s p q (.refused .tooLate) [])) ∧
      (x.origin = .desk d → x.final = false → x.abort ≠ none →
        exec (.cancelRun p) s = .next (answered (renewed b) p q .ok [])) ∧
      (x.origin = .desk d → x.final = false → x.abort = none → x.phase = .discharge →
        exec (.cancelRun p) s = .next (answered
          ((renewed b).setCtx b (some { x with abort := some .cancelled })) p q .ok [])) ∧
      (∀ c, x.origin = .desk d → x.final = false → x.abort = none → x.channel = some c →
        (x.phase = .reading ∨ x.phase = .settle ∨ x.phase = .capture) → (s.chan c).bias ≠ .off →
        exec (.cancelRun p) s = .next (answered
          (((renewed b).setCtx b (some { x with
              abort := some .cancelled, phase := .discharge,
              work := { x.work with stage := .closing, reading := none } })).setChan c
            { s.chan c with bias := .off, activity := .discharging, timer := 30, biasNext := none }) p q .ok [])))

/-- TRACE (R128, R129): the refusals of rows 3 to 7 in their order; an accepted request copies the samples a to a +
count - 1 from the ring into the port's transfer buffer at that moment, with the count brought to 1 to 1024 and to
what the step holds, and answers the handle, step, offset, count and the number of notices to come. -/
def Obligations.TraceCopiesSamples : Prop :=
  ∀ (s : State) (d : Desk) (q : Request), Asks s (deskPort d) .trace q → Settled s →
    let p := deskPort d
    let h := field q.payload 0 2
    let step := field q.payload 2 1
    let offset := field q.payload 3 2
    let asked := field q.payload 5 2
    let refusedWith (r : Reason) : Prop := exec (.trace p) s = .next (answered s p q (.refused r) [])
    ((h = 0 ∨ 11 < step) → refusedWith .badField) ∧
    (h ≠ 0 → step ≤ 11 → (∀ r ∈ s.rsq.history, r.handle ≠ h) → refusedWith .noSuch) ∧
    (∀ r, h ≠ 0 → step ≤ 11 → s.rsq.history.find? (fun r => r.handle = h) = some r →
      (r.steps.length ≤ step → refusedWith .noSuch) ∧
      (∀ x, r.steps[step]? = some x →
        let t := x.trace
        let capped := if asked < 1 then 1 else if 1024 < asked then 1024 else asked
        let count := min capped (t.length - offset)
        let a : Word32 := t.first + BitVec.ofNat 32 offset
        (t.length ≤ offset → refusedWith .badField) ∧
        (offset < t.length → (s.port p).transfer ≠ none → refusedWith .busy) ∧
        (∀ c, offset < t.length → (s.port p).transfer = none → t.channel = some c →
          let w := (s.chan c).written
          let held : Prop := (w - a).toNat ≤ 8192 ∧ (w - (a + BitVec.ofNat 32 count)).toNat < 2147483648
          (¬ held → refusedWith .stale) ∧
          (held → ∃ u samples, exec (.trace p) s = .next (s.setPort p u) ∧
            u.transfer = some { handle := h, step := step, offset := offset, samples := samples } ∧
            samples.length = count ∧
            (∀ i, i < count → samples[i]? = some ((s.chan c).sampleAt c (a + BitVec.ofNat 32 i))) ∧
            u.replies = (s.port p).replies ++
              [{ kind := replyKind q.kind
                 tag := q.tag
                 outcome := okOutcome (count ≠ asked)
                 data := u16 h ++ u8 step ++ u16 offset ++ u16 count ++ u8 ((count + 31) / 32) }] ∧
            u.requests = (s.port p).requests.drop 1 ∧ u.notices = (s.port p).notices ∧ u.link = (s.port p).link ∧
            u.lost = (s.port p).lost ∧ u.mask = (s.port p).mask))))

/-! ## Requests that read (R10, R93, R126, R159, R170, R179, R186) -/

/-- The reading requests answer the record or figures asked for as they stand, and change nothing but their port. The
reading requests refuse an identifier outside its set BAD_FIELD, and a number that names nothing NO_SUCH, and change
nothing but their port (R178). TICKET_LIST (R159): the tickets that pass the state, line and code filters, in the
table's rising numbers from the start value on, at most 24, with the mark and the number of the next ticket that
passes when there are more (log 57); nothing but the port changes. The model's choices in the bytes sent: day 0 of an
absent time stamp in LINE_GET, TICKET_GET and CHANNEL_GET (log 45), the byte for a channel without a bus in
CHANNEL_GET (log 46), the value bytes of an absent worst value in TICKET_GET (log 47), the second byte of an empty
finding entry in RESULT_GET (log 62). Its reading where chapter 12 gives no table, as in CHANNEL_GET, COUNTERS_GET
with a byte for each carry flag, and TICKET_LIST with 0 for no next ticket: the fields in the order of the rule (log
19). -/
def Obligations.ReadingRequests : Prop :=
  (∀ (s : State) (p : Port) (q : Request), Settled s →
    (Asks s p .lineGet q → field q.payload 0 2 ≤ 2047 →
      exec (.lineGet p) s = .next (answered s p q .ok (lineRecordBytes (field q.payload 0 2)
        (s.line (field q.payload 0 2)) (s.cls (s.line (field q.payload 0 2)).cls)))) ∧
    (Asks s p .statusGet q → exec (.statusGet p) s = .next (answered s p q .ok s.statusBytes)) ∧
    (∀ c, Asks s p .channelGet q → channelOf (field q.payload 0 1) = some c →
      exec (.channelGet p) s = .next (answered s p q .ok (channelRecordBytes (s.chan c)))) ∧
    (∀ r, Asks s p .resultGet q → field q.payload 0 2 ≠ 0 → firstStep q.payload ≤ 11 →
      s.rsq.history.find? (fun r => r.handle = field q.payload 0 2) = some r →
      exec (.resultGet p) s = .next (answered s p q .ok (resultBytes r (firstStep q.payload)))) ∧
    (Asks s p .countersGet q → field q.payload 0 1 ≤ 4 →
      exec (.countersGet p) s = .next (answered s p q .ok (s.groupBytes (field q.payload 0 1)))) ∧
    (∀ t, Asks s p .ticketGet q → field q.payload 0 2 ≠ 0 → s.ticket (field q.payload 0 2) = some t →
      exec (.ticketGet p) s = .next (answered s p q .ok (ticketBytes t)))) ∧
  (∀ (s : State) (p : Port) (q : Request), Settled s →
    (Asks s p .lineGet q → 2047 < field q.payload 0 2 →
      exec (.lineGet p) s = .next (answered s p q (.refused .badField) [])) ∧
    (Asks s p .channelGet q → 1 < field q.payload 0 1 →
      exec (.channelGet p) s = .next (answered s p q (.refused .badField) [])) ∧
    (Asks s p .resultGet q → field q.payload 0 2 = 0 ∨ 11 < firstStep q.payload →
      exec (.resultGet p) s = .next (answered s p q (.refused .badField) [])) ∧
    (Asks s p .resultGet q → field q.payload 0 2 ≠ 0 → firstStep q.payload ≤ 11 →
      (∀ r ∈ s.rsq.history, r.handle ≠ field q.payload 0 2) →
      exec (.resultGet p) s = .next (answered s p q (.refused .noSuch) [])) ∧
    (Asks s p .countersGet q → 4 < field q.payload 0 1 →
      exec (.countersGet p) s = .next (answered s p q (.refused .badField) [])) ∧
    (Asks s p .ticketGet q → field q.payload 0 2 = 0 →
      exec (.ticketGet p) s = .next (answered s p q (.refused .badField) [])) ∧
    (Asks s p .ticketGet q → field q.payload 0 2 ≠ 0 → s.ticket (field q.payload 0 2) = none →
      exec (.ticketGet p) s = .next (answered s p q (.refused .noSuch) []))) ∧
  (∀ (s : State) (p : Port) (q : Request), Asks s p .ticketList q → Settled s →
    let states := field q.payload 0 1
    let line := field q.payload 1 2
    let code := field q.payload 3 1
    let wanted := s.tkt.tickets.filter fun t =>
      states.testBit (ticketStateCode t.state) && (line = 0xFFFF || t.line = line) &&
        (code = 0 || faultNum t.code = code) && field q.payload 4 2 ≤ t.number
    ((states = 0 ∨ 15 < states ∨ (2047 < line ∧ line ≠ 0xFFFF) ∨ 7 < code) →
      exec (.ticketList p) s = .next (answered s p q (.refused .badField) [])) ∧
    (1 ≤ states → states ≤ 15 → (line ≤ 2047 ∨ line = 0xFFFF) → code ≤ 7 →
      exec (.ticketList p) s = .next (answered s p q .ok
        (u8 (min 24 wanted.length) ++ ((wanted.take 24).map ticketEntryBytes).flatten ++
          u8 (if 24 < wanted.length then 1 else 0) ++ u16 ((wanted[24]?.map Ticket.number).getD 0)))))

/-! ## Tickets (R145 to R158) -/

/-- TICKET_TAKE and TICKET_DROP (R156): an OPEN ticket goes to ASSIGNED with the sender; the assignee's ticket goes
back to OPEN without assignee; each is answered with the new state and broadcast as TICKET_CHANGE; the refusals of
the rule. No other ticket and nothing else changes. That the reply joins its queue before the notice is offered is
the model's choice (log 53). -/
def Obligations.TicketTakeAndDrop : Prop :=
  ∀ (s : State) (d : Desk) (q : Request) (t : Ticket), Settled s →
    field q.payload 0 2 ≠ 0 → s.ticket (field q.payload 0 2) = some t →
    let p := deskPort d
    let put (u : Ticket) : State := { s with tkt := { s.tkt with
      tickets := s.tkt.tickets.map fun v => if v.number = t.number then u else v } }
    let change (st : TicketState) (c : TicketCause) : Notice :=
      .ticketChange t.number t.line t.code st t.severity c (some d) s.now
    (Asks s p .ticketTake q →
      (t.state = .opened → exec (.ticketTake p) s = .next
        ((answered (put { t with state := .assigned, assignee := some d }) p q .ok [1]).broadcast
          (change .assigned .taken))) ∧
      (t.state = .assigned → exec (.ticketTake p) s = .next
        (answered s p q (.refused .taken) [BitVec.ofNat 8 ((t.assignee.map deskCode).getD 255)])) ∧
      (t.state = .cleared ∨ t.state = .closed → exec (.ticketTake p) s = .next
        (answered s p q (.refused .wrongState) []))) ∧
    (Asks s p .ticketDrop q →
      (t.state = .assigned → t.assignee = some d → exec (.ticketDrop p) s = .next
        ((answered (put { t with state := .opened, assignee := none }) p q .ok [0]).broadcast
          (change .opened .dropped))) ∧
      (t.state = .assigned → t.assignee ≠ some d → exec (.ticketDrop p) s = .next
        (answered s p q (.refused .notHolder) [])) ∧
      (t.state ≠ .assigned → exec (.ticketDrop p) s = .next (answered s p q (.refused .wrongState) [])))

/-- TICKET_CLEAR (R157), with every bus in use or the line already on the verify list: the assignee's ticket goes to
CLEARED with the cleared time and the clearing desk, the assignee absent; its line joins the verify list if it is not
on it; TICKET_CHANGE is broadcast. The line records, and so the open codes, stay. That the reply joins its queue
before the notice is offered is the model's choice (log 53). -/
def Obligations.TicketClearEffects : Prop :=
  ∀ (s : State) (d : Desk) (q : Request) (t : Ticket), Asks s (deskPort d) .ticketClear q → Settled s →
    field q.payload 0 2 ≠ 0 → s.ticket (field q.payload 0 2) = some t → (NoIdleBus s ∨ t.line ∈ s.tkt.verify) →
    let p := deskPort d
    let u : Ticket := { t with state := .cleared, assignee := none, clearedBy := some d, clearedTime := some s.now }
    (t.state = .assigned → t.assignee = some d → ∃ z, exec (.ticketClear p) s = .next z ∧
      z.tkt = { s.tkt with
        tickets := s.tkt.tickets.map fun v => if v.number = t.number then u else v
        verify := if t.line ∈ s.tkt.verify then s.tkt.verify else s.tkt.verify ++ [t.line] } ∧
      z.ports = ((answered s p q .ok [2]).broadcast
        (.ticketChange t.number t.line t.code .cleared t.severity .cleared (some d) s.now)).ports ∧
      z.lrt = s.lrt ∧ z.acc = s.acc ∧ z.gar = s.gar ∧ z.exc = s.exc ∧ z.mc = s.mc ∧ z.rsq = s.rsq ∧ z.rts = s.rts) ∧
    (t.state = .assigned → t.assignee ≠ some d →
      exec (.ticketClear p) s = .next (answered s p q (.refused .notHolder) [])) ∧
    (t.state ≠ .assigned → exec (.ticketClear p) s = .next (answered s p q (.refused .wrongState) []))

/-- TICKET_CLOSE (R152, R158): with standing, the ticket goes to CLOSED with reason MANUAL and the time, without
assignee; its code leaves the line's open codes; the line of a CLEARED ticket leaves the verify list unless another
CLEARED ticket keeps it; the rest of the table stays. Without standing NOT_HOLDER; a CLOSED ticket WRONG_STATE.
TICKET_PURGE (R158): every CLOSED ticket leaves the table, without notice; the reply gives the numbers removed and
left; live tickets, the next number and the line records stay. -/
def Obligations.TicketCloseAndPurge : Prop :=
  (∀ (s : State) (d : Desk) (q : Request) (t : Ticket), Asks s (deskPort d) .ticketClose q → Settled s →
    field q.payload 0 2 ≠ 0 → s.ticket (field q.payload 0 2) = some t →
    let p := deskPort d
    let standing : Prop := d = s.supervisor ∨ (t.state = .assigned ∧ t.assignee = some d) ∨
      (t.state = .cleared ∧ t.clearedBy = some d)
    let u : Ticket := { t with state := .closed, closeTime := some s.now, closeReason := some .manual, assignee := none,
                               clearedTime := none }
    let others : Bool := s.tkt.tickets.any fun v => v.number ≠ t.number && v.line = t.line && v.state = .cleared
    (t.state = .closed → exec (.ticketClose p) s = .next (answered s p q (.refused .wrongState) [])) ∧
    (t.state ≠ .closed → ¬ standing → exec (.ticketClose p) s = .next (answered s p q (.refused .notHolder) [])) ∧
    (t.state ≠ .closed → standing → ∃ z, exec (.ticketClose p) s = .next z ∧
      z.tkt = { s.tkt with
        tickets := s.tkt.tickets.map fun v => if v.number = t.number then u else v
        verify := if t.state = .cleared ∧ others = false then s.tkt.verify.filter fun l => l ≠ t.line
          else s.tkt.verify } ∧
      z.lrt = (s.setLine t.line { s.line t.line with
        openCodes := (s.line t.line).openCodes.filter fun c => c ≠ t.code }).lrt ∧
      z.acc = s.acc ∧ z.gar = s.gar ∧ z.exc = s.exc ∧ z.mc = s.mc ∧ z.rsq = s.rsq ∧ z.rts = s.rts)) ∧
  (∀ (s : State) (p : Port) (q : Request), Asks s p .ticketPurge q → Settled s →
    let left := s.tkt.tickets.filter fun t => t.state ≠ .closed
    exec (.ticketPurge p) s = .next (answered { s with tkt := { s.tkt with tickets := left } } p q .ok
      (u8 (s.tkt.tickets.length - left.length) ++ u8 left.length)))

/-- Suppression (R148): a SOFT finding without a live ticket, taken in STORM, changes no ticket; it is counted
SUPPRESSED under its code and sets the line's unticketed flag, and no notice of it is sent (COUNTER_CARRY at a wrap
is R167's). Every other finding is merged or goes on to a creation. -/
def Obligations.SoftFindingsSuppressedInStorm : Prop :=
  ∀ (s : State) (f : Finding),
    let i := (faultNum f.code - 1) * 4 + 2
    (s.liveTicket f.line f.code = none → f.severity = .soft → s.tkt.storm = .storm →
      s.takeFinding f = (s.count 0 i).setLine f.line { s.line f.line with unticketed := true }) ∧
    (s.liveTicket f.line f.code = none → f.severity = .soft → s.tkt.storm = .storm → s.cnt.g0.count i < 65535 →
      s.takeFinding f = { s.setLine f.line { s.line f.line with unticketed := true } with
        cnt := { s.cnt with g0 := { s.cnt.g0 with
          counts := writeTable (fun _ => 0) s.cnt.g0.counts i (s.cnt.g0.count i + 1) } } }) ∧
    (s.liveTicket f.line f.code = none → ¬ (f.severity = .soft ∧ s.tkt.storm = .storm) →
      s.takeFinding f = s.raiseTicket f) ∧
    (∀ t, s.liveTicket f.line f.code = some t → s.takeFinding f = s.mergeFinding t f)

/-- A creation (R146, R149) in a table with room: one OPEN ticket more, with the finding's fields and now as first
and last seen, under the number of R146; the code joins the line's open codes and the unticketed flag is cleared
(R153, R154); a HARD or HAZARD creation adds 1 to the window count, which saturates (R163). A merge (R147), whatever
the storm state, for a MERGED count that does not wrap: the ticket's repeat count, last seen, last handle, not-found
count, severity and worst value; a severity raised from SOFT adds 1 to the window count (R163; that one raised from
HARD adds nothing is the model's reading, log 28), and any raise is broadcast as ESCALATED. A CLEARED ticket reopens
where the finding's start lies after its cleared time: ASSIGNED to its cleared-by desk where that desk's link is UP
and OPEN otherwise, the reopen count one higher, its line off the verify list unless another CLEARED ticket keeps it
(R155), REOPENED broadcast after any ESCALATED. The open codes and every other record stay. That the ESCALATED notice
of a merge that reopens carries CLEARED is the model's choice (log 55). -/
def Obligations.CreationMakesTicket : Prop :=
  (∀ (s : State) (f : Finding), Canonical s → s.liveTicket f.line f.code = none → ¬ (f.severity = .soft ∧ s.tkt.storm = .storm) →
    s.tkt.tickets.length < 128 →
    let n := firstFree (fun n => (s.ticket n).isSome) 200 s.tkt.nextNumber
    let t : Ticket :=
      { number := n, line := f.line, code := f.code, severity := f.severity, origin := f.origin, state := .opened,
        assignee := none, clearedBy := none, firstSeen := s.now, lastSeen := s.now, clearedTime := none,
        closeTime := none, closeReason := none, repeats := 0, reopens := 0, notFound := 0, worst := f.value,
        distance := f.distance, handle := f.handle, storm := decide (s.tkt.storm = .storm) }
    let z := s.takeFinding f
    z.tkt = { s.tkt with
      tickets := insertTicket t s.tkt.tickets
      nextNumber := (n + 1) % 65536
      count := if f.severity = .soft then s.tkt.count else min 65535 (s.tkt.count + 1) } ∧
    z.lrt.classes = s.lrt.classes ∧
    (∀ m, z.line m = if m = f.line then
        { s.line f.line with openCodes := addCode f.code (s.line f.line).openCodes, unticketed := false }
      else s.line m) ∧
    z.acc = s.acc ∧ z.gar = s.gar ∧ z.exc = s.exc ∧ z.mc = s.mc ∧ z.rsq = s.rsq ∧ z.rts = s.rts) ∧
  (∀ (s : State) (f : Finding) (t : Ticket), s.liveTicket f.line f.code = some t →
    let i := (faultNum f.code - 1) * 4 + 1
    s.cnt.g0.count i < 65535 →
    let raised : Bool := (t.severity, f.severity) ∈ [(.soft, .hard), (.soft, .hazard), (.hard, .hazard)]
    let worse : Bool := match t.worst, f.value with
      | some o, some n => if f.code ∈ [.loopLow, .earthT, .earthR, .openLine] then n.magnitude < o.magnitude
          else o.magnitude < n.magnitude
      | _, _ => false
    let merged : Ticket := { t with
      repeats := min 255 (t.repeats + 1), lastSeen := s.now, handle := f.handle, notFound := 0
      severity := if raised then f.severity else t.severity
      worst := if worse then f.value else t.worst
      distance := if worse then f.distance else t.distance }
    let desk : Option Desk := t.clearedBy.filter fun d => (s.port (deskPort d)).link = .up
    let reopened : Ticket := { merged with
      state := if desk = none then .opened else .assigned, assignee := desk, clearedBy := none, clearedTime := none,
      reopens := min 255 (t.reopens + 1) }
    let others : Bool := s.tkt.tickets.any fun v => v.number ≠ t.number && v.line = t.line && v.state = .cleared
    let put (u : Ticket) (verify : List Nat) : TicketTable := { s.tkt with
      tickets := s.tkt.tickets.map fun v => if v.number = t.number then u else v
      verify := verify
      count := if raised = true ∧ t.severity = .soft then min 65535 (s.tkt.count + 1) else s.tkt.count }
    let counted : State := { s with
      tkt := put merged s.tkt.verify
      cnt := { s.cnt with g0 := { s.cnt.g0 with
        counts := writeTable (fun _ => 0) s.cnt.g0.counts i (s.cnt.g0.count i + 1) } } }
    let told : State := if raised then
        counted.broadcast (.ticketChange t.number t.line t.code t.state f.severity .escalated none s.now)
      else counted
    let reopens : Prop := t.state = .cleared ∧ ∃ c, t.clearedTime = some c ∧ c.before f.start = true
    (¬ reopens → s.takeFinding f = told) ∧
    (reopens → s.takeFinding f = State.broadcast
      { told with tkt := put reopened (if others then s.tkt.verify else s.tkt.verify.filter fun l => l ≠ t.line) }
      (.ticketChange t.number t.line t.code reopened.state merged.severity .reopened desk s.now)))

/-- Eviction (R149): where a table has a CLOSED ticket, one with the oldest close time is chosen, the earliest in
the table among equals. -/
def Obligations.EvictionPicksOldestClosed : Prop :=
  ∀ tickets : List Ticket, (∀ t ∈ tickets, t.state = .closed → t.closeTime ≠ none) →
    ((oldestClosed tickets = none ↔ ∀ t ∈ tickets, t.state ≠ .closed) ∧
    ∀ u, oldestClosed tickets = some u →
      u.state = .closed ∧ ∃ before after c, tickets = before ++ u :: after ∧ u.closeTime = some c ∧
        (∀ t ∈ before, ∀ a, t.state = .closed → t.closeTime = some a → c.before a = true) ∧
        (∀ t ∈ after, ∀ a, t.state = .closed → t.closeTime = some a → a.before c = false))

/-- Tickets a completing run did not find (R151): a HARD ticket in OPEN or ASSIGNED, and a ticket whose code was not
ABLE, stay; a SOFT or HAZARD one gains a not-found count below 2; a CLEARED ticket stays where the run did not start
after the clear, and otherwise closes VERIFIED or UNTESTED, or moves its line to the tail of the verify list. -/
def Obligations.UnconfirmedTicketTable : Prop :=
  ∀ (s : State) (t : Ticket) (start : Stamp) (found : Testability),
    let live : Prop := t.state = .opened ∨ t.state = .assigned
    let after : Prop := ∃ c, t.clearedTime = some c ∧ c.before start = true
    (live → (t.severity = .hard ∨ found ≠ .able) → s.decideTicket t start found = s) ∧
    (live → t.severity ≠ .hard → found = .able → t.notFound = 0 →
      s.decideTicket t start found = { s with tkt := { s.tkt with
        tickets := s.tkt.tickets.map fun v => if v.number = t.number then { t with notFound := 1 } else v } }) ∧
    (live → t.severity ≠ .hard → found = .able → 1 ≤ t.notFound →
      s.decideTicket t start found = s.closeTicket { t with notFound := t.notFound + 1 } .notFound none) ∧
    (t.state = .cleared → ¬ after → s.decideTicket t start found = s) ∧
    (t.state = .cleared → after → found = .able → s.decideTicket t start found = s.closeTicket t .verified none) ∧
    (t.state = .cleared → after → found = .noStep → s.decideTicket t start found = s.closeTicket t .untested none) ∧
    (t.state = .cleared → after → (found = .skippedHazard ∨ found = .notEvaluated) →
      (s.decideTicket t start found).tkt.verify = s.tkt.verify.filter (fun l => l ≠ t.line) ++ [t.line] ∧
      (s.decideTicket t start found).tkt.tickets = s.tkt.tickets) ∧
    (t.state = .closed → s.decideTicket t start found = s)

/-! ## Configuration (R2, R12 to R15, R46, R81, R82, R111, R112, R131 to R133, R162, R168, R170, R176, R180 to R182) -/

/-- CONFIG_LINES (R14, R15): a run of lines takes the class and the equipped value, the count brought to 1 to what
is left of the table; every other field of those records and every other record stay; a line that is not NORMAL
refuses the whole request IN_USE and is named. -/
def Obligations.ConfigLinesWritesRun : Prop :=
  ∀ (s : State) (p : Port) (q : Request), Asks s p .configLines q → Settled s →
    Table.wfFrom (fun _ => LineRecord.fresh) 0 s.lrt.lines = true →
    let first := field q.payload 0 2
    let asked := field q.payload 2 2
    let c := field q.payload 4 1
    let count := if asked < 1 then 1 else if 2048 - first < asked then 2048 - first else asked
    let within (n : Nat) : Prop := first ≤ n ∧ n < first + count
    ((2047 < first ∨ 7 < c ∨ 1 < field q.payload 5 1) →
      exec (.configLines p) s = .next (answered s p q (.refused .badField) [])) ∧
    (first ≤ 2047 → c ≤ 7 → field q.payload 5 1 ≤ 1 → ∀ n, within n → (s.line n).access ≠ .normal →
      (∀ m, first ≤ m → m < n → (s.line m).access = .normal) →
      exec (.configLines p) s = .next (answered s p q (.refused .inUse) (u16 n))) ∧
    (first ≤ 2047 → c ≤ 7 → field q.payload 5 1 ≤ 1 → (∀ n, within n → (s.line n).access = .normal) →
      (s.op = .operational → field q.payload 5 1 = 1 → s.program (s.cls c).program ≠ []) →
      ∃ t, exec (.configLines p) s = .next (answered t p q (okOutcome (count ≠ asked)) (u16 first ++ u16 count)) ∧
        t = { s with lrt := { s.lrt with lines := t.lrt.lines } } ∧
        (∀ n, within n → t.line n = { s.line n with cls := c, equipped := field q.payload 5 1 = 1 }) ∧
        (∀ n, ¬ within n → t.line n = s.line n))

/-- CONFIG_CLASS (R12): a class number, program number or priority-line field outside its set, any limit outside its
range, or limits that are not consistent are refused BAD_FIELD; a request that passes these checks is refused
EMPTY_PROGRAM where the part is OPERATIONAL, an equipped line has the class and the program named holds no steps;
every other request replaces the whole entry, its capacitance per km clamped to 30 to 80, and the reply returns it.
-/
def Obligations.ConfigClassWritesEntry : Prop :=
  ∀ (s : State) (p : Port) (q : Request), Asks s p .configClass q → Settled s → Canonical s →
    let c := field q.payload 0 1
    let e := classEntryOf q.payload
    let km := if e.capPerKm < 30 then 30 else if 80 < e.capPerKm then 80 else e.capPerKm
    let inSet : Prop := c ≤ 7 ∧ e.program ≤ 7 ∧ field q.payload 1 1 ≤ 1
    let inRange : Prop := e.dcSoft ≤ 125000 ∧ e.dcHazard ≤ 125000 ∧ e.acSoft ≤ 125000 ∧ e.acHazard ≤ 125000 ∧
      e.trHard ≤ 999999999 ∧ e.trSoft ≤ 999999999 ∧ e.tgHard ≤ 999999999 ∧ e.tgSoft ≤ 999999999 ∧
      e.rgHard ≤ 999999999 ∧ e.rgSoft ≤ 999999999 ∧ e.openMin ≤ 4096 ∧ e.capMax ≤ 4096
    let ordered : Prop := e.trHard ≤ e.trSoft ∧ e.tgHard ≤ e.tgSoft ∧ e.rgHard ≤ e.rgSoft ∧ e.dcSoft ≤ e.dcHazard ∧
      e.acSoft ≤ e.acHazard ∧ e.openMin < e.capMax
    let wouldIdle : Prop := s.op = .operational ∧ (∃ n, (s.line n).equipped = true ∧ (s.line n).cls = c) ∧
      s.program e.program = []
    (¬ (inSet ∧ inRange ∧ ordered) →
      exec (.configClass p) s = .next (answered s p q (.refused .badField) [])) ∧
    (inSet ∧ inRange ∧ ordered → wouldIdle →
      exec (.configClass p) s = .next (answered s p q (.refused .emptyProgram) [])) ∧
    (inSet ∧ inRange ∧ ordered → ¬ wouldIdle →
      exec (.configClass p) s = .next (answered (s.setCls c { e with capPerKm := km }) p q
        (okOutcome (km ≠ e.capPerKm)) (classEntryBytes { e with capPerKm := km })))

/-- CONFIG_PROGRAM (R111, R112): malformed steps, a program above 7 or more than 12 steps are refused BAD_FIELD, a
list that does not begin with FV BAD_PROGRAM, a program in use IN_USE; an accepted list replaces the program as a
whole, and the reply returns it as stored. As stored, each step keeps its kind, pair, bias level and range; each N is
the least of 16, 64, 256 and 1024 at or above the N sent, 1024 where it is above that, and each WAIT is brought to 10
to 5000 ms. That the reply sends 0 in the fields a step's kind does not use is the model's choice (log 54). -/
def Obligations.ConfigProgramReplaces : Prop :=
  ∀ (s : State) (p : Port) (q : Request), Asks s p .configProgram q → Settled s →
    let n := field q.payload 0 1
    let count := field q.payload 1 1
    let read := stepsOf count (q.payload.drop 2)
    let inUse : Prop := (∃ b x, s.ctx b = some x ∧ x.program = n) ∨
      ∃ b, (s.bus b).state = .connecting ∧ (s.bus b).program = some n
    let raised (m v : Nat) : Prop := v ∈ [16, 64, 256, 1024] ∧ (1024 < m → v = 1024) ∧
      (m ≤ 1024 → m ≤ v ∧ ∀ w ∈ [16, 64, 256, 1024], m ≤ w → v ≤ w)
    ((read = none ∨ 7 < n ∨ 12 < count) →
      exec (.configProgram p) s = .next (answered s p q (.refused .badField) [])) ∧
    (∀ steps : List ProgramStep, read = some steps → n ≤ 7 → count ≤ 12 →
      let stored := steps.map boundStep
      ((∀ m, steps.head? ≠ some (.fv m)) → steps ≠ [] →
        exec (.configProgram p) s = .next (answered s p q (.refused .badProgram) [])) ∧
      ((steps = [] ∨ ∃ m, steps.head? = some (.fv m)) → inUse →
        exec (.configProgram p) s = .next (answered s p q (.refused .inUse) [])) ∧
      ((∃ m, steps.head? = some (.fv m)) ∨ (steps = [] ∧ s.op = .config) → ¬ inUse →
        exec (.configProgram p) s = .next (answered (s.setProgram n stored) p q (okOutcome (stored ≠ steps))
          (u8 steps.length ++ (stored.map programStepBytes).flatten)) ∧
        stored.length = steps.length ∧
        (∀ (i : Nat) (a b : ProgramStep), steps[i]? = some a → stored[i]? = some b → match a with
          | .fv m => ∃ v, raised m v ∧ b = .fv v
          | .res pair level range m => ∃ v, raised m v ∧ b = .res pair level range v
          | .cap level m => ∃ v, raised m v ∧ b = .cap level v
          | .wait ms => b = .wait (max 10 (min 5000 ms)))))

/-- CONFIG_PRIORITY, CONFIG_ROUTINE, CONFIG_STORM and CONFIG_TIMES (R46, R132, R162, R180): every value brought into
its range, S_out against the S_in as written, all replaced at once, the reply returning them with the CLAMPED mark if
one was clamped; nothing else changes. That the reply to CONFIG_PRIORITY returns the values also where none was
clamped is the model's choice (log 59). -/
def Obligations.ParametersClampedAndWritten : Prop :=
  ∀ (s : State) (p : Port) (q : Request), Settled s →
    let at1 (i : Nat) : Nat := field q.payload i 1
    let at2 (i : Nat) : Nat := field q.payload i 2
    let into (lo hi v : Nat) : Nat := max lo (min hi v)
    (Asks s p .configPriority q →
      let t : Priorities := ⟨min 7 (at1 0), min 7 (at1 1), min 7 (at1 2), min 7 (at1 3), min 7 (at1 4), min 7 (at1 5),
        min 7 (at1 6)⟩
      exec (.configPriority p) s = .next (answered { s with gar := { s.gar with prio := t } } p q
        (okOutcome (t ≠ prioritiesOf q.payload)) (prioritiesBytes t))) ∧
    (Asks s p .configRoutine q →
      let t : RoutineParams := ⟨min 4 (at1 0), into 1 8 (at1 1), into 60 10080 (at2 2), into 1 50 (at1 4),
        into 1 60 (at1 5)⟩
      exec (.configRoutine p) s = .next (answered { s with rts := { s.rts with params := t } } p q
        (okOutcome (t ≠ routineParamsOf q.payload)) (routineParamsBytes t))) ∧
    (Asks s p .configStorm q →
      let sIn := into 2 255 (at1 2)
      let t : StormParams := ⟨into 10 600 (at2 0), sIn, min (sIn - 1) (at1 3), into 1 60 (at1 4)⟩
      exec (.configStorm p) s = .next (answered { s with tkt := { s.tkt with params := t } } p q
        (okOutcome (t ≠ stormParamsOf q.payload)) (stormParamsBytes t))) ∧
    (Asks s p .configTimes q →
      let t : TimeParams := ⟨into 30 600 (at2 0), into 10 1800 (at2 2), into 5 500 (at2 4), into 5 500 (at2 6),
        into 5 500 (at2 8)⟩
      exec (.configTimes p) s = .next (answered
        { s with
          acc := { s.acc with holdTime := t.hold, toneLimit := t.toneLimit }
          mc := { s.mc with settle1 := t.settle1, settle2 := t.settle2, settle3 := t.settle3 } } p q
        (okOutcome (t ≠ timeParamsOf q.payload)) (timeParamsBytes t)))

/-- CHANNEL_SET (R81, R82). Enable: in CONFIG only the enable; in OPERATIONAL, while the other channel is in service
or every bus is in use, a channel in OFF or FAULTED starts its warm-up, a BUSY one loses its pending disable, the
others only have their enable set. Disable: of a channel in OFF, as every channel is in CONFIG, only the enable;
otherwise, while the other channel is in service or no run waits, a BUSY channel gets the disable pending and any
other is OFF with its front end at rest. That enable is 1 and disable 0 is the model's reading (log 19), and that
CHANNEL_SET is two commands is its choice (log 25), as are gain 1 after a calibration that a disable abandons (log
52) and the notice of a disable before its reply (log 53). The runs that the loss of the last channel ends are not
part of it. -/
def Obligations.ChannelSetTable : Prop :=
  ∀ (s : State) (p : Port) (q : Request) (c : Channel), Asks s p .channelSet q → Settled s →
    channelOf (field q.payload 0 1) = some c →
    let other : Prop := ∃ d, d ≠ c ∧ (s.chan d).inService = true
    let r := s.chan c
    let rest : ChannelRecord :=
      { r with run := none, bus := none, pair := none, bias := .off, range := .rc, gain := .g1, activity := .quiet,
               timer := 0, biasNext := none, cal := none }
    let onOk (v : ChannelRecord) : Host.Outcome State Fault Refusal :=
      .next (answered (s.setChan c v) p q .ok (u8 (channelStateCode v.state) ++ flagByte v.disablePending))
    (field q.payload 1 1 = 1 → s.op = .config → exec (.channelSetEnable p) s = onOk { r with enable := true }) ∧
    (field q.payload 1 1 = 1 → s.op = .operational → (other ∨ NoIdleBus s) →
      exec (.channelSetEnable p) s = onOk (match r.state with
      | .off | .faulted => { rest with enable := true, state := .warming, stage := 0, timer := 10 }
      | .busy => { r with enable := true, disablePending := false }
      | .warming | .calibrating | .ready => { r with enable := true })) ∧
    (field q.payload 1 1 = 0 → r.state = .off → exec (.channelSetDisable p) s = onOk { r with enable := false }) ∧
    (field q.payload 1 1 = 0 → r.state = .busy → (other ∨ s.gar.waiting = []) →
      exec (.channelSetDisable p) s = onOk { r with enable := false, disablePending := true }) ∧
    (field q.payload 1 1 = 0 → r.state ≠ .off → r.state ≠ .busy → (other ∨ s.gar.waiting = []) →
      ∃ z, exec (.channelSetDisable p) s = .next z ∧
      z.mc = (s.setChan c { rest with enable := false, state := .off, stage := 0 }).mc ∧
      z.ports = (((s.popRequest p).broadcast (.channel c .off .disabled)).ok p q false
        (u8 0 ++ flagByte r.disablePending)).ports ∧
      z.lrt = s.lrt ∧ z.acc = s.acc ∧ z.gar = s.gar ∧ z.exc = s.exc ∧ z.rsq = s.rsq ∧ z.rts = s.rts ∧ z.tkt = s.tkt)

/-- CONFIG_COMMIT (R181): WRONG_STATE in OPERATIONAL; BAD_CONFIG with the first class of equipped lines whose
routine program is empty; otherwise, with no claim queued, the part enters OPERATIONAL, every enabled channel starts
its warm-up and the window timer starts. -/
def Obligations.CommitEntersOperational : Prop :=
  ∀ (s : State) (p : Port) (q : Request), Asks s p .configCommit q → Settled s → Canonical s →
    let emptyProgram (c : Nat) : Prop := (∃ n, (s.line n).equipped = true ∧ (s.line n).cls = c) ∧
      s.program (s.cls c).program = []
    let warmed (r : ChannelRecord) : ChannelRecord :=
      if r.enable then
        { r with state := .warming, stage := 0, timer := 10, run := none, bus := none, pair := none, bias := .off,
                 range := .rc, gain := .g1, activity := .quiet, biasNext := none, cal := none }
      else r
    (s.op = .operational → exec (.configCommit p) s = .next (answered s p q (.refused .wrongState) [])) ∧
    (∀ c, s.op = .config → c < 8 → emptyProgram c → (∀ d, d < c → ¬ emptyProgram d) →
      exec (.configCommit p) s = .next (answered s p q (.refused .badConfig) (u8 c ++ u8 (s.cls c).program))) ∧
    (s.op = .config → (∀ c, c < 8 → ¬ emptyProgram c) → NoClaimant s → s.gar.ratio = 0 → s.gar.waiting = [] →
      exec (.configCommit p) s = .next (answered
        { s with
          op := .operational
          mc := { s.mc with chans := ⟨warmed s.mc.chans.mc0, warmed s.mc.chans.mc1⟩ }
          tkt := { s.tkt with window := some (s.tkt.params.window * 1000) } } p q .ok []))

/-- ROUTINE_START and ROUTINE_STOP (R131, R133), with every bus in use: a start in STOPPED leads to HELD while a
holding condition holds and to RUNNING otherwise, and starts a sweep when none is under way and no period timer
runs; in any other state it changes nothing; a stop leads to STOPPED. Each is answered with the state that results.
-/
def Obligations.RoutineStartAndStop : Prop :=
  ∀ (s : State) (p : Port) (q : Request), Settled s → NoIdleBus s →
    let held : Prop := s.tkt.storm = .storm ∨ (s.port .p0).link = .down
    let ms := s.rts.params.period * 60000
    let sweep (r : RoutineScheduler) : RoutineScheduler :=
      { r with phase := .inSweep, start := some s.now, counts := ⟨0, 0, 0, 0, 0, 0⟩, late := false,
               period := some ⟨ms, ms⟩ }
    let begun (r : RoutineScheduler) : RoutineScheduler :=
      if r.phase = .between ∧ r.period = none then sweep r else r
    (Asks s p .routineStop q → exec (.routineStop p) s = .next (answered
      { s with rts := { s.rts with state := .stopped } } p q .ok [0])) ∧
    (Asks s p .routineStart q → s.rts.state ≠ .stopped → exec (.routineStart p) s = .next (answered s p q .ok
      (u8 (schedCode s.rts.state)))) ∧
    (Asks s p .routineStart q → s.rts.state = .stopped → ¬ held → exec (.routineStart p) s = .next (answered
      { s with rts := begun { s.rts with state := .running } } p q .ok [1])) ∧
    (Asks s p .routineStart q → s.rts.state = .stopped → held → exec (.routineStart p) s = .next (answered
      { s with rts := begun { s.rts with state := .held } } p q .ok [2]))

/-- RESTART (R58, R144, R162, R182) with no bus in use, no claim queued and no lockout entry, in NORMAL: RTS is
STOPPED with its deferred list emptied, the service-ratio counter and the storm counts are 0, the window timer starts
again, and every line record, bus record, ticket, program, result, time and parameter is kept. That the reply joins
its queue before the RESTART notice is offered is the model's choice (log 53). -/
def Obligations.RestartKeepsRecords : Prop :=
  ∀ (s : State) (p : Port) (q : Request), Asks s p .restart q → Settled s →
    (∀ b, (s.bus b).state = .idle ∧ s.ctx b = none) → s.gar.queue = [] → s.gar.waiting = [] → s.rts.lockout = [] →
    s.tkt.storm = .normal →
    ∃ z, exec (.restart p) s = .next z ∧
      z.rts = { s.rts with state := .stopped, deferred := [] } ∧
      z.tkt = { s.tkt with count := 0, quiet := 0, window := some (s.tkt.params.window * 1000) } ∧
      z.gar = { s.gar with ratio := 0 } ∧ z.ports = ((answered s p q .ok []).broadcast (.restart s.now)).ports ∧
      z.op = s.op ∧ z.supervisor = s.supervisor ∧ z.lrt = s.lrt ∧ z.acc = s.acc ∧ z.exc = s.exc ∧ z.mc = s.mc ∧
      z.rsq = s.rsq

/-- COUNTERS_CLEAR and SUBSCRIBE (R168, R170, R176): a cleared group has counts 0 and carry flags clear at once, its
mask written when one is carried (bits that name no counter are dropped, log 31) and kept otherwise; the bins are
cleared alone, and the reply then carries the group and no mask (the model's reading, log 19); a desk's subscription
mask is replaced as a whole. -/
def Obligations.CountersClearAndSubscribe : Prop :=
  ∀ (s : State) (p : Port) (q : Request), Settled s →
    let g := field q.payload 0 1
    let old := s.cnt.group g
    let mask : Word32 := if q.payload.length = 5 then BitVec.ofNat 32 (field q.payload 1 4) &&& groupMask g else old.mask
    (Asks s p .countersClear q → g ≤ 3 → exec (.countersClear p) s = .next (answered
      { s with cnt := s.cnt.setGroup g { counts := [], carries := 0, mask := mask } } p q .ok
      (u8 g ++ u32 mask.toNat))) ∧
    (Asks s p .countersClear q → g = 4 → q.payload.length = 1 → exec (.countersClear p) s = .next (answered
      { s with cnt := { s.cnt with bins := [] } } p q .ok (u8 4))) ∧
    (Asks s p .countersClear q → (4 < g ∨ (g = 4 ∧ q.payload.length = 5)) → exec (.countersClear p) s = .next
      (answered s p q (.refused .badField) [])) ∧
    (Asks s p .subscribe q → exec (.subscribe p) s = .next (answered
      (s.setPort p { s.port p with mask := BitVec.ofNat 8 g }) p q .ok [BitVec.ofNat 8 g]))

/-! ## Channels and the steps of a run (R78 to R80, R83, R88 to R92, R96, R102, R107, R112, R116, R126) -/

/-- Warm-up and calibration (R78 to R80): two further stages, then CALIBRATING at gain 1; each gain's offset is the
sum of its 64 samples after the first 2 divided by 64, rounded half away from zero; a calibration that passes writes
offsets, time and age and makes the channel READY, one that fails makes it FAULTED, each with its CHANNEL notice,
CAL_FAIL with the lowest gain whose offset failed and that offset. Stated with no run waiting and none given MC1 at
the same instant. A calibration inside a run that passes (R83) lets the run go on to its first step, which is an FV
step (R112): the pair TG is selected and its reading begins at gain 1 (R96, R100), the step's trace beginning at W
(R126). The end of a run at the end of a discharge, with every bus in use, no run waiting and none given MC1 at the
same instant (R9, R85, R122, R123, R125 to R127): the record joins the newest end of the history, which keeps 16; the
line's last result is the handle, the time, the verdict and the origin; the context is free, the channel READY or OFF,
and the bus HELD or on its way out. A last step that is over completes the run with PASS or FAULT, and a ticketing run
covers its line; an aborted run ends INCOMPLETE, its step in hand ABORTED and the steps not begun NOT_RUN, and reports
nothing to the ticket table. A desk run's RUN_DONE is stated for a port that is UP with room, a channel that stays in
service, no release pending and a count that does not wrap. The model's choices in it: an event out of its place
changes nothing (log 5), a stage or discharge may be ended with time still left (log 1), the gain is 1 after a
calibration whatever its outcome (log 52), what a step without values records (log 23), the order of the codes in
RUN_DONE (log 27), a fourth offset formed as its gain ends (log 32), what makes one instant (log 60). -/
def Obligations.Calibration : Prop :=
  (∀ (s : State) (c : Channel), Settled s →
    let r := s.chan c
    let done (o : Offsets) : ChannelRecord := { r with offsets := o, cal := none, gain := .g1 }
    let passes (o : Offsets) : Prop :=
      o.g1.natAbs ≤ 2048 ∧ o.g4.natAbs ≤ 2048 ∧ o.g16.natAbs ≤ 2048 ∧ o.g64.natAbs ≤ 2048
    (r.state = .warming → r.stage < 2 →
      exec (.warmupStage c) s = .next (s.setChan c { r with stage := r.stage + 1, timer := 10 })) ∧
    (r.state = .warming → r.stage = 2 → exec (.warmupEnd c) s = .next (s.setChan c
      { r with state := .calibrating, stage := 0, timer := 0, gain := .g1, cal := some ⟨[], []⟩ })) ∧
    (r.state ≠ .warming → exec (.warmupStage c) s = .next s ∧ exec (.warmupEnd c) s = .next s) ∧
    (∀ w, r.cal = some w → w.raw.length = 66 → w.formed.length < 4 →
      exec (.calibrationGainDone c) s = .next (s.setChan c { r with
        cal := some ⟨[], w.formed ++ [roundDiv (w.raw.reverse.drop 2).sum 64]⟩
        gain := match w.formed.length with | 0 => .g4 | 1 => .g16 | _ => .g64 })) ∧
    (∀ x y z v, r.state = .calibrating → r.cal = some ⟨[], [x, y, z, v]⟩ → s.gar.waiting = [] →
      s.givenMc1 = none →
      (passes ⟨x, y, z, v⟩ → exec (.calibrationEnd c) s = .next ((s.setChan c
        { done ⟨x, y, z, v⟩ with state := .ready, calTime := some s.now, calAge := some 0 }).broadcast
          (.channel c .ready .calDone))) ∧
      (∀ g o, [(Gain.g1, x), (.g4, y), (.g16, z), (.g64, v)].find? (fun e => 2048 < e.2.natAbs) = some (g, o) →
        exec (.calibrationEnd c) s = .next ((s.setChan c { done ⟨x, y, z, v⟩ with state := .faulted }).broadcast
          (.channel c .faulted (.calFail g o)))))) ∧
  (∀ (s : State) (c : Channel) (b : Bus) (x : RunContext) (n : Nat) (rest : List ProgramStep) (u y z v : Int),
    Settled s → s.runOn c = some (b, x) → (s.chan c).activity = .calInRun → (s.chan c).bias = .off →
    (s.chan c).cal = some ⟨[], [u, y, z, v]⟩ →
    u.natAbs ≤ 2048 → y.natAbs ≤ 2048 → z.natAbs ≤ 2048 → v.natAbs ≤ 2048 → s.program x.program = .fv n :: rest →
    exec (.inRunCalibrationEnd c) s = .next ((s.setChan c
      { s.chan c with
        offsets := ⟨u, y, z, v⟩, cal := none, gain := .g1, calTime := some s.now, calAge := some 0,
        activity := .quiet, pair := some .tg }).setCtx b (some { x with
          stepIx := 0, final := false, phase := .reading, gain := .g1,
          cur := some { kind := .fv, pair := none, status := .ok, values := .fv none none none, bias := none,
                        range := none, gain := none, trace := ⟨some c, (s.chan c).written, 0⟩, findings := [],
                        distance := none },
          work := { StepWork.idle with
            stage := .fv .tg, reading := some { n := n, gain := .g1, changes := 0, raw := [] } } }))) ∧
  (∀ (s : State) (c : Channel) (b : Bus) (x : RunContext) (w : StepResult), Settled s → Canonical s → NoIdleBus s →
    s.runOn c = some (b, x) → x.phase = .discharge → x.cur = some w → s.gar.waiting = [] →
    s.givenMc1 = none →
    let r := s.chan c
    r.activity = .discharging → r.biasNext = none →
    let u := s.bus b
    let closed : StepResult := { w with trace := { w.trace with length := (r.written - w.trace.first).toNat } }
    let notBegun (st : ProgramStep) : StepResult := blankResult st .notRun ⟨some c, 0, 0⟩
    let leaving : Option ReleaseReason := match u.reason, u.holder with
      | some e, _ => some e | none, some (.routine _) => some .runEnd | none, _ => none
    let freed : ChannelRecord := { r with
      activity := .quiet, timer := 0, biasNext := none, run := none, bus := none, pair := none, bias := .off,
      range := .rc, gain := .g1, cal := none }
    let ended (v : Verdict) (steps : List StepResult) (z : State) : Prop :=
      let history := s.rsq.history ++
        [{ handle := x.handle, line := x.line, cls := x.cls, origin := x.origin, program := x.program,
           ticketing := x.ticketing, verdict := v, start := x.start, finish := s.now, abort := x.abort,
           channel := some c, steps := steps }]
      exec (.dischargeEnd c) s = .next z ∧
      z.rsq.history = history.drop (history.length - 16) ∧
      (z.line x.line).last = some { handle := x.handle, time := s.now, verdict := v, origin := x.origin } ∧
      z.ctx b = none ∧ (∀ d, d ≠ b → z.ctx d = s.ctx d) ∧
      z.chan c = (if r.disablePending then { freed with state := .off, disablePending := false }
        else { freed with state := .ready }) ∧
      (∀ d, d ≠ c → z.chan d = s.chan d) ∧
      z.bus b = (match leaving with
        | some e => { u with state := .releasing, reason := some e, gen := ToneGen.off, audio := .disconnected,
                             hold := match u.hold with | .absent => .absent | _ => .stopped
                             run := none, relay := .lineReleasing 6 }
        | none => { u with state := .held, run := none }) ∧
      (∀ d, d ≠ b → z.bus d = s.bus d)
    let unreported (v : Verdict) (steps : List StepResult) (z : State) : Prop :=
      z.tkt = s.tkt ∧ (z.line x.line).covered = (s.line x.line).covered ∧
      (∀ d, x.origin = .desk d → (s.port (deskPort d)).link = .up → (s.port (deskPort d)).notices.length < 32 →
        (s.cnt.group 2).count (runEndIndex x.origin x.abort) < 65535 → r.disablePending = false → leaving = none →
        (z.port (deskPort d)).notices = (s.port (deskPort d)).notices ++
          [{ lost := (s.port (deskPort d)).lost,
             notice := .runDone x.handle b x.line v x.abort s.now (foundCodes steps) }])
    let verdict : Verdict := if ∀ t ∈ x.done ++ [closed], t.findings = [] then .pass else .fault
    let cutOff : List StepResult := x.done ++ [{ closed with status := .aborted }] ++
      ((s.program x.program).drop (x.done.length + 1)).map notBegun
    (x.abort = none → x.work.stage = .closing → x.stepIx + 1 = (s.program x.program).length →
      x.done.length = x.stepIx → ∃ z, ended verdict (x.done ++ [closed]) z ∧
        (x.ticketing = true → (z.line x.line).covered = some s.rts.number) ∧
        (x.ticketing = false → unreported verdict (x.done ++ [closed]) z)) ∧
    (x.abort ≠ none → ∃ z, ended .incomplete cutOff z ∧ unreported .incomplete cutOff z))

/-- CONVERTER_SAMPLE (R79, R87, R92): a sample of a calibration goes to the calibration alone; one of a BUSY channel
is written to the ring and W grows by 1, modulo 2^32; in any other state nothing changes. That a number beyond the
converter's range acts as the end of that range is the model's choice (log 39). -/
def Obligations.SampleGoesToRing : Prop :=
  ∀ (s : State) (c : Channel) (code : Int),
    let r := s.chan c
    let v : Int := max (-32768) (min 32767 code)
    (∀ w, r.cal = some w → w.raw.length < 66 → exec (.converterSample c code) s = .next (s.setChan c
      { r with cal := some { w with raw := v :: w.raw } })) ∧
    (r.cal = none → r.state ≠ .busy → exec (.converterSample c code) s = .next s) ∧
    (r.cal = none → r.state = .busy → ∃ z, exec (.converterSample c code) s = .next z ∧
      z.chan c = { r with ring := (v :: r.ring).take 8192, written := r.written + 1 } ∧
      (∀ d, d ≠ c → z.chan d = s.chan d) ∧
      (z.chan c).sampleAt c r.written = v ∧
      (∀ n : Word32, 1 ≤ (r.written - n).toNat → (r.written - n).toNat < 8192 →
        (z.chan c).sampleAt c n = r.sampleAt c n) ∧
      z.lrt = s.lrt ∧ z.acc = s.acc ∧ z.gar = s.gar ∧ z.exc = s.exc ∧ z.rts = s.rts ∧ z.tkt = s.tkt ∧ z.cnt = s.cnt ∧
      z.ports = s.ports ∧ z.rsq.history = s.rsq.history ∧ z.rsq.programs = s.rsq.programs)

/-- The readings and waits of a run (R89, R90, R95 to R100, R102, R107, R116, R118, R119, R121). A pass of 2 + N
samples, with fewer than three gain changes made, leads to a further pass with one gain change more: at a quarter of
the gain where a sample was clipped and the gain is above 1, at four times the gain where none was, 4 times the
magnitude of the mean is at most 24 576 and the gain is below 64. In every other case it stands, stated for an FV
step. The pair's value is its mean in mV with the deviation of the samples about it, or the ends of the range where a
sample was clipped (R97 to R99); it is judged by the class limits (R118), and written with its finding into the step
result. A HAZARD sets the line's hazard flag, and the first of a step is handed to the ticket table at once (R119,
R121). After TG and RG the next pair is selected and its reading begins at gain 1 (R100); after TR, where a WAIT step
follows, the step's status, gain and trace are complete, a step without HAZARD clears the flag, and where a soft
limit broke its one SOFT finding joins the pending findings with a value of largest magnitude, whichever of equals
(log 18). A settle that ends before the first Vx reading starts it at gain 1; a capture that ends before its settle
waits for it. The end of a WAIT step (R116, R126): its result is closed with the samples written since it began, and
the WAIT step that follows it begins with no pair selected. The model's choices in it: an event with nothing to end
changes nothing (log 5), a settle or a WAIT may be ended with time still left (log 1), and the result of a WAIT step
has no bias, range or gain (log 23). -/
def Obligations.RunStepsGoOn : Prop :=
  (∀ (s : State) (c : Channel) (b : Bus) (x : RunContext), Settled s → s.runOn c = some (b, x) →
    let r := s.chan c
    (∀ rd, x.phase = .reading → x.work.reading = some rd → rd.raw.length = 2 + rd.n →
      let used := (rd.raw.reverse.drop 2).take rd.n
      let clipped : Prop := -32768 ∈ used ∨ 32767 ∈ used
      let mean := roundDiv (used.map (corrected (r.offsets.at rd.gain))).sum rd.n
      let lower (g : Gain) : Prop := clipped ∧ (rd.gain, g) ∈ [(.g4, .g1), (.g16, .g4), (.g64, .g16)]
      let higher (g : Gain) : Prop := ¬ clipped ∧ 4 * mean.natAbs ≤ 24576 ∧
        (rd.gain, g) ∈ [(.g1, .g4), (.g4, .g16), (.g16, .g64)]
      (∀ g, rd.changes < 3 → lower g ∨ higher g →
        exec (.passEnd c) s = .next ((s.setChan c { r with gain := g }).setCtx b (some { x with
          gain := g
          work := { x.work with reading := some { rd with gain := g, changes := rd.changes + 1, raw := [] } } }))) ∧
      (∀ pair, 3 ≤ rd.changes ∨ (∀ g, ¬ lower g ∧ ¬ higher g) → x.work.stage = .fv pair → r.bias = .off →
        r.activity ≠ .discharging →
        let spread : Nat := (used.map fun k =>
          ((corrected (r.offsets.at rd.gain) k - mean) * (corrected (r.offsets.at rd.gain) k - mean)).toNat).sum / rd.n
        let clip : Bool := used.any fun k => k = -32768 || k = 32767
        ∃ root : Nat, root * root ≤ spread ∧ spread < (root + 1) * (root + 1) ∧
        (let dc : Int := if clip then (if 0 ≤ mean then 125000 else -125000) else millivolts rd.gain mean
        let ac : Int := if clip then 125000 else millivolts rd.gain root
        let e := s.cls x.cls
        let hazard : Bool := e.dcHazard < dc.natAbs || e.acHazard < ac.natAbs
        let soft : Bool := !hazard && (e.dcSoft < dc.natAbs || e.acSoft < ac.natAbs)
        let found : List StepFinding :=
          if hazard then [{ code := .foreignV, severity := .hazard, pair := some pair }]
          else if soft then [{ code := .foreignV, severity := .soft, pair := some pair }] else []
        let broke : List Quantity := if soft then
            (if e.dcSoft < dc.natAbs then [.mvDc dc] else []) ++ (if e.acSoft < ac.natAbs then [.mvRms ac] else [])
          else []
        let value : FvValue := { clipped := clip, dc := dc, ac := ac }
        let put (v : StepValues) : StepValues := match pair, v with
          | .tg, .fv _ rg tr => .fv (some value) rg tr
          | .rg, .fv tg _ tr => .fv tg (some value) tr
          | .tr, .fv tg rg _ => .fv tg rg (some value)
          | _, other => other
        let read : RunContext := { x with
          cur := x.cur.map fun w => { w with values := put w.values, findings := w.findings ++ found }
          work := { x.work with softValues := x.work.softValues ++ broke } }
        let before : Bool := x.cur.any fun w => w.findings.any fun k => k.severity = .hazard
        let handed (sev : Severity) (v : Quantity) : Finding :=
          { line := x.line, code := .foreignV, severity := sev, value := some v, distance := none,
            handle := some x.handle, start := x.start, origin := x.origin }
        let flag (b : Bool) (t : State) : State := t.setLine x.line { t.line x.line with hazard := b }
        let told : State :=
          if hazard then
            if before then flag true (s.setCtx b (some read))
            else (flag true (s.setCtx b (some read))).takeFinding
              (handed .hazard (if e.dcHazard < dc.natAbs then .mvDc dc else .mvRms ac))
          else s.setCtx b (some read)
        (∀ next, (pair, next) ∈ [(.tg, .rg), (.rg, .tr)] →
          exec (.passEnd c) s = .next ((told.setChan c { r with pair := some next, gain := .g1 }).setCtx b (some { read with
            phase := .reading, gain := .g1
            work := { read.work with
              stage := .fv next, reading := some { n := rd.n, gain := .g1, changes := 0, raw := [] } } }))) ∧
        (∀ w ms, pair = .tr → x.cur = some w → (s.program x.program)[x.stepIx + 1]? = some (.wait ms) →
          let hazardous : Bool := hazard || before
          let anyClip : Bool := match put w.values with
            | .fv tg rg tr => [tg, rg, tr].any fun v => v.any fun k => k.clipped
            | _ => false
          ∃ z y, exec (.passEnd c) s = .next z ∧ z.ctx b = some y ∧
            y.phase = .wait ∧ y.stepIx = x.stepIx + 1 ∧
            y.done = x.done ++ [{ w with
              values := put w.values, findings := w.findings ++ found, gain := some rd.gain
              status := if anyClip then .clip else .ok
              trace := { w.trace with length := (r.written - w.trace.first).toNat } }] ∧
            (hazardous = true ∨ read.work.softValues = [] → y.pending = x.pending) ∧
            (hazardous = false → read.work.softValues ≠ [] →
              ∃ k ∈ read.work.softValues, (∀ l ∈ read.work.softValues, l.magnitude ≤ k.magnitude) ∧
                y.pending = x.pending ++ [handed .soft k]) ∧
            z.lrt = (if hazardous then told else flag false s).lrt ∧ z.chan c = { r with pair := none } ∧
            z.tkt = told.tkt ∧ z.cnt = told.cnt ∧ z.ports = told.ports ∧ z.acc = s.acc ∧ z.gar = s.gar ∧
            z.exc = s.exc ∧ z.rts = s.rts)))) ∧
    (∀ rd, x.phase = .reading → x.work.reading = some rd → rd.raw.length ≠ 2 + rd.n →
      exec (.passEnd c) s = .next s) ∧
    (∀ pr lv rg n, r.activity = .settling → x.phase = .settle → x.work.stage = .resVx → x.work.rangeChanges = 0 →
      (s.program x.program)[x.stepIx]? = some (.res pr lv rg n) →
      exec (.settleEnd c) s = .next ((s.setChan c { r with activity := .quiet, timer := 0, gain := .g1 }).setCtx b
        (some { x with
          phase := .reading, gain := .g1,
          work := { x.work with stage := .resVx, reading := some { n := n, gain := .g1, changes := 0, raw := [] } } }))) ∧
    (r.activity ≠ .settling → exec (.settleEnd c) s = .next s) ∧
    (x.phase = .capture → x.work.capture.length = 4096 → x.work.captureDone = false → r.activity = .settling →
      exec (.captureEnd c) s = .next (s.setCtx b (some { x with work := { x.work with captureDone := true } }))) ∧
    (x.phase ≠ .capture → exec (.captureEnd c) s = .next s)) ∧
  (∀ (s : State) (b : Bus), Settled s →
    ((∀ x, s.ctx b = some x → x.phase ≠ .wait) → exec (.waitStepEnd b) s = .next s) ∧
    (∀ (x : RunContext) (c : Channel) (r : StepResult) (ms : Nat), s.ctx b = some x → x.phase = .wait →
      x.channel = some c → x.cur = some r → (s.program x.program)[x.stepIx + 1]? = some (.wait ms) →
      (s.chan c).bias = .off → (s.chan c).activity ≠ .discharging →
      exec (.waitStepEnd b) s = .next ((s.setCtx b (some { x with
        stepIx := x.stepIx + 1, final := false,
        done := x.done ++ [{ r with trace := { r.trace with
          length := ((s.chan c).written - r.trace.first).toNat } }],
        cur := some { kind := .wait, pair := none, status := .ok, values := .wait, bias := none, range := none,
                      gain := none, trace := ⟨some c, (s.chan c).written, 0⟩, findings := [], distance := none },
        work := { StepWork.idle with waitMs := ms } })).setChan c { s.chan c with pair := none })))

/-- The hazard interlock (R88, R90, R121), for every command: a step that takes a channel's bias from B0 to another
level leaves from a state in which the hazard flag of the line on the channel's bus is clear, and in which the
channel works for a run, unless the switch-on is one that waited for a discharge. At the end of that discharge the
switch-on is made, and the settle of the new level starts, where the flag is clear; otherwise the bias stays B0. A
discharge that is not in progress does not end, and one that is may be ended with time still left (the model's
choices, log 5 and log 1). -/
def Obligations.HazardFlagKeepsBiasOff : Prop :=
  (∀ (s t : State) (c : Channel), step s = .next t → (s.chan c).bias = .off → (t.chan c).bias ≠ .off →
    (∀ b line, (s.chan c).bus = some b → (s.bus b).line = some line → (s.line line).hazard = false) ∧
    ((s.chan c).biasNext = none → ∃ b x, s.runOn c = some (b, x))) ∧
  (∀ (s : State) (c : Channel), Settled s →
    let r := s.chan c
    let quiet : ChannelRecord := { r with activity := .quiet, timer := 0, biasNext := none }
    let hazard : Prop := ∃ b line, r.bus = some b ∧ (s.bus b).line = some line ∧ (s.line line).hazard = true
    let settle : Bias → Nat
      | .off => 0 | .b1 => s.mc.settle1 | .b2 => s.mc.settle2 | .b3 => s.mc.settle3
    (r.activity ≠ .discharging → exec (.dischargeEnd c) s = .next s) ∧
    (∀ level, r.activity = .discharging → r.biasNext = some level →
      (hazard → exec (.dischargeEnd c) s = .next (s.setChan c quiet)) ∧
      (¬ hazard → exec (.dischargeEnd c) s = .next (s.setChan c
        { quiet with bias := level, activity := .settling, timer := settle level }))))

/-! ## The period timer and the storm window (R133, R162 to R164) -/

/-- The period timer (R133), with every bus in use: an expiry in BETWEEN starts a sweep, one in IN_SWEEP sets the
late mark and broadcasts SWEEP_LATE without starting the timer again; a timer that does not run does not expire, and
one that runs may be ended with time still left (the model's choices, log 5 and log 1). A window end (R162, R164),
with every bus in use: the count is judged by the table, a quiet count at or above Q returning to NORMAL (log 50),
then set to 0, and the timer reloads with the window length; at each change of storm state STORM_STATE is broadcast
with the count that decided it, and RTS is held or, with the exchange link UP, goes on. -/
def Obligations.SweepAndStormTimers : Prop :=
  (∀ (s : State) (t : PeriodTimer), Settled s → NoIdleBus s →
    let ms := s.rts.params.period * 60000
    (s.rts.period = none → exec .periodTimerExpiry s = .next s) ∧
    (s.rts.period = some t → s.rts.phase = .between → exec .periodTimerExpiry s = .next
      { s with rts := { s.rts with phase := .inSweep, start := some s.now, counts := ⟨0, 0, 0, 0, 0, 0⟩, late := false,
                                   period := some ⟨ms, ms⟩ } }) ∧
    (s.rts.period = some t → s.rts.phase = .inSweep → exec .periodTimerExpiry s = .next
      (State.broadcast { s with rts := { s.rts with period := none, late := true } }
        (.sweepLate s.rts.number s.rts.start s.rts.pointer)))) ∧
  (∀ (s : State) (ms : Nat), Settled s → NoIdleBus s → s.tkt.window = some ms →
    let t := s.tkt
    let judged (st : StormState) (quiet : Nat) : TicketTable :=
      { t with storm := st, quiet := quiet, count := 0, window := some (t.params.window * 1000) }
    let ends (k : TicketTable) : Prop := exec .windowEnd s = .next { s with tkt := k }
    let changes (k : TicketTable) (rts : SchedState) : Prop := ∃ z, exec .windowEnd s = .next z ∧ z.tkt = k ∧
      z.rts = { s.rts with state := rts } ∧
      z.ports = (s.broadcast (.stormState k.storm .window t.count s.now)).ports ∧
      z.lrt = s.lrt ∧ z.acc = s.acc ∧ z.gar = s.gar ∧ z.exc = s.exc ∧ z.mc = s.mc ∧ z.rsq = s.rsq
    (t.storm = .normal → t.count < t.params.sIn → ends (judged .normal t.quiet)) ∧
    (t.storm = .normal → t.params.sIn ≤ t.count →
      changes (judged .storm 0) (if s.rts.state = .running then .held else s.rts.state)) ∧
    (t.storm = .storm → t.params.sOut < t.count → ends (judged .storm 0)) ∧
    (t.storm = .storm → t.count ≤ t.params.sOut → t.quiet + 1 < t.params.quiet → ends (judged .storm (t.quiet + 1))) ∧
    (t.storm = .storm → t.count ≤ t.params.sOut → t.params.quiet ≤ t.quiet + 1 →
      changes (judged .normal 0) (if s.rts.state = .held ∧ (s.port .p0).link = .up then .running else s.rts.state)))

/-! ## Measurement arithmetic (R98, R104) -/

/-- A mean at a gain in millivolts (R98): the whole number nearest to m x 125 000 / (32 768 x G), away from zero at
a half; -125 000 to +124 996 mV at gain 1, and within a quarter of that range at each higher gain. -/
def Obligations.MillivoltsNearest : Prop :=
  ∀ (g : Gain) (m : Int), -32768 ≤ m → m ≤ 32767 →
    let d : Int := 32768 * gainVal g
    let v := millivolts g m
    (2 * (v * d - m * 125000)).natAbs ≤ d.natAbs ∧
    ((2 * (v * d - m * 125000)).natAbs = d.natAbs → (m * 125000).natAbs ≤ (v * d).natAbs) ∧
    (g = .g1 → -125000 ≤ v ∧ v ≤ 124996) ∧
    (g ≠ .g1 → -31250 ≤ v ∧ v ≤ 31249)

/-- The resistance of R104: the OPEN marker where Vb - Vx is 0 or below, 0 with EDGE where Vx - Vf is 0 or below,
and otherwise the nearest whole number of ohm, at most the OPEN marker; every reported resistance is at most 999 999
999. -/
def Obligations.ResistanceTable : Prop :=
  ∀ (vx vf : Int) (b : Bias) (range : SourceRange), biasMv b ≠ 0 → biasMv b / 2 ≤ biasMv b - vf →
    let top := biasMv b - vx
    let res := resistance vx vf b range
    res.1 ≤ 999999999 ∧
    (top ≤ 0 → res = (999999999, .opened)) ∧
    (0 < top → vx - vf ≤ 0 → res = (0, .edge)) ∧
    (0 < top → 0 < vx - vf →
      let exact : Int := (rangeOhm range : Int) * (vx - vf)
      (res.1 < 999999999 →
        2 * exact - top ≤ 2 * (res.1 * top) ∧ 2 * (res.1 * top) ≤ 2 * exact + top) ∧
      (res.2 = .opened → 2 * (999999999 : Int) * top ≤ 2 * exact + top) ∧
      (res.2 = .ok → 100 ≤ ratio vx vf b ∧ ratio vx vf b ≤ 900) ∧
      (res.2 = .edge → ratio vx vf b < 100 ∨ 900 < ratio vx vf b) ∧
      (res.2 = .opened ∨ res.2 = .ok ∨ res.2 = .edge))
end

