-- ==== Sys2Proof/Laws/State.lean ====
section
/-! SUPPORT. One lemma for each field of the state and each update of one record, true by computation, so that
no later proof unfolds an update; and what each record reads as after an update of another. -/

namespace Sys2Proof.Machine

variable (s : State)

/-! ### State.setBus -/

@[simp] theorem State.setBus_op (b : Bus) (r : BusRecord) :
    (s.setBus b r).op = s.op := rfl
@[simp] theorem State.setBus_supervisor (b : Bus) (r : BusRecord) :
    (s.setBus b r).supervisor = s.supervisor := rfl
@[simp] theorem State.setBus_lrt (b : Bus) (r : BusRecord) :
    (s.setBus b r).lrt = s.lrt := rfl
@[simp] theorem State.setBus_acc (b : Bus) (r : BusRecord) :
    (s.setBus b r).acc = { s.acc with buses := s.acc.buses.set b r } := rfl
@[simp] theorem State.setBus_gar (b : Bus) (r : BusRecord) :
    (s.setBus b r).gar = s.gar := rfl
@[simp] theorem State.setBus_exc (b : Bus) (r : BusRecord) :
    (s.setBus b r).exc = s.exc := rfl
@[simp] theorem State.setBus_mc (b : Bus) (r : BusRecord) :
    (s.setBus b r).mc = s.mc := rfl
@[simp] theorem State.setBus_rsq (b : Bus) (r : BusRecord) :
    (s.setBus b r).rsq = s.rsq := rfl
@[simp] theorem State.setBus_rts (b : Bus) (r : BusRecord) :
    (s.setBus b r).rts = s.rts := rfl
@[simp] theorem State.setBus_tkt (b : Bus) (r : BusRecord) :
    (s.setBus b r).tkt = s.tkt := rfl
@[simp] theorem State.setBus_cnt (b : Bus) (r : BusRecord) :
    (s.setBus b r).cnt = s.cnt := rfl
@[simp] theorem State.setBus_ports (b : Bus) (r : BusRecord) :
    (s.setBus b r).ports = s.ports := rfl
@[simp] theorem State.setBus_pending (b : Bus) (r : BusRecord) :
    (s.setBus b r).pending = s.pending := rfl
@[simp] theorem State.setBus_free (b : Bus) (r : BusRecord) :
    (s.setBus b r).free = s.free := rfl

/-! ### State.setChan -/

@[simp] theorem State.setChan_op (c : Channel) (r : ChannelRecord) :
    (s.setChan c r).op = s.op := rfl
@[simp] theorem State.setChan_supervisor (c : Channel) (r : ChannelRecord) :
    (s.setChan c r).supervisor = s.supervisor := rfl
@[simp] theorem State.setChan_lrt (c : Channel) (r : ChannelRecord) :
    (s.setChan c r).lrt = s.lrt := rfl
@[simp] theorem State.setChan_acc (c : Channel) (r : ChannelRecord) :
    (s.setChan c r).acc = s.acc := rfl
@[simp] theorem State.setChan_gar (c : Channel) (r : ChannelRecord) :
    (s.setChan c r).gar = s.gar := rfl
@[simp] theorem State.setChan_exc (c : Channel) (r : ChannelRecord) :
    (s.setChan c r).exc = s.exc := rfl
@[simp] theorem State.setChan_mc (c : Channel) (r : ChannelRecord) :
    (s.setChan c r).mc = { s.mc with chans := s.mc.chans.set c r } := rfl
@[simp] theorem State.setChan_rsq (c : Channel) (r : ChannelRecord) :
    (s.setChan c r).rsq = s.rsq := rfl
@[simp] theorem State.setChan_rts (c : Channel) (r : ChannelRecord) :
    (s.setChan c r).rts = s.rts := rfl
@[simp] theorem State.setChan_tkt (c : Channel) (r : ChannelRecord) :
    (s.setChan c r).tkt = s.tkt := rfl
@[simp] theorem State.setChan_cnt (c : Channel) (r : ChannelRecord) :
    (s.setChan c r).cnt = s.cnt := rfl
@[simp] theorem State.setChan_ports (c : Channel) (r : ChannelRecord) :
    (s.setChan c r).ports = s.ports := rfl
@[simp] theorem State.setChan_pending (c : Channel) (r : ChannelRecord) :
    (s.setChan c r).pending = s.pending := rfl
@[simp] theorem State.setChan_free (c : Channel) (r : ChannelRecord) :
    (s.setChan c r).free = s.free := rfl

/-! ### State.setPort -/

@[simp] theorem State.setPort_op (p : Port) (u : PortUnit) :
    (s.setPort p u).op = s.op := rfl
@[simp] theorem State.setPort_supervisor (p : Port) (u : PortUnit) :
    (s.setPort p u).supervisor = s.supervisor := rfl
@[simp] theorem State.setPort_lrt (p : Port) (u : PortUnit) :
    (s.setPort p u).lrt = s.lrt := rfl
@[simp] theorem State.setPort_acc (p : Port) (u : PortUnit) :
    (s.setPort p u).acc = s.acc := rfl
@[simp] theorem State.setPort_gar (p : Port) (u : PortUnit) :
    (s.setPort p u).gar = s.gar := rfl
@[simp] theorem State.setPort_exc (p : Port) (u : PortUnit) :
    (s.setPort p u).exc = s.exc := rfl
@[simp] theorem State.setPort_mc (p : Port) (u : PortUnit) :
    (s.setPort p u).mc = s.mc := rfl
@[simp] theorem State.setPort_rsq (p : Port) (u : PortUnit) :
    (s.setPort p u).rsq = s.rsq := rfl
@[simp] theorem State.setPort_rts (p : Port) (u : PortUnit) :
    (s.setPort p u).rts = s.rts := rfl
@[simp] theorem State.setPort_tkt (p : Port) (u : PortUnit) :
    (s.setPort p u).tkt = s.tkt := rfl
@[simp] theorem State.setPort_cnt (p : Port) (u : PortUnit) :
    (s.setPort p u).cnt = s.cnt := rfl
@[simp] theorem State.setPort_ports (p : Port) (u : PortUnit) :
    (s.setPort p u).ports = s.ports.set p u := rfl
@[simp] theorem State.setPort_pending (p : Port) (u : PortUnit) :
    (s.setPort p u).pending = s.pending := rfl
@[simp] theorem State.setPort_free (p : Port) (u : PortUnit) :
    (s.setPort p u).free = s.free := rfl

/-! ### State.setCtx -/

@[simp] theorem State.setCtx_op (b : Bus) (x : Option RunContext) :
    (s.setCtx b x).op = s.op := rfl
@[simp] theorem State.setCtx_supervisor (b : Bus) (x : Option RunContext) :
    (s.setCtx b x).supervisor = s.supervisor := rfl
@[simp] theorem State.setCtx_lrt (b : Bus) (x : Option RunContext) :
    (s.setCtx b x).lrt = s.lrt := rfl
@[simp] theorem State.setCtx_acc (b : Bus) (x : Option RunContext) :
    (s.setCtx b x).acc = s.acc := rfl
@[simp] theorem State.setCtx_gar (b : Bus) (x : Option RunContext) :
    (s.setCtx b x).gar = s.gar := rfl
@[simp] theorem State.setCtx_exc (b : Bus) (x : Option RunContext) :
    (s.setCtx b x).exc = s.exc := rfl
@[simp] theorem State.setCtx_mc (b : Bus) (x : Option RunContext) :
    (s.setCtx b x).mc = s.mc := rfl
@[simp] theorem State.setCtx_rsq (b : Bus) (x : Option RunContext) :
    (s.setCtx b x).rsq = { s.rsq with contexts := s.rsq.contexts.set b x } := rfl
@[simp] theorem State.setCtx_rts (b : Bus) (x : Option RunContext) :
    (s.setCtx b x).rts = s.rts := rfl
@[simp] theorem State.setCtx_tkt (b : Bus) (x : Option RunContext) :
    (s.setCtx b x).tkt = s.tkt := rfl
@[simp] theorem State.setCtx_cnt (b : Bus) (x : Option RunContext) :
    (s.setCtx b x).cnt = s.cnt := rfl
@[simp] theorem State.setCtx_ports (b : Bus) (x : Option RunContext) :
    (s.setCtx b x).ports = s.ports := rfl
@[simp] theorem State.setCtx_pending (b : Bus) (x : Option RunContext) :
    (s.setCtx b x).pending = s.pending := rfl
@[simp] theorem State.setCtx_free (b : Bus) (x : Option RunContext) :
    (s.setCtx b x).free = s.free := rfl

/-! ### State.setLine -/

@[simp] theorem State.setLine_op (n : Nat) (r : LineRecord) :
    (s.setLine n r).op = s.op := rfl
@[simp] theorem State.setLine_supervisor (n : Nat) (r : LineRecord) :
    (s.setLine n r).supervisor = s.supervisor := rfl
@[simp] theorem State.setLine_lrt (n : Nat) (r : LineRecord) :
    (s.setLine n r).lrt = { s.lrt with lines := writeTable (fun _ => LineRecord.fresh) s.lrt.lines n r } := rfl
@[simp] theorem State.setLine_acc (n : Nat) (r : LineRecord) :
    (s.setLine n r).acc = s.acc := rfl
@[simp] theorem State.setLine_gar (n : Nat) (r : LineRecord) :
    (s.setLine n r).gar = s.gar := rfl
@[simp] theorem State.setLine_exc (n : Nat) (r : LineRecord) :
    (s.setLine n r).exc = s.exc := rfl
@[simp] theorem State.setLine_mc (n : Nat) (r : LineRecord) :
    (s.setLine n r).mc = s.mc := rfl
@[simp] theorem State.setLine_rsq (n : Nat) (r : LineRecord) :
    (s.setLine n r).rsq = s.rsq := rfl
@[simp] theorem State.setLine_rts (n : Nat) (r : LineRecord) :
    (s.setLine n r).rts = s.rts := rfl
@[simp] theorem State.setLine_tkt (n : Nat) (r : LineRecord) :
    (s.setLine n r).tkt = s.tkt := rfl
@[simp] theorem State.setLine_cnt (n : Nat) (r : LineRecord) :
    (s.setLine n r).cnt = s.cnt := rfl
@[simp] theorem State.setLine_ports (n : Nat) (r : LineRecord) :
    (s.setLine n r).ports = s.ports := rfl
@[simp] theorem State.setLine_pending (n : Nat) (r : LineRecord) :
    (s.setLine n r).pending = s.pending := rfl
@[simp] theorem State.setLine_free (n : Nat) (r : LineRecord) :
    (s.setLine n r).free = s.free := rfl

/-! ### State.setCls -/

@[simp] theorem State.setCls_op (c : Nat) (e : ClassEntry) :
    (s.setCls c e).op = s.op := rfl
@[simp] theorem State.setCls_supervisor (c : Nat) (e : ClassEntry) :
    (s.setCls c e).supervisor = s.supervisor := rfl
@[simp] theorem State.setCls_lrt (c : Nat) (e : ClassEntry) :
    (s.setCls c e).lrt = { s.lrt with classes := writeTable (fun _ => ClassEntry.default) s.lrt.classes c e } := rfl
@[simp] theorem State.setCls_acc (c : Nat) (e : ClassEntry) :
    (s.setCls c e).acc = s.acc := rfl
@[simp] theorem State.setCls_gar (c : Nat) (e : ClassEntry) :
    (s.setCls c e).gar = s.gar := rfl
@[simp] theorem State.setCls_exc (c : Nat) (e : ClassEntry) :
    (s.setCls c e).exc = s.exc := rfl
@[simp] theorem State.setCls_mc (c : Nat) (e : ClassEntry) :
    (s.setCls c e).mc = s.mc := rfl
@[simp] theorem State.setCls_rsq (c : Nat) (e : ClassEntry) :
    (s.setCls c e).rsq = s.rsq := rfl
@[simp] theorem State.setCls_rts (c : Nat) (e : ClassEntry) :
    (s.setCls c e).rts = s.rts := rfl
@[simp] theorem State.setCls_tkt (c : Nat) (e : ClassEntry) :
    (s.setCls c e).tkt = s.tkt := rfl
@[simp] theorem State.setCls_cnt (c : Nat) (e : ClassEntry) :
    (s.setCls c e).cnt = s.cnt := rfl
@[simp] theorem State.setCls_ports (c : Nat) (e : ClassEntry) :
    (s.setCls c e).ports = s.ports := rfl
@[simp] theorem State.setCls_pending (c : Nat) (e : ClassEntry) :
    (s.setCls c e).pending = s.pending := rfl
@[simp] theorem State.setCls_free (c : Nat) (e : ClassEntry) :
    (s.setCls c e).free = s.free := rfl

/-! ### State.setProgram -/

@[simp] theorem State.setProgram_op (n : Nat) (l : List ProgramStep) :
    (s.setProgram n l).op = s.op := rfl
@[simp] theorem State.setProgram_supervisor (n : Nat) (l : List ProgramStep) :
    (s.setProgram n l).supervisor = s.supervisor := rfl
@[simp] theorem State.setProgram_lrt (n : Nat) (l : List ProgramStep) :
    (s.setProgram n l).lrt = s.lrt := rfl
@[simp] theorem State.setProgram_acc (n : Nat) (l : List ProgramStep) :
    (s.setProgram n l).acc = s.acc := rfl
@[simp] theorem State.setProgram_gar (n : Nat) (l : List ProgramStep) :
    (s.setProgram n l).gar = s.gar := rfl
@[simp] theorem State.setProgram_exc (n : Nat) (l : List ProgramStep) :
    (s.setProgram n l).exc = s.exc := rfl
@[simp] theorem State.setProgram_mc (n : Nat) (l : List ProgramStep) :
    (s.setProgram n l).mc = s.mc := rfl
@[simp] theorem State.setProgram_rsq (n : Nat) (l : List ProgramStep) :
    (s.setProgram n l).rsq = { s.rsq with programs := writeTable defaultProgram s.rsq.programs n l } := rfl
@[simp] theorem State.setProgram_rts (n : Nat) (l : List ProgramStep) :
    (s.setProgram n l).rts = s.rts := rfl
@[simp] theorem State.setProgram_tkt (n : Nat) (l : List ProgramStep) :
    (s.setProgram n l).tkt = s.tkt := rfl
@[simp] theorem State.setProgram_cnt (n : Nat) (l : List ProgramStep) :
    (s.setProgram n l).cnt = s.cnt := rfl
@[simp] theorem State.setProgram_ports (n : Nat) (l : List ProgramStep) :
    (s.setProgram n l).ports = s.ports := rfl
@[simp] theorem State.setProgram_pending (n : Nat) (l : List ProgramStep) :
    (s.setProgram n l).pending = s.pending := rfl
@[simp] theorem State.setProgram_free (n : Nat) (l : List ProgramStep) :
    (s.setProgram n l).free = s.free := rfl

/-! ### State.setPoint -/

@[simp] theorem State.setPoint_op (n k : Nat) (v : Option Bus) :
    (s.setPoint n k v).op = s.op := rfl
@[simp] theorem State.setPoint_supervisor (n k : Nat) (v : Option Bus) :
    (s.setPoint n k v).supervisor = s.supervisor := rfl
@[simp] theorem State.setPoint_lrt (n k : Nat) (v : Option Bus) :
    (s.setPoint n k v).lrt = s.lrt := rfl
@[simp] theorem State.setPoint_acc (n k : Nat) (v : Option Bus) :
    (s.setPoint n k v).acc = { s.acc with points := writeTable (fun _ => none) s.acc.points (2 * n + k) v } := rfl
@[simp] theorem State.setPoint_gar (n k : Nat) (v : Option Bus) :
    (s.setPoint n k v).gar = s.gar := rfl
@[simp] theorem State.setPoint_exc (n k : Nat) (v : Option Bus) :
    (s.setPoint n k v).exc = s.exc := rfl
@[simp] theorem State.setPoint_mc (n k : Nat) (v : Option Bus) :
    (s.setPoint n k v).mc = s.mc := rfl
@[simp] theorem State.setPoint_rsq (n k : Nat) (v : Option Bus) :
    (s.setPoint n k v).rsq = s.rsq := rfl
@[simp] theorem State.setPoint_rts (n k : Nat) (v : Option Bus) :
    (s.setPoint n k v).rts = s.rts := rfl
@[simp] theorem State.setPoint_tkt (n k : Nat) (v : Option Bus) :
    (s.setPoint n k v).tkt = s.tkt := rfl
@[simp] theorem State.setPoint_cnt (n k : Nat) (v : Option Bus) :
    (s.setPoint n k v).cnt = s.cnt := rfl
@[simp] theorem State.setPoint_ports (n k : Nat) (v : Option Bus) :
    (s.setPoint n k v).ports = s.ports := rfl
@[simp] theorem State.setPoint_pending (n k : Nat) (v : Option Bus) :
    (s.setPoint n k v).pending = s.pending := rfl
@[simp] theorem State.setPoint_free (n k : Nat) (v : Option Bus) :
    (s.setPoint n k v).free = s.free := rfl

/-! ### State.mapRsq -/

@[simp] theorem State.mapRsq_op (f : RunSequencer → RunSequencer) :
    (s.mapRsq f).op = s.op := rfl
@[simp] theorem State.mapRsq_supervisor (f : RunSequencer → RunSequencer) :
    (s.mapRsq f).supervisor = s.supervisor := rfl
@[simp] theorem State.mapRsq_lrt (f : RunSequencer → RunSequencer) :
    (s.mapRsq f).lrt = s.lrt := rfl
@[simp] theorem State.mapRsq_acc (f : RunSequencer → RunSequencer) :
    (s.mapRsq f).acc = s.acc := rfl
@[simp] theorem State.mapRsq_gar (f : RunSequencer → RunSequencer) :
    (s.mapRsq f).gar = s.gar := rfl
@[simp] theorem State.mapRsq_exc (f : RunSequencer → RunSequencer) :
    (s.mapRsq f).exc = s.exc := rfl
@[simp] theorem State.mapRsq_mc (f : RunSequencer → RunSequencer) :
    (s.mapRsq f).mc = s.mc := rfl
@[simp] theorem State.mapRsq_rsq (f : RunSequencer → RunSequencer) :
    (s.mapRsq f).rsq = f s.rsq := rfl
@[simp] theorem State.mapRsq_rts (f : RunSequencer → RunSequencer) :
    (s.mapRsq f).rts = s.rts := rfl
@[simp] theorem State.mapRsq_tkt (f : RunSequencer → RunSequencer) :
    (s.mapRsq f).tkt = s.tkt := rfl
@[simp] theorem State.mapRsq_cnt (f : RunSequencer → RunSequencer) :
    (s.mapRsq f).cnt = s.cnt := rfl
@[simp] theorem State.mapRsq_ports (f : RunSequencer → RunSequencer) :
    (s.mapRsq f).ports = s.ports := rfl
@[simp] theorem State.mapRsq_pending (f : RunSequencer → RunSequencer) :
    (s.mapRsq f).pending = s.pending := rfl
@[simp] theorem State.mapRsq_free (f : RunSequencer → RunSequencer) :
    (s.mapRsq f).free = s.free := rfl

/-! ### State.mapGar -/

@[simp] theorem State.mapGar_op (f : GrantArbiter → GrantArbiter) :
    (s.mapGar f).op = s.op := rfl
@[simp] theorem State.mapGar_supervisor (f : GrantArbiter → GrantArbiter) :
    (s.mapGar f).supervisor = s.supervisor := rfl
@[simp] theorem State.mapGar_lrt (f : GrantArbiter → GrantArbiter) :
    (s.mapGar f).lrt = s.lrt := rfl
@[simp] theorem State.mapGar_acc (f : GrantArbiter → GrantArbiter) :
    (s.mapGar f).acc = s.acc := rfl
@[simp] theorem State.mapGar_gar (f : GrantArbiter → GrantArbiter) :
    (s.mapGar f).gar = f s.gar := rfl
@[simp] theorem State.mapGar_exc (f : GrantArbiter → GrantArbiter) :
    (s.mapGar f).exc = s.exc := rfl
@[simp] theorem State.mapGar_mc (f : GrantArbiter → GrantArbiter) :
    (s.mapGar f).mc = s.mc := rfl
@[simp] theorem State.mapGar_rsq (f : GrantArbiter → GrantArbiter) :
    (s.mapGar f).rsq = s.rsq := rfl
@[simp] theorem State.mapGar_rts (f : GrantArbiter → GrantArbiter) :
    (s.mapGar f).rts = s.rts := rfl
@[simp] theorem State.mapGar_tkt (f : GrantArbiter → GrantArbiter) :
    (s.mapGar f).tkt = s.tkt := rfl
@[simp] theorem State.mapGar_cnt (f : GrantArbiter → GrantArbiter) :
    (s.mapGar f).cnt = s.cnt := rfl
@[simp] theorem State.mapGar_ports (f : GrantArbiter → GrantArbiter) :
    (s.mapGar f).ports = s.ports := rfl
@[simp] theorem State.mapGar_pending (f : GrantArbiter → GrantArbiter) :
    (s.mapGar f).pending = s.pending := rfl
@[simp] theorem State.mapGar_free (f : GrantArbiter → GrantArbiter) :
    (s.mapGar f).free = s.free := rfl

/-! ### State.mapRts -/

@[simp] theorem State.mapRts_op (f : RoutineScheduler → RoutineScheduler) :
    (s.mapRts f).op = s.op := rfl
@[simp] theorem State.mapRts_supervisor (f : RoutineScheduler → RoutineScheduler) :
    (s.mapRts f).supervisor = s.supervisor := rfl
@[simp] theorem State.mapRts_lrt (f : RoutineScheduler → RoutineScheduler) :
    (s.mapRts f).lrt = s.lrt := rfl
@[simp] theorem State.mapRts_acc (f : RoutineScheduler → RoutineScheduler) :
    (s.mapRts f).acc = s.acc := rfl
@[simp] theorem State.mapRts_gar (f : RoutineScheduler → RoutineScheduler) :
    (s.mapRts f).gar = s.gar := rfl
@[simp] theorem State.mapRts_exc (f : RoutineScheduler → RoutineScheduler) :
    (s.mapRts f).exc = s.exc := rfl
@[simp] theorem State.mapRts_mc (f : RoutineScheduler → RoutineScheduler) :
    (s.mapRts f).mc = s.mc := rfl
@[simp] theorem State.mapRts_rsq (f : RoutineScheduler → RoutineScheduler) :
    (s.mapRts f).rsq = s.rsq := rfl
@[simp] theorem State.mapRts_rts (f : RoutineScheduler → RoutineScheduler) :
    (s.mapRts f).rts = f s.rts := rfl
@[simp] theorem State.mapRts_tkt (f : RoutineScheduler → RoutineScheduler) :
    (s.mapRts f).tkt = s.tkt := rfl
@[simp] theorem State.mapRts_cnt (f : RoutineScheduler → RoutineScheduler) :
    (s.mapRts f).cnt = s.cnt := rfl
@[simp] theorem State.mapRts_ports (f : RoutineScheduler → RoutineScheduler) :
    (s.mapRts f).ports = s.ports := rfl
@[simp] theorem State.mapRts_pending (f : RoutineScheduler → RoutineScheduler) :
    (s.mapRts f).pending = s.pending := rfl
@[simp] theorem State.mapRts_free (f : RoutineScheduler → RoutineScheduler) :
    (s.mapRts f).free = s.free := rfl

/-! ### State.mapTkt -/

@[simp] theorem State.mapTkt_op (f : TicketTable → TicketTable) :
    (s.mapTkt f).op = s.op := rfl
@[simp] theorem State.mapTkt_supervisor (f : TicketTable → TicketTable) :
    (s.mapTkt f).supervisor = s.supervisor := rfl
@[simp] theorem State.mapTkt_lrt (f : TicketTable → TicketTable) :
    (s.mapTkt f).lrt = s.lrt := rfl
@[simp] theorem State.mapTkt_acc (f : TicketTable → TicketTable) :
    (s.mapTkt f).acc = s.acc := rfl
@[simp] theorem State.mapTkt_gar (f : TicketTable → TicketTable) :
    (s.mapTkt f).gar = s.gar := rfl
@[simp] theorem State.mapTkt_exc (f : TicketTable → TicketTable) :
    (s.mapTkt f).exc = s.exc := rfl
@[simp] theorem State.mapTkt_mc (f : TicketTable → TicketTable) :
    (s.mapTkt f).mc = s.mc := rfl
@[simp] theorem State.mapTkt_rsq (f : TicketTable → TicketTable) :
    (s.mapTkt f).rsq = s.rsq := rfl
@[simp] theorem State.mapTkt_rts (f : TicketTable → TicketTable) :
    (s.mapTkt f).rts = s.rts := rfl
@[simp] theorem State.mapTkt_tkt (f : TicketTable → TicketTable) :
    (s.mapTkt f).tkt = f s.tkt := rfl
@[simp] theorem State.mapTkt_cnt (f : TicketTable → TicketTable) :
    (s.mapTkt f).cnt = s.cnt := rfl
@[simp] theorem State.mapTkt_ports (f : TicketTable → TicketTable) :
    (s.mapTkt f).ports = s.ports := rfl
@[simp] theorem State.mapTkt_pending (f : TicketTable → TicketTable) :
    (s.mapTkt f).pending = s.pending := rfl
@[simp] theorem State.mapTkt_free (f : TicketTable → TicketTable) :
    (s.mapTkt f).free = s.free := rfl

/-! ### One thing per bus, channel, port -/

@[simp] theorem PerBus.get_set {α : Type} (t : PerBus α) (b d : Bus) (v : α) :
    (t.set b v).get d = if d = b then v else t.get d := by cases b <;> cases d <;> rfl

@[simp] theorem PerChannel.get_set {α : Type} (t : PerChannel α) (c d : Channel) (v : α) :
    (t.set c v).get d = if d = c then v else t.get d := by cases c <;> cases d <;> rfl

@[simp] theorem PerPort.get_set {α : Type} (t : PerPort α) (p d : Port) (v : α) :
    (t.set p v).get d = if d = p then v else t.get d := by cases p <;> cases d <;> rfl

@[simp] theorem PerBus.set_get {α : Type} (t : PerBus α) (b : Bus) : t.set b (t.get b) = t := by cases b <;> rfl

@[simp] theorem PerChannel.set_get {α : Type} (t : PerChannel α) (c : Channel) : t.set c (t.get c) = t := by
  cases c <;> rfl

@[simp] theorem PerPort.set_get {α : Type} (t : PerPort α) (p : Port) : t.set p (t.get p) = t := by cases p <;> rfl

@[simp] theorem PerBus.set_set {α : Type} (t : PerBus α) (b : Bus) (v w : α) : (t.set b v).set b w = t.set b w := by
  cases b <;> rfl

@[simp] theorem PerChannel.set_set {α : Type} (t : PerChannel α) (c : Channel) (v w : α) :
    (t.set c v).set c w = t.set c w := by cases c <;> rfl

@[simp] theorem PerPort.set_set {α : Type} (t : PerPort α) (p : Port) (v w : α) : (t.set p v).set p w = t.set p w := by
  cases p <;> rfl

/-! ### Records -/

@[simp] theorem State.setBus_bus (b d : Bus) (r : BusRecord) :
    (s.setBus b r).bus d = if d = b then r else s.bus d := by simp [State.bus]

@[simp] theorem State.setChan_chan (c d : Channel) (r : ChannelRecord) :
    (s.setChan c r).chan d = if d = c then r else s.chan d := by simp [State.chan]

@[simp] theorem State.setPort_port (p d : Port) (u : PortUnit) :
    (s.setPort p u).port d = if d = p then u else s.port d := by simp [State.port]

@[simp] theorem State.setCtx_ctx (b d : Bus) (x : Option RunContext) :
    (s.setCtx b x).ctx d = if d = b then x else s.ctx d := by simp [State.ctx]

@[simp] theorem State.setBus_chan (b : Bus) (r : BusRecord) (d : Channel) :
    (s.setBus b r).chan d = s.chan d := rfl

@[simp] theorem State.setBus_port (b : Bus) (r : BusRecord) (d : Port) :
    (s.setBus b r).port d = s.port d := rfl

@[simp] theorem State.setBus_ctx (b : Bus) (r : BusRecord) (d : Bus) :
    (s.setBus b r).ctx d = s.ctx d := rfl

@[simp] theorem State.setBus_line (b : Bus) (r : BusRecord) (m : Nat) :
    (s.setBus b r).line m = s.line m := rfl

@[simp] theorem State.setBus_cls (b : Bus) (r : BusRecord) (m : Nat) :
    (s.setBus b r).cls m = s.cls m := rfl

@[simp] theorem State.setBus_program (b : Bus) (r : BusRecord) (m : Nat) :
    (s.setBus b r).program m = s.program m := rfl

@[simp] theorem State.setBus_point (b : Bus) (r : BusRecord) (m j : Nat) :
    (s.setBus b r).point m j = s.point m j := rfl

@[simp] theorem State.setChan_bus (c : Channel) (r : ChannelRecord) (d : Bus) :
    (s.setChan c r).bus d = s.bus d := rfl

@[simp] theorem State.setChan_port (c : Channel) (r : ChannelRecord) (d : Port) :
    (s.setChan c r).port d = s.port d := rfl

@[simp] theorem State.setChan_ctx (c : Channel) (r : ChannelRecord) (d : Bus) :
    (s.setChan c r).ctx d = s.ctx d := rfl

@[simp] theorem State.setChan_line (c : Channel) (r : ChannelRecord) (m : Nat) :
    (s.setChan c r).line m = s.line m := rfl

@[simp] theorem State.setChan_cls (c : Channel) (r : ChannelRecord) (m : Nat) :
    (s.setChan c r).cls m = s.cls m := rfl

@[simp] theorem State.setChan_program (c : Channel) (r : ChannelRecord) (m : Nat) :
    (s.setChan c r).program m = s.program m := rfl

@[simp] theorem State.setChan_point (c : Channel) (r : ChannelRecord) (m j : Nat) :
    (s.setChan c r).point m j = s.point m j := rfl

@[simp] theorem State.setPort_bus (p : Port) (u : PortUnit) (d : Bus) :
    (s.setPort p u).bus d = s.bus d := rfl

@[simp] theorem State.setPort_chan (p : Port) (u : PortUnit) (d : Channel) :
    (s.setPort p u).chan d = s.chan d := rfl

@[simp] theorem State.setPort_ctx (p : Port) (u : PortUnit) (d : Bus) :
    (s.setPort p u).ctx d = s.ctx d := rfl

@[simp] theorem State.setPort_line (p : Port) (u : PortUnit) (m : Nat) :
    (s.setPort p u).line m = s.line m := rfl

@[simp] theorem State.setPort_cls (p : Port) (u : PortUnit) (m : Nat) :
    (s.setPort p u).cls m = s.cls m := rfl

@[simp] theorem State.setPort_program (p : Port) (u : PortUnit) (m : Nat) :
    (s.setPort p u).program m = s.program m := rfl

@[simp] theorem State.setPort_point (p : Port) (u : PortUnit) (m j : Nat) :
    (s.setPort p u).point m j = s.point m j := rfl

@[simp] theorem State.setCtx_bus (b : Bus) (x : Option RunContext) (d : Bus) :
    (s.setCtx b x).bus d = s.bus d := rfl

@[simp] theorem State.setCtx_chan (b : Bus) (x : Option RunContext) (d : Channel) :
    (s.setCtx b x).chan d = s.chan d := rfl

@[simp] theorem State.setCtx_port (b : Bus) (x : Option RunContext) (d : Port) :
    (s.setCtx b x).port d = s.port d := rfl

@[simp] theorem State.setCtx_line (b : Bus) (x : Option RunContext) (m : Nat) :
    (s.setCtx b x).line m = s.line m := rfl

@[simp] theorem State.setCtx_cls (b : Bus) (x : Option RunContext) (m : Nat) :
    (s.setCtx b x).cls m = s.cls m := rfl

@[simp] theorem State.setCtx_program (b : Bus) (x : Option RunContext) (m : Nat) :
    (s.setCtx b x).program m = s.program m := rfl

@[simp] theorem State.setCtx_point (b : Bus) (x : Option RunContext) (m j : Nat) :
    (s.setCtx b x).point m j = s.point m j := rfl

@[simp] theorem State.setLine_bus (n : Nat) (r : LineRecord) (d : Bus) :
    (s.setLine n r).bus d = s.bus d := rfl

@[simp] theorem State.setLine_chan (n : Nat) (r : LineRecord) (d : Channel) :
    (s.setLine n r).chan d = s.chan d := rfl

@[simp] theorem State.setLine_port (n : Nat) (r : LineRecord) (d : Port) :
    (s.setLine n r).port d = s.port d := rfl

@[simp] theorem State.setLine_ctx (n : Nat) (r : LineRecord) (d : Bus) :
    (s.setLine n r).ctx d = s.ctx d := rfl

@[simp] theorem State.setLine_cls (n : Nat) (r : LineRecord) (m : Nat) :
    (s.setLine n r).cls m = s.cls m := rfl

@[simp] theorem State.setLine_program (n : Nat) (r : LineRecord) (m : Nat) :
    (s.setLine n r).program m = s.program m := rfl

@[simp] theorem State.setLine_point (n : Nat) (r : LineRecord) (m j : Nat) :
    (s.setLine n r).point m j = s.point m j := rfl

@[simp] theorem State.setCls_bus (c : Nat) (e : ClassEntry) (d : Bus) :
    (s.setCls c e).bus d = s.bus d := rfl

@[simp] theorem State.setCls_chan (c : Nat) (e : ClassEntry) (d : Channel) :
    (s.setCls c e).chan d = s.chan d := rfl

@[simp] theorem State.setCls_port (c : Nat) (e : ClassEntry) (d : Port) :
    (s.setCls c e).port d = s.port d := rfl

@[simp] theorem State.setCls_ctx (c : Nat) (e : ClassEntry) (d : Bus) :
    (s.setCls c e).ctx d = s.ctx d := rfl

@[simp] theorem State.setCls_line (c : Nat) (e : ClassEntry) (m : Nat) :
    (s.setCls c e).line m = s.line m := rfl

@[simp] theorem State.setCls_program (c : Nat) (e : ClassEntry) (m : Nat) :
    (s.setCls c e).program m = s.program m := rfl

@[simp] theorem State.setCls_point (c : Nat) (e : ClassEntry) (m j : Nat) :
    (s.setCls c e).point m j = s.point m j := rfl

@[simp] theorem State.setProgram_bus (n : Nat) (l : List ProgramStep) (d : Bus) :
    (s.setProgram n l).bus d = s.bus d := rfl

@[simp] theorem State.setProgram_chan (n : Nat) (l : List ProgramStep) (d : Channel) :
    (s.setProgram n l).chan d = s.chan d := rfl

@[simp] theorem State.setProgram_port (n : Nat) (l : List ProgramStep) (d : Port) :
    (s.setProgram n l).port d = s.port d := rfl

@[simp] theorem State.setProgram_ctx (n : Nat) (l : List ProgramStep) (d : Bus) :
    (s.setProgram n l).ctx d = s.ctx d := rfl

@[simp] theorem State.setProgram_line (n : Nat) (l : List ProgramStep) (m : Nat) :
    (s.setProgram n l).line m = s.line m := rfl

@[simp] theorem State.setProgram_cls (n : Nat) (l : List ProgramStep) (m : Nat) :
    (s.setProgram n l).cls m = s.cls m := rfl

@[simp] theorem State.setProgram_point (n : Nat) (l : List ProgramStep) (m j : Nat) :
    (s.setProgram n l).point m j = s.point m j := rfl

@[simp] theorem State.setPoint_bus (n k : Nat) (v : Option Bus) (d : Bus) :
    (s.setPoint n k v).bus d = s.bus d := rfl

@[simp] theorem State.setPoint_chan (n k : Nat) (v : Option Bus) (d : Channel) :
    (s.setPoint n k v).chan d = s.chan d := rfl

@[simp] theorem State.setPoint_port (n k : Nat) (v : Option Bus) (d : Port) :
    (s.setPoint n k v).port d = s.port d := rfl

@[simp] theorem State.setPoint_ctx (n k : Nat) (v : Option Bus) (d : Bus) :
    (s.setPoint n k v).ctx d = s.ctx d := rfl

@[simp] theorem State.setPoint_line (n k : Nat) (v : Option Bus) (m : Nat) :
    (s.setPoint n k v).line m = s.line m := rfl

@[simp] theorem State.setPoint_cls (n k : Nat) (v : Option Bus) (m : Nat) :
    (s.setPoint n k v).cls m = s.cls m := rfl

@[simp] theorem State.setPoint_program (n k : Nat) (v : Option Bus) (m : Nat) :
    (s.setPoint n k v).program m = s.program m := rfl

@[simp] theorem State.mapGar_bus (f : GrantArbiter → GrantArbiter) (d : Bus) :
    (s.mapGar f).bus d = s.bus d := rfl

@[simp] theorem State.mapGar_chan (f : GrantArbiter → GrantArbiter) (d : Channel) :
    (s.mapGar f).chan d = s.chan d := rfl

@[simp] theorem State.mapGar_port (f : GrantArbiter → GrantArbiter) (d : Port) :
    (s.mapGar f).port d = s.port d := rfl

@[simp] theorem State.mapGar_ctx (f : GrantArbiter → GrantArbiter) (d : Bus) :
    (s.mapGar f).ctx d = s.ctx d := rfl

@[simp] theorem State.mapGar_line (f : GrantArbiter → GrantArbiter) (m : Nat) :
    (s.mapGar f).line m = s.line m := rfl

@[simp] theorem State.mapGar_cls (f : GrantArbiter → GrantArbiter) (m : Nat) :
    (s.mapGar f).cls m = s.cls m := rfl

@[simp] theorem State.mapGar_program (f : GrantArbiter → GrantArbiter) (m : Nat) :
    (s.mapGar f).program m = s.program m := rfl

@[simp] theorem State.mapGar_point (f : GrantArbiter → GrantArbiter) (m j : Nat) :
    (s.mapGar f).point m j = s.point m j := rfl

@[simp] theorem State.mapRts_bus (f : RoutineScheduler → RoutineScheduler) (d : Bus) :
    (s.mapRts f).bus d = s.bus d := rfl

@[simp] theorem State.mapRts_chan (f : RoutineScheduler → RoutineScheduler) (d : Channel) :
    (s.mapRts f).chan d = s.chan d := rfl

@[simp] theorem State.mapRts_port (f : RoutineScheduler → RoutineScheduler) (d : Port) :
    (s.mapRts f).port d = s.port d := rfl

@[simp] theorem State.mapRts_ctx (f : RoutineScheduler → RoutineScheduler) (d : Bus) :
    (s.mapRts f).ctx d = s.ctx d := rfl

@[simp] theorem State.mapRts_line (f : RoutineScheduler → RoutineScheduler) (m : Nat) :
    (s.mapRts f).line m = s.line m := rfl

@[simp] theorem State.mapRts_cls (f : RoutineScheduler → RoutineScheduler) (m : Nat) :
    (s.mapRts f).cls m = s.cls m := rfl

@[simp] theorem State.mapRts_program (f : RoutineScheduler → RoutineScheduler) (m : Nat) :
    (s.mapRts f).program m = s.program m := rfl

@[simp] theorem State.mapRts_point (f : RoutineScheduler → RoutineScheduler) (m j : Nat) :
    (s.mapRts f).point m j = s.point m j := rfl

@[simp] theorem State.mapTkt_bus (f : TicketTable → TicketTable) (d : Bus) :
    (s.mapTkt f).bus d = s.bus d := rfl

@[simp] theorem State.mapTkt_chan (f : TicketTable → TicketTable) (d : Channel) :
    (s.mapTkt f).chan d = s.chan d := rfl

@[simp] theorem State.mapTkt_port (f : TicketTable → TicketTable) (d : Port) :
    (s.mapTkt f).port d = s.port d := rfl

@[simp] theorem State.mapTkt_ctx (f : TicketTable → TicketTable) (d : Bus) :
    (s.mapTkt f).ctx d = s.ctx d := rfl

@[simp] theorem State.mapTkt_line (f : TicketTable → TicketTable) (m : Nat) :
    (s.mapTkt f).line m = s.line m := rfl

@[simp] theorem State.mapTkt_cls (f : TicketTable → TicketTable) (m : Nat) :
    (s.mapTkt f).cls m = s.cls m := rfl

@[simp] theorem State.mapTkt_program (f : TicketTable → TicketTable) (m : Nat) :
    (s.mapTkt f).program m = s.program m := rfl

@[simp] theorem State.mapTkt_point (f : TicketTable → TicketTable) (m j : Nat) :
    (s.mapTkt f).point m j = s.point m j := rfl

end Sys2Proof.Machine
end

