-- ==== Sys2Proof/Laws/Requests.lean ====
section
/-! SUPPORT. What the shared operations around a request do: the end of a step with nothing to grant, the head of
a FIFO passed to its owning block, the answer. -/

namespace Sys2Proof

open Machine

/-! ## The end of a step -/

theorem clearDue_of_not_due {s : State} (h : s.gar.arbDue = false) :
    s.mapGar (fun g => { g with arbDue := false }) = s := by
  obtain ⟨_, _, _, _, g, _, _, _, _, _, _, _, _, _⟩ := s
  cases g
  simp_all [State.mapGar]

theorem arbitrate_of_not_due {s : State} (n : Nat) (h : s.gar.arbDue = false) : State.arbitrate n s = s := by
  cases n <;> simp [State.arbitrate, clearDue_of_not_due h, h]

theorem serveWaiting_of_none {s : State} (n : Nat) (h : NoRunToServe s) : State.serveWaiting n s = s := by
  cases n with
  | zero => rfl
  | succ n =>
    unfold State.serveWaiting
    rcases h with h | h <;> simp only [h]
    cases s.readyChannel <;> rfl

/-- A step that leaves nothing to grant ends as it stands. -/
theorem settle_of_settled {s : State} (h : Settled s) : s.settle = s := by
  rw [State.settle, serveWaiting_of_none _ h.2, arbitrate_of_not_due _ h.1]

/-- With every bus in use an event of R47 starts no arbitration. -/
theorem settle_of_noIdleBus {s : State} (w : NoRunToServe s) (h : NoIdleBus s) :
    s.settle = s.mapGar fun g => { g with arbDue := false } := by
  rw [State.settle, serveWaiting_of_none _ w]
  unfold State.arbitrate
  split
  · simp [h]
  · rfl

/-- An arbitration without claimant only clears the service-ratio counter (R48, R49, R51). -/
theorem arbitrateOnce_of_noClaimant {s : State} (b : Bus) (h : NoClaimant s) :
    s.arbitrateOnce b = s.mapGar fun g => { g with ratio := 0 } := by
  have hm : s.mayAsk = false := by simp [State.mayAsk, h.2]
  simp [State.arbitrateOnce, State.decideWinner, State.candidate, hm, h.1, bestDesk, chooseWinner, State.grant,
    nextRatio]

/-- An arbitration that is due and has no claimant. -/
theorem settle_of_noClaimant {s : State} (w : NoRunToServe s) (h : NoClaimant s) (due : s.gar.arbDue = true)
    (op : s.op = .operational) (b : Bus) (idle : s.idleBus = some b) : s.settle = ratioCleared s := by
  rw [State.settle, serveWaiting_of_none _ w]
  have hc : NoClaimant (s.mapGar fun g => { g with arbDue := false }) := ⟨h.1, h.2⟩
  unfold State.arbitrate
  simp only [due, op, idle, and_self, if_true, arbitrateOnce_of_noClaimant b hc]
  rw [arbitrate_of_not_due _ rfl]
  rfl

/-! ## The request at the head of a FIFO -/

/-- A request command passes the oldest request to its owning block, out of the FIFO (R175). -/
theorem serve_of_asks {s : State} {p : Port} {k : RequestKind} {q : Request}
    (owner : Port → Request → State → State) (h : Asks s p k q) :
    serve k owner p s = owner p q (s.popRequest p) := by
  obtain ⟨h1, h2, h3⟩ := h
  have : s.headRequest p k (fun _ => true) = some q := by
    unfold State.headRequest
    cases hr : (s.port p).requests with
    | nil => simp [hr] at h1
    | cons a l =>
      simp only [hr, List.head?_cons, Option.some.injEq] at h1
      subst h1
      simp [h2]
  simp [serve, serveWhere, this, takeRequest, h3]

/-- As `serve_of_asks`, for the two commands that share CHANNEL_SET. -/
theorem serveWhere_of_asks {s : State} {p : Port} {k : RequestKind} {q : Request} {test : Request → Bool}
    (owner : Port → Request → State → State) (h : Asks s p k q) (ht : test q = true) :
    serveWhere test k owner p s = owner p q (s.popRequest p) := by
  obtain ⟨h1, h2, h3⟩ := h
  have : s.headRequest p k test = some q := by
    unfold State.headRequest
    cases hr : (s.port p).requests with
    | nil => simp [hr] at h1
    | cons a l =>
      simp only [hr, List.head?_cons, Option.some.injEq] at h1
      subst h1
      simp [h2, ht]
  simp [serveWhere, this, takeRequest, h3]

/-! ## The answer -/

theorem answer_popRequest (s : State) (p : Port) (q : Request) (o : ReplyOutcome) (data : List Byte) :
    (s.popRequest p).answer p q o data = answered s p q o data := by
  simp [State.answer, State.reply, State.popRequest, State.setPort, State.port, answered, answeredPorts,
    PortUnit.withReply]

/-- A refusal changes nothing but the port (R178). -/
theorem refuse_popRequest (s : State) (p : Port) (q : Request) (r : Reason) :
    (s.popRequest p).refuse p q r = answered s p q (.refused r) [] := answer_popRequest s p q _ _

theorem ok_popRequest (s : State) (p : Port) (q : Request) (c : Bool) (data : List Byte) :
    (s.popRequest p).ok p q c data = answered s p q (okOutcome c) data := answer_popRequest s p q _ _

/-- An answer leaves a step as settled as it was. -/
theorem settled_answered {s : State} {p : Port} {q : Request} {o : ReplyOutcome} {data : List Byte} :
    Settled (answered s p q o data) ↔ Settled s := Iff.rfl

@[simp] theorem popRequest_bus (s : State) (p : Port) (b : Bus) : (s.popRequest p).bus b = s.bus b := rfl
@[simp] theorem popRequest_chan (s : State) (p : Port) (c : Channel) : (s.popRequest p).chan c = s.chan c := rfl
@[simp] theorem popRequest_line (s : State) (p : Port) (n : Nat) : (s.popRequest p).line n = s.line n := rfl
@[simp] theorem popRequest_cls (s : State) (p : Port) (n : Nat) : (s.popRequest p).cls n = s.cls n := rfl
@[simp] theorem popRequest_program (s : State) (p : Port) (n : Nat) : (s.popRequest p).program n = s.program n := rfl
@[simp] theorem popRequest_ctx (s : State) (p : Port) (b : Bus) : (s.popRequest p).ctx b = s.ctx b := rfl

@[simp] theorem popRequest_op (s : State) (p : Port) : (s.popRequest p).op = s.op := rfl
@[simp] theorem popRequest_supervisor (s : State) (p : Port) : (s.popRequest p).supervisor = s.supervisor := rfl
@[simp] theorem popRequest_lrt (s : State) (p : Port) : (s.popRequest p).lrt = s.lrt := rfl
@[simp] theorem popRequest_acc (s : State) (p : Port) : (s.popRequest p).acc = s.acc := rfl
@[simp] theorem popRequest_gar (s : State) (p : Port) : (s.popRequest p).gar = s.gar := rfl
@[simp] theorem popRequest_exc (s : State) (p : Port) : (s.popRequest p).exc = s.exc := rfl
@[simp] theorem popRequest_mc (s : State) (p : Port) : (s.popRequest p).mc = s.mc := rfl
@[simp] theorem popRequest_rsq (s : State) (p : Port) : (s.popRequest p).rsq = s.rsq := rfl
@[simp] theorem popRequest_rts (s : State) (p : Port) : (s.popRequest p).rts = s.rts := rfl
@[simp] theorem popRequest_tkt (s : State) (p : Port) : (s.popRequest p).tkt = s.tkt := rfl
@[simp] theorem popRequest_cnt (s : State) (p : Port) : (s.popRequest p).cnt = s.cnt := rfl
@[simp] theorem popRequest_pending (s : State) (p : Port) : (s.popRequest p).pending = s.pending := rfl
@[simp] theorem popRequest_free (s : State) (p : Port) : (s.popRequest p).free = s.free := rfl
@[simp] theorem popRequest_now (s : State) (p : Port) : (s.popRequest p).now = s.now := rfl

@[simp] theorem popRequest_heldBy (s : State) (p : Port) (n : Nat) : (s.popRequest p).heldBy n = s.heldBy n := rfl
@[simp] theorem popRequest_point (s : State) (p : Port) (n k : Nat) : (s.popRequest p).point n k = s.point n k := rfl
@[simp] theorem popRequest_freePoint (s : State) (p : Port) (n : Nat) : (s.popRequest p).freePoint n = s.freePoint n := rfl
@[simp] theorem popRequest_idleBus (s : State) (p : Port) : (s.popRequest p).idleBus = s.idleBus := rfl
@[simp] theorem popRequest_served (s : State) (p : Port) : (s.popRequest p).served = s.served := rfl
@[simp] theorem popRequest_readyChannel (s : State) (p : Port) : (s.popRequest p).readyChannel = s.readyChannel := rfl
@[simp] theorem popRequest_result (s : State) (p : Port) (h : Nat) : (s.popRequest p).result h = s.result h := rfl
@[simp] theorem popRequest_ticket (s : State) (p : Port) (n : Nat) : (s.popRequest p).ticket n = s.ticket n := rfl

/-! An update passes over the request's leaving its FIFO. -/

@[simp] theorem popRequest_setLine (s : State) (p : Port) (n : Nat) (r : LineRecord) :
    (s.popRequest p).setLine n r = (s.setLine n r).popRequest p := rfl
@[simp] theorem popRequest_setBus (s : State) (p : Port) (b : Bus) (r : BusRecord) :
    (s.popRequest p).setBus b r = (s.setBus b r).popRequest p := rfl
@[simp] theorem popRequest_setChan (s : State) (p : Port) (c : Channel) (r : ChannelRecord) :
    (s.popRequest p).setChan c r = (s.setChan c r).popRequest p := rfl
@[simp] theorem popRequest_setCtx (s : State) (p : Port) (b : Bus) (x : Option RunContext) :
    (s.popRequest p).setCtx b x = (s.setCtx b x).popRequest p := rfl
@[simp] theorem popRequest_setCls (s : State) (p : Port) (c : Nat) (e : ClassEntry) :
    (s.popRequest p).setCls c e = (s.setCls c e).popRequest p := rfl
@[simp] theorem popRequest_setProgram (s : State) (p : Port) (n : Nat) (steps : List ProgramStep) :
    (s.popRequest p).setProgram n steps = (s.setProgram n steps).popRequest p := rfl
@[simp] theorem popRequest_mapGar (s : State) (p : Port) (f : GrantArbiter → GrantArbiter) :
    (s.popRequest p).mapGar f = (s.mapGar f).popRequest p := rfl
@[simp] theorem popRequest_mapRts (s : State) (p : Port) (f : RoutineScheduler → RoutineScheduler) :
    (s.popRequest p).mapRts f = (s.mapRts f).popRequest p := rfl
@[simp] theorem popRequest_mapTkt (s : State) (p : Port) (f : TicketTable → TicketTable) :
    (s.popRequest p).mapTkt f = (s.mapTkt f).popRequest p := rfl

end Sys2Proof
end

