-- ==== Sys2Proof/Laws/Tables.lean ====
section
/-! SUPPORT. What every write of a table does: the entry written reads back, every other entry reads as before,
and the canonical form is kept. -/

namespace Sys2Proof.Machine

variable {α : Type} [DecidableEq α] {d : Nat → α}

theorem Table.wfFrom_cons {low k : Nat} {v : α} {t : Table α} :
    Table.wfFrom d low ((k, v) :: t) = true ↔ low ≤ k ∧ v ≠ d k ∧ Table.wfFrom d (k + 1) t = true := by
  simp [Table.wfFrom, and_assoc]

theorem Table.wfFrom_mono {low low' : Nat} {t : Table α} (h : low' ≤ low) (w : Table.wfFrom d low t = true) :
    Table.wfFrom d low' t = true := by
  cases t with
  | nil => rfl
  | cons e t =>
    obtain ⟨a, b, c⟩ := Table.wfFrom_cons.mp w
    exact Table.wfFrom_cons.mpr ⟨by omega, b, c⟩

/-- A number below every listed number reads as an unlisted one. -/
theorem readTable_of_below {low k : Nat} {t : Table α} (w : Table.wfFrom d low t = true) (h : k < low) :
    readTable d t k = d k := by
  induction t generalizing low with
  | nil => rfl
  | cons e t ih =>
    obtain ⟨a, _, c⟩ := Table.wfFrom_cons.mp w
    have hk : e.1 ≠ k := by omega
    simp only [readTable, hk, if_false]
    exact ih c (by omega)

theorem readTable_putTable {low : Nat} {t : Table α} (w : Table.wfFrom d low t = true) (k : Nat) (v : Option α)
    (j : Nat) : readTable d (putTable k v t) j = if j = k then v.getD (d k) else readTable d t j := by
  induction t generalizing low with
  | nil =>
    by_cases h : j = k
    · cases v <;> simp [putTable, readTable, h]
    · cases v <;> simp [putTable, readTable, h, Ne.symm h]
  | cons e t ih =>
    obtain ⟨i, x⟩ := e
    obtain ⟨_, _, c⟩ := Table.wfFrom_cons.mp w
    unfold putTable
    by_cases hik : i < k
    · by_cases hij : i = j
      · have hjk : j ≠ k := by omega
        subst hij
        simp [hik, readTable, hjk]
      · simp only [hik, if_true, readTable, hij, if_false]
        exact ih c
    · by_cases he : i = k
      · subst he
        by_cases hij : i = j
        · subst hij
          cases v with
          | none => simpa [hik] using readTable_of_below c (Nat.lt_succ_self i)
          | some v => simp [readTable]
        · cases v <;> simp [readTable, hij, Ne.symm hij]
      · have hlt : k < i := by omega
        by_cases hjk : j = k
        · subst hjk
          have hij : i ≠ j := by omega
          cases v with
          | none => simpa [hik, he, readTable, hij] using readTable_of_below c (by omega)
          | some v => simp [hik, he, readTable]
        · cases v <;> simp [hik, he, readTable, hjk, Ne.symm hjk]

/-- A table after a write (R1, R11, R19, R111, R166): the entry written reads as written, every other as before. -/
theorem readTable_writeTable {low : Nat} {t : Table α} (w : Table.wfFrom d low t = true) (k : Nat) (v : α) (j : Nat) :
    readTable d (writeTable d t k v) j = if j = k then v else readTable d t j := by
  unfold writeTable
  rw [readTable_putTable w]
  by_cases hv : v = d k <;> simp [hv]

theorem putTable_wf {low k : Nat} {v : Option α} {t : Table α} (w : Table.wfFrom d low t = true) (h : low ≤ k)
    (hv : v ≠ some (d k)) : Table.wfFrom d low (putTable k v t) = true := by
  induction t generalizing low with
  | nil =>
    cases v with
    | none => rfl
    | some v =>
      refine Table.wfFrom_cons.mpr ⟨h, ?_, rfl⟩
      rintro rfl
      exact hv rfl
  | cons e t ih =>
    obtain ⟨i, x⟩ := e
    obtain ⟨a, b, c⟩ := Table.wfFrom_cons.mp w
    have hne : ∀ u, v = some u → u ≠ d k := by
      rintro u hu rfl
      exact hv hu
    unfold putTable
    by_cases hik : i < k
    · simp only [hik, if_true]
      exact Table.wfFrom_cons.mpr ⟨a, b, ih c (by omega)⟩
    · by_cases he : i = k
      · subst he
        cases v with
        | none => simpa [hik] using Table.wfFrom_mono (by omega) c
        | some v =>
          simp only [hik, if_false, if_true]
          exact Table.wfFrom_cons.mpr ⟨a, hne v rfl, c⟩
      · cases v with
        | none => simpa [hik, he] using w
        | some v =>
          simp only [hik, he, if_false]
          exact Table.wfFrom_cons.mpr ⟨h, hne v rfl, Table.wfFrom_cons.mpr ⟨by omega, b, c⟩⟩

/-- Every write keeps the canonical form. -/
theorem writeTable_wf {t : Table α} (w : Table.wfFrom d 0 t = true) (k : Nat) (v : α) :
    Table.wfFrom d 0 (writeTable d t k v) = true := by
  unfold writeTable
  refine putTable_wf w (Nat.zero_le k) ?_
  by_cases hv : v = d k <;> simp [hv]

end Sys2Proof.Machine
end

