-- ==== Sys2Proof/Laws/Effects.lean ====
section
/-! SUPPORT. What the shared operations do, said once: an answered request, a notice offered, a counted event, a
record read after it is written, the end of a step with an arbitration due. -/

namespace Sys2Proof

open Machine

/-! ## An answered request -/

@[simp] theorem answered_op (s : State) (p : Port) (q : Request) (o : ReplyOutcome) (data : List Byte) :
    (answered s p q o data).op = s.op := rfl
@[simp] theorem answered_supervisor (s : State) (p : Port) (q : Request) (o : ReplyOutcome) (data : List Byte) :
    (answered s p q o data).supervisor = s.supervisor := rfl
@[simp] theorem answered_lrt (s : State) (p : Port) (q : Request) (o : ReplyOutcome) (data : List Byte) :
    (answered s p q o data).lrt = s.lrt := rfl
@[simp] theorem answered_acc (s : State) (p : Port) (q : Request) (o : ReplyOutcome) (data : List Byte) :
    (answered s p q o data).acc = s.acc := rfl
@[simp] theorem answered_gar (s : State) (p : Port) (q : Request) (o : ReplyOutcome) (data : List Byte) :
    (answered s p q o data).gar = s.gar := rfl
@[simp] theorem answered_exc (s : State) (p : Port) (q : Request) (o : ReplyOutcome) (data : List Byte) :
    (answered s p q o data).exc = s.exc := rfl
@[simp] theorem answered_mc (s : State) (p : Port) (q : Request) (o : ReplyOutcome) (data : List Byte) :
    (answered s p q o data).mc = s.mc := rfl
@[simp] theorem answered_rsq (s : State) (p : Port) (q : Request) (o : ReplyOutcome) (data : List Byte) :
    (answered s p q o data).rsq = s.rsq := rfl
@[simp] theorem answered_rts (s : State) (p : Port) (q : Request) (o : ReplyOutcome) (data : List Byte) :
    (answered s p q o data).rts = s.rts := rfl
@[simp] theorem answered_tkt (s : State) (p : Port) (q : Request) (o : ReplyOutcome) (data : List Byte) :
    (answered s p q o data).tkt = s.tkt := rfl
@[simp] theorem answered_cnt (s : State) (p : Port) (q : Request) (o : ReplyOutcome) (data : List Byte) :
    (answered s p q o data).cnt = s.cnt := rfl
@[simp] theorem answered_pending (s : State) (p : Port) (q : Request) (o : ReplyOutcome) (data : List Byte) :
    (answered s p q o data).pending = s.pending := rfl
@[simp] theorem answered_free (s : State) (p : Port) (q : Request) (o : ReplyOutcome) (data : List Byte) :
    (answered s p q o data).free = s.free := rfl
@[simp] theorem answered_bus_at (s : State) (p : Port) (q : Request) (o : ReplyOutcome) (data : List Byte) (b : Bus) :
    (answered s p q o data).bus b = s.bus b := rfl
@[simp] theorem answered_chan_at (s : State) (p : Port) (q : Request) (o : ReplyOutcome) (data : List Byte) (c : Channel) :
    (answered s p q o data).chan c = s.chan c := rfl
@[simp] theorem answered_ctx_at (s : State) (p : Port) (q : Request) (o : ReplyOutcome) (data : List Byte) (b : Bus) :
    (answered s p q o data).ctx b = s.ctx b := rfl
@[simp] theorem answered_line_at (s : State) (p : Port) (q : Request) (o : ReplyOutcome) (data : List Byte) (n : Nat) :
    (answered s p q o data).line n = s.line n := rfl
@[simp] theorem answered_cls_at (s : State) (p : Port) (q : Request) (o : ReplyOutcome) (data : List Byte) (n : Nat) :
    (answered s p q o data).cls n = s.cls n := rfl
@[simp] theorem answered_program_at (s : State) (p : Port) (q : Request) (o : ReplyOutcome) (data : List Byte) (n : Nat) :
    (answered s p q o data).program n = s.program n := rfl
@[simp] theorem answered_now (s : State) (p : Port) (q : Request) (o : ReplyOutcome) (data : List Byte) :
    (answered s p q o data).now = s.now := rfl
@[simp] theorem answered_idleBus (s : State) (p : Port) (q : Request) (o : ReplyOutcome) (data : List Byte) :
    (answered s p q o data).idleBus = s.idleBus := rfl

/-- Only the port that asked changes. -/
@[simp] theorem answered_port (s : State) (p : Port) (q : Request) (o : ReplyOutcome) (data : List Byte) (r : Port) :
    (answered s p q o data).port r = if r = p then PortUnit.kick
      { s.port p with
        requests := (s.port p).requests.drop 1
        replies := (s.port p).replies ++ [{ kind := replyKind q.kind, tag := q.tag, outcome := o, data := data }] }
      else s.port r := by
  simp [answered, answeredPorts, State.port]

/-- An answer ends a settled step. -/
theorem settle_answered {s : State} {p : Port} {q : Request} {o : ReplyOutcome} {data : List Byte} (h : Settled s) :
    (answered s p q o data).settle = answered s p q o data :=
  settle_of_settled (settled_answered.2 h)

theorem canonical_answered {s : State} {p : Port} {q : Request} {o : ReplyOutcome} {data : List Byte}
    (h : Canonical s) : Canonical (answered s p q o data) :=
  ⟨h.1, h.2, h.3, h.4, h.5, h.6⟩

/-! ## The transmitter and offered notices -/

/-- The transmitter takes a frame or not; no other part of the unit changes. -/
theorem kick_eq (u : PortUnit) : ∃ x, u.kick = { u with tx := x } := by
  unfold PortUnit.kick
  split
  · split
    · exact ⟨_, rfl⟩
    · split
      · exact ⟨_, rfl⟩
      · exact ⟨u.tx, rfl⟩
  · exact ⟨u.tx, rfl⟩
  · exact ⟨u.tx, rfl⟩

@[simp] theorem kick_link (u : PortUnit) : u.kick.link = u.link := by
  obtain ⟨x, h⟩ := kick_eq u
  rw [h]
@[simp] theorem kick_receiver (u : PortUnit) : u.kick.receiver = u.receiver := by
  obtain ⟨x, h⟩ := kick_eq u
  rw [h]
@[simp] theorem kick_requests (u : PortUnit) : u.kick.requests = u.requests := by
  obtain ⟨x, h⟩ := kick_eq u
  rw [h]
@[simp] theorem kick_replies (u : PortUnit) : u.kick.replies = u.replies := by
  obtain ⟨x, h⟩ := kick_eq u
  rw [h]
@[simp] theorem kick_notices (u : PortUnit) : u.kick.notices = u.notices := by
  obtain ⟨x, h⟩ := kick_eq u
  rw [h]
@[simp] theorem kick_lost (u : PortUnit) : u.kick.lost = u.lost := by
  obtain ⟨x, h⟩ := kick_eq u
  rw [h]
@[simp] theorem kick_mask (u : PortUnit) : u.kick.mask = u.mask := by
  obtain ⟨x, h⟩ := kick_eq u
  rw [h]
@[simp] theorem kick_transfer (u : PortUnit) : u.kick.transfer = u.transfer := by
  obtain ⟨x, h⟩ := kick_eq u
  rw [h]

/-- A notice offered to a unit that has room (R176). -/
theorem offer_of_room {u : PortUnit} (n : Notice) (up : u.link = .up) (room : u.notices.length < 32) :
    u.offer n = (PortUnit.kick { u with notices := u.notices ++ [{ lost := u.lost, notice := n }], lost := 0 },
      false) := by
  simp [PortUnit.offer, up, room]

/-- A notice offered to a unit without room (R176). -/
theorem offer_of_no_room {u : PortUnit} (n : Notice) (h : u.link = .down ∨ 32 ≤ u.notices.length) :
    u.offer n = ({ u with lost := min 255 (u.lost + 1) }, true) := by
  have : ¬ (u.link = .up ∧ u.notices.length < 32) := by
    rintro ⟨a, b⟩
    rcases h with h | h
    · simp [a] at h
    · omega
  simp [PortUnit.offer, this]

/-- An addressed notice to a port that has room changes that port alone (R176). -/
theorem notify_of_room {s : State} {p : Port} (n : Notice) (up : (s.port p).link = .up)
    (room : (s.port p).notices.length < 32) :
    s.notify p n = s.setPort p (PortUnit.kick
      { s.port p with notices := (s.port p).notices ++ [{ lost := (s.port p).lost, notice := n }], lost := 0 }) := by
  simp [State.notify, offerWith, offer_of_room n up room]

/-! ## Counted events -/

/-- A count below its top grows by 1 and sends nothing (R166, R167). -/
theorem count_of_lt {s : State} {g i : Nat} (h : (s.cnt.group g).count i < 65535) :
    s.count g i = { s with cnt := s.cnt.setGroup g { s.cnt.group g with
      counts := writeTable (fun _ => 0) (s.cnt.group g).counts i ((s.cnt.group g).count i + 1) } } := by
  have : (s.cnt.group g).count i ≠ 65535 := by omega
  simp [State.count, countWith, State.bump, CounterGroup.bump, this]

/-! ## Records read after a write -/

theorem line_setLine {s : State} (w : Canonical s) (n : Nat) (r : LineRecord) (m : Nat) :
    (s.setLine n r).line m = if m = n then r else s.line m :=
  readTable_writeTable w.lines n r m

/-- A write of a line record keeps the tables canonical. -/
theorem canonical_setLine {s : State} (w : Canonical s) (n : Nat) (r : LineRecord) : Canonical (s.setLine n r) :=
  ⟨writeTable_wf w.1 n r, w.2, w.3, w.4, w.5, w.6⟩

/-! ## The end of a step with an arbitration due -/

theorem settle_due_of_noIdleBus {s : State} (h : Settled s) (n : NoIdleBus s) : s.arbitrationDue.settle = s := by
  rw [settle_of_noIdleBus (by exact h.2) (by exact n)]
  exact clearDue_of_not_due h.1

/-! ## Notices and counts change the ports and the counter bank alone -/

/-- An operation that reads the ports, the counter bank and the time, and changes the ports and the counter bank
alone. -/
def ReportsOnly (F : State → State) : Prop :=
  ∃ f : PerPort PortUnit → CounterBank → Stamp → PerPort PortUnit × CounterBank,
    ∀ s : State, F s = { s with ports := (f s.ports s.cnt s.exc.time).1, cnt := (f s.ports s.cnt s.exc.time).2 }

theorem ReportsOnly.comp {F G : State → State} (hf : ReportsOnly F) (hg : ReportsOnly G) :
    ReportsOnly fun s => G (F s) := by
  obtain ⟨f, hf⟩ := hf
  obtain ⟨g, hg⟩ := hg
  refine ⟨fun p c t => g (f p c t).1 (f p c t).2 t, fun s => ?_⟩
  simp only [hg, hf]

theorem ReportsOnly.of_now {F : Stamp → State → State} (hf : ∀ t, ReportsOnly (F t)) :
    ReportsOnly fun s => F s.now s := by
  have h := fun t => (hf t).choose_spec
  exact ⟨fun p c t => (hf t).choose p c t, fun s => h s.now s⟩

theorem reportsOnly_offerWith {count : Nat → Nat → State → State} (hc : ∀ g i, ReportsOnly (count g i)) (n : Notice)
    (p : Port) : ReportsOnly fun s => offerWith count n s p := by
  obtain ⟨f, hf⟩ := hc 3 (lostIndex p)
  refine ⟨fun ps c t =>
    let r := (ps.get p).offer n
    if r.2 then f (ps.set p r.1) c t else (ps.set p r.1, c), fun s => ?_⟩
  simp only [offerWith, hf]
  by_cases h : ((s.port p).offer n).2
  · have h' : ((s.ports.get p).offer n).2 = true := h
    simp only [h, h', if_true]
    rfl
  · have h' : ¬ ((s.ports.get p).offer n).2 = true := h
    rw [if_neg h]
    simp only [if_neg h']
    rfl

theorem reportsOnly_broadcastWith {count : Nat → Nat → State → State} (hc : ∀ g i, ReportsOnly (count g i))
    (n : Notice) : ReportsOnly (broadcastWith count n) := by
  have h : ∀ l : List Port, ReportsOnly fun s =>
      l.foldl (fun s p => if (s.port p).subscribes n then offerWith count n s p else s) s := by
    intro l
    induction l with
    | nil => exact ⟨fun p c _ => (p, c), fun s => rfl⟩
    | cons p l ih =>
      refine ReportsOnly.comp (F := fun s => if (s.port p).subscribes n then offerWith count n s p else s) ?_ ih
      obtain ⟨f, hf⟩ := reportsOnly_offerWith hc n p
      refine ⟨fun ps c t => if (ps.get p).subscribes n then f ps c t else (ps, c), fun s => ?_⟩
      have hf' := hf s
      simp only at hf'
      by_cases h : (s.port p).subscribes n
      · have h' : (s.ports.get p).subscribes n = true := h
        simp only [h, h', if_true]
        exact hf'
      · have h' : ¬ (s.ports.get p).subscribes n = true := h
        simp only [if_neg h, if_neg h']
  exact h allPorts

theorem reportsOnly_bump (g i : Nat) : ReportsOnly fun s => (s.bump g i).1 :=
  ⟨fun p c _ => (p, c.setGroup g ((c.group g).bump i).1), fun _ => rfl⟩

theorem reportsOnly_countWith (fuel g i : Nat) : ReportsOnly (countWith fuel g i) := by
  induction fuel generalizing g i with
  | zero => exact reportsOnly_bump g i
  | succ fuel ih =>
    have hb : ∀ t, ReportsOnly fun s => broadcastWith (countWith fuel) (.counterCarry g i t) s :=
      fun t => reportsOnly_broadcastWith (fun g i => ih g i) _
    obtain ⟨f, hf⟩ := (reportsOnly_bump g i).comp (ReportsOnly.of_now hb)
    refine ⟨fun p c t => if ((c.group g).bump i).2 then f p c t else (p, c.setGroup g ((c.group g).bump i).1),
      fun s => ?_⟩
    have hf' := hf s
    unfold countWith
    by_cases h : (s.bump g i).2
    · have h' : ((s.cnt.group g).bump i).2 = true := h
      simp only [h, h', if_true]
      exact hf'
    · have h' : ¬ ((s.cnt.group g).bump i).2 = true := h
      rw [if_neg h]
      simp only [if_neg h']
      rfl

/-- A counted event changes the ports (by COUNTER_CARRY) and the counter bank alone (R166, R167). -/
theorem reportsOnly_count (g i : Nat) : ReportsOnly fun s => s.count g i := reportsOnly_countWith 6 g i

/-- A broadcast changes the ports and the counter bank alone (R176). -/
theorem reportsOnly_broadcast (n : Notice) : ReportsOnly fun s => s.broadcast n :=
  reportsOnly_broadcastWith (fun g i => reportsOnly_countWith 6 g i) n

/-- An addressed notice changes the ports and the counter bank alone (R176). -/
theorem reportsOnly_notify (p : Port) (n : Notice) : ReportsOnly fun s => s.notify p n :=
  reportsOnly_offerWith (fun g i => reportsOnly_countWith 6 g i) n p

/-- What such an operation leaves, named field by field. -/
theorem ReportsOnly.frame {F : State → State} (h : ReportsOnly F) (s : State) :
    F s = { s with ports := (F s).ports, cnt := (F s).cnt } := by
  obtain ⟨f, h⟩ := h
  rw [h s]

/-- Two states that agree in ports, counters and time report alike. -/
theorem ReportsOnly.ports_eq {F : State → State} (h : ReportsOnly F) {s t : State} (hp : s.ports = t.ports)
    (hc : s.cnt = t.cnt) (ht : s.exc.time = t.exc.time) : (F s).ports = (F t).ports := by
  obtain ⟨f, h⟩ := h
  rw [h s, h t, hp, hc, ht]

/-- Such an operation ends a settled step as settled as it was. -/
theorem ReportsOnly.settled {F : State → State} (h : ReportsOnly F) {s : State} (hs : Settled s) : Settled (F s) := by
  rw [h.frame s]
  exact hs

end Sys2Proof
end

