-- ==== Sys2Proof/Laws/Records.lean ====
section
/-! SUPPORT. What the operations on names, buses, channels, runs and tickets do, said once for the provers. -/

namespace Sys2Proof

open Machine

/-! ## Names and fields read -/

theorem mem_allBuses (b : Bus) : b ∈ allBuses := by cases b <;> simp [allBuses]

theorem mem_allChannels (c : Channel) : c ∈ allChannels := by cases c <;> simp [allChannels]

theorem deskPort_ne (d : Desk) : deskPort d ≠ .p0 := by cases d <;> decide

theorem ne_deskPort (d : Desk) : Port.p0 ≠ deskPort d := by cases d <;> decide

@[simp] theorem senderDesk_deskPort (d : Desk) : senderDesk (deskPort d) = d := by cases d <;> rfl

theorem isLine_iff {n : Nat} : isLine n = true ↔ n ≤ 2047 := by simp [isLine]; omega

theorem flagOf_none {n : Nat} : flagOf n = none ↔ 1 < n := by
  match n with
  | 0 => simp [flagOf]
  | 1 => simp [flagOf]
  | n+2 => simp [flagOf]

theorem flagOf_one {n : Nat} : flagOf n = some true ↔ n = 1 := by
  match n with
  | 0 => simp [flagOf]
  | 1 => simp [flagOf]
  | n+2 => simp [flagOf]

theorem flagOf_zero {n : Nat} : flagOf n = some false ↔ n = 0 := by
  match n with
  | 0 => simp [flagOf]
  | 1 => simp [flagOf]
  | n+2 => simp [flagOf]

/-- A flag byte of at most 1 is a flag. -/
theorem flagOf_le {n : Nat} (h : n ≤ 1) : flagOf n = some (decide (n = 1)) := by
  match n, h with
  | 0, _ => rfl
  | 1, _ => rfl

theorem modeOf_none {n : Nat} : modeOf n = none ↔ 1 < n := by
  match n with
  | 0 => simp [modeOf]
  | 1 => simp [modeOf]
  | n+2 => simp [modeOf]

theorem modeOf_modeCode (m : Mode) : modeOf (modeCode m) = some m := by cases m <;> rfl

theorem setModeOf_none {n : Nat} : setModeOf n = none ↔ 2 < n := by
  match n with
  | 0 => simp [setModeOf]
  | 1 => simp [setModeOf]
  | 2 => simp [setModeOf]
  | n+3 => simp [setModeOf]

theorem channelOf_none {n : Nat} : channelOf n = none ↔ 1 < n := by
  match n with
  | 0 => simp [channelOf]
  | 1 => simp [channelOf]
  | n+2 => simp [channelOf]

/-! ## Buses, points and releases -/

/-- A line is held where a bus that is not IDLE has it. -/
theorem heldBy_isSome (s : State) (l : Nat) :
    (s.heldBy l).isSome = true ↔ ∃ b, (s.bus b).state ≠ .idle ∧ (s.bus b).line = some l := by
  simp [State.heldBy, List.find?_isSome, mem_allBuses]

theorem freePoint_isNone (s : State) (n : Nat) :
    (s.freePoint n).isNone = true ↔ ∀ k, k < 2 → s.point n k ≠ none := by
  simp only [State.freePoint, Option.isNone_iff_eq_none, List.find?_eq_none]
  constructor
  · intro h k hk
    have : k = 0 ∨ k = 1 := by omega
    have := h k (by rcases this with rfl | rfl <;> simp)
    simpa using this
  · intro h k hk
    have := h k (by simp at hk; omega)
    simpa using this

/-- A request on a held bus that fails a check is refused and changes nothing but its port (R18). -/
theorem held_refused {s : State} {d : Desk} {q : Request} {act} {valid : Bool} (hs : Settled s) :
   (busOf (field q.payload 0 1) = none ∨ valid = false →
      (withHeldBus act valid (deskPort d) q (s.popRequest (deskPort d))).settle = answered s (deskPort d) q (.refused .badField) []) ∧
   (∀ b, busOf (field q.payload 0 1) = some b → valid = true → ((s.bus b).holder ≠ some (.desk d) ∨
      ((s.bus b).state = .releasing ∨ (s.bus b).reason ≠ none)) →
        (withHeldBus act valid (deskPort d) q (s.popRequest (deskPort d))).settle = answered s (deskPort d) q (.refused .notHolder) []) := by
  refine ⟨?_, ?_⟩
  · intro h
    unfold withHeldBus
    cases hb : busOf (field q.payload 0 1) with
    | none => simp only [refuse_popRequest, settle_answered hs]
    | some b => 
      have : valid = false := by simpa [hb] using h
      simp only [this, Bool.false_eq_true, not_false_eq_true, if_true, refuse_popRequest, settle_answered hs]
  · intro b hb hv h
    simp only [withHeldBus, hb, hv, not_true, if_false, senderDesk_deskPort]
    by_cases h1 : (s.bus b).holder = some (.desk d)
    · have h2 : (s.bus b).state = .releasing ∨ (s.bus b).reason.isSome = true := by
        rcases h with h | h | h
        · exact absurd h1 h
        · exact .inl h
        · right; rw [Option.isSome_iff_ne_none]; exact h
      have hh : ((s.popRequest (deskPort d)).bus b).heldByDesk d = true := by
        show decide ((s.bus b).holder = _) = true
        simp [h1]
      rw [if_neg (by simp only [hh]; simp), if_pos (by exact h2)]
      simp only [refuse_popRequest, settle_answered hs]
    · have hh : ((s.popRequest (deskPort d)).bus b).heldByDesk d = false := by
        show decide ((s.bus b).holder = _) = false
        simp [h1]
      rw [if_pos (by simp only [hh]; simp)]
      simp only [refuse_popRequest, settle_answered hs]

/-- A request on a held bus that passes the checks acts on it. -/
theorem held_ok {s : State} {d : Desk} {q : Request} {act} {valid : Bool} {b}
      (hb : busOf (field q.payload 0 1) = some b)
  (hv : valid = true) (h1 : (s.bus b).holder = some (.desk d)) (h2 : (s.bus b).state ≠ .releasing) (h3 : (s.bus b).reason = none) : withHeldBus act valid (deskPort d) q (s.popRequest (deskPort d)) = act b (s.bus b) (s.popRequest (deskPort d)) := by
  simp only [withHeldBus, hb, hv, not_true, if_false, senderDesk_deskPort]
  have hh : ((s.popRequest (deskPort d)).bus b).heldByDesk d = true := by
        show decide ((s.bus b).holder = _) = true
        simp [h1]
  rw [if_neg (by simp only [hh]; simp), if_neg]
  · rfl
  · rintro (h | h)
    · exact h2 h
    · rw [show ((s.popRequest (deskPort d)).bus b).reason = none from h3] at h; simp at h

/-- A release of a bus in HELD, TALK, TONE or MONITOR starts the release sequence (R33). -/
theorem requestRelease_connected {s : State} {b : Bus} (reason : ReleaseReason) (h : (s.bus b).state = .held ∨ (s.bus b).state = .talk ∨ (s.bus b).state = .tone ∨ (s.bus b).state = .monitor) (h2 : (s.bus b).reason = none) :
    s.requestRelease b reason = s.enterReleasing b reason := by
  unfold State.requestRelease
  rcases h with h | h | h | h <;> simp [h, h2]

/-- A release in CONNECTING outside the access check is pending (R25). -/
theorem requestRelease_connecting {s : State} {b : Bus} (reason : ReleaseReason) (h : (s.bus b).state = .connecting) (h2 : (s.bus b).reason = none) (h3 : ∀ ms, (s.bus b).relay ≠ .checking ms) :
    s.requestRelease b reason = s.markRelease b reason := by
  unfold State.requestRelease
  have h6 : (s.bus b).relay.isChecking = false := by
      cases h : (s.bus b).relay with
      | checking ms => exact absurd h (h3 ms)
      | _ => rfl
  simp [h, h2, h6]

/-- A bus on its way out keeps its first reason (R36). -/
theorem requestRelease_leaving {s : State} {b : Bus} (reason : ReleaseReason) (h : (s.bus b).state = .releasing ∨ (s.bus b).reason ≠ none) :
    s.requestRelease b reason = s := by
  unfold State.requestRelease
  rcases h with h | h
  · simp [h]
  · have : (s.bus b).reason.isSome = true := by rw [Option.isSome_iff_ne_none]; exact h
    simp [this]

/-! ## Channels and runs -/

theorem serves_iff (st : ChannelState) :
    st.serves = true ↔ (st = .warming ∨ st = .calibrating ∨ st = .ready ∨ st = .busy) :=
      by cases st <;> simp [ChannelState.serves]

/-- A channel in service (R54). -/
theorem inService_iff (r : ChannelRecord) : r.inService = true ↔ r.enable = true ∧ r.disablePending = false ∧
      (r.state = .warming ∨ r.state = .calibrating ∨ r.state = .ready ∨
        r.state = .busy) := by
  rw [← serves_iff]; simp [ChannelRecord.inService, and_assoc]

/-- No channel in service. -/
theorem served_ne {s : State} : s.served = 0 ↔ ∀ c, ¬ (s.chan c).inService = true := by
  unfold State.served
  rw [List.length_eq_zero_iff, List.filter_eq_nil_iff]
  exact ⟨fun h c => h c (mem_allChannels c), fun h c _ => h c⟩

/-- No run was given MC1 at an instant that is over. -/
theorem givenMc1_of_apart {s : State} (h : s.gar.moment = .apart) : s.givenMc1 = none := by
  simp [State.givenMc1, h]

/-- Nothing about MC0 says which run was given MC1. -/
@[simp] theorem givenMc1_setChan_mc0 (s : State) (r : ChannelRecord) : (s.setChan .mc0 r).givenMc1 = s.givenMc1 := rfl

/-- MC0 READY at an instant at which no run was given MC1. -/
theorem channelReady_mc0 {s : State} (h : s.givenMc1 = none) : s.channelReady .mc0 = s := by
  simp [State.channelReady, State.takeBackMc1, h]

/-- A channel READY while no run waits, and none was given MC1 at this instant. -/
theorem channelReady_of_none {s : State} (c : Channel) (w : s.gar.waiting = []) (h : s.givenMc1 = none) :
    s.channelReady c = s := by
  cases c
  · exact channelReady_mc0 h
  · simp [State.channelReady, w]

/-- A channel READY apart from every other event. -/
theorem channelReady_of_apart {s : State} (c : Channel) (h : s.gar.moment = .apart) : s.channelReady c = s := by
  cases c
  · exact channelReady_mc0 (givenMc1_of_apart h)
  · simp [State.channelReady, h]

theorem readyChannel_setChan {s : State} {c : Channel} {r : ChannelRecord} (h : r.state = (s.chan c).state) :
    (s.setChan c r).readyChannel = s.readyChannel := by
  have : ∀ d, ((s.setChan c r).chan d).state = (s.chan d).state := by
    intro d; rw [State.setChan_chan]; split
    · rename_i e; rw [h, e]
    · rfl
  unfold State.readyChannel
  simp only [this]

/-- A channel whose state stays keeps a settled step settled. -/
theorem settled_setChan {s : State} {c : Channel} {r : ChannelRecord} (hs : Settled s) (h : r.state = (s.chan c).state) :
    Settled (s.setChan c r) := by
  refine ⟨hs.1, ?_⟩
  rcases hs.2 with h' | h'
  · exact .inl h'
  · exact .inr ((readyChannel_setChan h).trans h')

/-- So does a channel that does not become READY. -/
theorem settled_setChan' {s : State} {c : Channel} {r : ChannelRecord} (hs : Settled s) (h : r.state = .ready → (s.chan c).state = .ready) :
    Settled (s.setChan c r) := by
  refine ⟨hs.1, ?_⟩
  rcases hs.2 with h' | h'
  · exact .inl h'
  · right
    unfold State.readyChannel at h' ⊢
    rw [List.find?_eq_none] at h' ⊢
    intro d hd
    have := h' d hd
    simp only [decide_eq_true_eq] at this ⊢
    rw [State.setChan_chan]
    split
    · rename_i e; subst e; exact fun x => this (h x)
    · exact this

theorem setChan_setChan (s : State) (c : Channel) (r t : ChannelRecord) :
    (s.setChan c r).setChan c t = s.setChan c t := by cases c <;> rfl

theorem setCtx_setCtx (s : State) (c : Bus) (r t) : (s.setCtx c r).setCtx c t = s.setCtx c t := by cases c <;> rfl

theorem setCtx_setChan (s : State) (c : Channel) (b) (r t) :
    (s.setCtx b r).setChan c t = (s.setChan c t).setCtx b r := rfl

/-- What it means that a run is on a channel. -/
theorem runOn_some {s : State} {c b x} (h : s.runOn c = some (b, x)) :
    s.ctx b = some x ∧ (s.chan c).state = .busy ∧ (s.chan c).bus = some b ∧ (s.chan c).run = some x.handle ∧
      x.channel = some c := by
  unfold State.runOn at h
  simp only at h
  split at h
  · rename_i b' h1 h2
    split at h
    · rename_i y hy
      split at h
      · rename_i hh
        simp only [Option.some.injEq, Prod.mk.injEq] at h
        obtain ⟨rfl, rfl⟩ := h
        exact ⟨hy, h1, h2, hh.1, hh.2⟩
      · simp at h
    · simp at h
  · simp at h

theorem runOn_of {s : State} {c b x} (h : s.ctx b = some x) (h1 : (s.chan c).state = .busy) (h2 : (s.chan c).bus = some b) (h3 : (s.chan c).run = some x.handle) (h4 : x.channel = some c) :
    s.runOn c = some (b, x) := by
  simp [State.runOn, h, h1, h2, h3, h4]

/-- A run with its bias on drops it and discharges (R123). -/
theorem actOnAbort_biased {z : State} {b : Bus} {y : RunContext} {c : Channel} (h : y.phase = .reading ∨ y.phase = .settle ∨ y.phase = .capture) (hc : y.channel = some c) (hb : (z.chan c).bias ≠ .off) :
    z.actOnAbort b y = (z.switchOff c).mapCtx b fun x =>
        { x with phase := .discharge, work := { x.work with stage := .closing, reading := none } } := by
  unfold State.actOnAbort
  rcases h with h | h | h <;> simp only [h, hc, if_neg hb]

theorem switchOff_biased {z : State} {c : Channel} (hb : (z.chan c).bias ≠ .off) :
    z.switchOff c = z.setChan c { (z.chan c).drain with biasNext := none } := by
  simp [State.switchOff, hb]

/-- A calibration passes where no offset lies beyond 2048 (R80). -/
theorem failed_none (o : Offsets) :
    (failedGain o).isNone = true ↔ (o.g1.natAbs ≤ 2048 ∧ o.g4.natAbs ≤ 2048 ∧ o.g16.natAbs ≤ 2048 ∧
      o.g64.natAbs ≤ 2048) := by
  unfold failedGain offsetFails
  simp only [decide_eq_true_eq]
  split
  · simp; omega
  split
  · simp; omega
  split
  · simp; omega
  split
  · simp; omega
  · simp; omega

/-! ## Hunting through received bytes -/

theorem afterSync_of_not_mem {l : List Byte} (h : syncByte ∉ l) : afterSync l = none := by
  induction l with
  | nil => rfl
  | cons a l ih =>
    simp only [List.mem_cons, not_or] at h
    simp [afterSync, Ne.symm h.1, ih h.2]

/-- Bytes before a SYNC are passed over. -/
theorem afterSync_append {junk t : List Byte} (h : syncByte ∉ junk) :
    afterSync (junk ++ syncByte :: t) = some t := by
  induction junk with
  | nil => simp [afterSync]
  | cons a l ih =>
    simp only [List.mem_cons, not_or] at h
    simp [afterSync, Ne.symm h.1, ih h.2]

theorem afterSync_length {l t : List Byte} (h : afterSync l = some t) : t.length < l.length := by
  induction l with
  | nil => simp [afterSync] at h
  | cons a l ih =>
    simp only [afterSync] at h
    split at h
    · cases h
      simp
    · exact Nat.lt_succ_of_lt (ih h)

theorem scanFrame_length {l p r : List Byte} {k t : Byte} (h : scanFrame l = .good k t p r) :
    r.length < l.length := by
  unfold scanFrame at h
  split at h
  · cases h
  · split at h
    · cases h
    · split at h
      · cases h
      · rename_i hd
        have hl := congrArg List.length hd
        simp only [List.length_drop, List.length_cons] at hl
        split at h
        · split at h
          · cases h
            simp only [List.length_cons]
            omega
          · cases h
        · cases h

/-- A frame found leaves fewer bytes. -/
theorem huntIn_length {l : List Byte} :
    (∀ t, huntIn l = .bad t → t.length < l.length) ∧
      ∀ k g p r, huntIn l = .good k g p r → r.length < l.length := by
  unfold huntIn
  cases ha : afterSync l with
  | none => simp
  | some t =>
    have hl := afterSync_length ha
    cases hs : scanFrame t with
    | unfinished => simp [hs]
    | bad => simpa [hs] using hl
    | good k g p r =>
      refine ⟨by simp [hs], fun _ _ _ _ h => ?_⟩
      simp only [hs, Hunted.good.injEq] at h
      obtain ⟨-, -, -, rfl⟩ := h
      exact Nat.lt_trans (scanFrame_length hs) hl

/-- The fuel of the hunt does not matter where it is at least the number of bytes. -/
theorem huntBytes_fuel (p : Port) (rested : Bool) : ∀ (n m : Nat) (l : List Byte) (s : State),
    l.length ≤ n → l.length ≤ m → State.huntBytes p rested n l s = State.huntBytes p rested m l s := by
  intro n
  induction n with
  | zero =>
    intro m l s hn _
    obtain rfl := List.length_eq_zero_iff.1 (Nat.le_zero.1 hn)
    cases m <;> simp [State.huntBytes, huntIn, afterSync]
  | succ n ih =>
    intro m l s hn hm
    cases m with
    | zero =>
      obtain rfl := List.length_eq_zero_iff.1 (Nat.le_zero.1 hm)
      simp [State.huntBytes, huntIn, afterSync]
    | succ m =>
      unfold State.huntBytes
      cases hh : huntIn l with
      | nothing => rfl
      | partly t => rfl
      | bad t =>
        have := huntIn_length.1 t hh
        exact ih m t _ (by omega) (by omega)
      | good k g q r =>
        have := huntIn_length.2 k g q r hh
        exact ih m r _ (by omega) (by omega)

/-! ## Arbitration -/

/-- The best desk claim is the earliest of the highest priority (R50). -/
theorem best_split : ∀ (before : List DeskClaim) (d : DeskClaim) (after : List DeskClaim), (∀ e ∈ before,
      e.1.priority < d.1.priority) →
      (∀ e ∈ after, e.1.priority ≤ d.1.priority) → bestDesk (before ++ d :: after) = some d := by
  intro before d after h1 h2
  induction before with
  | nil =>
    have : ∀ after : List DeskClaim, (∀ e ∈ after, e.1.priority ≤ d.1.priority) → (bestDesk after = none ∨ ∃ x,
      bestDesk after = some x ∧ x.1.priority ≤ d.1.priority) := by
      intro after h
      induction after with
      | nil => left; rfl
      | cons a l ih =>
        right
        rcases ih (fun e he => h e (by simp [he])) with h' | ⟨x, h', hx⟩
        · exact ⟨a, by simp [bestDesk, h'], h a (by simp)⟩
        · by_cases hc : a.1.priority < x.1.priority
          · exact ⟨x, by simp [bestDesk, h', hc], hx⟩
          · exact ⟨a, by simp [bestDesk, h', hc], h a (by simp)⟩
    rcases this after h2 with h' | ⟨x, h', hx⟩
    · simp [bestDesk, h']
    · simp [bestDesk, h', Nat.not_lt.2 hx]
  | cons a l ih =>
    have := ih (fun e he => h1 e (by simp [he]))
    simp [bestDesk, this, h1 a (by simp)]

theorem best_mem : ∀ l : List DeskClaim, ∀ d, bestDesk l = some d → d ∈ l := by
  intro l
  induction l with
  | nil => simp [bestDesk]
  | cons a l ih =>
    intro d h
    simp only [bestDesk] at h
    split at h
    · rename_i x hx
      split at h
      · simp only [Option.some.injEq] at h; subst h; simp [ih x hx]
      · simp only [Option.some.injEq] at h; subst h; simp
    · simp only [Option.some.injEq] at h; subst h; simp

/-! ## Tickets and lines -/

/-- Standing to close a ticket (R158). -/
theorem mayClose_iff (sv d : Desk) (t : Ticket) (h : t.state ≠ .closed) :
    mayClose sv d t = true ↔ (d = sv ∨ (t.state = .assigned ∧ t.assignee = some d) ∨
      (t.state = .cleared ∧ t.clearedBy = some d)) := by
  unfold mayClose
  cases ht : t.state <;> simp_all
  · exact or_comm
  · exact or_comm

theorem before_trans {a b c : Stamp} (h : a.before b = true) (h2 : b.before c = true) : a.before c = true := by
  simp [Stamp.before] at *; omega

theorem before_of {a b c : Stamp} (h : a.before b = true) (h2 : c.before b = false) : a.before c = true := by
  simp [Stamp.before] at *; omega

theorem not_before_trans {a b c : Stamp} (h : b.before a = false) (h2 : c.before b = false) :
    c.before a = false := by
  simp [Stamp.before] at *; omega

theorem before_asymm {a b : Stamp} (h : a.before b = true) : b.before a = false := by
  simp [Stamp.before] at *; omega

theorem mem_lineRun {first count n : Nat} : n ∈ lineRun first count ↔ first ≤ n ∧ n < first + count := by
  simp only [lineRun, List.mem_map, List.mem_range]
  constructor
  · rintro ⟨i, h, rfl⟩; omega
  · rintro ⟨h1, h2⟩; exact ⟨n - first, by omega, by omega⟩

/-- What a run of configured lines reads as (R15). -/
theorem writeLines_line (c : Nat) (e : Bool) (l : List Nat) (s : State) (w : Table.wfFrom (fun _ => LineRecord.fresh) 0 s.lrt.lines = true) (m : Nat) :
   (s.writeLines c e l).line m = if m ∈ l then { s.line m with cls := c, equipped := e } else s.line m := by
  induction l generalizing s with
  | nil => rfl
  | cons n l ih =>
    have w' : Table.wfFrom (fun _ => LineRecord.fresh) 0 (s.setLine n ((s.line n).configured c e)).lrt.lines = true := writeTable_wf w _ _
    have hr : ∀ m,
      (s.setLine n ((s.line n).configured c e)).line m = if m = n then (s.line n).configured c e else s.line m :=
        fun m => readTable_writeTable w _ _ _
    rw [State.writeLines, ih _ w']
    by_cases h1 : m ∈ l
    · rw [if_pos h1, if_pos (List.mem_cons_of_mem _ h1), hr]
      by_cases h : m = n
      · subst h; simp [LineRecord.configured]
      · simp [h]
    · rw [if_neg h1, hr]
      by_cases h : m = n
      · subst h; simp [LineRecord.configured]
      · simp [h, h1]

/-- An entry of a canonical table is what its number reads as. -/
theorem readTable_of_mem {α} [DecidableEq α] {d : Nat → α} {low : Nat} {t : Table α} (w : Table.wfFrom d low t = true) {k v} (h : (k, v) ∈ t) :
    readTable d t k = v ∧ low ≤ k := by
  induction t generalizing low with
  | nil => simp at h
  | cons e t ih =>
    obtain ⟨j, u⟩ := e
    rw [Table.wfFrom_cons] at w
    unfold readTable
    rcases List.mem_cons.1 h with h | h
    · cases h; simp [w.1]
    · obtain ⟨h1, h2⟩ := ih w.2.2 h
      rw [if_neg (by omega)]; exact ⟨h1, by omega⟩

/-! ## Arithmetic -/

/-- Division rounded half away from zero is within half of the exact quotient, and away from zero at a half. -/
theorem roundDiv_near (a : Int) (b : Nat) (hb : 0 < b) :
    (2 * (roundDiv a b * b - a)).natAbs ≤ b ∧ ((2 * (roundDiv a b * b - a)).natAbs = b →
      a.natAbs ≤ (roundDiv a b * b).natAbs) := by
  unfold roundDiv
  have h1 := Nat.div_add_mod (2 * a.natAbs + b) (2 * b)
  have h2 := Nat.mod_lt (2 * a.natAbs + b) (show 0 < 2 * b by omega)
  generalize (2 * a.natAbs + b) / (2 * b) = q at *
  generalize (2 * a.natAbs + b) % (2 * b) = m at *
  have h3 : 2 * b * q = 2 * (q * b) := by ring
  rw [h3] at h1
  have h4 : ((q : Int) * b) = ((q * b : Nat) : Int) := by push_cast; rfl
  split
  · rw [Int.neg_mul, h4]
    omega
  · rw [h4]
    omega

end Sys2Proof
end

