-- ==== Sys2Proof/Laws/Waiting.lean ====
section
/-! SUPPORT. The channel wait list at the end of a step: what leaves the list and the moment as they are, what the end
of a run does to them, and that READY channels are given until there is no run or no channel left (R55, R56). -/

namespace Sys2Proof

open Machine

/-- The wait list and the moment, which only the giving and freeing of channels change. -/
def waitQueue (s : State) : List WaitEntry × Moment := (s.gar.waiting, s.gar.moment)

/-- How much a moment adds to the channels that can still be given in the step. -/
def momentWeight : Moment → Nat
  | .apart => 0 | .together => 0 | .mc1Ready => 1 | .mc1Given _ _ => 2

/-- A bound of the channels that can still be given in the step. -/
def waitWork (s : State) : Nat := 2 * s.gar.waiting.length + momentWeight s.gar.moment

/-! ## What leaves the list as it is -/

theorem waitQueue_of_gar {s t : State} (h : t.gar = s.gar) : waitQueue t = waitQueue s := by simp [waitQueue, h]

@[simp] theorem waitQueue_setLine (s : State) (n : Nat) (r : LineRecord) : waitQueue (s.setLine n r) = waitQueue s := rfl
@[simp] theorem waitQueue_setChan (s : State) (c : Channel) (r : ChannelRecord) :
    waitQueue (s.setChan c r) = waitQueue s := rfl
@[simp] theorem waitQueue_setCtx (s : State) (b : Bus) (x : Option RunContext) :
    waitQueue (s.setCtx b x) = waitQueue s := rfl
@[simp] theorem waitQueue_setBus (s : State) (b : Bus) (r : BusRecord) : waitQueue (s.setBus b r) = waitQueue s := rfl
@[simp] theorem waitQueue_setPort (s : State) (p : Port) (u : PortUnit) : waitQueue (s.setPort p u) = waitQueue s := rfl
@[simp] theorem waitQueue_mapRsq (s : State) (f : RunSequencer → RunSequencer) :
    waitQueue (s.mapRsq f) = waitQueue s := rfl
@[simp] theorem waitQueue_mapTkt (s : State) (f : TicketTable → TicketTable) :
    waitQueue (s.mapTkt f) = waitQueue s := rfl
@[simp] theorem waitQueue_mapRts (s : State) (f : RoutineScheduler → RoutineScheduler) :
    waitQueue (s.mapRts f) = waitQueue s := rfl
@[simp] theorem waitQueue_arbitrationDue (s : State) : waitQueue s.arbitrationDue = waitQueue s := rfl
@[simp] theorem waitQueue_bump (s : State) (g i : Nat) : waitQueue (s.bump g i).1 = waitQueue s := rfl
@[simp] theorem waitQueue_addBin (s : State) (p : Pair) (r : Nat) : waitQueue (s.addBin p r) = waitQueue s := rfl
@[simp] theorem waitQueue_setAccess (s : State) (l : Nat) (a) : waitQueue (s.setAccess l a) = waitQueue s := rfl

theorem waitQueue_offerWith {count : Nat → Nat → State → State} (h : ∀ g i s, waitQueue (count g i s) = waitQueue s)
    (n : Notice) (s : State) (p : Port) : waitQueue (offerWith count n s p) = waitQueue s := by
  unfold offerWith; dsimp only; split <;> simp [h]

theorem waitQueue_broadcastWith {count : Nat → Nat → State → State} (h : ∀ g i s, waitQueue (count g i s) = waitQueue s)
    (n : Notice) (s : State) : waitQueue (broadcastWith count n s) = waitQueue s := by
  unfold broadcastWith
  generalize allPorts = l
  induction l generalizing s with
  | nil => rfl
  | cons p l ih =>
    rw [List.foldl_cons, ih]
    split
    · exact waitQueue_offerWith h n s p
    · rfl

theorem waitQueue_countWith (n g i : Nat) (s : State) : waitQueue (countWith n g i s) = waitQueue s := by
  induction n generalizing g i s with
  | zero => simp [countWith]
  | succ n ih =>
    unfold countWith; dsimp only; split
    · rw [waitQueue_broadcastWith ih, waitQueue_bump]
    · simp

@[simp] theorem waitQueue_count (s : State) (g i : Nat) : waitQueue (s.count g i) = waitQueue s :=
  waitQueue_countWith ..
@[simp] theorem waitQueue_notify (s : State) (p : Port) (n : Notice) : waitQueue (s.notify p n) = waitQueue s :=
  waitQueue_offerWith (waitQueue_countWith 6) ..
@[simp] theorem waitQueue_broadcast (s : State) (n : Notice) : waitQueue (s.broadcast n) = waitQueue s :=
  waitQueue_broadcastWith (waitQueue_countWith 6) ..
@[simp] theorem waitQueue_notifyDesk (s : State) (d : Desk) (n : Notice) : waitQueue (s.notifyDesk d n) = waitQueue s :=
  waitQueue_notify ..
@[simp] theorem waitQueue_sendChange (s : State) (t : Ticket) (c : TicketCause) (d : Option Desk) :
    waitQueue (s.sendChange t c d) = waitQueue s := waitQueue_broadcast ..

/-! ## The end of a run -/

@[simp] theorem waitQueue_verifyReview (s : State) (l : Nat) : waitQueue (s.verifyReview l) = waitQueue s := by
  unfold State.verifyReview; split <;> simp
@[simp] theorem waitQueue_createTicket (s : State) (f : Finding) : waitQueue (s.createTicket f) = waitQueue s := by
  simp only [State.createTicket, waitQueue_broadcast]
  split <;> simp [State.hardFault, State.countFinding, State.setUnticketed, State.openCode]
@[simp] theorem waitQueue_takeFinding (s : State) (f : Finding) : waitQueue (s.takeFinding f) = waitQueue s := by
  unfold State.takeFinding
  split
  · simp only [State.mergeFinding]
    split <;> split <;> split <;>
      simp [State.reopen, State.hardFault, State.countFinding, State.putTicket]
  · split
    · simp [State.suppressFinding, State.countFinding, State.setUnticketed]
    · unfold State.raiseTicket
      split
      · simp
      · split
        · simp [State.evict]
        · unfold State.overflowFinding; dsimp only; split <;>
            simp [State.hardFault, State.countFinding, State.setUnticketed]
@[simp] theorem waitQueue_closeTicket (s : State) (t : Ticket) (r : CloseReason) (d : Option Desk) :
    waitQueue (s.closeTicket t r d) = waitQueue s := by
  simp only [State.closeTicket, waitQueue_sendChange, waitQueue_count]
  split <;> simp [State.closeCode, State.putTicket]
@[simp] theorem waitQueue_decideTicket (s : State) (t : Ticket) (start : Stamp) (a : Testability) :
    waitQueue (s.decideTicket t start a) = waitQueue s := by
  unfold State.decideTicket
  dsimp only
  repeat' (first | rfl | split)
  all_goals simp
theorem waitQueue_decideTickets (s : State) (start : Stamp) (able : FaultCode → Testability) (l : List Nat) :
    waitQueue (s.decideTickets start able l) = waitQueue s := by
  induction l generalizing s with
  | nil => rfl
  | cons n l ih => unfold State.decideTickets; split <;> simp [ih]
theorem waitQueue_takeReport (s : State) (line handle : Nat) (start : Stamp) (fs : List Finding)
    (able : FaultCode → Testability) (pass : Bool) :
    waitQueue (s.takeReport line handle start fs able pass) = waitQueue s := by
  have hf : ∀ (l : List Finding) (s : State), waitQueue (l.foldl State.takeFinding s) = waitQueue s := by
    intro l; induction l with
    | nil => intro s; rfl
    | cons f l ih => intro s; rw [List.foldl_cons, ih, waitQueue_takeFinding]
  unfold State.takeReport; dsimp only
  split <;> simp [State.setUnticketed, waitQueue_decideTickets, hf]
@[simp] theorem waitQueue_binResults (s : State) (l : List StepResult) : waitQueue (s.binResults l) = waitQueue s := by
  induction l generalizing s with
  | nil => rfl
  | cons r l ih =>
    unfold State.binResults
    split
    · split <;> simp [ih]
    · exact ih s
@[simp] theorem waitQueue_dispatchInterrupted (s : State) (l : Nat) (c : AbortCause) :
    waitQueue (s.dispatchInterrupted l c) = waitQueue s := by
  unfold State.dispatchInterrupted State.deferLine State.setDeferred State.missLine State.mapCounts
  repeat' (first | rfl | split)
@[simp] theorem waitQueue_testDone (s : State) (l : Nat) (v : Verdict) (h : Option Nat) (c : Option TestCause)
    (k : List FoundCode) : waitQueue (s.testDone l v h c k) = waitQueue s := waitQueue_notify ..
@[simp] theorem waitQueue_reportRun (s : State) (b : Bus) (x : RunContext) (v : Verdict) (k : List FoundCode) :
    waitQueue (s.reportRun b x v k) = waitQueue s := by
  unfold State.reportRun
  split
  · simp
  · dsimp only; split <;> split <;> simp
@[simp] theorem waitQueue_enterReleasing (s : State) (b : Bus) (r : ReleaseReason) :
    waitQueue (s.enterReleasing b r) = waitQueue s := by
  unfold State.enterReleasing State.reportReleasing State.reportConnectEnd State.tellHolder
  dsimp only
  repeat' split
  all_goals simp
@[simp] theorem waitQueue_busAfterRun (s : State) (b : Bus) : waitQueue (s.busAfterRun b) = waitQueue s := by
  unfold State.busAfterRun; dsimp only
  repeat' split
  all_goals simp
@[simp] theorem waitQueue_leaveRun (s : State) (c : Channel) : waitQueue (s.leaveRun c) = waitQueue s := by
  unfold State.leaveRun; dsimp only; split <;> simp [State.tellChannel]

/-- What the giving of a channel can still start: the list is as long as it was, or MC1's run is on it again; MC1 may
have become READY. -/
def waitBound (s : State) : Nat := 2 * s.gar.waiting.length + max (momentWeight s.gar.moment) 1

theorem waitBound_eq {s t : State} (h : waitQueue t = waitQueue s) : waitBound t = waitBound s := by
  simp only [waitQueue, Prod.mk.injEq] at h; simp [waitBound, h.1, h.2]
theorem waitWork_eq {s t : State} (h : waitQueue t = waitQueue s) : waitWork t = waitWork s := by
  simp only [waitQueue, Prod.mk.injEq] at h; simp [waitWork, h.1, h.2]
theorem waitWork_le_bound (s : State) : waitWork s ≤ waitBound s := by unfold waitWork waitBound; omega

/-- The run taken back from MC1 was given it at this instant. -/
theorem givenMc1_some {s : State} {e} (h : s.givenMc1 = some e) : ∃ w n, s.gar.moment = .mc1Given w n := by
  unfold State.givenMc1 at h; split at h
  · exact ⟨_, _, ‹_›⟩
  · cases h

theorem channelReady_waitWork (s : State) (c : Channel) : waitWork (s.channelReady c) ≤ waitBound s := by
  cases c
  · simp only [State.channelReady, State.takeBackMc1]
    split
    · exact waitWork_le_bound s
    · rename_i w x he
      obtain ⟨v, n, hm⟩ := givenMc1_some he
      have hq := waitQueue_leaveRun (s.setCtx w.bus (some x.unstarted)) .mc1
      have hw : ((s.setCtx w.bus (some x.unstarted)).leaveRun .mc1).gar.waiting = s.gar.waiting :=
        congrArg Prod.fst hq
      simp only [waitWork, waitBound, State.mapGar_gar, List.length_cons, hw, hm, momentWeight]
      omega
  · simp only [State.channelReady]
    split
    · simp only [waitWork, waitBound, State.mapGar_gar, momentWeight]; omega
    · exact waitWork_le_bound s

theorem freeOf_waitWork (s : State) (x : RunContext) : waitWork (s.freeOf x) ≤ waitBound s := by
  unfold State.freeOf; split
  · split
    · unfold State.freeChannel; split
      · rw [waitWork_eq (waitQueue_leaveRun ..)]; exact waitWork_le_bound s
      · refine (channelReady_waitWork _ _).trans ?_
        rw [waitBound_eq (waitQueue_leaveRun ..)]
    · exact waitWork_le_bound s
  · exact waitWork_le_bound s

/-- The end of a run leaves no more to give than MC1's run again, or MC1 itself. -/
theorem endRun_waitWork (s : State) (b : Bus) : waitWork (s.endRun b) ≤ waitBound s := by
  unfold State.endRun; split
  · exact waitWork_le_bound s
  · dsimp only
    rw [waitWork_eq (waitQueue_setCtx ..), waitWork_eq (waitQueue_busAfterRun ..)]
    refine (freeOf_waitWork _ _).trans (Nat.le_of_eq (waitBound_eq ?_))
    simp only [waitQueue_reportRun]
    split <;> split <;> simp [waitQueue_takeReport, State.setCovered]

/-! ## The end of a step -/

theorem beginSteps_waitWork (b : Bus) (c : Channel) (l : List ProgramStep) (i : Nat) (s : State) :
    waitWork (State.beginSteps b c l i s) ≤ waitBound s := by
  induction l generalizing i s with
  | nil => exact endRun_waitWork s b
  | cons st l ih =>
    unfold State.beginSteps; split
    · exact waitWork_le_bound s
    · split
      · exact (ih _ _).trans (Nat.le_of_eq (waitBound_eq rfl))
      · refine (Nat.le_of_eq (waitWork_eq ?_)).trans (waitWork_le_bound s)
        unfold State.startStep State.beginFvPair State.beginReading State.selectPair State.selectRange State.selectGain
          State.mapCtx State.discharge
        dsimp only
        repeat' split
        all_goals simp

theorem giveChannel_waitWork (s : State) (c : Channel) (b : Bus) : waitWork (s.giveChannel c b) ≤ waitBound s := by
  unfold State.giveChannel; split
  · exact waitWork_le_bound s
  · dsimp only; split
    · exact waitWork_le_bound s
    · exact beginSteps_waitWork ..

/-- Each channel given leaves less to give. -/
theorem serve_waitWork {s : State} {c : Channel} {w : WaitEntry} {l : List WaitEntry} (h : s.gar.waiting = w :: l) :
    waitWork ((s.takeHead c w).giveChannel c w.bus) < waitWork s := by
  refine Nat.lt_of_le_of_lt (giveChannel_waitWork _ _ _) ?_
  have hl : ((w :: l).filter fun v => v.handle ≠ w.handle).length ≤ l.length := by
    simpa using List.length_filter_le (fun v : WaitEntry => !decide (v.handle = w.handle)) l
  have hm : max (momentWeight (s.gar.moment.given c w (s.chan c).written)) 1 ≤ momentWeight s.gar.moment + 1 := by
    cases s.gar.moment <;> cases c <;> simp [Moment.given, momentWeight]
  simp only [waitBound, waitWork, State.takeHead, State.leaveWaiting, State.mapGar_gar, h, List.length_cons]
  omega

/-- READY channels are given until no run or no channel is left (R55, R56). -/
theorem serveWaiting_serves (n : Nat) (s : State) (h : waitWork s ≤ n) : NoRunToServe (State.serveWaiting n s) := by
  induction n generalizing s with
  | zero =>
    have hn : s.gar.waiting.length = 0 := by unfold waitWork at h; omega
    exact .inl (List.eq_nil_of_length_eq_zero hn)
  | succ n ih =>
    unfold State.serveWaiting; split
    · rename_i hw; exact ih _ (by have := serve_waitWork (c := ‹_›) hw; omega)
    · rename_i hn
      rcases hc : s.readyChannel with _ | c
      · exact .inr hc
      · rcases hw : s.gar.waiting with _ | ⟨w, l⟩
        · exact .inl hw
        · exact absurd hw (hn c w l hc)

/-- So does the end of a step, before its arbitrations. -/
theorem serveWaiting_settles (s : State) : NoRunToServe (State.serveWaiting (2 * s.gar.waiting.length + 2) s) :=
  serveWaiting_serves _ s (by unfold waitWork; cases s.gar.moment <;> simp [momentWeight])

end Sys2Proof
end

