-- ==== Sys2Proof/WellFormed.lean ====
section
/-! DEFINITION. Well-formed commands: what a frame, a discarded frame and a converter code can be. -/

namespace Sys2Proof

open Machine in
/-- A command the outside can send: a payload of at most 248 bytes (R184), bytes that make a bad frame (R173), a
code in the converter's range (R87). -/
def Instr.wf : Instr → Bool
  | .powerReset _ => true
  | .goodFrame _ _ _ _ payload => payload.length ≤ 248
  | .badFrame _ heard => scanFrame heard.bytes = .bad
  | .interruptedFrame _ => true
  | .exchangeLinkDown => true
  | .deskLinkDown _ => true
  | .frameSent _ => true
  | .traceData _ => true
  | .callState _ => true
  | .seize _ => true
  | .testRequest _ => true
  | .timeSet _ => true
  | .timeAdvance => true
  | .connect _ => true
  | .release _ => true
  | .setMode _ => true
  | .renew _ => true
  | .run _ => true
  | .cancelRun _ => true
  | .trace _ => true
  | .ticketTake _ => true
  | .ticketDrop _ => true
  | .ticketClear _ => true
  | .ticketClose _ => true
  | .ticketPurge _ => true
  | .ticketGet _ => true
  | .ticketList _ => true
  | .lineGet _ => true
  | .statusGet _ => true
  | .busGet _ => true
  | .channelGet _ => true
  | .resultGet _ => true
  | .countersGet _ => true
  | .subscribe _ => true
  | .configLines _ => true
  | .configClass _ => true
  | .configProgram _ => true
  | .configPriority _ => true
  | .configRoutine _ => true
  | .configStorm _ => true
  | .configTimes _ => true
  | .channelSetEnable _ => true
  | .channelSetDisable _ => true
  | .configCommit _ => true
  | .routineStart _ => true
  | .routineStop _ => true
  | .restart _ => true
  | .countersClear _ => true
  | .shelfPointOperated _ => true
  | .lineRelayOperated _ => true
  | .accessCheckEnd _ _ _ _ => true
  | .lineRelayReleased _ => true
  | .shelfPointReleased _ => true
  | .holdExpired _ => true
  | .toneLimit _ => true
  | .toneDividerExpiry _ => true
  | .toneBurstEnd _ => true
  | .toneSilenceEnd _ => true
  | .warmupStage _ => true
  | .warmupEnd _ => true
  | .calibrationGainDone _ => true
  | .calibrationEnd _ => true
  | .inRunCalibrationEnd _ => true
  | .converterSample _ code => decide (-32768 ≤ code ∧ code ≤ 32767)
  | .passEnd _ => true
  | .settleEnd _ => true
  | .captureEnd _ => true
  | .dischargeEnd _ => true
  | .waitStepEnd _ => true
  | .periodTimerExpiry => true
  | .windowEnd => true

end Sys2Proof
end

