-- ==== Sys2Proof/Tests/Slice0.lean ====
section
/-! SUPPORT. The author's tests: refused ill-formed commands, figures of the manual's worked examples, one small step
for a command where a slip is likely, and for every statement a state and operands that meet its hypotheses
(the theorems named test_hyps_<statement>). -/

namespace Sys2Proof.Tests

open Sys2Proof Sys2Proof.Machine

-- The tests are checked one after another: many at once take more threads than the check's memory limit admits.
set_option Elab.async false

/-! ## Helpers -/

/-- The state after a step that goes on; the state itself otherwise. -/
def after (i : Instr) (s : State) : State :=
  match exec i s with
  | .next t => t
  | _ => s

def up (mask : Byte) : PortUnit := { PortUnit.fresh mask with link := .up }

/-- The part in OPERATIONAL, every link UP, nothing under way. -/
def working : State :=
  { State.reset with op := .operational, ports := ⟨up 0, up 7, up 7, up 7, up 7⟩ }

def req (k : RequestKind) (payload : List Byte) : Request := { kind := kindCode k, tag := 9, payload := payload }

/-- The state with one request in a port's FIFO. -/
def ask (s : State) (p : Port) (k : RequestKind) (payload : List Byte) : State :=
  s.setPort p { s.port p with requests := [req k payload] }

/-- The request asked stands at the head of its FIFO, and nothing is due. -/
abbrev Asked (s : State) (p : Port) (k : RequestKind) (payload : List Byte) : Prop :=
  Asks (ask s p k payload) p k (req k payload) ∧ Settled (ask s p k payload)

/-- Every bus listening on a line of its own. -/
def busy (s : State) : State :=
  let r (n : Nat) : BusRecord :=
    { BusRecord.fresh with
      state := .monitor, holder := some (.desk .d4), line := some n, mode := some .bridge, reached := true }
  { s with acc := { s.acc with buses := ⟨r 2040, r 1040, r 540, r 240⟩ } }

/-- Line 5 equipped. -/
def equipped (s : State) : State := s.setLine 5 { LineRecord.fresh with equipped := true }

def testBus : BusRecord :=
  { BusRecord.fresh with
    state := .held, holder := some (.desk .d2), line := some 5, mode := some .split, guard := true, point := some 0,
    hold := .running 60000, reached := true, relay := .operated, seq := 3, tag := 4 }

/-- Desk 2 holds line 5 split on B1, as `r` says. -/
def onTest (r : BusRecord) : State :=
  ((working.setBus .b1 r).setPoint 0 0 (some .b1)).setLine 5
    { LineRecord.fresh with equipped := true, access := .split .b1 .settled }

/-- Line 5 with a pending seize of the tags. -/
def seizing (tags : List Byte) : State :=
  { working with exc := { working.exc with seizes := [{ line := 5, tags := tags, report := none }] } }

/-- The tables of a state whose counts are all 0 are canonical. -/
theorem canonical_of {s : State} (hc : s.cnt = State.reset.cnt)
    (h1 : Table.wfFrom (fun _ => LineRecord.fresh) 0 s.lrt.lines = true)
    (h2 : Table.wfFrom (fun _ => ClassEntry.default) 0 s.lrt.classes = true)
    (h3 : Table.wfFrom (fun _ => none) 0 s.acc.points = true)
    (h4 : Table.wfFrom defaultProgram 0 s.rsq.programs = true) : Canonical s := by
  refine ⟨h1, h2, h3, h4, ?_, ?_⟩
  · intro g
    rw [hc]
    rcases g with _ | _ | _ | _ | _ <;> rfl
  · rw [hc]
    rfl

/-! ## Ill-formed commands are refused by the check -/

theorem test_wf_payload_too_long : Instr.wf (.goodFrame .p1 true 0x31 1 (List.replicate 249 0)) = false := by decide +kernel
theorem test_wf_payload_longest : Instr.wf (.goodFrame .p1 true 0x31 1 (List.replicate 248 0)) = true := by decide +kernel
/-- The good frame of 11.2.1 is no bad frame. -/
theorem test_wf_good_bytes_in_bad_frame : Instr.wf (.badFrame .p1 ⟨true, [0x02, 0x31, 0x05, 0x21]⟩) = false := by decide +kernel
theorem test_wf_code_beyond_converter : Instr.wf (.converterSample .mc0 40000) = false := by decide +kernel
theorem test_wf_lowest_code : Instr.wf (.converterSample .mc0 (-32768)) = true := by decide +kernel

/-! ## Figures of the manual -/

/-- 11.2.1: the register after each byte of 02 31 05 is 0E, BD, 21. -/
theorem test_check_of_the_example :
    crc8 [0x02] = 0x0E ∧ crc8 [0x02, 0x31] = 0xBD ∧ crc8 [0x02, 0x31, 0x05] = 0x21 := by decide +kernel
theorem test_frame_of_the_example : frameBytes 0x31 0x05 [] = [0xA5, 0x02, 0x31, 0x05, 0x21] := by decide +kernel
/-- No row of the opcode table has bits. -/
theorem test_no_word_spells_a_command : decodeTableWord 8 0 = none := by decide +kernel

/-- 6.7.1: Vx, q and R of the insulation measured. -/
theorem test_insulation_worked_case :
    millivolts .g4 21476 = 20481 ∧ ratio 20481 600 .b3 = 200 ∧ nextRange 200 .rc = none ∧
      resistance 20481 600 .b3 .rc = (2500157, .ok) := by decide +kernel
/-- 6.7.2: Vf, Vx, q and R of the low loop, with its range change. -/
theorem test_low_loop_worked_case :
    millivolts .g64 (-168) = -10 ∧ millivolts .g64 4801 = 286 ∧ ratio 286 (-10) .b2 = 6 ∧
      nextRange 6 .rb = some .ra ∧ millivolts .g4 18868 = 17994 ∧ ratio 17994 (-10) .b2 = 375 ∧
      resistance 17994 (-10) .b2 .ra = (600, .ok) := by decide +kernel
/-- 6.7.3: target, time constant and capacitance of the intact pair. -/
theorem test_capacitance_worked_case :
    millivolts .g4 10475 = 9990 ∧ capTarget 20 9990 = 6321 ∧ tauOf [6290, 6338] 6321 1 = 32 ∧
      capOfTau 4682 = 468 := by decide +kernel
/-- 6.7.4: a crossing at index 1 with a time constant of 33 µs, and 3 tenths of a nF. -/
theorem test_edge_of_capacitance_search : tauOf [9950, 9988] 9975 1 = 33 ∧ capOfTau 33 = 3 := by decide +kernel

/-! ## One step each, where a slip is likely -/

/-- R73: second 86 399 of day 65 535 is followed by second 0 of day 0. -/
theorem test_time_wraps :
    (after .timeAdvance { State.reset with exc := { State.reset.exc with time := ⟨65535, 86399⟩ } }).exc.time = ⟨0, 0⟩ := by
  decide
/-- R177: SUPSEL 3 names P4. -/
theorem test_strap_names_supervisor : (after (.powerReset 3) State.reset).supervisor = .d4 := by decide +kernel
/-- R184: a good frame before the rest at mark does not bring the link UP. -/
theorem test_link_needs_rest_at_mark :
    ((after (.goodFrame .p1 false 0x31 5 []) State.reset).port .p1).link = .down ∧
      ((after (.goodFrame .p1 true 0x31 5 []) State.reset).port .p1).link = .up := by decide +kernel
/-- R173: after a bad frame the bytes behind its SYNC are hunted for the next SYNC. -/
theorem test_hunt_in_bad_frame :
    ((after (.badFrame .p1 ⟨true, [0x02, 0x31, 0xA5, 0x05]⟩) working).port .p1).receiver = .collecting ⟨true, [0x05]⟩ := by decide +kernel
/-- R173, R184: a good frame hidden behind a bad one is handed on before the frame that follows, and comes with the
rest its bytes came with. -/
theorem test_hidden_frame_is_handed_on :
    let t := after (.goodFrame .p1 false 0x31 6 [])
      (after (.badFrame .p1 ⟨true, [0x04, 0xA5, 0x02, 0x31, 0x05, 0x21]⟩) State.reset)
    (t.port .p1).link = .up ∧ (t.port .p1).requests.map Request.tag = [5, 6] ∧ t.cnt.g3.count 3 = 1 := by decide +kernel
/-- R177: a CALL_STATE from a desk is refused NOT_PERMITTED. -/
theorem test_call_state_from_desk :
    ((after (.callState .p1) (ask working .p1 .callState [0, 5, 1])).port .p1).replies =
      [{ kind := 0x81, tag := 9, outcome := .refused .notPermitted, data := [] }] := by decide +kernel
/-- R31: RENEW starts the hold timer again at the configured hold time, 180 s after power reset. -/
theorem test_renew_restarts_hold_timer :
    ((after (.renew .p2) (ask (onTest testBus) .p2 .renew [1])).bus .b1).hold = .running 180000 := by decide +kernel
/-- R34, R35: a release opens the line relay first. -/
theorem test_release_opens_line_relay_first :
    ((after (.release .p2) (ask (onTest testBus) .p2 .release [1])).bus .b1).relay = .lineReleasing 6 := by decide +kernel
/-- R28: a tone divider of 1 is brought to 250. -/
theorem test_tone_divider_clamped :
    ((after (.setMode .p2) (ask (onTest testBus) .p2 .setMode [1, 2, 0, 1, 0, 0, 0, 0])).bus .b1).tone.divider = 250 := by
  decide
/-- R87: a code at the converter's end is a clip, and none beyond it is formed. -/
theorem test_converter_code_clips : converterCode 40000 = 32767 ∧ isClip 32767 = true ∧ isClip 32766 = false := by decide +kernel

/-! ## States and operands that meet the hypotheses of the statements -/

/-- A port unit at the sizes of R172. -/
def fullUnit : PortUnit :=
  { up 7 with
    requests := List.replicate 4 (req .statusGet [])
    notices := List.replicate 32 { lost := 0, notice := .restart ⟨0, 0⟩ } }

/-- CommandsKeepQueue: a command that answers a next state. -/
theorem test_hyps_CommandsKeepQueue : ∃ t, exec (.frameSent .p1) working = .next t := ⟨_, rfl⟩
/-- StepKeepsPortSizes, StepKeepsSettled, StepKeepsTablesCanonical: a state at the sizes, settled, in canonical
form, and it steps. -/
theorem test_hyps_StepKeeps :
    PortsBounded (working.setPort .p1 fullUnit) ∧ Settled (working.setPort .p1 fullUnit) ∧
      Canonical (working.setPort .p1 fullUnit) ∧ ∃ t, step (working.setPort .p1 fullUnit) = .next t := by
  refine ⟨?_, by decide +kernel, canonical_of rfl rfl rfl rfl rfl, ⟨_, rfl⟩⟩
  intro p
  cases p <;> exact ⟨by decide +kernel, by decide +kernel⟩

/-! ### Frames and ports -/

/-- FramesSentAreGoodFrames, at the longest payload. -/
theorem test_hyps_FramesSentAreGoodFrames : (List.replicate 248 (0 : Byte)).length ≤ 248 := by decide +kernel
/-- FieldsReadBack, at the top of each width. -/
theorem test_hyps_FieldsReadBack : 255 < 256 ∧ 65535 < 65536 ∧ 16777215 < 16777216 ∧ 4294967295 < 4294967296 := by
  decide
/-- RequestChecksInOrder: a settled state whose FIFO holds a refused CHANNEL_SET at its head. -/
theorem test_hyps_RequestChecksInOrder_exec :
    let s := ask working .p2 .channelSet [0, 1]
    Settled s ∧ s.gate .p2 .channelSet (req .channelSet [0, 1]) = some .notPermitted ∧
      (s.port .p2).requests.head? = some (req .channelSet [0, 1]) ∧
      kindOf (req .channelSet [0, 1]).kind = some .channelSet := by decide +kernel
/-- RequestChecksInOrder: CONNECT at P0 is out of role; CONNECT at the supervisor in CONFIG is not admitted; a
STATUS_GET with a payload is too long and one without is passed; a refused request stands at the head of a FIFO. -/
theorem test_hyps_RequestChecksInOrder :
    working.gate .p0 .connect (req .connect []) = some .notPermitted ∧
      State.reset.gate .p1 .connect (req .connect []) = some .notConfigured ∧
      State.reset.gate .p1 .statusGet (req .statusGet [0]) = some .badField ∧
      State.reset.gate .p1 .statusGet (req .statusGet []) = none ∧
      ((ask working .p0 .connect []).port .p0).requests.head? = some (req .connect []) ∧
      kindOf (req .connect []).kind = some .connect := by decide +kernel
/-- GoodFrameRequestPath: each row, on a link that is UP, and the link that is DOWN. -/
theorem test_hyps_GoodFrameRequestPath :
    Settled State.reset ∧ (State.reset.port .p1).link = .down ∧ Settled working ∧ (working.port .p1).link = .up ∧
      8 ≤ (List.replicate 4 (0 : Byte)).length + fullUnit.requests.length ∧ kindOf 0x17 = none ∧
      working.cnt.g3.count 4 < 65535 ∧ 4 ≤ fullUnit.requests.length ∧ kindOf 0x31 = some .statusGet ∧
      ¬ 4 ≤ (working.port .p1).requests.length := by decide +kernel
/-- GoodFrameBringsLinkUp: the first coming up of P0 after power reset, with every bus IDLE. -/
theorem test_hyps_GoodFrameBringsLinkUp_first :
    Settled State.reset ∧ State.reset.rts.state ≠ .held ∧ (State.reset.port .p0).link = .down ∧
      (State.reset.port .p0).requests = [] ∧ (State.reset.port .p0).replies = [] := by decide +kernel
/-- GoodFrameBringsLinkUp: a desk port and P0, DOWN with room. -/
theorem test_hyps_GoodFrameBringsLinkUp :
    Settled (busy State.reset) ∧ NoIdleBus (busy State.reset) ∧ kindOf 0x31 ≠ none ∧
      ((busy State.reset).port (deskPort .d1)).link = .down ∧ ((busy State.reset).port .p0).link = .down ∧
      ((busy State.reset).port .p0).requests.length < 4 ∧ ((busy State.reset).port (deskPort .d1)).requests.length < 4 ∧
      ((busy State.reset).port .p0).replies.length + ((busy State.reset).port .p0).requests.length < 8 ∧
      ((busy State.reset).port (deskPort .d1)).replies.length +
        ((busy State.reset).port (deskPort .d1)).requests.length < 8 := by decide +kernel
theorem test_hyps_DiscardedFramesAreCounted : Settled working ∧ working.cnt.g3.count (portNum .p4 * 3) < 65535 := by
  decide
/-- DiscardedFramesAreCounted: no SYNC behind the bad frame's; a frame begun there; a bad one; a good one, on a link
that is UP and on one that is DOWN. -/
theorem test_hyps_DiscardedFramesAreCounted_hunted :
    syncByte ∉ [(0x02 : Byte), 0x31, 0x05, 0x22] ∧
      [(0x02 : Byte), 0x31, 0xA5, 0x05] = [0x02, 0x31] ++ syncByte :: [0x05] ∧ syncByte ∉ [(0x02 : Byte), 0x31] ∧
      scanFrame [0x05] = .unfinished ∧ scanFrame [0x00] = .bad ∧
      [(0x04 : Byte), 0xA5, 0x02, 0x31, 0x05, 0x21] = [0x04] ++ frameBytes 0x31 0x05 [] ++ [] ∧
      kindOf 0x31 ≠ none ∧ (working.port .p1).link = .up ∧ (State.reset.port .p1).link = .down ∧
      (working.port .p1).requests.length < 4 ∧
      (working.port .p1).replies.length + (working.port .p1).requests.length < 8 := by decide +kernel
/-- A desk port that streams a trace, its FIFO holding `n` notices. -/
def streaming (n : Nat) : PortUnit :=
  { up 7 with
    notices := List.replicate n { lost := 0, notice := .restart ⟨0, 0⟩ }
    transfer := some { handle := 1, step := 0, offset := 0, samples := List.replicate 33 5 } }
/-- QueuedFramesAreSent: an idle transmitter, one sending a reply, one sending a notice; a stream with just enough
room and with one place too few. -/
theorem test_hyps_QueuedFramesAreSent :
    (working.port .p1).tx = .free ∧ ({ up 7 with tx := .reply [0xA5] } : PortUnit).tx = .reply [0xA5] ∧
      ({ up 7 with tx := .notice [0xA5] } : PortUnit).tx = .notice [0xA5] ∧
      (streaming 23).transfer.isSome = true ∧ (streaming 23).notices.length + 9 ≤ 32 ∧
      ¬ (streaming 24).notices.length + 9 ≤ 32 := by decide +kernel
/-- LinkDownEffects: a link that is DOWN; links that are UP with nothing held or waiting. -/
theorem test_hyps_LinkDownEffects :
    (Settled State.reset ∧ (State.reset.port .p0).link = .down ∧ (State.reset.port (deskPort .d4)).link = .down) ∧
      Settled working ∧ (working.port .p0).link = .up ∧ (working.port .p0).notices = [] ∧
      (∀ b, (working.bus b).mode ≠ some .split) ∧ (working.port (deskPort .d4)).link = .up ∧
      (working.port (deskPort .d4)).notices = [] ∧ (∀ b, (working.bus b).holder ≠ some (.desk .d4)) ∧
      (∀ t ∈ working.tkt.tickets, t.assignee ≠ some .d4) := by
  have each : ∀ b ∈ allBuses, (working.bus b).mode ≠ some .split ∧ (working.bus b).holder ≠ some (.desk .d4) := by decide
  have rest : Settled working ∧ (working.port .p0).link = .up ∧ (working.port .p0).notices = [] ∧
      (working.port (deskPort .d4)).link = .up ∧ (working.port (deskPort .d4)).notices = [] ∧
      (∀ t ∈ working.tkt.tickets, t.assignee ≠ some .d4) := by decide +kernel
  have all : ∀ b, b ∈ allBuses := by intro b; cases b <;> decide
  exact ⟨by decide +kernel, rest.1, rest.2.1, rest.2.2.1, fun b => (each b (all b)).1, rest.2.2.2.1, rest.2.2.2.2.1,
    fun b => (each b (all b)).2, rest.2.2.2.2.2⟩
/-- LinkDownEffects: a SPLIT bus on its way out, with a SEIZE pending. -/
theorem test_hyps_LinkDownEffects_seize :
    let s := seizing [1]
    let l := s.setBus .b1 { testBus with state := .releasing, reason := some .preemptedCall, relay := .lineReleasing 6 }
    Settled l ∧ (l.port .p0).link = .up ∧ (l.port .p0).notices = [] ∧
      (∀ b ∈ allBuses, (l.bus b).mode = some .split → (l.bus b).state = .releasing) ∧ l.exc.seizes ≠ [] := by decide +kernel
/-- NoticesReachPorts: every subscribed port UP with room; a port that is DOWN, and one whose FIFO is full. -/
theorem test_hyps_NoticesReachPorts :
    (∀ p, (working.port p).subscribes (.stormState .storm .window 24 ⟨0, 0⟩) = true →
        (working.port p).link = .up ∧ (working.port p).notices.length < 32) ∧
      (State.reset.port .p0).link = .down ∧ 32 ≤ ((working.setPort .p1 fullUnit).port .p1).notices.length ∧
      (working.setPort .p1 fullUnit).cnt.g3.count (portNum .p1 * 3 + 2) < 65535 := by
  refine ⟨?_, by decide +kernel⟩
  intro p
  cases p <;> decide

/-! ### The exchange -/

theorem canonical_working : Canonical working := canonical_of rfl rfl rfl rfl rfl
theorem canonical_onTest : Canonical (onTest testBus) :=
  canonical_of rfl (by decide +kernel) (by decide +kernel) (by decide +kernel) (by decide +kernel)

/-- CallStateIsRecorded: line 2048 and state 4 are outside their sets; line 2047 without a pending seize reports
LOCKOUT, IDLE, and BUSY while no bus holds it. -/
theorem test_hyps_CallStateIsRecorded :
    Asked working .p0 .callState [8, 0, 1] ∧ 2047 < field [8, 0, 1] 0 2 ∧
      Asked working .p0 .callState [7, 255, 4] ∧ callOf (field [7, 255, 4] 2 1) = none ∧
      Asked working .p0 .callState [7, 255, 3] ∧ callOf (field [7, 255, 3] 2 1) = some .lockout ∧
      Asked working .p0 .callState [7, 255, 0] ∧ callOf (field [7, 255, 0] 2 1) = some .idle ∧
      2047 ∉ working.rts.lockout ∧
      Asked working .p0 .callState [7, 255, 1] ∧ callOf (field [7, 255, 1] 2 1) = some .busy ∧
      field [7, 255, 1] 0 2 ≤ 2047 ∧ (∀ e ∈ working.exc.seizes, e.line ≠ 2047) ∧
      (working.line 2047).access = .normal := by decide +kernel
/-- CallsOnDeskHeldLines: B1 holds line 5 in SPLIT for desk 2 with its guard set, on a class that is no priority
line; the desk's port is UP with room. -/
theorem test_hyps_CallsOnDeskHeldLines :
    Asked (onTest testBus) .p0 .callState [0, 5, 1] ∧ Asked (onTest testBus) .p0 .seize [0, 5] ∧
      field [0, 5, 1] 0 2 ≤ 2047 ∧ field [0, 5, 1] 2 1 = 1 ∧ (∀ e ∈ (onTest testBus).exc.seizes, e.line ≠ 5) ∧
      ((onTest testBus).line 5).access = .split .b1 .settled ∧ ((onTest testBus).bus .b1).reason = none ∧
      ((onTest testBus).bus .b1).holder = some (.desk .d2) ∧ ((onTest testBus).bus .b1).guard = true ∧
      ((onTest testBus).lineClass 5).priority = false ∧ ((onTest testBus).port (deskPort .d2)).link = .up ∧
      ((onTest testBus).port (deskPort .d2)).notices.length < 32 := by decide +kernel

/-- SeizeOutcomes: a line beyond 2047; two tags pending; one tag pending on a line that is with the exchange; a line
whose bus is releasing. -/
theorem test_hyps_SeizeOutcomes :
    (Asked working .p0 .seize [8, 0] ∧ 2047 < field [8, 0] 0 2) ∧
      (Asked (seizing [1, 2]) .p0 .seize [0, 5] ∧ field [0, 5] 0 2 = 5 ∧
        (ask (seizing [1, 2]) .p0 .seize [0, 5]).exc.seizes.find? (fun e => e.line = 5) =
          some { line := 5, tags := [1, 2], report := none }) ∧
      (Asked (seizing [1]) .p0 .seize [7, 255] ∧ field [7, 255] 0 2 = 2047 ∧
        ((seizing [1]).line 2047).access = .normal) ∧
      (Asked (working.setLine 5 { LineRecord.fresh with access := .split .b1 .releasing }) .p0 .seize [0, 5] ∧
        ((working.setLine 5 { LineRecord.fresh with access := .split .b1 .releasing }).line 5).access =
          .split .b1 .releasing) := by decide +kernel
/-- B1 still connecting line 5 in SPLIT, the line relay operating. -/
def connecting (h : Holder) : State :=
  (onTest { testBus with state := .connecting, holder := some h, reached := false, relay := .lineOperating 2 }).setLine 5
    { LineRecord.fresh with equipped := true, access := .split .b1 .operating }

theorem canonical_connecting : Canonical (connecting (.desk .d2)) :=
  canonical_of rfl (by decide +kernel) (by decide +kernel) (by decide +kernel) (by decide +kernel)

/-- CallsOnDeskHeldLines: RINGING, and a line whose connect is still OPERATING. -/
theorem test_hyps_CallsOnDeskHeldLines_ringing :
    Canonical (onTest testBus) ∧ Canonical (connecting (.desk .d2)) ∧
      Asked (connecting (.desk .d2)) .p0 .callState [0, 5, 2] ∧ Asked (connecting (.desk .d2)) .p0 .seize [0, 5] ∧
      (field [0, 5, 2] 2 1, CallState.ringing, AttemptCause.ringing) ∈ [(1, .busy, .busy), (2, .ringing, .ringing)] ∧
      ((connecting (.desk .d2)).line 5).access = .split .b1 .operating ∧
      ((connecting (.desk .d2)).bus .b1).reason = none ∧
      ((connecting (.desk .d2)).bus .b1).holder = some (.desk .d2) ∧
      ((connecting (.desk .d2)).bus .b1).guard = true :=
  ⟨canonical_onTest, canonical_connecting, by decide +kernel⟩

/-- SeizeOutcomes: a SEIZE that takes line 5 back from routine work in CONNECTING, and from desk 2 without guard. -/
theorem test_hyps_SeizeOutcomes_taken_back :
    let s := connecting (.routine .routine)
    let h := onTest { testBus with guard := false }
    (Asked s .p0 .seize [0, 5] ∧ (∀ e ∈ s.exc.seizes, e.line ≠ 5) ∧ (s.bus .b1).reason = none ∧
        (s.line 5).access = .split .b1 .operating ∧ (s.bus .b1).holder = some (.routine .routine) ∧
        (s.bus .b1).state = .connecting ∧ (s.bus .b1).relay = .lineOperating 2) ∧
      Asked h .p0 .seize [0, 5] ∧ (h.line 5).access = .split .b1 .settled ∧ (h.bus .b1).guard = false ∧
      (h.bus .b1).state = .held ∧ (h.bus .b1).holder = some (.desk .d2) ∧ (h.bus .b1).line = some 5 ∧
      (h.bus .b1).mode = some .split ∧ (h.bus .b1).reached = true ∧ (h.port (deskPort .d2)).link = .up ∧
      (h.port (deskPort .d2)).notices.length < 32 := by decide +kernel
theorem canonical_unguarded : Canonical (onTest { testBus with guard := false }) :=
  canonical_of rfl (by decide +kernel) (by decide +kernel) (by decide +kernel) (by decide +kernel)

/-- TestRequestTable: a bus IDLE, RTS dispatching, a channel READY and nothing else waiting. -/
def dispatching : State :=
  { (equipped working).setChan .mc0 { ChannelRecord.fresh with state := .ready } with
    lrt := ((equipped working).setLine 5 { LineRecord.fresh with equipped := true, call := .lockout }).lrt
    rts := { working.rts with state := .running } }
theorem test_hyps_TestRequestTable_grant :
    Asked dispatching .p0 .testRequest [0, 5] ∧ (dispatching.line 5).equipped = true ∧
      (dispatching.line 5).call = .lockout ∧ (∀ b ∈ allBuses, (dispatching.bus b).line ≠ some 5) ∧
      dispatching.freePoint (5 / 64) = some 0 ∧ dispatching.idleBus = some .b0 ∧ dispatching.op = .operational ∧
      dispatching.gar.queue = [] ∧ dispatching.rts.state = .running ∧
      dispatching.rts.held < dispatching.rts.params.rbl ∧ (dispatching.chan .mc0).enable = true ∧
      (dispatching.chan .mc0).disablePending = false ∧ (dispatching.chan .mc0).state = .ready ∧
      dispatching.tkt.verify = [] ∧ dispatching.rts.lockout = [] ∧ dispatching.rts.deferred = [] ∧
      dispatching.rts.phase = .between := by decide +kernel
theorem test_hyps_TestRequestTable : Asked (busy working) .p0 .testRequest [7, 255] ∧ NoIdleBus (busy working) := by
  decide
/-- TimeOfDay: with no deferred entry, and with every bus in use; the last second of a day and of the last day. -/
theorem test_hyps_TimeOfDay :
    Asked working .p0 .timeSet [255, 255, 1, 81, 127] ∧ field [255, 255, 1, 81, 127] 2 3 = 86399 ∧
      working.rts.deferred = [] ∧ Asked (busy working) .p0 .timeSet [0, 0, 1, 81, 128] ∧
      86399 < field [0, 0, 1, 81, 128] 2 3 ∧ NoIdleBus (busy working) ∧ Settled working ∧
      working.exc.time.sec ≤ 86399 ∧ working.exc.time.day ≤ 65535 := by decide +kernel

/-! ### Buses -/

/-- An entry of desk `d` for a line. -/
def entry (d : Desk) (line : Nat) : QueueEntry :=
  { desk := d, tag := 1, seq := 1, line := line, mode := .split, guard := false, priority := 4 }

def queued (l : List QueueEntry) : State := { equipped working with gar := { working.gar with queue := l } }

/-- Both points of shelf 0 occupied. -/
def fullShelf : State := ((equipped working).setPoint 0 0 (some .b2)).setPoint 0 1 (some .b3)

/-- ConnectRefusals, clause by clause: a line beyond 2047, a mode of 2, a line not equipped, the line queued twice. -/
theorem test_hyps_ConnectRefusals :
    Asked working .p1 .connect [8, 0, 0, 0, 0] ∧ Asked working .p1 .connect [7, 255, 2, 0, 0] ∧
      Asked working .p1 .connect [7, 255, 1, 1, 1] ∧ (working.line 2047).equipped = false ∧
      (Asked (queued [entry .d1 5]) .p1 .connect [0, 5, 0, 0, 0] ∧
        ∃ e ∈ (queued [entry .d1 5]).gar.queue, e.desk = .d1 ∧ e.line = 5) := by decide +kernel
/-- ConnectRefusals: the queue full for the desk, the line held, the shelf full, no bus IDLE. -/
theorem test_hyps_ConnectRefusals_later :
    (Asked (queued [entry .d1 6, entry .d1 7]) .p1 .connect [0, 5, 0, 0, 0] ∧
        2 ≤ ((queued [entry .d1 6, entry .d1 7]).gar.queue.filter fun e => e.desk = .d1).length) ∧
      (Asked (onTest testBus) .p1 .connect [0, 5, 0, 0, 1] ∧ ((onTest testBus).line 5).equipped = true ∧
        ((onTest testBus).bus .b1).state ≠ .idle ∧ ((onTest testBus).bus .b1).line = some 5 ∧
        ((onTest testBus).bus .b1).holder ≠ some (.desk .d1)) ∧
      (Asked fullShelf .p1 .connect [0, 5, 0, 0, 1] ∧ fullShelf.point 0 0 ≠ none ∧ fullShelf.point 0 1 ≠ none) ∧
      (Asked (busy (equipped working)) .p1 .connect [0, 5, 0, 0, 1] ∧ NoIdleBus (busy (equipped working)) ∧
        (busy (equipped working)).point 0 0 = none) := by decide +kernel
/-- ConnectJoinsQueue: seven entries, one of them of the desk, for other lines; desk 4 holds the line. -/
theorem test_hyps_ConnectJoinsQueue :
    let t := busy (queued ((List.replicate 6 (entry .d2 9)) ++ [entry .d1 6]))
    let s := t.setBus .b1 { t.bus .b1 with line := some 5 }
    Asked s .p1 .connect [0, 5, 0, 1, 0] ∧ NoIdleBus s ∧ field [0, 5, 0, 1, 0] 0 2 ≤ 2047 ∧
      field [0, 5, 0, 1, 0] 2 1 = modeCode .split ∧ (s.line 5).equipped = true ∧
      (∀ e ∈ s.gar.queue, e.desk ≠ .d1 ∨ e.line ≠ 5) ∧ (s.bus .b1).line = some 5 ∧
      (∀ b ∈ allBuses, (s.bus b).line = some 5 → (s.bus b).holder = some (.desk .d4)) ∧
      s.gar.queue.length < 8 ∧ (s.gar.queue.filter fun e => e.desk = .d1).length < 2 := by decide +kernel
theorem test_hyps_NowaitConnectTakesIdleBus :
    let s := equipped working
    Asked s .p1 .connect [0, 5, 0, 1, 1] ∧ NoClaimant s ∧ s.op = .operational ∧ s.idleBus = some .b0 ∧
      field [0, 5, 0, 1, 1] 2 1 = modeCode .split ∧ (s.line 5).equipped = true ∧
      (∀ b ∈ allBuses, (s.bus b).line ≠ some 5) ∧ s.freePoint 0 = some 0 ∧ (s.port .p0).link = .up ∧
      (s.line 5).call ≠ .busy ∧ (s.line 5).call ≠ .ringing := by decide +kernel
def candidate : Candidate := { line := 9, source := .pointer, name := .routine }
/-- ArbitrationChoosesWinner: a candidate against the service ratio, against lower desk claims, and against a desk
claim of its priority. -/
theorem test_hyps_ArbitrationChoosesWinner :
    let prio := working.gar.prio
    let claim (n : Nat) : DeskClaim := ({ entry .d1 5 with priority := n }, true)
    (∀ d ∈ [claim 0], d.1.priority < prio.ofName candidate.name) ∧ (4 : Nat) ≤ 4 ∧
      (∀ e ∈ [claim 0], e.1.priority < (claim 1).1.priority) ∧
      (∀ e ∈ [claim 1], e.1.priority ≤ (claim 1).1.priority) ∧
      (3 < 4 ∧ prio.ofName candidate.name ≤ (claim 1).1.priority) := by decide +kernel
/-- HeldBusRefusals: bus 4 is no bus; B1 is desk 2's, not desk 1's; B1 on its way out. -/
theorem test_hyps_HeldBusRefusals :
    let s := onTest testBus
    let t := onTest { testBus with reason := some .released }
    busOf 4 = none ∧ busOf 1 = some .b1 ∧ (s.bus .b1).holder ≠ some (.desk .d1) ∧ (t.bus .b1).reason ≠ none ∧
      Asked s .p1 .renew [4] ∧ Asked s .p1 .renew [1] ∧ Asked t .p2 .renew [1] ∧
      Asked s .p1 .setMode [1, 3, 0, 0, 0, 0, 0, 0] ∧ Asked t .p2 .setMode [1, 2, 0, 0, 0, 0, 0, 0] := by decide +kernel
theorem test_hyps_HeldBusRefusals_run_release :
    let s := onTest testBus
    let t := onTest { testBus with reason := some .released }
    Asked s .p1 .run [1, 8, 0] ∧ Asked t .p2 .run [1, 7, 1] ∧ Asked s .p1 .release [4] ∧
      Asked s .p1 .release [1] := by decide +kernel
/-- ReleaseStartsRelease: B1 in HELD, in CONNECTING, and on its way out. -/
theorem test_hyps_ReleaseStartsRelease :
    let s := onTest testBus
    let c := onTest { testBus with state := .connecting, reached := false, relay := .pointOperating 3 }
    let t := onTest { testBus with state := .releasing, reason := some .holdExpired }
    busOf (field [1] 0 1) = some .b1 ∧ Asked s .p2 .release [1] ∧ Asked c .p2 .release [1] ∧
      Asked t .p2 .release [1] ∧ (s.bus .b1).holder = some (.desk .d2) ∧ (s.bus .b1).state = .held ∧
      (s.bus .b1).reason = none ∧ (s.bus .b1).reached = true ∧ (s.bus .b1).line = some 5 ∧
      (c.bus .b1).state = .connecting ∧ (c.bus .b1).reason = none ∧ (c.bus .b1).relay = .pointOperating 3 ∧
      (t.bus .b1).state = .releasing := by decide +kernel
/-- SetModeMovesBus: B1 in HELD asked for each mode, and B1 measuring. -/
theorem test_hyps_SetModeMovesBus :
    let s := onTest testBus
    let m := onTest { testBus with state := .measuring }
    Asked s .p2 .setMode [1, 0, 0, 0, 0, 0, 0, 0] ∧ Asked s .p2 .setMode [1, 1, 0, 0, 0, 0, 0, 0] ∧
      Asked s .p2 .setMode [1, 2, 0, 0, 0, 0, 0, 0] ∧ Asked m .p2 .setMode [1, 2, 0, 0, 0, 0, 0, 0] ∧
      busOf 1 = some .b1 ∧ (s.bus .b1).holder = some (.desk .d2) ∧ (s.bus .b1).state = .held ∧
      (s.bus .b1).reason = none ∧ (m.bus .b1).state = .measuring ∧ (m.bus .b1).reason = none := by decide +kernel
theorem test_hyps_RenewAndBusGet :
    let s := onTest testBus
    Asked s .p2 .renew [1] ∧ Asked s .p2 .busGet [1] ∧ Asked s .p1 .busGet [3] ∧ Asked s .p1 .busGet [4] ∧
      busOf 1 = some .b1 ∧ busOf 3 = some .b3 ∧ busOf 4 = none ∧ (s.bus .b1).holder = some (.desk .d2) ∧
      (s.bus .b1).state ≠ .releasing ∧ (s.bus .b1).reason = none := by decide +kernel
/-- ConnectRelaySequence: each relay phase of a connect of desk 2, whose port is UP with room; a failing check. -/
theorem test_hyps_ConnectRelaySequence :
    let s (r : RelayPhase) (m : Mode) : State :=
      onTest { testBus with state := .connecting, reached := false, relay := r, mode := some m }
    Settled (s (.pointOperating 0) .split) ∧ ((s (.pointOperating 0) .split).bus .b1).reason = none ∧
      ((s (.pointOperating 0) .split).bus .b1).relay = .pointOperating 0 ∧
      ((s (.lineOperating 0) .split).bus .b1).relay = .lineOperating 0 ∧
      ((s (.lineOperating 0) .bridge).bus .b1).mode = some .bridge ∧
      ((s (.checking 0) .split).bus .b1).relay = .checking 0 ∧
      ((s (.checking 0) .split).bus .b1).line = some 5 ∧
      ((s (.checking 0) .split).bus .b1).holder = some (.desk .d2) ∧
      ((s (.checking 0) .split).port (deskPort .d2)).link = .up ∧
      ((s (.checking 0) .split).port (deskPort .d2)).notices.length < 32 ∧ (true && true && false) = false ∧
      ((s .operated .split).bus .b1).relay = .operated := by decide +kernel
/-- ConnectRelaySequence: a routine connect that a call ends at the shelf point, with a deferred entry before and one
after the due time of its own. -/
def cutShort : State :=
  let d (line : Nat) (due : Stamp) : DeferredEntry := { line := line, tries := 1, due := due, sweep := 0 }
  { (busy (onTest testBus)).setBus .b1 { testBus with
      state := .connecting, holder := some (.routine .routine), reason := some .preemptedCall, reached := false,
      relay := .pointOperating 3 } with
    rts := { working.rts with held := 1, deferred := [d 7 ⟨0, 60⟩, d 8 ⟨1, 0⟩] } }
theorem test_hyps_ConnectRelaySequence_deferred :
    let due := cutShort.now.later (60 * cutShort.rts.params.retry)
    Settled cutShort ∧ (cutShort.bus .b1).relay = .pointOperating 3 ∧ (cutShort.bus .b1).line = some 5 ∧
      (cutShort.bus .b1).holder = some (.routine .routine) ∧ (cutShort.bus .b1).reason = some .preemptedCall ∧
      NoIdleBus cutShort ∧ (cutShort.bus .b1).state = .connecting ∧ (∀ f ∈ cutShort.exc.seizes, f.line ≠ 5) ∧
      (∀ f ∈ cutShort.rts.deferred, f.line ≠ 5) ∧ cutShort.rts.deferred.length < 32 ∧
      (∀ f ∈ cutShort.rts.deferred.take 1, due.before f.due = false) ∧
      (∀ f ∈ cutShort.rts.deferred.drop 1, due.before f.due = true) := by decide +kernel
/-- ReleaseRelaySequence: the line relay releasing with every bus in use; the point relay releasing with no claim. -/
theorem test_hyps_ReleaseRelaySequence :
    let s := busy working
    let l := s.setBus .b1 { testBus with state := .releasing, reason := some .released, relay := .lineReleasing 0 }
    let p := onTest { testBus with
      state := .releasing, reason := some .released, relay := .pointReleasing 0, line := none, lastLine := some 5 }
    Settled l ∧ (l.bus .b1).relay = .lineReleasing 0 ∧ (l.bus .b1).line = some 5 ∧ NoIdleBus l ∧
      (l.bus .b1).state = .releasing ∧ (∀ e ∈ l.exc.seizes, e.line ≠ 5) ∧ Settled p ∧
      (p.bus .b1).relay = .pointReleasing 0 ∧ (p.bus .b1).lastLine = some 5 ∧ (p.bus .b1).point = some 0 ∧
      (p.bus .b1).holder = some (.desk .d2) ∧ NoClaimant p ∧ p.op = .operational := by decide +kernel
/-- The shelf point relay of B1 releasing after routine work on line 5. -/
def routineLeaving : State :=
  let s := onTest { testBus with
    state := .releasing, holder := some (.routine .verify), reason := some .runEnd, relay := .pointReleasing 0,
    line := none, lastLine := some 5 }
  { s with rts := { s.rts with held := 1 } }
theorem test_hyps_ReleaseRelaySequence_routine :
    Settled routineLeaving ∧ (routineLeaving.bus .b1).relay = .pointReleasing 0 ∧
      (routineLeaving.bus .b1).lastLine = some 5 ∧ (routineLeaving.bus .b1).point = some 0 ∧
      (routineLeaving.bus .b1).holder = some (.routine .verify) ∧ NoClaimant routineLeaving ∧
      routineLeaving.op = .operational := by decide +kernel
/-- The line relay of B1 releasing line 5, with a SEIZE of two tags and a held report pending. -/
def seizedRelease : State :=
  { (busy (seizing [1, 2])).setBus .b1
      { testBus with state := .releasing, reason := some .preemptedCall, relay := .lineReleasing 0 } with
    exc := { working.exc with seizes := [{ line := 5, tags := [1, 2], report := some .idle }] } }
/-- ReleaseRelaySequence: a pending SEIZE of two tags with a held report. -/
theorem test_hyps_ReleaseRelaySequence_seize :
    Canonical seizedRelease ∧ Settled seizedRelease ∧ (seizedRelease.bus .b1).relay = .lineReleasing 0 ∧
      (seizedRelease.bus .b1).line = some 5 ∧ NoIdleBus seizedRelease ∧
      (seizedRelease.bus .b1).state = .releasing ∧
      seizedRelease.exc.seizes.find? (fun e => e.line = 5) =
        some { line := 5, tags := [1, 2], report := some .idle } :=
  ⟨canonical_of rfl rfl rfl rfl rfl, by decide +kernel⟩
/-- HoldAndToneTimers: a running hold timer, and each timer of a bus in TONE. -/
theorem test_hyps_HoldAndToneTimers :
    let s := onTest { testBus with hold := .running 0 }
    let t (out : ToneLevel) (d : Option Nat) (c : Cadence) : State := onTest { testBus with
      state := .tone, tone := { testBus.tone with off := 1 },
      gen := { output := out, divider := d, cadence := c, limitMs := some 0 } }
    Settled s ∧ (s.bus .b1).hold = .running 0 ∧ (s.bus .b1).line = some 5 ∧
      (s.bus .b1).holder = some (.desk .d2) ∧ (s.bus .b1).reason = none ∧ (s.bus .b1).reached = true ∧
      (s.bus .b1).state = .held ∧ (s.port (deskPort .d2)).link = .up ∧
      (s.port (deskPort .d2)).notices.length < 32 ∧
      ((t .high (some 500) .continuous).bus .b1).state = .tone ∧
      ((t .high (some 500) .continuous).bus .b1).gen.limitMs = some 0 ∧
      ((t .high (some 500) .continuous).bus .b1).gen.output = .high ∧
      ((t .low (some 500) .continuous).bus .b1).gen.output = .low ∧
      ((t .high (some 500) (.burst 0)).bus .b1).gen.cadence = .burst 0 ∧
      ((t .rest none (.silence 0)).bus .b1).gen.cadence = .silence 0 ∧
      ((t .rest none (.silence 0)).bus .b1).tone.off ≠ 0 ∧ (s.bus .b1).state ≠ .tone ∧
      ((onTest { testBus with hold := .absent }).bus .b1).hold = .absent := by decide +kernel

/-! ### Runs, results and traces -/

/-- Channel MC0 in a state. -/
def withChannel (s : State) (c : ChannelState) : State := s.setChan .mc0 { ChannelRecord.fresh with state := c }

/-- RunBindsBus: a bus that measures; an empty program; no channel in service; a channel that warms up. -/
theorem test_hyps_RunBindsBus :
    let s := onTest testBus
    let m := onTest { testBus with state := .measuring }
    Asked m .p2 .run [1, 0, 1] ∧ (m.bus .b1).state ≠ .held ∧ Asked s .p2 .run [1, 7, 1] ∧ s.program 7 = [] ∧
      Asked s .p2 .run [1, 1, 0] ∧ s.program 1 ≠ [] ∧ (∀ c ∈ allChannels, (s.chan c).state = .off) ∧
      (s.bus .b1).holder = some (.desk .d2) ∧ (s.bus .b1).line = some 5 ∧ (s.bus .b1).state = .held ∧
      (s.bus .b1).reason = none ∧ ((withChannel s .warming).chan .mc0).state = .warming ∧
      ((withChannel s .warming).chan .mc0).enable = true ∧ (withChannel s .warming).readyChannel = none := by decide +kernel
/-- B1 of desk 2 in HELD beside a READY channel MC0 of calibration age `age`. -/
def readyBeside (age : Option Nat) : State :=
  (onTest testBus).setChan .mc0 { ChannelRecord.fresh with state := .ready, calAge := age }
/-- RunBindsBus: a READY channel given at once, its calibration at the limit of 900 s and one beyond it. -/
theorem test_hyps_RunBindsBus_ready :
    Asked (readyBeside (some 900001)) .p2 .run [1, 1, 0] ∧ Asked (readyBeside (some 900000)) .p2 .run [1, 1, 0] ∧
      (readyBeside none).readyChannel = some .mc0 ∧ (readyBeside (some 900001)).readyChannel = some .mc0 ∧
      (readyBeside (some 900000)).readyChannel = some .mc0 ∧
      ((readyBeside (some 900001)).chan .mc0).calAge = some 900001 ∧
      ((readyBeside (some 900000)).program 1).head? = some (.fv 64) ∧
      ((readyBeside none).chan .mc0).enable = true ∧ ((readyBeside none).chan .mc0).disablePending = false := by
  decide +kernel
/-- RunBindsBus: MC1 READY, apart from other events and at an instant of which further events may follow. -/
theorem test_hyps_RunBindsBus_mc1 :
    let s := (onTest testBus).setChan .mc1 { ChannelRecord.fresh with state := .ready }
    let h := s.mapGar fun g => { g with moment := .together }
    (s.readyChannel = some .mc1 ∧ Asked s .p2 .run [1, 1, 0]) ∧ h.readyChannel = some .mc1 ∧
      Asked h .p2 .run [1, 1, 0] := by decide +kernel
/-- NumbersAndWaitList: 65 535 in use and 0 no number, so 1 is next; a list in order. -/
theorem test_hyps_NumbersAndWaitList :
    (65535 < 65536 ∧ 2 < 40 ∧ (∀ j, j < 2 → (65535 + j) % 65536 = 0 ∨ ((65535 + j) % 65536 == 65535) = true) ∧
      (65535 + 2) % 65536 ≠ 0 ∧ ((65535 + 2) % 65536 == 65535) = false) ∧
      [(⟨1, .b0, 5⟩ : WaitEntry), ⟨2, .b1, 4⟩].Pairwise fun a b => b.priority ≤ a.priority := by decide +kernel

def voltages : StepResult :=
  { kind := .fv, pair := none, status := .ok, values := .fv none none none, bias := none, range := none, gain := none,
    trace := ⟨some .mc0, 10, 64⟩, findings := [], distance := none }

/-- Desk 2's run 7 of program 1 on B1, in its second step. -/
def aRun : RunContext :=
  { handle := 7, origin := .desk .d2, line := 5, bus := .b1, cls := 0, program := 1, ticketing := true,
    channel := some .mc0, stepIx := 1, phase := .settle, final := false, gain := .g1, range := .rb, start := ⟨0, 0⟩,
    done := [voltages], cur := some { voltages with kind := .res, values := .res none none none none }, pending := [],
    abort := none, work := { StepWork.idle with stage := .resVx } }

def measuring (x : RunContext) : State :=
  ((onTest { testBus with state := .measuring, run := some 7 }).setCtx .b1 (some x)).setChan .mc0
    { ChannelRecord.fresh with
      state := .busy, run := some 7, bus := some .b1, pair := some .tr, bias := .b2, range := .rb,
      activity := .settling, timer := 0, written := 74 }

/-- A routine run on line 5 with its bias on. -/
def routineRun : State :=
  let x := { aRun with origin := .routine .routine }
  let s := measuring x
  s.setBus .b1 { s.bus .b1 with holder := some (.routine .routine), hold := .absent }
/-- SeizeOutcomes: a call on a line that routine work connects, and on one it measures with the bias on. -/
theorem test_hyps_SeizeOutcomes_call :
    Asked (connecting (.routine .routine)) .p0 .callState [0, 5, 2] ∧ Asked routineRun .p0 .callState [0, 5, 1] ∧
      (field [0, 5, 2] 2 1, CallState.ringing) ∈ [(1, .busy), (2, .ringing)] ∧
      (routineRun.line 5).access = .split .b1 .settled ∧ (routineRun.bus .b1).reason = none ∧
      (routineRun.bus .b1).holder = some (.routine .routine) ∧ (routineRun.bus .b1).state = .measuring ∧
      routineRun.ctx .b1 = some { aRun with origin := .routine .routine } ∧ (routineRun.chan .mc0).bias ≠ .off ∧
      routineRun.exc.seizes = [] := by decide +kernel
/-- Runs 7 on B0 and 8 on B1 wait, in that order, both channels at the end of a calibration that passes, and the
events of one instant are being taken. -/
def twoWait (events : List Instr) : State :=
  let x (h : Nat) (b : Bus) : RunContext :=
    { aRun with handle := h, bus := b, channel := none, phase := .waitChannel, stepIx := 0, done := [], cur := none }
  let c : ChannelRecord := { ChannelRecord.fresh with state := .calibrating, cal := some ⟨[], [0, 0, 0, 0]⟩ }
  { (((working.setCtx .b0 (some (x 7 .b0))).setCtx .b1 (some (x 8 .b1))).setChan .mc0 c).setChan .mc1 c with
    gar := { working.gar with waiting := [⟨7, .b0, 4⟩, ⟨8, .b1, 4⟩], moment := .together }
    pending := events }
/-- The channels of runs 7 and 8 after `n` steps. -/
def channelsAfter : Nat → State → Option Channel × Option Channel
  | 0, s => ((s.ctx .b0).bind RunContext.channel, (s.ctx .b1).bind RunContext.channel)
  | n + 1, s => match step s with
    | .next t => channelsAfter n t
    | _ => (none, none)
/-- R56: whichever event of an instant is taken first, MC0 is matched with the earlier head. -/
theorem test_both_ready_at_one_instant :
    channelsAfter 2 (twoWait [.calibrationEnd .mc1, .calibrationEnd .mc0]) = (some .mc0, some .mc1) ∧
      channelsAfter 2 (twoWait [.calibrationEnd .mc0, .calibrationEnd .mc1]) = (some .mc0, some .mc1) := by decide +kernel
/-- R56: MC1 is given to the head as it becomes READY; a run that joins ahead of the list later in that instant gets
the next channel, and a channel that becomes READY at the next instant leaves MC1 where it is. -/
theorem test_given_at_once :
    let s := after (.calibrationEnd .mc1) (twoWait [])
    let first := { s with gar := { s.gar with waiting := [⟨8, .b1, 9⟩] }, pending := [.calibrationEnd .mc0] }
    let next := { first with gar := { first.gar with moment := .apart } }
    channelsAfter 0 s = (some .mc1, none) ∧ channelsAfter 1 first = (some .mc0, some .mc1) ∧
      channelsAfter 1 next = (some .mc1, some .mc0) := by decide +kernel
/-- MC1 has just been given to run 8 on B0, MC0 is READY, and desk 2 runs a program that the hazard flag of its line
passes over whole: no run of the part is in this state, as its programs begin with an FV step (R112). -/
def endsAtOnce : State :=
  let w : WaitEntry := ⟨8, .b0, 4⟩
  let x : RunContext := { aRun with handle := 8, bus := .b0, channel := some .mc1, phase := .calibrate, cur := none }
  let s := ((onTest testBus).setLine 5 { (onTest testBus).line 5 with hazard := true }).setProgram 7 [.res .tr .b1 .ra 16]
  let s := (s.setCtx .b0 (some x)).setChan .mc0 { ChannelRecord.fresh with state := .ready, calAge := some 0 }
  let s := s.setChan .mc1 { ChannelRecord.fresh with state := .busy, run := some 8, bus := some .b0 }
  ask { s with gar := { s.gar with moment := .mc1Given w 0 } } .p2 .run [1, 7, 0]
/-- StepKeepsSettled: where the run given MC0 ends at once, MC1's run goes to MC0 and no run is left waiting. -/
theorem test_settled_where_a_run_ends_at_once :
    let t := after (.run .p2) endsAtOnce
    Settled endsAtOnce ∧ Settled t ∧ (t.ctx .b0).bind RunContext.channel = some .mc0 ∧ t.ctx .b1 = none ∧
      (t.chan .mc1).state = .ready := by decide +kernel
/-- CancelRunTable: handle 0, an unknown handle, another desk's run, a final discharge, an aborted run, a discharge
that is not final, and a run with its bias on. -/
theorem test_hyps_CancelRunTable :
    let s := measuring aRun
    Asked s .p2 .cancelRun [0, 0] ∧ Asked s .p2 .cancelRun [0, 8] ∧ s.runBus 7 = some .b1 ∧ s.runBus 8 = none ∧
      s.ctx .b1 = some aRun ∧ Asked s .p1 .cancelRun [0, 7] ∧ aRun.origin ≠ .desk .d1 ∧
      Asked s .p2 .cancelRun [0, 7] ∧ aRun.origin = .desk .d2 ∧ aRun.final = false ∧ aRun.abort = none ∧
      aRun.channel = some .mc0 ∧ aRun.phase = .settle ∧ (s.chan .mc0).bias ≠ .off := by decide +kernel
theorem test_hyps_CancelRunTable_other_runs :
    Asked (measuring { aRun with phase := .discharge, final := true }) .p2 .cancelRun [0, 7] ∧
      Asked (measuring { aRun with abort := some .holdExpired }) .p2 .cancelRun [0, 7] ∧
      Asked (measuring { aRun with phase := .discharge }) .p2 .cancelRun [0, 7] ∧
      (measuring { aRun with phase := .discharge }).ctx .b1 = some { aRun with phase := .discharge } ∧
      (measuring { aRun with phase := .discharge, final := true }).runBus 7 = some .b1 := by decide +kernel

/-- Result 7 in the history, its step 0 traced as 64 samples from 10 on; the ring of MC0 is at `w`. -/
def traced (w : Word32) : State :=
  { working.setChan .mc0 { ChannelRecord.fresh with written := w } with
    rsq := { working.rsq with history :=
      [{ handle := 7, line := 5, cls := 0, origin := .desk .d2, program := 0, ticketing := false, verdict := .pass,
         start := ⟨0, 0⟩, finish := ⟨0, 1⟩, abort := none, channel := some .mc0, steps := [voltages] }] } }

/-- TraceCopiesSamples: handle 0, step 12, an unknown handle, a step beyond the record, an offset at the length. -/
theorem test_hyps_TraceCopiesSamples_refused :
    let s := traced 74
    Asked s .p2 .trace [0, 0, 0, 0, 0, 0, 1] ∧ Asked s .p2 .trace [0, 7, 12, 0, 0, 0, 1] ∧
      Asked s .p2 .trace [0, 8, 11, 0, 0, 0, 1] ∧ (∀ r ∈ s.rsq.history, r.handle ≠ 8) ∧
      Asked s .p2 .trace [0, 7, 1, 0, 0, 0, 1] ∧ Asked s .p2 .trace [0, 7, 0, 0, 64, 0, 1] ∧
      (s.rsq.history.find? fun r => r.handle = 7).isSome = true ∧ voltages.trace.length ≤ 64 := by decide +kernel
/-- TraceCopiesSamples: the last sample of a step; a buffer that streams; samples the ring holds and lost. -/
theorem test_hyps_TraceCopiesSamples :
    Asked (traced 74) .p2 .trace [0, 7, 0, 0, 63, 4, 0] ∧ 63 < voltages.trace.length ∧
      ((traced 74).port .p2).transfer = none ∧ (streaming 0).transfer ≠ none ∧ voltages.trace.channel = some .mc0 ∧
      ((74 : Word32) - (10 + 63)).toNat ≤ 8192 ∧ ¬ ((8266 : Word32) - (10 + 63)).toNat ≤ 8192 ∧
      Asked (traced 8266) .p2 .trace [0, 7, 0, 0, 63, 0, 1] := by decide +kernel

/-! ### Requests that read -/

def aTicket : Ticket :=
  { number := 1, line := 5, code := .foreignV, severity := .soft, origin := .desk .d2, state := .opened,
    assignee := none, clearedBy := none, firstSeen := ⟨0, 0⟩, lastSeen := ⟨0, 0⟩, clearedTime := none,
    closeTime := none, closeReason := none, repeats := 0, reopens := 0, notFound := 0, worst := none,
    distance := none, handle := none, storm := false }

def holding (t : Ticket) : State := { working with tkt := { working.tkt with tickets := [t] } }

theorem test_hyps_ReadingRequests :
    Asked working .p0 .lineGet [7, 255] ∧ Asked working .p1 .lineGet [8, 0] ∧ Asked working .p1 .statusGet [] ∧
      Asked working .p1 .channelGet [1] ∧ channelOf 1 = some .mc1 ∧ Asked working .p1 .channelGet [2] ∧
      Asked (traced 74) .p1 .resultGet [0, 7, 11] ∧ firstStep [0, 7, 11] = 11 ∧ firstStep [0, 7] = 0 ∧
      ((traced 74).rsq.history.find? fun r => r.handle = 7).isSome = true ∧
      Asked (traced 74) .p1 .resultGet [0, 7, 12] ∧ Asked (traced 74) .p1 .resultGet [0, 8] := by decide +kernel
theorem test_hyps_ReadingRequests_counters_tickets :
    Asked working .p1 .countersGet [4] ∧ Asked working .p1 .countersGet [5] ∧
      Asked (holding aTicket) .p1 .ticketGet [0, 1] ∧ (holding aTicket).ticket 1 = some aTicket ∧
      Asked (holding aTicket) .p1 .ticketGet [0, 0] ∧ Asked (holding aTicket) .p1 .ticketGet [0, 2] ∧
      (holding aTicket).ticket 2 = none ∧ Asked (holding aTicket) .p1 .ticketList [15, 255, 255, 7, 0, 0] ∧
      Asked (holding aTicket) .p1 .ticketList [16, 0, 0, 0, 0, 0] := by decide +kernel

/-! ### Tickets -/

def assigned : Ticket := { aTicket with state := .assigned, assignee := some .d2 }
def cleared : Ticket := { aTicket with state := .cleared, clearedBy := some .d2, clearedTime := some ⟨0, 5⟩ }
def closed (t : Stamp) : Ticket := { aTicket with state := .closed, closeTime := some t, closeReason := some .manual }

theorem test_hyps_TicketTakeAndDrop :
    Asked (holding aTicket) .p2 .ticketTake [0, 1] ∧ (holding aTicket).ticket 1 = some aTicket ∧
      aTicket.state = .opened ∧ Asked (holding assigned) .p3 .ticketTake [0, 1] ∧ assigned.state = .assigned ∧
      Asked (holding cleared) .p2 .ticketTake [0, 1] ∧ cleared.state = .cleared ∧
      Asked (holding assigned) .p2 .ticketDrop [0, 1] ∧ assigned.assignee = some .d2 ∧
      Asked (holding assigned) .p3 .ticketDrop [0, 1] ∧ assigned.assignee ≠ some .d3 ∧
      Asked (holding aTicket) .p2 .ticketDrop [0, 1] ∧ aTicket.state ≠ .assigned := by decide +kernel
theorem test_hyps_TicketClearEffects :
    Asked (busy (holding assigned)) .p2 .ticketClear [0, 1] ∧ NoIdleBus (busy (holding assigned)) ∧
      (holding assigned).ticket 1 = some assigned ∧ Asked (busy (holding assigned)) .p3 .ticketClear [0, 1] ∧
      Asked (busy (holding aTicket)) .p2 .ticketClear [0, 1] := by decide +kernel
/-- TicketCloseAndPurge: each standing, a desk without one, a CLOSED ticket. -/
theorem test_hyps_TicketCloseAndPurge :
    Asked (holding aTicket) .p1 .ticketClose [0, 1] ∧ working.supervisor = .d1 ∧
      Asked (holding assigned) .p2 .ticketClose [0, 1] ∧ Asked (holding cleared) .p2 .ticketClose [0, 1] ∧
      Asked (holding aTicket) .p2 .ticketClose [0, 1] ∧ Asked (holding (closed ⟨0, 0⟩)) .p1 .ticketClose [0, 1] ∧
      (holding (closed ⟨0, 0⟩)).ticket 1 = some (closed ⟨0, 0⟩) ∧
      Asked (holding (closed ⟨0, 0⟩)) .p1 .ticketPurge [] := by decide +kernel

def finding (sev : Severity) : Finding :=
  { line := 5, code := .foreignV, severity := sev, value := none, distance := none, handle := none, start := ⟨0, 0⟩,
    origin := .desk .d2 }
def stormy (s : State) : State := { s with tkt := { s.tkt with storm := .storm } }

/-- SoftFindingsSuppressedInStorm: no live ticket in STORM, a HARD finding, a live ticket. -/
theorem test_hyps_SoftFindingsSuppressedInStorm :
    (stormy working).liveTicket 5 .foreignV = none ∧ (finding .soft).severity = .soft ∧
      (stormy working).tkt.storm = .storm ∧
      (stormy working).cnt.g0.count ((faultNum .foreignV - 1) * 4 + 2) < 65535 ∧
      ¬ ((finding .hard).severity = .soft ∧ (stormy working).tkt.storm = .storm) ∧
      (holding aTicket).liveTicket 5 .foreignV = some aTicket := by decide +kernel
theorem test_hyps_CreationMakesTicket :
    Canonical working ∧ working.liveTicket 5 .foreignV = none ∧
      ¬ ((finding .soft).severity = .soft ∧ working.tkt.storm = .storm) ∧ working.tkt.tickets.length < 128 :=
  ⟨canonical_working, by decide +kernel, by decide +kernel, by decide +kernel⟩
/-- CreationMakesTicket: a merge that raises SOFT to HARD, one that raises nothing, and one into a CLEARED ticket whose
start lies at, and after, the cleared time. -/
theorem test_hyps_CreationMakesTicket_merge :
    (holding aTicket).liveTicket 5 .foreignV = some aTicket ∧ (finding .hard).line = 5 ∧
      (finding .hard).code = .foreignV ∧ (holding aTicket).cnt.g0.count ((faultNum .foreignV - 1) * 4 + 1) < 65535 ∧
      (aTicket.severity, (finding .hard).severity) ∈ [(.soft, .hard), (.soft, .hazard), (.hard, .hazard)] ∧
      (holding cleared).liveTicket 5 .foreignV = some cleared ∧ cleared.clearedTime = some ⟨0, 5⟩ ∧
      (⟨0, 5⟩ : Stamp).before { finding .hard with start := ⟨0, 5⟩ }.start = false ∧
      (⟨0, 5⟩ : Stamp).before { finding .hard with start := ⟨0, 6⟩ }.start = true := by decide +kernel
/-- R147: a finding of a run begun after the clear gives the ticket back to the desk that cleared it. -/
theorem test_reopen_goes_to_clearing_desk :
    ((holding cleared).takeFinding { finding .hard with start := ⟨0, 6⟩ }).tkt.tickets =
      [{ aTicket with severity := .hard, state := .assigned, assignee := some .d2, repeats := 1, reopens := 1 }] := by
  decide +kernel
/-- EvictionPicksOldestClosed: two CLOSED tickets of one close time behind a later one. -/
theorem test_hyps_EvictionPicksOldestClosed :
    let l := [closed ⟨1, 0⟩, aTicket, closed ⟨0, 9⟩, closed ⟨0, 9⟩]
    (∀ t ∈ l, t.state = .closed → t.closeTime ≠ none) ∧ oldestClosed l = some (closed ⟨0, 9⟩) ∧
      oldestClosed [aTicket] = none := by decide +kernel
/-- UnconfirmedTicketTable: a HARD and a SOFT ticket, one with a not-found count of 1, a CLEARED one with a run that
starts at and after the cleared time, a CLOSED one. -/
theorem test_hyps_UnconfirmedTicketTable :
    ({ aTicket with severity := .hard } : Ticket).severity = .hard ∧ aTicket.severity ≠ .hard ∧ aTicket.notFound = 0 ∧
      1 ≤ ({ aTicket with notFound := 1 } : Ticket).notFound ∧ cleared.state = .cleared ∧
      cleared.clearedTime = some ⟨0, 5⟩ ∧ (⟨0, 5⟩ : Stamp).before ⟨0, 5⟩ = false ∧
      (⟨0, 5⟩ : Stamp).before ⟨0, 6⟩ = true ∧ (closed ⟨0, 0⟩).state = .closed := by decide +kernel

/-! ### Configuration -/

/-- ConfigLinesWritesRun: line 2048, class 8, a line of the run in use, and a run cut off at line 2047. -/
theorem test_hyps_ConfigLinesWritesRun :
    Asked working .p1 .configLines [8, 0, 0, 1, 0, 0] ∧ Asked working .p1 .configLines [0, 0, 0, 1, 8, 0] ∧
      (Asked (onTest testBus) .p1 .configLines [0, 4, 0, 2, 7, 0] ∧ ((onTest testBus).line 5).access ≠ .normal ∧
        ((onTest testBus).line 4).access = .normal) ∧
      (Asked working .p1 .configLines [7, 255, 0, 2, 7, 1] ∧ (working.line 2047).access = .normal ∧
        working.program (working.cls 7).program ≠ []) ∧
      Table.wfFrom (fun _ => LineRecord.fresh) 0 working.lrt.lines = true ∧
      Table.wfFrom (fun _ => LineRecord.fresh) 0 (onTest testBus).lrt.lines = true := by decide +kernel

/-- A CONFIG_CLASS payload. -/
def classPayload (c : Byte) (e : ClassEntry) : List Byte := c :: classEntryBytes e
/-- Every limit at the top of its range, and a capacitance per km above its own. -/
def topEntry : ClassEntry :=
  { ClassEntry.default with
    dcSoft := 125000, dcHazard := 125000, acSoft := 125000, acHazard := 125000, trHard := 999999999, trSoft := 999999999,
    tgHard := 999999999, tgSoft := 999999999, rgHard := 999999999, rgSoft := 999999999, openMin := 4095, capMax := 4096,
    capPerKm := 81 }

/-- ConfigClassWritesEntry: class 8; limits one above their ranges; limits out of order; an entry with every limit at
its top; a class with an equipped line and a program without steps, named by an entry and not. -/
theorem test_hyps_ConfigClassWritesEntry :
    (Canonical working ∧ Canonical (equipped working)) ∧ Asked working .p1 .configClass (classPayload 8 topEntry) ∧
      (Asked working .p1 .configClass (classPayload 7 { topEntry with acHazard := 125001 }) ∧
        125000 < (classEntryOf (classPayload 7 { topEntry with acHazard := 125001 })).acHazard) ∧
      (Asked working .p1 .configClass (classPayload 7 { topEntry with rgSoft := 1000000000 }) ∧
        999999999 < (classEntryOf (classPayload 7 { topEntry with rgSoft := 1000000000 })).rgSoft) ∧
      (Asked working .p1 .configClass (classPayload 7 { topEntry with openMin := 4096 }) ∧
        (classEntryOf (classPayload 7 { topEntry with openMin := 4096 })).consistent = false) ∧
      (Asked working .p1 .configClass (classPayload 7 topEntry) ∧ classEntryOf (classPayload 7 topEntry) = topEntry ∧
        topEntry.inRange = true ∧ topEntry.consistent = true ∧ field (classPayload 7 topEntry) 1 1 ≤ 1 ∧
        field (classPayload 7 topEntry) 0 1 = 7) ∧
      (Asked (equipped working) .p1 .configClass (classPayload 0 { topEntry with program := 7 }) ∧
        ((equipped working).line 5).equipped = true ∧ ((equipped working).line 5).cls = 0 ∧
        (equipped working).program 7 = [] ∧ (equipped working).program 1 ≠ []) :=
  ⟨⟨canonical_working, canonical_of rfl (by decide +kernel) rfl rfl rfl⟩, by decide +kernel⟩
/-- R12: a class with an equipped line is not given a program without steps. -/
theorem test_class_program_empty :
    ((after (.configClass .p1) (ask (equipped working) .p1 .configClass
      (classPayload 0 { topEntry with program := 7 }))).port .p1).replies.map Reply.outcome =
        [.refused .emptyProgram] := by decide +kernel
/-- ConfigProgramReplaces: program 8; a list that begins with WAIT; the program of a run; an FV step with 17 for N. -/
theorem test_hyps_ConfigProgramReplaces :
    Asked working .p1 .configProgram [8, 0] ∧
      (Asked working .p1 .configProgram [7, 1, 3, 0, 0, 0, 0, 10] ∧
        (stepsOf 1 [3, 0, 0, 0, 0, 10]).map List.head? = some (some (.wait 10))) ∧
      (Asked (measuring aRun) .p1 .configProgram [1, 1, 0, 0, 0, 0, 0, 17] ∧ (measuring aRun).ctx .b1 = some aRun ∧
        aRun.program = 1) ∧
      (Asked working .p1 .configProgram [7, 1, 0, 0, 0, 0, 0, 17] ∧
        stepsOf 1 [0, 0, 0, 0, 0, 17] = some [.fv 17]) ∧
      (∀ b ∈ allBuses, working.ctx b = none ∧ (working.bus b).state = .idle) := by decide +kernel
/-- ConfigProgramReplaces: N at 0, at a value of the set, one above it and above them all; WAIT at both ends. -/
theorem test_hyps_ConfigProgramReplaces_bounds :
    stepsOf 6 ([0, 0, 0, 0, 0, 0] ++ [0, 0, 0, 0, 0, 64] ++ [0, 0, 0, 0, 0, 65] ++ [0, 0, 0, 0, 255, 255] ++
        [3, 0, 0, 0, 0, 9] ++ [3, 0, 0, 0, 19, 137]) =
      some [.fv 0, .fv 64, .fv 65, .fv 65535, .wait 9, .wait 5001] ∧
      [ProgramStep.fv 0, .fv 64, .fv 65, .fv 65535, .wait 9, .wait 5001].map boundStep =
        [.fv 16, .fv 64, .fv 256, .fv 1024, .wait 10, .wait 5000] := by decide +kernel
theorem test_hyps_ParametersClampedAndWritten :
    Asked working .p1 .configPriority [8, 7, 0, 1, 2, 3, 4] ∧ Asked working .p1 .configRoutine [5, 9, 0, 59, 0, 61] ∧
      Asked working .p1 .configStorm [0, 9, 1, 1, 0] ∧
      Asked working .p1 .configTimes [0, 29, 0, 9, 0, 4, 1, 245, 0, 5] := by decide +kernel

/-- MC0 as given, MC1 warming up. -/
def twoChannels (c : ChannelState) : State :=
  ((working.setChan .mc0 { ChannelRecord.fresh with state := c })).setChan .mc1
    { ChannelRecord.fresh with state := .warming }

theorem test_hyps_ChannelSetTable :
    Asked (twoChannels .off) .p1 .channelSet [0, 1] ∧ channelOf 0 = some .mc0 ∧
      ((twoChannels .off).chan .mc1).inService = true ∧ (twoChannels .off).op = .operational ∧
      Asked { twoChannels .off with op := .config } .p1 .channelSet [0, 1] ∧
      Asked (twoChannels .off) .p1 .channelSet [0, 0] ∧ ((twoChannels .off).chan .mc0).state = .off ∧
      Asked (twoChannels .busy) .p1 .channelSet [0, 0] ∧ ((twoChannels .busy).chan .mc0).state = .busy ∧
      Asked (twoChannels .ready) .p1 .channelSet [0, 0] ∧ ((twoChannels .ready).chan .mc0).state = .ready := by decide +kernel
/-- ChannelSetTable: CONFIG, where both channels are OFF; the last channel in service with no run waiting. -/
theorem test_hyps_ChannelSetTable_alone :
    (Asked State.reset .p1 .channelSet [0, 1] ∧ Asked State.reset .p1 .channelSet [0, 0] ∧
        State.reset.op = .config ∧ (State.reset.chan .mc0).state = .off) ∧
      Asked (withChannel working .ready) .p1 .channelSet [0, 0] ∧ (withChannel working .ready).gar.waiting = [] ∧
      ((withChannel working .ready).chan .mc0).state = .ready ∧ ((withChannel working .ready).chan .mc1).state = .off ∧
      Asked (withChannel working .busy) .p1 .channelSet [0, 0] ∧
      Asked (busy working) .p1 .channelSet [0, 1] ∧ NoIdleBus (busy working) := by decide +kernel
/-- CommitEntersOperational: OPERATIONAL; a class of equipped lines with an empty program; every class in order. -/
theorem test_hyps_CommitEntersOperational :
    let c := equipped State.reset
    let e := (equipped State.reset).setCls 0 { ClassEntry.default with program := 7 }
    Canonical c ∧ Canonical e ∧ Asked working .p1 .configCommit [] ∧ Asked c .p1 .configCommit [] ∧
      Asked e .p1 .configCommit [] ∧ c.op = .config ∧ (e.line 5).equipped = true ∧ (e.line 5).cls = 0 ∧
      e.program (e.cls 0).program = [] ∧ (∀ n < 8, c.program (c.cls n).program ≠ []) ∧ NoClaimant c ∧
      c.gar.ratio = 0 ∧ c.gar.waiting = [] :=
  ⟨canonical_of rfl (by decide +kernel) rfl rfl rfl, canonical_of rfl (by decide +kernel) (by decide +kernel) rfl rfl,
    by decide +kernel⟩
/-- RoutineStartAndStop: a scheduler that runs; one that is STOPPED with no holding condition, and with one. -/
theorem test_hyps_RoutineStartAndStop :
    let r := { busy working with rts := { working.rts with state := .running } }
    Asked r .p1 .routineStop [] ∧ NoIdleBus r ∧ Asked r .p1 .routineStart [] ∧ r.rts.state ≠ .stopped ∧
      Asked (busy working) .p1 .routineStart [] ∧ NoIdleBus (busy working) ∧
      (busy working).rts.state = .stopped ∧ (busy working).tkt.storm = .normal ∧
      ((busy working).port .p0).link = .up ∧ Asked (stormy (busy working)) .p1 .routineStart [] ∧
      (stormy (busy working)).tkt.storm = .storm := by decide +kernel
theorem test_hyps_RestartKeepsRecords :
    Asked working .p1 .restart [] ∧ (∀ b ∈ allBuses, (working.bus b).state = .idle ∧ working.ctx b = none) ∧
      working.gar.queue = [] ∧ working.gar.waiting = [] ∧ working.rts.lockout = [] ∧
      working.tkt.storm = .normal := by decide +kernel
/-- R38, R58: the bus of a routine run that waits for a channel is released with RESTART. -/
theorem test_restart_reason :
    let x := { aRun with origin := .routine .routine, phase := .waitChannel, channel := none, done := [], cur := none }
    let s := (onTest { testBus with holder := some (.routine .routine), state := .measuring, run := some 7 }).setCtx .b1
      (some x)
    ((after (.restart .p1) (ask s .p1 .restart [])).bus .b1).reason = some .restart := by decide +kernel
theorem test_hyps_CountersClearAndSubscribe :
    Asked working .p1 .countersClear [3, 0, 0, 127, 255] ∧ Asked working .p1 .countersClear [4] ∧
      Asked working .p1 .countersClear [5] ∧ Asked working .p1 .countersClear [4, 0, 0, 0, 0] ∧
      Asked working .p1 .subscribe [255] := by decide +kernel

/-! ### Channels and the steps of a run -/

/-- MC0 with a calibration, MC1 warming up. -/
def calibrating (w : CalWork) : State :=
  (twoChannels .off).setChan .mc0 { ChannelRecord.fresh with state := .calibrating, cal := some w }

/-- Calibration: a warm-up before and in its last stage, a gain's last sample, offsets at the limit and beyond it. -/
theorem test_hyps_Calibration :
    let warm (n : Nat) : ChannelRecord := { ChannelRecord.fresh with state := .warming, stage := n }
    let s := calibrating ⟨[], [2048, -2048, 0, 0]⟩
    (warm 1).state = .warming ∧ (warm 1).stage < 2 ∧ (warm 2).stage = 2 ∧ (working.chan .mc0).state ≠ .warming ∧
      (List.replicate 66 (1 : Int)).length = 66 ∧ Settled s ∧ (s.chan .mc0).state = .calibrating ∧
      (s.chan .mc0).cal = some ⟨[], [2048, -2048, 0, 0]⟩ ∧ s.gar.waiting = [] ∧ s.givenMc1 = none ∧ (2048 : Int).natAbs ≤ 2048 ∧
      2048 < (2049 : Int).natAbs ∧ (s.chan .mc1).inService = true := by decide +kernel

/-- Calibration: a first failure at each gain, at the limit and one beyond it. -/
theorem test_hyps_Calibration_fails :
    let first (l : List (Gain × Int)) : Option (Gain × Int) := l.find? fun e => 2048 < e.2.natAbs
    first [(.g1, 2049), (.g4, 0), (.g16, 0), (.g64, 3000)] = some (.g1, 2049) ∧
      first [(.g1, 2048), (.g4, -2049), (.g16, 0), (.g64, 0)] = some (.g4, -2049) ∧
      first [(.g1, -2048), (.g4, 0), (.g16, 2049), (.g64, 2049)] = some (.g16, 2049) ∧
      first [(.g1, 0), (.g4, 2048), (.g16, 0), (.g64, -2049)] = some (.g64, -2049) := by decide +kernel
/-- R80: a calibration that fails at gain 16 makes the channel FAULTED. -/
theorem test_calibration_fails :
    ((after (.calibrationEnd .mc0) (calibrating ⟨[], [0, 0, 2049, 0]⟩)).chan .mc0).state = .faulted := by decide +kernel

/-- Desk 2's run of program 1 with a channel as `f` makes it. -/
def runOnChannel (x : RunContext) (f : ChannelRecord → ChannelRecord) : State :=
  (measuring x).setChan .mc0 (f ((measuring x).chan .mc0))

theorem test_hyps_Calibration_in_run :
    let x := { aRun with phase := .calibrate, stepIx := 0, done := [], cur := none, work := StepWork.idle }
    let s := runOnChannel x fun r =>
      { r with bias := .off, activity := .calInRun, cal := some ⟨[], [0, 2048, -2048, 1]⟩ }
    Settled s ∧ s.runOn .mc0 = some (.b1, x) ∧ (s.chan .mc0).activity = .calInRun ∧ (s.chan .mc0).bias = .off ∧
      (s.chan .mc0).cal = some ⟨[], [0, 2048, -2048, 1]⟩ ∧ (s.program x.program).head? = some (.fv 64) := by decide +kernel
theorem test_hyps_SampleGoesToRing :
    ((calibrating ⟨List.replicate 65 0, []⟩).chan .mc0).cal = some ⟨List.replicate 65 0, []⟩ ∧
      (List.replicate 65 (0 : Int)).length < 66 ∧ (working.chan .mc0).cal = none ∧
      (working.chan .mc0).state ≠ .busy ∧ ((measuring aRun).chan .mc0).cal = none ∧
      ((measuring aRun).chan .mc0).state = .busy ∧ 1 ≤ ((74 : Word32) - 73).toNat ∧
      ((74 : Word32) - 73).toNat < 8192 := by decide +kernel

/-- aRun with a pass of 16 samples at gain 1, all 100. -/
def reading : RunContext :=
  { aRun with phase := .reading, work := { aRun.work with
      reading := some { n := 16, gain := .g1, changes := 0, raw := List.replicate 18 100 } } }

/-- RunStepsGoOn: a complete pass that asks for gain 4, one that is not complete, a settle that ends before the
first Vx reading, a complete capture. -/
theorem test_hyps_RunStepsGoOn :
    (Settled (measuring reading) ∧ (measuring reading).runOn .mc0 = some (.b1, reading) ∧
        reading.work.reading.map (fun rd => rd.raw.length) = some (2 + 16) ∧
        nextGain 0 (passOf .g1 0 16 (List.replicate 18 100)) = some .g4) ∧
      (Settled (measuring aRun) ∧ (measuring aRun).runOn .mc0 = some (.b1, aRun) ∧
        ((measuring aRun).chan .mc0).activity = .settling ∧ aRun.phase = .settle ∧ aRun.work.stage = .resVx ∧
        aRun.work.rangeChanges = 0 ∧
        ((measuring aRun).program aRun.program)[aRun.stepIx]? = some (.res .tr .b2 .rb 64)) := by decide +kernel
/-- A pass of an FV step on the pair TG at `g`, every sample `v`, after `n` gain changes. -/
def fvPass (g : Gain) (n : Nat) (v : Int) : RunContext :=
  { aRun with
    phase := .reading, stepIx := 0, done := [], cur := some voltages, gain := g,
    work := { StepWork.idle with
      stage := .fv .tg, reading := some { n := 16, gain := g, changes := n, raw := List.replicate 18 v } } }
/-- RunStepsGoOn: a clipped pass at gain 4, a mean at the limit at gain 16 and one beyond it, and a pass that stands
because three changes were made. -/
theorem test_hyps_RunStepsGoOn_gain :
    let used (v : Int) := ((List.replicate 18 v).reverse.drop 2).take 16
    32767 ∈ used 32767 ∧ (-32768) ∉ used 6144 ∧ 32767 ∉ used 6144 ∧
      roundDiv ((used 6144).map (corrected 0)).sum 16 = 6144 ∧ 4 * (6144 : Int).natAbs ≤ 24576 ∧
      roundDiv ((used 6145).map (corrected 0)).sum 16 = 6145 ∧ ¬ 4 * (6145 : Int).natAbs ≤ 24576 ∧
      (let s := runOnChannel (fvPass .g16 3 6144) fun r => { r with bias := .off, activity := .quiet, pair := some .tg }
       Settled s ∧ s.runOn .mc0 = some (.b1, fvPass .g16 3 6144) ∧ (s.chan .mc0).bias = .off ∧
         (s.chan .mc0).activity ≠ .discharging ∧ (fvPass .g16 3 6144).work.stage = .fv .tg) := by decide +kernel
/-- Desk 2's run of program 7, an FV step and a WAIT step, with MC0 reading `p` at gain 1, every sample `v`. -/
def reads (p : Pair) (v : Int) : RunContext :=
  let x := fvPass .g1 3 v
  { x with program := 7, work := { x.work with stage := .fv p } }
def readsOn (p : Pair) (v : Int) : State :=
  (runOnChannel (reads p v) fun r => { r with bias := .off, activity := .quiet, pair := some p }).setProgram 7
    [.fv 16, .wait 10]
/-- RunStepsGoOn: readings that stand below, above the soft and above the hazard limit, with their roots. -/
theorem test_hyps_RunStepsGoOn_stands :
    (∀ p ∈ [Pair.tg, Pair.rg, Pair.tr], ∀ v ∈ [(100 : Int), 1000, 32767],
        Settled (readsOn p v) ∧ (readsOn p v).runOn .mc0 = some (.b1, reads p v) ∧
          ((readsOn p v).chan .mc0).bias = .off ∧ ((readsOn p v).chan .mc0).activity ≠ .discharging) ∧
      0 * 0 ≤ 0 / 16 ∧ 0 / 16 < (0 + 1) * (0 + 1) ∧
      ((readsOn .tr 100).program 7)[(reads .tr 100).stepIx + 1]? = some (.wait 10) ∧ (reads .tr 100).cur.isSome = true ∧
      ((readsOn .tr 100).cls 0).dcSoft < (millivolts .g1 1000).natAbs ∧
      ¬ ((readsOn .tr 100).cls 0).dcSoft < (millivolts .g1 100).natAbs := by decide +kernel
/-- RunStepsGoOn: a WAIT step that another follows. -/
theorem test_hyps_RunStepsGoOn_wait :
    let x := { aRun with phase := .wait, program := 7 }
    let s := (runOnChannel x fun r => { r with bias := .off, activity := .quiet }).setProgram 7
      [.fv 64, .wait 10, .wait 20]
    Settled s ∧ s.ctx .b1 = some x ∧ x.phase = .wait ∧ x.channel = some .mc0 ∧ x.cur.isSome = true ∧
      (s.program x.program)[x.stepIx + 1]? = some (.wait 20) ∧ (s.chan .mc0).bias = .off ∧
      (s.chan .mc0).activity ≠ .discharging ∧ working.ctx .b1 = none := by decide +kernel
/-- RunStepsGoOn: a capture of 4096 samples before its settle is over. -/
theorem test_hyps_RunStepsGoOn_capture :
    let x := { aRun with
      phase := .capture, work := { aRun.work with stage := .capCapture, capture := List.replicate 4096 0 } }
    x.phase = .capture ∧ x.work.capture.length = 4096 ∧ x.work.captureDone = false ∧
      (measuring x).runOn .mc0 = some (.b1, x) ∧ ((measuring x).chan .mc0).activity = .settling := by
  refine ⟨rfl, List.length_replicate, rfl, rfl, rfl⟩
/-- Desk 2's run of a program of two steps, `st` the second, with MC0 discharging and every bus in use. -/
def ending (st : ProgramStep) (x : RunContext) : State :=
  let s := runOnChannel x fun r => { r with bias := .off, activity := .discharging }
  ((busy s).setBus .b1 (s.bus .b1)).setProgram 7 [.fv 64, st]
def lastStep : RunContext :=
  { aRun with program := 7, phase := .discharge, ticketing := false, work := { aRun.work with stage := .closing } }
def low : ProgramStep := .res .tr .b2 .rb 64

theorem canonical_ending (x : RunContext) : Canonical (ending low x) :=
  canonical_of rfl (show Table.wfFrom _ 0 (ending low lastStep).lrt.lines = true by decide +kernel) rfl
    (show Table.wfFrom _ 0 (ending low lastStep).acc.points = true by decide +kernel)
    (show Table.wfFrom _ 0 (ending low lastStep).rsq.programs = true by decide +kernel)
/-- Calibration: the end of a run, completed, of a ticketing run, and aborted. -/
theorem test_hyps_Calibration_run_end :
    let s := ending low lastStep
    let a := ending low { lastStep with abort := some .cancelled }
    Settled s ∧ NoIdleBus s ∧ s.runOn .mc0 = some (.b1, lastStep) ∧ lastStep.phase = .discharge ∧
      lastStep.cur.isSome = true ∧ s.gar.waiting = [] ∧ s.givenMc1 = none ∧ a.givenMc1 = none ∧ (s.chan .mc0).activity = .discharging ∧
      (s.chan .mc0).biasNext = none ∧ lastStep.abort = none ∧ lastStep.work.stage = .closing ∧
      lastStep.stepIx + 1 = (s.program 7).length ∧ lastStep.done.length = lastStep.stepIx ∧
      (ending low { lastStep with ticketing := true }).runOn .mc0 =
        some (.b1, { lastStep with ticketing := true }) ∧
      Settled a ∧ NoIdleBus a ∧ a.runOn .mc0 = some (.b1, { lastStep with abort := some .cancelled }) ∧
      (s.port (deskPort .d2)).link = .up ∧ (s.port (deskPort .d2)).notices.length < 32 ∧
      (s.cnt.group 2).count (runEndIndex (.desk .d2) none) < 65535 ∧ (s.chan .mc0).disablePending = false ∧
      (s.bus .b1).reason = none ∧ (s.bus .b1).holder = some (.desk .d2) := by decide +kernel
/-- R125 to R127: a run that completes without finding passes, and its desk is told. -/
theorem test_run_completes :
    let t := after (.dischargeEnd .mc0) (ending low lastStep)
    t.rsq.history.map ResultRecord.verdict = [.pass] ∧ (t.bus .b1).state = .held ∧ (t.chan .mc0).state = .ready ∧
      (t.port .p2).notices = [{ lost := 0, notice := .runDone 7 .b1 5 .pass none ⟨0, 0⟩ [] }] := by decide +kernel
/-- R123: an aborted run ends with its discharge, its step ABORTED. -/
theorem test_run_aborted :
    ((after (.dischargeEnd .mc0) (ending low { lastStep with abort := some .cancelled })).line 5).last =
        some { handle := 7, time := ⟨0, 0⟩, verdict := .incomplete, origin := .desk .d2 } ∧
      (((after (.dischargeEnd .mc0) (ending low { lastStep with abort := some .cancelled })).rsq.history.map
        ResultRecord.steps).flatten.map StepResult.status) = [.ok, .aborted] := by decide +kernel

/-- What a step of a state with one command leaves of the bias of MC0. -/
def biasAfter (i : Instr) (s : State) : Option Bias :=
  match step { s with pending := [i] } with
  | .next t => some (t.chan .mc0).bias
  | _ => none

/-- HazardFlagKeepsBiasOff: steps that switch a bias on, for a capture and after a discharge. -/
theorem test_hyps_HazardFlagKeepsBiasOff_on :
    biasAfter (.dischargeEnd .mc0)
        (ending (.cap .b1 64) { lastStep with work := { lastStep.work with stage := .capDrain } }) = some .b1 ∧
      ((ending (.cap .b1 64) lastStep).chan .mc0).bias = .off ∧
      ((ending (.cap .b1 64) lastStep).chan .mc0).biasNext = none ∧
      biasAfter (.dischargeEnd .mc0) (runOnChannel aRun fun r =>
        { r with bias := .off, activity := .discharging, biasNext := some .b3 }) = some .b3 := by decide +kernel
/-- HazardFlagKeepsBiasOff: a discharge before level B3, with the hazard flag of the line set and clear. -/
theorem test_hyps_HazardFlagKeepsBiasOff :
    let s := runOnChannel aRun fun r => { r with bias := .off, activity := .discharging, biasNext := some .b3 }
    let h := s.setLine 5 { s.line 5 with hazard := true }
    Settled s ∧ (s.chan .mc0).activity = .discharging ∧ (s.chan .mc0).biasNext = some .b3 ∧
      (s.chan .mc0).bus = some .b1 ∧ (s.bus .b1).line = some 5 ∧ (s.line 5).hazard = false ∧ Settled h ∧
      (h.chan .mc0).biasNext = some .b3 ∧ (h.line 5).hazard = true ∧ (working.chan .mc0).activity ≠ .discharging := by
  decide

/-! ### Timers and arithmetic -/

/-- A sweep in progress or between sweeps, its period timer at its end, every bus in use. -/
def sweeping (p : SweepPhase) : State :=
  { busy working with rts := { working.rts with phase := p, period := some ⟨0, 86400000⟩ } }
/-- A window that ends with a count and a quiet count. -/
def window (st : StormState) (count quiet : Nat) : State :=
  { busy working with tkt := { working.tkt with storm := st, count := count, quiet := quiet, window := some 0 } }

/-- SweepAndStormTimers, at the edges of S_in 24, S_out 4 and 5 quiet windows. -/
theorem test_hyps_SweepAndStormTimers :
    Settled (sweeping .between) ∧ NoIdleBus (sweeping .between) ∧
      (sweeping .between).rts.period = some ⟨0, 86400000⟩ ∧ (sweeping .between).rts.phase = .between ∧
      (sweeping .inSweep).rts.phase = .inSweep ∧ working.rts.period = none ∧ Settled (window .normal 23 0) ∧
      NoIdleBus (window .normal 23 0) ∧ (window .normal 23 0).tkt.window = some 0 ∧
      (window .normal 23 0).tkt.count < (window .normal 23 0).tkt.params.sIn ∧
      (window .normal 24 0).tkt.params.sIn ≤ (window .normal 24 0).tkt.count := by decide +kernel
theorem test_hyps_SweepAndStormTimers_in_storm :
    (window .storm 5 0).tkt.params.sOut < (window .storm 5 0).tkt.count ∧
      (window .storm 4 3).tkt.count ≤ (window .storm 4 3).tkt.params.sOut ∧
      (window .storm 4 3).tkt.quiet + 1 < (window .storm 4 3).tkt.params.quiet ∧
      (window .storm 4 4).tkt.params.quiet ≤ (window .storm 4 4).tkt.quiet + 1 ∧
      (window .storm 4 4).tkt.storm = .storm := by decide +kernel
theorem test_hyps_MillivoltsNearest : (-32768 : Int) ≤ -32768 ∧ (32767 : Int) ≤ 32767 ∧ Gain.g4 ≠ .g1 := by decide +kernel
/-- ResistanceTable: Vf at its limit; Vx at Vb, at Vf, and between; a clamped quotient. -/
theorem test_hyps_ResistanceTable :
    biasMv .b3 ≠ 0 ∧ biasMv .b3 / 2 ≤ biasMv .b3 - 50000 ∧ biasMv .b3 - 100000 ≤ 0 ∧ (50000 : Int) - 50000 ≤ 0 ∧
      0 < biasMv .b3 - 99999 ∧ (0 : Int) < 99999 - 600 ∧ (resistance 99999 600 .b3 .rc).2 = .opened ∧
      (resistance 20481 600 .b3 .rc).2 = .ok ∧ (resistance 601 600 .b3 .rc).2 = .edge := by decide +kernel

end Sys2Proof.Tests
end

