-- ==== Sys2Proof/Proofs/MeasurementArithmetic.lean ====
section
/-! PROOFS. The conversion of a mean at a gain to millivolts (R98). -/

namespace Sys2Proof

open Machine

/-! ## Rounding and gains -/

/-- A quotient less than a half below `lo` and less than a half above `hi` rounds into `lo` to `hi`. -/
theorem roundDiv_mem_range {a lo hi : Int} {b : Nat} (hb : 0 < b) (hlo : (2 * lo - 1) * b < 2 * a)
    (hhi : 2 * a < (2 * hi + 1) * b) : lo ≤ roundDiv a b ∧ roundDiv a b ≤ hi := by
  obtain ⟨hnear, -⟩ := roundDiv_near a b hb
  have hb' : (0 : Int) < b := by exact_mod_cast hb
  have hdist : -(b : Int) ≤ 2 * (roundDiv a b * b - a) ∧ 2 * (roundDiv a b * b - a) ≤ b := by omega
  constructor
  · have hlt : (lo - 1) * b < roundDiv a b * b := by linarith
    exact Int.sub_one_lt_iff.1 (lt_of_mul_lt_mul_right hlt hb'.le)
  · have hlt : roundDiv a b * b < (hi + 1) * b := by linarith
    exact Int.lt_add_one_iff.1 (lt_of_mul_lt_mul_right hlt hb'.le)

theorem gainVal_pos (g : Gain) : 0 < gainVal g := by cases g <;> decide

/-- Every gain but gain 1 is at least 4, which gives R98 its quarter. -/
theorem four_le_gainVal {g : Gain} (hg : g ≠ .g1) : 4 ≤ gainVal g := by
  cases g with
  | g1 => exact absurd rfl hg
  | g4 | g16 | g64 => decide

/-! ## The range of the converted value (R98) -/

/-- At gain 1 the upper end is 124 996: the mean 32 767 is 124 996.2 mV before rounding. -/
theorem millivolts_range_gain_one {m : Int} (hlo : -32768 ≤ m) (hhi : m ≤ 32767) :
    -125000 ≤ millivolts .g1 m ∧ millivolts .g1 m ≤ 124996 := by
  have hG : gainVal .g1 = 1 := rfl
  exact roundDiv_mem_range (by omega) (by omega) (by omega)

/-- The quarter holds at every higher gain because the bounds scale with the gain. -/
theorem millivolts_range_higher_gain {g : Gain} {m : Int} (hg : g ≠ .g1) (hlo : -32768 ≤ m) (hhi : m ≤ 32767) :
    -31250 ≤ millivolts g m ∧ millivolts g m ≤ 31249 := by
  have hG := four_le_gainVal hg
  exact roundDiv_mem_range (by omega) (by omega) (by omega)

/-- Settles O59: the rounding rule of `roundDiv` at the divisor 32 768 × G, and the range at gain 1 and above. -/
theorem millivoltsNearest : Obligations.MillivoltsNearest := by
  intro g m hlo hhi
  have hd : 0 < 32768 * gainVal g := Nat.mul_pos (by decide) (gainVal_pos g)
  obtain ⟨hnear, haway⟩ := roundDiv_near (m * 125000) (32768 * gainVal g) hd
  refine ⟨hnear, haway, ?_, fun hg => millivolts_range_higher_gain hg hlo hhi⟩
  rintro rfl
  exact millivolts_range_gain_one hlo hhi

end Sys2Proof
end

