-- ==== Sys2Proof/Proofs/FindingSuppression.lean ====
section
/-! PROOFS. A finding passed to the ticket table, and its suppression in STORM (R147 to R149). -/

namespace Sys2Proof

open Machine

/-! ## What a counted event leaves -/

/-- COUNTER_CARRY reaches ports and counters only, so no line changes even where a count wraps (R167). -/
@[simp] theorem line_count (s : State) (g i n : Nat) : (s.count g i).line n = s.line n := by
  rw [(reportsOnly_count g i).frame s]
  rfl

/-! ## The ways of a finding (R147 to R149) -/

theorem takeFinding_of_live {s : State} {f : Finding} {t : Ticket} (h : s.liveTicket f.line f.code = some t) :
    s.takeFinding f = s.mergeFinding t f := by
  simp only [State.takeFinding, h]

theorem takeFinding_of_no_live {s : State} {f : Finding} (h : s.liveTicket f.line f.code = none) :
    s.takeFinding f = if f.severity = .soft ∧ s.tkt.storm = .storm then s.suppressFinding f else s.raiseTicket f := by
  simp only [State.takeFinding, h]

/-! ## Suppression (R148) -/

/-- The flag is set on the line as it was before the count. -/
theorem suppressFinding_eq (s : State) (f : Finding) :
    s.suppressFinding f = (s.count 0 (findingIndex f.code .suppressed)).setLine f.line
      { s.line f.line with unticketed := true } := by
  simp only [State.suppressFinding, State.countFinding, State.setUnticketed, line_count]

/-- Below the counter's top the count sends no COUNTER_CARRY, so the whole next state is known. -/
theorem suppressFinding_of_lt {s : State} {f : Finding}
    (h : s.cnt.g0.count (findingIndex f.code .suppressed) < 65535) :
    s.suppressFinding f = { s.setLine f.line { s.line f.line with unticketed := true } with
      cnt := { s.cnt with g0 := { s.cnt.g0 with
        counts := writeTable (fun _ => 0) s.cnt.g0.counts (findingIndex f.code .suppressed)
          (s.cnt.g0.count (findingIndex f.code .suppressed) + 1) } } } := by
  rw [suppressFinding_eq, count_of_lt (g := 0) h]
  rfl

/-- Settles O41: by the live ticket, then by severity and storm state; a suppressed finding only counts and flags. -/
theorem softFindingsSuppressedInStorm : Obligations.SoftFindingsSuppressedInStorm := by
  intro s f i
  have suppressed (live : s.liveTicket f.line f.code = none) (soft : f.severity = .soft)
      (storm : s.tkt.storm = .storm) : s.takeFinding f = s.suppressFinding f := by
    rw [takeFinding_of_no_live live, if_pos ⟨soft, storm⟩]
  refine ⟨fun live soft storm => ?_, fun live soft storm room => ?_, fun live other => ?_,
    fun t live => takeFinding_of_live live⟩
  · exact (suppressed live soft storm).trans (suppressFinding_eq s f)
  · exact (suppressed live soft storm).trans (suppressFinding_of_lt room)
  · rw [takeFinding_of_no_live live, if_neg other]

end Sys2Proof
end

