-- ==== Sys2Proof/Proofs/Keeps.lean ====
section
/-! PROOFS. What every operation of the part keeps: the queue of waiting commands, the sizes of the port units, the
canonical tables; and which operations leave the channels or their biases alone. One relation says it, and one lemma
per operation carries it along, so that no invariant walks through the model again. -/

namespace Sys2Proof

open Machine

/-- From `s` to `t` the queue stays, and the sizes of R172 and the canonical tables stay where they held. Without
`bias` no channel's bias is switched on or changed to another level; without `chan` the channels and the channel wait
list stay. -/
structure Keeps (chan bias : Bool) (s t : State) : Prop where
  pending : t.pending = s.pending
  ports : PortsBounded s → PortsBounded t
  tables : Canonical s → Canonical t
  bias : bias = false → ∀ c, (t.chan c).bias ≠ .off → (t.chan c).bias = (s.chan c).bias
  calm : chan = false → t.mc = s.mc ∧ t.gar.waiting = s.gar.waiting

namespace Keeps

variable {a β : Bool} {s t u : State}

@[refl] theorem refl : Keeps a β s s := ⟨rfl, id, id, fun _ _ _ => rfl, fun _ => ⟨rfl, rfl⟩⟩

theorem trans (h : Keeps a β s t) (k : Keeps a β t u) : Keeps a β s u where
  pending := k.pending.trans h.pending
  ports := k.ports ∘ h.ports
  tables := k.tables ∘ h.tables
  bias hb c hc := by
    have hk := k.bias hb c hc
    exact hk.trans (h.bias hb c (hk ▸ hc))
  calm ha := ⟨(k.calm ha).1.trans (h.calm ha).1, (k.calm ha).2.trans (h.calm ha).2⟩

/-- An operation that leaves the channels alone raises no bias. -/
theorem loosen {α γ : Bool} (h : Keeps false false s t) : Keeps α γ s t :=
  ⟨h.pending, h.ports, h.tables, fun _ => h.bias rfl, fun _ => h.calm rfl⟩

theorem ite {p : Prop} [Decidable p] (h : Keeps a β s t) (k : Keeps a β s u) : Keeps a β s (if p then t else u) := by
  split
  · exact h
  · exact k

/-! ### Updates of one record -/

/-- Parts of the state that no invariant reads. -/
theorem other (h : Keeps a β s t) (pending : u.pending = t.pending) (ports : u.ports = t.ports) (lrt : u.lrt = t.lrt)
    (points : u.acc.points = t.acc.points) (programs : u.rsq.programs = t.rsq.programs) (cnt : u.cnt = t.cnt)
    (mc : u.mc = t.mc) (waiting : u.gar.waiting = t.gar.waiting) : Keeps a β s u := by
  refine h.trans ⟨pending, fun hp p => ?_, fun w => ⟨?_, ?_, ?_, ?_, ?_, ?_⟩, fun _ c _ => ?_, fun _ => ⟨mc, waiting⟩⟩
  · rw [State.port, ports]
    exact hp p
  · exact lrt ▸ w.lines
  · exact lrt ▸ w.classes
  · exact points ▸ w.points
  · exact programs ▸ w.programs
  · exact cnt ▸ w.counts
  · exact cnt ▸ w.bins
  · simp only [State.chan, mc]

variable {b : Bus} {c : Channel} {p : Port}

theorem setBus {r : BusRecord} (h : Keeps a β s t) : Keeps a β s (t.setBus b r) :=
  h.other rfl rfl rfl rfl rfl rfl rfl rfl

theorem setCtx {x : Option RunContext} (h : Keeps a β s t) : Keeps a β s (t.setCtx b x) :=
  h.other rfl rfl rfl rfl rfl rfl rfl rfl

theorem mapRts {f : RoutineScheduler → RoutineScheduler} (h : Keeps a β s t) : Keeps a β s (t.mapRts f) :=
  h.other rfl rfl rfl rfl rfl rfl rfl rfl

theorem mapTkt {f : TicketTable → TicketTable} (h : Keeps a β s t) : Keeps a β s (t.mapTkt f) :=
  h.other rfl rfl rfl rfl rfl rfl rfl rfl

theorem arbitrationDue (h : Keeps a β s t) : Keeps a β s t.arbitrationDue := h.other rfl rfl rfl rfl rfl rfl rfl rfl

/-- A change of the arbiter with the wait list as it was. -/
theorem mapGar {f : GrantArbiter → GrantArbiter} (h : Keeps a β s t) (hf : (f t.gar).waiting = t.gar.waiting) :
    Keeps a β s (t.mapGar f) :=
  h.other rfl rfl rfl rfl rfl rfl rfl hf

/-- A change of the wait list. -/
theorem mapWaiting {f : GrantArbiter → GrantArbiter} (h : Keeps true β s t) : Keeps true β s (t.mapGar f) :=
  h.trans ⟨rfl, id, fun w => ⟨w.1, w.2, w.3, w.4, w.5, w.6⟩, fun _ _ _ => rfl, nofun⟩

/-- A channel record written; without `β` its bias is off or as it was. -/
theorem setChan {r : ChannelRecord} (h : Keeps true β s t)
    (hr : β = false → r.bias ≠ .off → r.bias = (t.chan c).bias) : Keeps true β s (t.setChan c r) := by
  refine h.trans ⟨rfl, id, fun w => ⟨w.1, w.2, w.3, w.4, w.5, w.6⟩, fun hb d => ?_, nofun⟩
  rw [State.setChan_chan]
  split
  · next e =>
    subst e
    exact hr hb
  · exact fun _ => rfl

/-- A channel record written with its bias off. -/
theorem setChanOff {r : ChannelRecord} (h : Keeps true β s t) (hr : r.bias = .off) : Keeps true β s (t.setChan c r) :=
  h.setChan fun _ hn => absurd hr hn

/-- A channel record written with its bias as it was. -/
theorem setChanSame {r : ChannelRecord} (h : Keeps true β s t) (hr : r.bias = (t.chan c).bias) :
    Keeps true β s (t.setChan c r) :=
  h.setChan fun _ _ => hr

theorem setPort {v : PortUnit} (h : Keeps a β s t) (hv : PortBounded (t.port p) → PortBounded v) :
    Keeps a β s (t.setPort p v) := by
  refine h.trans ⟨rfl, fun hp q => ?_, fun w => ⟨w.1, w.2, w.3, w.4, w.5, w.6⟩, fun _ _ _ => rfl, fun _ => ⟨rfl, rfl⟩⟩
  rw [State.setPort_port]
  split
  · exact hv (hp p)
  · exact hp q

theorem setLine {n : Nat} {r : LineRecord} (h : Keeps a β s t) : Keeps a β s (t.setLine n r) :=
  h.trans ⟨rfl, id, fun w => canonical_setLine w n r, fun _ _ _ => rfl, fun _ => ⟨rfl, rfl⟩⟩

theorem setCls {n : Nat} {e : ClassEntry} (h : Keeps a β s t) : Keeps a β s (t.setCls n e) :=
  h.trans ⟨rfl, id, fun w => ⟨w.1, writeTable_wf w.2 n e, w.3, w.4, w.5, w.6⟩, fun _ _ _ => rfl, fun _ => ⟨rfl, rfl⟩⟩

theorem setProgram {n : Nat} {l : List ProgramStep} (h : Keeps a β s t) : Keeps a β s (t.setProgram n l) :=
  h.trans ⟨rfl, id, fun w => ⟨w.1, w.2, w.3, writeTable_wf w.4 n l, w.5, w.6⟩, fun _ _ _ => rfl, fun _ => ⟨rfl, rfl⟩⟩

theorem setPoint {n k : Nat} {v : Option Bus} (h : Keeps a β s t) : Keeps a β s (t.setPoint n k v) :=
  h.trans ⟨rfl, id, fun w => ⟨w.1, w.2, writeTable_wf w.3 _ v, w.4, w.5, w.6⟩, fun _ _ _ => rfl, fun _ => ⟨rfl, rfl⟩⟩

theorem setAccess {n : Nat} {x : AccessState} (h : Keeps a β s t) : Keeps a β s (t.setAccess n x) := h.setLine

theorem setCall {n : Nat} {x : CallState} (h : Keeps a β s t) : Keeps a β s (t.setCall n x) := h.setLine

theorem mapCtx {f : RunContext → RunContext} (h : Keeps a β s t) : Keeps a β s (t.mapCtx b f) := h.setCtx

theorem mapRsq {f : RunSequencer → RunSequencer} (h : Keeps a β s t) (hf : (f t.rsq).programs = t.rsq.programs) :
    Keeps a β s (t.mapRsq f) :=
  h.other rfl rfl rfl rfl hf rfl rfl rfl

/-! ### Counters and notices -/

theorem group_setGroup (k : CounterBank) (n m : Nat) (g : CounterGroup) :
    (k.setGroup n g).group m = if min n 3 = min m 3 then g else k.group m := by
  rcases n with _ | _ | _ | n <;> rcases m with _ | _ | _ | m <;>
    simp +arith [CounterBank.setGroup, CounterBank.group]

/-- A counter group written with a canonical table of counts. -/
theorem setGroup {n : Nat} {g : CounterGroup} (h : Keeps a β s t)
    (hg : Canonical t → Table.wfFrom (fun _ => 0) 0 g.counts = true) :
    Keeps a β s { t with cnt := t.cnt.setGroup n g } := by
  refine h.trans ⟨rfl, id, fun w => ⟨w.1, w.2, w.3, w.4, fun m => ?_, ?_⟩, fun _ _ _ => rfl, fun _ => ⟨rfl, rfl⟩⟩
  · rw [group_setGroup]
    split
    · exact hg w
    · exact w.counts m
  · rcases n with _ | _ | _ | n <;> exact w.bins

theorem bump {g i : Nat} (h : Keeps a β s t) : Keeps a β s (t.bump g i).1 := by
  refine h.setGroup fun w => ?_
  unfold CounterGroup.bump
  split <;> exact writeTable_wf (w.counts g) _ _

theorem offerWith {count : Nat → Nat → State → State} (hc : ∀ {g i s t}, Keeps a β s t → Keeps a β s (count g i t))
    {n : Notice} (h : Keeps a β s t) : Keeps a β s (offerWith count n t p) := by
  have hv : PortBounded (t.port p) → PortBounded ((t.port p).offer n).1 := by
    rintro ⟨hq, hn⟩
    unfold PortUnit.offer
    split
    · next room => exact ⟨by simpa using hq, by simpa using Nat.succ_le_of_lt room.2⟩
    · exact ⟨hq, hn⟩
  unfold Machine.offerWith
  exact ite (hc (h.setPort hv)) (h.setPort hv)

theorem broadcastWith {count : Nat → Nat → State → State}
    (hc : ∀ {g i s t}, Keeps a β s t → Keeps a β s (count g i t)) {n : Notice} (h : Keeps a β s t) :
    Keeps a β s (broadcastWith count n t) := by
  unfold Machine.broadcastWith
  generalize allPorts = l
  induction l generalizing t with
  | nil => exact h
  | cons p l ih => exact ih (ite (h.offerWith hc) h)

theorem countWith {fuel g i : Nat} (h : Keeps a β s t) : Keeps a β s (countWith fuel g i t) := by
  induction fuel generalizing g i s t with
  | zero => exact h.bump
  | succ fuel ih =>
    unfold Machine.countWith
    exact ite (h.bump.broadcastWith ih) h.bump

theorem count {g i : Nat} (h : Keeps a β s t) : Keeps a β s (t.count g i) := h.countWith

theorem notify {n : Notice} (h : Keeps a β s t) : Keeps a β s (t.notify p n) := h.offerWith countWith

theorem notifyDesk {d : Desk} {n : Notice} (h : Keeps a β s t) : Keeps a β s (t.notifyDesk d n) := h.notify

theorem broadcast {n : Notice} (h : Keeps a β s t) : Keeps a β s (t.broadcast n) := h.broadcastWith countWith

theorem countLost (h : Keeps a β s t) : Keeps a β s (t.countLost p) := by
  unfold State.countLost
  exact (h.setPort fun ⟨hq, hn⟩ => ⟨hq, hn⟩).count

theorem addBin {q : Pair} {r : Nat} (h : Keeps a β s t) : Keeps a β s (t.addBin q r) :=
  h.trans ⟨rfl, id, fun w => ⟨w.1, w.2, w.3, w.4, w.5, writeTable_wf w.6 _ _⟩, fun _ _ _ => rfl, fun _ => ⟨rfl, rfl⟩⟩

theorem clearGroup {g : Nat} {m : Option Word32} (h : Keeps a β s t) : Keeps a β s (t.clearGroup g m) := by
  unfold State.clearGroup
  split
  · exact h.trans ⟨rfl, id, fun w => ⟨w.1, w.2, w.3, w.4, w.5, rfl⟩, fun _ _ _ => rfl, fun _ => ⟨rfl, rfl⟩⟩
  · exact h.setGroup fun _ => rfl

/-! ### Requests and their answers -/

variable {q : Request} {o : ReplyOutcome} {data : List Byte}

theorem reply {r : Reply} (h : Keeps a β s t) : Keeps a β s (t.reply p r) :=
  h.setPort fun ⟨hq, hn⟩ => ⟨by simpa [PortUnit.withReply] using hq, by simpa [PortUnit.withReply] using hn⟩

theorem answer (h : Keeps a β s t) : Keeps a β s (t.answer p q o data) := h.reply

theorem refuse {r : Reason} (h : Keeps a β s t) : Keeps a β s (t.refuse p q r) := h.reply

theorem ok {x : Bool} (h : Keeps a β s t) : Keeps a β s (t.ok p q x data) := h.reply

theorem popRequest (h : Keeps a β s t) : Keeps a β s (t.popRequest p) :=
  h.setPort fun ⟨hq, hn⟩ => ⟨by simp only [List.length_drop]; omega, hn⟩

/-- A request command keeps what its owning block keeps. -/
theorem serveWhere {test : Request → Bool} {k : RequestKind} {owner : Port → Request → State → State}
    (ho : ∀ {q s t}, Keeps a β s t → Keeps a β s (owner p q t)) (h : Keeps a β s t) :
    Keeps a β s (serveWhere test k owner p t) := by
  unfold Machine.serveWhere
  split
  · unfold takeRequest
    split
    · exact h.popRequest.refuse
    · exact ho h.popRequest
  · exact h

theorem serve {k : RequestKind} {owner : Port → Request → State → State}
    (ho : ∀ {q s t}, Keeps a β s t → Keeps a β s (owner p q t)) (h : Keeps a β s t) :
    Keeps a β s (serve k owner p t) := h.serveWhere ho

end Keeps

end Sys2Proof
end

