-- ==== Sys2Proof/Proofs/KeepsBlocks.lean ====
section
/-! PROOFS. The relation `Keeps` for the operations of the ticket table, the routine scheduler, the access controller,
the channels, the run sequencer and the grant arbiter, in the order of the model's files. -/

namespace Sys2Proof

open Machine

namespace Keeps

variable {a β : Bool} {s t : State} {b : Bus} {c : Channel} {p : Port} {q : Request} {o : ReplyOutcome}
  {data : List Byte} {n : Nat}

/-! ### The ticket table (R145 to R161) -/

theorem putTicket {k : Ticket} (h : Keeps a β s t) : Keeps a β s (t.putTicket k) := h.mapTkt

theorem sendChange {k : Ticket} {x : TicketCause} {d : Option Desk} (h : Keeps a β s t) :
    Keeps a β s (t.sendChange k x d) := h.broadcast

theorem hardFault (h : Keeps a β s t) : Keeps a β s t.hardFault := h.mapTkt

theorem openCode {f : FaultCode} (h : Keeps a β s t) : Keeps a β s (t.openCode n f) := h.setLine

theorem closeCode {f : FaultCode} (h : Keeps a β s t) : Keeps a β s (t.closeCode n f) := h.setLine

theorem setUnticketed {v : Bool} (h : Keeps a β s t) : Keeps a β s (t.setUnticketed n v) := h.setLine

theorem verifyAppend (h : Keeps a β s t) : Keeps a β s (t.verifyAppend n) := ite h h.mapTkt.arbitrationDue

theorem verifyToTail (h : Keeps a β s t) : Keeps a β s (t.verifyToTail n) := h.mapTkt.arbitrationDue

theorem verifyReview (h : Keeps a β s t) : Keeps a β s (t.verifyReview n) := ite h h.mapTkt

theorem countFinding {f : FaultCode} {k : Disposal} (h : Keeps a β s t) : Keeps a β s (t.countFinding f k) := by
  unfold State.countFinding
  exact h.count

theorem reopen {k : Ticket} (h : Keeps a β s t) : Keeps a β s (t.reopen k) := h.putTicket.verifyReview.sendChange

theorem mergeFinding {k : Ticket} {f : Finding} (h : Keeps a β s t) : Keeps a β s (t.mergeFinding k f) := by
  unfold State.mergeFinding
  have counted := h.putTicket (k := k.merged f t.now).countFinding (f := f.code) (k := .merged)
  have watched := ite (p := severityRank k.severity < severityRank f.severity ∧ ¬ k.severity.isGrave)
    counted.hardFault counted
  have told := ite (p := severityRank k.severity < severityRank f.severity)
    (watched.sendChange (k := k.merged f t.now) (x := .escalated) (d := none)) watched
  exact ite told.reopen told

theorem suppressFinding {f : Finding} (h : Keeps a β s t) : Keeps a β s (t.suppressFinding f) :=
  h.countFinding.setUnticketed

theorem evict {k : Ticket} (h : Keeps a β s t) : Keeps a β s (t.evict k) := h.mapTkt.sendChange

theorem createTicket {f : Finding} (h : Keeps a β s t) : Keeps a β s (t.createTicket f) := by
  unfold State.createTicket
  have made := (h.mapTkt (f := fun k =>
    let number := firstFree (fun n => (t.ticket n).isSome) 200 t.tkt.nextNumber
    { k with tickets := insertTicket (newTicket number f t.now (t.tkt.storm = .storm)) k.tickets,
             nextNumber := (number + 1) % 65536 })).openCode (n := f.line) (f := f.code)
  have counted := (made.setUnticketed (n := f.line) (v := false)).countFinding (f := f.code) (k := .created)
  exact (ite counted.hardFault counted).broadcast

theorem overflowFinding {f : Finding} (h : Keeps a β s t) : Keeps a β s (t.overflowFinding f) := by
  unfold State.overflowFinding
  exact ite h.countFinding.setUnticketed.hardFault h.countFinding.setUnticketed

theorem takeFinding {f : Finding} (h : Keeps a β s t) : Keeps a β s (t.takeFinding f) := by
  unfold State.takeFinding
  split
  · exact h.mergeFinding
  · refine ite h.suppressFinding ?_
    unfold State.raiseTicket
    refine ite h.createTicket ?_
    split
    · exact h.evict.createTicket
    · exact h.overflowFinding

theorem closeTicket {k : Ticket} {r : CloseReason} {d : Option Desk} (h : Keeps a β s t) :
    Keeps a β s (t.closeTicket k r d) := by
  unfold State.closeTicket
  exact (ite h.putTicket.closeCode.verifyReview h.putTicket.closeCode).count.sendChange

theorem decideTicket {k : Ticket} {start : Stamp} {x : Testability} (h : Keeps a β s t) :
    Keeps a β s (t.decideTicket k start x) := by
  have open_ {k' : Ticket} : Keeps a β s (if k.severity ≠ .hard ∧ x = .able then
      (if 2 ≤ k'.notFound then t.closeTicket k' .notFound none else t.putTicket k') else t) :=
    ite (ite h.closeTicket h.putTicket) h
  unfold State.decideTicket
  split
  · exact h
  · refine ite ?_ h
    split
    · exact h.closeTicket
    · exact h.verifyToTail
    · exact h.verifyToTail
    · exact h.closeTicket
  · exact open_
  · exact open_

theorem decideTickets {start : Stamp} {able : FaultCode → Testability} {l : List Nat} (h : Keeps a β s t) :
    Keeps a β s (t.decideTickets start able l) := by
  induction l generalizing t with
  | nil => exact h
  | cons n l ih =>
    unfold State.decideTickets
    split
    · exact ih h.decideTicket
    · exact ih h

theorem takeReport {line handle : Nat} {start : Stamp} {fs : List Finding} {able : FaultCode → Testability}
    {pass : Bool} (h : Keeps a β s t) : Keeps a β s (t.takeReport line handle start fs able pass) := by
  have found : Keeps a β s (fs.foldl State.takeFinding t) := by
    induction fs generalizing t with
    | nil => exact h
    | cons f fs ih => exact ih h.takeFinding
  unfold State.takeReport
  exact ite found.decideTickets.setUnticketed found.decideTickets

/-- A request that names a ticket keeps what its own part keeps. -/
theorem withTicket {act : Ticket → State → State} (ha : ∀ {k s t}, Keeps a β s t → Keeps a β s (act k t))
    (h : Keeps a β s t) : Keeps a β s (withTicket act p q t) := by
  unfold Machine.withTicket
  refine ite h.refuse ?_
  split
  · exact h.refuse
  · exact ha h

theorem ticketTake (h : Keeps a β s t) : Keeps a β s (ticketTake p q t) :=
  h.withTicket fun {k s t} h => by
    split
    · exact (h.putTicket (k := { k with state := .assigned, assignee := some (senderDesk p) })).ok.sendChange
    · exact h.answer
    · exact h.refuse
    · exact h.refuse

theorem withAssigned {act : Ticket → State → State} (ha : ∀ {k s t}, Keeps a β s t → Keeps a β s (act k t))
    (h : Keeps a β s t) : Keeps a β s (withAssigned act p q t) :=
  h.withTicket fun h => ite h.refuse (ite h.refuse (ha h))

theorem ticketDrop (h : Keeps a β s t) : Keeps a β s (ticketDrop p q t) :=
  h.withAssigned fun {k _ _} h => (h.putTicket (k := { k with state := .opened, assignee := none })).ok.sendChange

theorem ticketClear (h : Keeps a β s t) : Keeps a β s (ticketClear p q t) :=
  h.withAssigned fun {k _ t} h => (h.putTicket (k := { k with
    state := .cleared, assignee := none, clearedBy := some (senderDesk p),
    clearedTime := some t.now })).ok.verifyAppend.sendChange

theorem ticketClose (h : Keeps a β s t) : Keeps a β s (ticketClose p q t) :=
  h.withTicket fun h => ite h.refuse (ite h.refuse (h.ok.closeTicket))

theorem ticketPurge (h : Keeps a β s t) : Keeps a β s (ticketPurge p q t) := h.mapTkt.ok

theorem ticketGet (h : Keeps a β s t) : Keeps a β s (ticketGet p q t) := h.withTicket fun h => h.ok

theorem ticketList (h : Keeps a β s t) : Keeps a β s (ticketList p q t) := ite h.refuse h.ok

theorem returnTickets {d : Desk} {l : List Nat} (h : Keeps a β s t) : Keeps a β s (t.returnTickets d l) := by
  induction l generalizing t with
  | nil => exact h
  | cons n l ih =>
    unfold State.returnTickets
    split
    · next k _ =>
      exact ite (ih (h.putTicket (k := { k with state := .opened, assignee := none })).sendChange) (ih h)
    · exact ih h

/-! ### The routine scheduler (R130 to R144) -/

theorem mapCounts {f : SweepCounts → SweepCounts} (h : Keeps a β s t) : Keeps a β s (t.mapCounts f) := h.mapRts

theorem testDone {v : Verdict} {x : Option Nat} {k : Option TestCause} {l : List FoundCode} (h : Keeps a β s t) :
    Keeps a β s (t.testDone n v x k l) := h.notify

theorem setDeferred {l : List DeferredEntry} (h : Keeps a β s t) : Keeps a β s (t.setDeferred l) :=
  ite h.mapRts h.mapRts.arbitrationDue

theorem missLine (h : Keeps a β s t) : Keeps a β s (t.missLine n) := h.mapCounts.setLine

theorem deferLine (h : Keeps a β s t) : Keeps a β s (t.deferLine n) :=
  ite h (ite h.missLine h.setDeferred.arbitrationDue)

theorem sweepStart (h : Keeps a β s t) : Keeps a β s t.sweepStart := h.mapRts.arbitrationDue

/-- Clearing a sweep mark leaves out the entries that then read as unlisted ones. -/
theorem wfFrom_clearMarks {low : Nat} {l : Table LineRecord}
    (w : Table.wfFrom (fun _ => LineRecord.fresh) low l = true) :
    Table.wfFrom (fun _ => LineRecord.fresh) low (clearMarks n l) = true := by
  induction l generalizing low with
  | nil => rfl
  | cons e l ih =>
    obtain ⟨j, r⟩ := e
    obtain ⟨hlow, -, hl⟩ := Table.wfFrom_cons.mp w
    unfold clearMarks
    rw [List.filterMap_cons]
    dsimp only
    split
    · exact Table.wfFrom_mono (by omega) (ih hl)
    · next v hv =>
      split at hv
      · cases hv
      · next hne =>
        cases hv
        exact Table.wfFrom_cons.mpr ⟨hlow, hne, ih hl⟩

theorem clearMarks {n : Nat} (h : Keeps a β s t) :
    Keeps a β s { t with lrt := { t.lrt with lines := clearMarks n t.lrt.lines } } :=
  h.trans ⟨rfl, id, fun w => ⟨wfFrom_clearMarks w.1, w.2, w.3, w.4, w.5, w.6⟩, fun _ _ _ => rfl, fun _ => ⟨rfl, rfl⟩⟩

theorem sweepEnd (h : Keeps a β s t) : Keeps a β s t.sweepEnd := by
  unfold State.sweepEnd
  exact ite h.broadcast.mapRts.clearMarks.sweepStart h.broadcast.mapRts.clearMarks.mapRts

theorem advancePointer (h : Keeps a β s t) : Keeps a β s t.advancePointer := ite h.sweepEnd h.mapRts

theorem reviewLockout {l : List Nat} (h : Keeps a β s t) : Keeps a β s (t.reviewLockout l).1 := by
  induction l generalizing t with
  | nil => exact h
  | cons n l ih =>
    unfold State.reviewLockout
    split
    · exact ih h.mapRts.testDone
    · split
      · exact h
      · exact ih h

theorem retryEntry {e : DeferredEntry} (h : Keeps a β s t) : Keeps a β s (t.retryEntry e) :=
  ite h.setDeferred.missLine h.setDeferred

theorem reviewDeferred {l : List DeferredEntry} (h : Keeps a β s t) : Keeps a β s (t.reviewDeferred l).1 := by
  induction l generalizing t with
  | nil => exact h
  | cons e l ih =>
    unfold State.reviewDeferred
    dsimp only
    split
    · exact ih h.setDeferred
    · split
      · exact ih h.retryEntry
      · exact h

theorem passLine {r : PointerRow} (h : Keeps a β s t) : Keeps a β s (t.passLine n r) := by
  unfold State.passLine
  cases r with
  | unequipped | hardSkipped | covered | deferred => exact h.mapCounts
  | blocked => exact ite h.deferLine h.deferLine.mapCounts
  | stop => exact h

theorem reviewPointer {fuel : Nat} (h : Keeps a β s t) : Keeps a β s (State.reviewPointer fuel t).1 := by
  induction fuel generalizing t with
  | zero => exact h
  | succ fuel ih =>
    unfold State.reviewPointer
    dsimp only
    split
    · exact h
    · split
      · exact h.passLine.advancePointer
      · exact ih h.passLine.advancePointer

theorem review (h : Keeps a β s t) : Keeps a β s t.review.1 := by
  unfold State.review
  split
  · exact h
  · have hl := h.reviewLockout (l := t.rts.lockout)
    split
    · next e => rwa [e] at hl
    · next u e =>
      rw [e] at hl
      have hd := hl.reviewDeferred (l := u.rts.deferred.filter fun e => e.isDue u.now)
      split
      · next e => rwa [e] at hd
      · next v e =>
        rw [e] at hd
        split
        · have hp := hd.reviewPointer (fuel := 2048 - v.rts.pointer)
          split <;> next e => rwa [e] at hp
        · exact hd

theorem candidate (h : Keeps a β s t) : Keeps a β s t.candidate.1 := by
  unfold State.candidate
  split
  · exact h.review
  · exact h

theorem leaveSource {x : Candidate} (h : Keeps a β s t) : Keeps a β s (t.leaveSource x) := by
  unfold State.leaveSource
  split
  · exact h
  · exact h.mapRts
  · exact h.setDeferred.mapCounts
  · exact h.mapCounts.advancePointer

theorem routineGranted {x : Candidate} (h : Keeps a β s t) : Keeps a β s (t.routineGranted x b) := h.leaveSource.mapRts

theorem routineLeft (h : Keeps a β s t) : Keeps a β s (t.routineLeft b) := h.mapRts

theorem routineGrantFailed {x : Candidate} {k : TestCause} (h : Keeps a β s t) :
    Keeps a β s (t.routineGrantFailed x b k) := by
  unfold State.routineGrantFailed
  dsimp only
  split
  · exact h.routineLeft
  · exact h.routineLeft.deferLine.testDone
  · exact h.routineLeft.deferLine
  · exact h.routineLeft.deferLine

theorem dispatchInterrupted {k : AbortCause} (h : Keeps a β s t) : Keeps a β s (t.dispatchInterrupted n k) :=
  ite h.deferLine h

theorem holdScheduler (h : Keeps a β s t) : Keeps a β s t.holdScheduler := ite h.mapRts h

theorem resumeScheduler (h : Keeps a β s t) : Keeps a β s t.resumeScheduler := ite h.mapRts.arbitrationDue h

theorem routineStart (h : Keeps a β s t) : Keeps a β s (routineStart p q t) := by
  unfold Machine.routineStart
  have begun := ite (p := t.held) (h.mapRts (f := fun r => { r with state := .held }))
    (h.mapRts (f := fun r => { r with state := .running })).arbitrationDue
  exact (ite (ite begun.sweepStart begun) h).ok

theorem routineStop (h : Keeps a β s t) : Keeps a β s (routineStop p q t) := h.mapRts.ok

theorem periodExpired (h : Keeps a β s t) : Keeps a β s t.periodExpired :=
  ite h.mapRts.sweepStart h.mapRts.mapRts.broadcast

theorem dropLockouts {l : List Nat} (h : Keeps a β s t) : Keeps a β s (t.dropLockouts l) := by
  induction l generalizing t with
  | nil => exact h
  | cons n l ih => exact ih h.mapRts.testDone

theorem restartScheduler (h : Keeps a β s t) : Keeps a β s t.restartScheduler := h.mapRts.dropLockouts.setDeferred

/-! ### The access controller (R17 to R41) -/

theorem renewHold (h : Keeps a β s t) : Keeps a β s (t.renewHold b) := h.setBus

theorem tellHolder {r : BusRecord} {x : Notice} (h : Keeps a β s t) : Keeps a β s (t.tellHolder r x) := by
  unfold State.tellHolder
  split
  · exact h.notifyDesk
  · exact h

theorem reportConnectEnd {r : BusRecord} {x : ReleaseReason} (h : Keeps a β s t) :
    Keeps a β s (t.reportConnectEnd r x) := by
  unfold State.reportConnectEnd
  split
  · exact ite h h.notifyDesk
  · dsimp only
    split
    · exact (ite h.testDone h).dispatchInterrupted
    · exact ite h.testDone h
  · exact h

theorem reportReleasing {r : BusRecord} {x : ReleaseReason} (h : Keeps a β s t) :
    Keeps a β s (t.reportReleasing b r x) := ite (ite h.tellHolder h) h.reportConnectEnd

theorem enterReleasing {x : ReleaseReason} (h : Keeps a β s t) : Keeps a β s (t.enterReleasing b x) := by
  unfold State.enterReleasing
  dsimp only
  split
  · exact h.setBus.setAccess.reportReleasing
  · exact h.setBus.reportReleasing

theorem leaveLine (h : Keeps a β s t) : Keeps a β s (t.leaveLine b) := by
  unfold State.leaveLine
  dsimp only
  split
  · exact h.setBus.setAccess
  · exact h.setBus

theorem becomeIdle (h : Keeps a β s t) : Keeps a β s (t.becomeIdle b) := by
  have freed : Keeps a β s (match (t.bus b).lastLine, (t.bus b).point with
      | some l, some k => t.setPoint (shelfOf l) k none
      | _, _ => t) := by
    split
    · exact h.setPoint
    · exact h
  unfold State.becomeIdle
  refine arbitrationDue (ite (routineLeft ?_) ?_) <;> split
  · exact ite freed.setBus.tellHolder freed.setBus
  · exact freed.setBus
  · exact ite freed.setBus.tellHolder freed.setBus
  · exact freed.setBus

theorem busAfterRun (h : Keeps a β s t) : Keeps a β s (t.busAfterRun b) := by
  unfold State.busAfterRun
  dsimp only
  split
  · exact h.enterReleasing
  · exact ite h.enterReleasing h.setBus

theorem grantTags {l : List Byte} (h : Keeps a β s t) : Keeps a β s (t.grantTags l) := by
  induction l generalizing t with
  | nil => exact h
  | cons x l ih => exact ih h.reply

theorem setSeizes {l : List SeizeEntry} (h : Keeps a β s t) : Keeps a β s { t with exc := { t.exc with seizes := l } } :=
  h.other rfl rfl rfl rfl rfl rfl rfl rfl

theorem answerSeizes (h : Keeps a β s t) : Keeps a β s (t.answerSeizes n) := by
  unfold State.answerSeizes
  split
  · exact h
  · dsimp only
    split
    · exact h.setSeizes.setCall.grantTags
    · exact h.setSeizes.grantTags

theorem beginConnect {x : Claim} (h : Keeps a β s t) : Keeps a β s (t.beginConnect b x) := h.setBus.setPoint.setAccess

theorem connectDone {r : BusRecord} (h : Keeps a β s t) : Keeps a β s (t.connectDone b r) := h.tellHolder

theorem reachState {x : BusState} {y : AudioPath} (h : Keeps a β s t) : Keeps a β s (t.reachState b x y) := by
  unfold State.reachState
  dsimp only
  split
  · exact h.setBus.setAccess.connectDone
  · exact h.setBus.connectDone

theorem lineOperated (h : Keeps a β s t) : Keeps a β s (t.lineOperated b) := by
  unfold State.lineOperated
  dsimp only
  split
  · exact h.enterReleasing
  · split
    · exact h.reachState
    · exact h.setBus
    · exact h.setBus

theorem accessFailed (h : Keeps a β s t) : Keeps a β s (t.accessFailed b) := by
  unfold State.accessFailed
  dsimp only
  split
  · exact h.takeFinding.enterReleasing
  · exact h.enterReleasing

/-- A request on a held bus keeps what its own part keeps. -/
theorem withHeldBus {act : Bus → BusRecord → State → State} {valid : Bool}
    (ha : ∀ {b r s t}, Keeps a β s t → Keeps a β s (act b r t)) (h : Keeps a β s t) :
    Keeps a β s (withHeldBus act valid p q t) := by
  unfold Machine.withHeldBus
  split
  · exact h.refuse
  · exact ite h.refuse (ite h.refuse (ite h.refuse (ha h)))

theorem setMode (h : Keeps a β s t) : Keeps a β s (setMode p q t) := h.withHeldBus fun h => ite h.refuse h.setBus.ok

theorem renew (h : Keeps a β s t) : Keeps a β s (renew p q t) := h.withHeldBus fun h => h.renewHold.ok

theorem busGet (h : Keeps a β s t) : Keeps a β s (busGet p q t) := by
  unfold Machine.busGet
  split
  · exact h.refuse
  · exact (ite h.renewHold h).ok

theorem toneLimitExpired (h : Keeps a β s t) : Keeps a β s (t.toneLimitExpired b) := by
  unfold State.toneLimitExpired
  dsimp only
  split
  · exact h.setBus.tellHolder
  · exact h

theorem dividerExpired (h : Keeps a β s t) : Keeps a β s (t.dividerExpired b) := by
  unfold State.dividerExpired
  dsimp only
  split
  · exact h.setBus
  · exact h

theorem burstEnded (h : Keeps a β s t) : Keeps a β s (t.burstEnded b) := by
  unfold State.burstEnded
  dsimp only
  split
  · exact h.setBus
  · exact h

theorem silenceEnded (h : Keeps a β s t) : Keeps a β s (t.silenceEnded b) := by
  unfold State.silenceEnded
  dsimp only
  split
  · exact h.setBus
  · exact h

/-! ### Arbitration (R47 to R52) -/

theorem decideWinner {e : Option QueueEntry} (h : Keeps a β s t) : Keeps a β s (t.decideWinner e).1 := by
  have asked := h.candidate
  unfold State.decideWinner
  split
  next u k e =>
    rw [e] at asked
    dsimp only
    exact asked.mapGar rfl

theorem dequeue {e : QueueEntry} (h : Keeps a β s t) : Keeps a β s (t.dequeue e) := h.mapGar rfl

theorem grantDesk {e : QueueEntry} (h : Keeps a β s t) : Keeps a β s (t.grantDesk b e) := by
  unfold State.grantDesk
  dsimp only
  split
  · exact h.notifyDesk.arbitrationDue
  · exact h.beginConnect.arbitrationDue

theorem grantRoutine {x : Candidate} (h : Keeps a β s t) : Keeps a β s (t.grantRoutine b x) := by
  unfold State.grantRoutine
  dsimp only
  split
  · exact h.routineGranted.routineGrantFailed.arbitrationDue
  · exact h.routineGranted.beginConnect.arbitrationDue

theorem grant {w : Winner} (h : Keeps a β s t) : Keeps a β s (t.grant b w) := by
  cases w with
  | nobody => exact h
  | desk x => exact (ite h.dequeue h).grantDesk
  | routine x => exact h.grantRoutine

theorem arbitrate {fuel : Nat} (h : Keeps a β s t) : Keeps a β s (State.arbitrate fuel t) := by
  induction fuel generalizing t with
  | zero => exact h.mapGar rfl
  | succ fuel ih =>
    have cleared : Keeps a β s (t.mapGar fun g => { g with arbDue := false }) := h.mapGar rfl
    unfold State.arbitrate
    refine ite ?_ cleared
    split
    · exact ih cleared.decideWinner.grant
    · exact cleared

end Keeps

end Sys2Proof
end

