-- ==== Sys2Proof/Proofs/KeepsRuns.lean ====
section
/-! PROOFS. The relation `Keeps` for the operations that reach the channels: the front end, runs, releases, the end of
a step, the requests and events built on them. Biases are raised by the bias switch-on alone, so only what makes one
needs `bias`. -/

namespace Sys2Proof

open Machine

/-- No operation of the channel record but the bias switch-on gives a bias. -/
@[simp] theorem atRest_bias (r : ChannelRecord) : r.atRest.bias = .off := rfl

@[simp] theorem warmUp_bias (r : ChannelRecord) : r.warmUp.bias = .off := rfl

@[simp] theorem drain_bias (r : ChannelRecord) : r.drain.bias = .off := rfl

@[simp] theorem give_bias (r : ChannelRecord) (h : Nat) (b : Bus) : (r.give h b).bias = .off := by
  unfold ChannelRecord.give
  dsimp only
  split <;> rfl

@[simp] theorem nextStage_bias (r : ChannelRecord) : r.nextStage.bias = r.bias := by
  unfold ChannelRecord.nextStage
  split <;> rfl

@[simp] theorem endWarmUp_bias (r : ChannelRecord) : r.endWarmUp.bias = r.bias := by
  unfold ChannelRecord.endWarmUp
  split <;> rfl

@[simp] theorem calGainDone_bias (r : ChannelRecord) : r.calGainDone.bias = r.bias := by
  unfold ChannelRecord.calGainDone
  split <;> rfl

@[simp] theorem calibrated_bias (r : ChannelRecord) (o : Offsets) (now : Stamp) : (r.calibrated o now).bias = r.bias := by
  unfold ChannelRecord.calibrated
  dsimp only
  split <;> rfl

theorem commit_bias (r : ChannelRecord) : r.commit.bias = .off ∨ r.commit.bias = r.bias := by
  unfold ChannelRecord.commit
  split <;> simp

theorem enabled_bias (op : OperState) (r : ChannelRecord) : (r.enabled op).bias = .off ∨ (r.enabled op).bias = r.bias := by
  unfold ChannelRecord.enabled
  dsimp only
  split
  · exact .inr rfl
  · split
    · exact .inl rfl
    · exact .inl rfl
    · exact .inr rfl
    · exact .inr rfl
    · exact .inr rfl
    · exact .inr rfl

theorem disabled_bias (r : ChannelRecord) : r.disabled.bias = .off ∨ r.disabled.bias = r.bias := by
  unfold ChannelRecord.disabled
  dsimp only
  split
  · exact .inr rfl
  · exact .inl rfl
  · exact .inl rfl
  · exact .inl rfl
  · exact .inl rfl
  · exact .inr rfl

namespace Keeps

variable {a β : Bool} {s t : State} {b : Bus} {c : Channel} {p : Port} {q : Request} {n : Nat} {x : RunContext}

/-- A channel record written whose bias is off or as it was. -/
theorem setChanOr {r : ChannelRecord} (h : Keeps true β s t) (hr : r.bias = .off ∨ r.bias = (t.chan c).bias) :
    Keeps true β s (t.setChan c r) :=
  h.setChan fun _ hn => hr.resolve_left hn

/-! ### Channels (R76 to R92) -/

theorem tellChannel {k : ChannelState} {y : ChannelCause} (h : Keeps a β s t) : Keeps a β s (t.tellChannel c k y) :=
  h.broadcast

theorem leaveRun (h : Keeps true β s t) : Keeps true β s (t.leaveRun c) :=
  ite (h.setChanOff rfl).tellChannel (h.setChanOff rfl)

theorem channelReady (h : Keeps true β s t) : Keeps true β s (t.channelReady c) := by
  cases c with
  | mc0 =>
    show Keeps true β s t.takeBackMc1
    unfold State.takeBackMc1
    split
    · exact h
    · exact h.setCtx.leaveRun.mapWaiting
  | mc1 => exact ite h.mapWaiting h

theorem freeChannel (h : Keeps true β s t) : Keeps true β s (t.freeChannel c) := ite h.leaveRun h.leaveRun.channelReady

theorem selectPair {y : Option Pair} (h : Keeps true β s t) : Keeps true β s (t.selectPair c y) :=
  ite h (h.setChanSame rfl)

theorem selectGain {g : Gain} (h : Keeps true β s t) : Keeps true β s (t.selectGain c g) := h.setChanSame rfl

theorem selectRange {y : SourceRange} (h : Keeps true β s t) : Keeps true β s (t.selectRange c y) :=
  ite h (ite (h.setChanSame rfl) (h.setChanSame rfl))

theorem switchOff (h : Keeps true β s t) : Keeps true β s (t.switchOff c) := ite h (h.setChanOff rfl)

theorem discharge (h : Keeps true β s t) : Keeps true β s (t.discharge c) := h.setChanOff rfl

/-- The bias switch-on, the one operation that raises a bias. -/
theorem connectBias {y : Bias} (h : Keeps true true s t) : Keeps true true s (t.connectBias c y) :=
  ite h (h.setChan nofun)

theorem switchOn {y : Bias} (h : Keeps true true s t) : Keeps true true s (t.switchOn c y) :=
  ite h (ite h.connectBias (h.setChanOff rfl))

/-! ### The end of a run (R122, R125) -/

theorem binResults {l : List StepResult} (h : Keeps a β s t) : Keeps a β s (t.binResults l) := by
  induction l generalizing t with
  | nil => exact h
  | cons r l ih =>
    unfold State.binResults
    split
    · exact ite (ih h.addBin) (ih h)
    · exact ih h

theorem reportRun {v : Verdict} {l : List FoundCode} (h : Keeps a β s t) : Keeps a β s (t.reportRun b x v l) := by
  unfold State.reportRun
  split
  · exact h.notifyDesk
  · dsimp only
    split
    · exact (ite h.testDone h).dispatchInterrupted
    · exact ite h.testDone h

theorem freeOf (h : Keeps true β s t) : Keeps true β s (t.freeOf x) := by
  unfold State.freeOf
  split
  · exact ite h.freeChannel h
  · exact h

theorem setCovered (h : Keeps a β s t) : Keeps a β s (t.setCovered n) := h.setLine

theorem endRun (h : Keeps true β s t) : Keeps true β s (t.endRun b) := by
  unfold State.endRun
  split
  · exact h
  · have recorded {u : State} (hu : Keeps true β s u) {f : RunSequencer → RunSequencer}
        (hf : (f u.rsq).programs = u.rsq.programs) {n g i : Nat} {r : LineRecord} :
        Keeps true β s (((u.mapRsq f).setLine n r).count g i) := (hu.mapRsq hf).setLine.count
    dsimp only
    refine setCtx (busAfterRun (freeOf (reportRun (ite (binResults (recorded (ite ?_ h) rfl))
      (recorded (ite ?_ h) rfl)))))
    · exact h.takeReport.setCovered
    · exact h.takeReport.setCovered

/-! ### Steps of a run (R96 to R121) -/

theorem beginReading {y : Stage} {g : Gain} (h : Keeps true β s t) : Keeps true β s (t.beginReading b c y g n) :=
  h.selectGain.mapCtx

theorem beginFvPair {y : Pair} (h : Keeps true β s t) : Keeps true β s (t.beginFvPair b c y n) :=
  h.selectPair.beginReading

theorem startStep {i : Nat} {y : ProgramStep} (h : Keeps true β s t) : Keeps true β s (t.startStep b x c i y) := by
  unfold State.startStep
  cases y with
  | fv n => exact h.setCtx.beginFvPair
  | res => exact h.setCtx.selectPair.selectRange.beginReading
  | cap => exact h.setCtx.selectPair.selectRange.discharge
  | wait => exact h.setCtx.selectPair

theorem beginSteps {l : List ProgramStep} {i : Nat} (h : Keeps true β s t) :
    Keeps true β s (State.beginSteps b c l i t) := by
  induction l generalizing i t with
  | nil => exact h.endRun
  | cons y l ih =>
    unfold State.beginSteps
    split
    · exact h
    · split
      · exact ih h.setCtx
      · exact h.startStep

theorem endStep (h : Keeps true β s t) : Keeps true β s (t.endStep b c) := by
  unfold State.endStep
  split
  · exact h
  · exact h.setCtx.beginSteps

theorem closingDischarge (h : Keeps true β s t) : Keeps true β s (t.closingDischarge b c) := h.discharge.mapCtx

theorem setHazard {v : Bool} (h : Keeps a β s t) : Keeps a β s (t.setHazard n v) := h.setLine

theorem endFv {g : Gain} (h : Keeps true β s t) : Keeps true β s (t.endFv b c x g) :=
  (ite h.setCtx h.setCtx.setHazard).endStep

theorem fvStands {y : Pair} {k : Pass} (h : Keeps true β s t) : Keeps true β s (t.fvStands b c x y k n) := by
  have judged {p p' : Prop} [Decidable p] [Decidable p'] {z : RunContext} {f : Finding} : Keeps true β s
      (if p then (if p' then (t.setCtx b (some z)).setHazard x.line true else t.setCtx b (some z)).takeFinding f
        else if p' then (t.setCtx b (some z)).setHazard x.line true else t.setCtx b (some z)) :=
    ite (ite h.setCtx.setHazard h.setCtx).takeFinding (ite h.setCtx.setHazard h.setCtx)
  unfold State.fvStands
  cases y with
  | tg => exact judged.beginFvPair
  | rg => exact judged.beginFvPair
  | tr => exact judged.endFv

theorem vfStands {y : Bias} {k : Pass} (h : Keeps true true s t) : Keeps true true s (t.vfStands b c x y k) :=
  ite h.setCtx.closingDischarge h.setCtx.switchOn

theorem vxStands {z : Pair} {y : Bias} {k : Pass} (h : Keeps true β s t) : Keeps true β s (t.vxStands b c x z y k) := by
  unfold State.vxStands
  dsimp only
  split
  · exact h.setCtx.selectRange
  · exact h.setCtx.closingDischarge

theorem vfinStands {y : Bias} {k : Pass} (h : Keeps true β s t) : Keeps true β s (t.vfinStands b c x y k) :=
  h.setCtx.closingDischarge

theorem readingStands {k : Pass} (h : Keeps true true s t) : Keeps true true s (t.readingStands b c x k n) := by
  unfold State.readingStands
  split
  · exact h.fvStands
  · exact h.vfStands
  · exact h.vxStands
  · exact h.vfinStands
  · exact h

theorem passOver (h : Keeps true true s t) : Keeps true true s (t.passOver c) := by
  unfold State.passOver
  split
  · exact h
  · split
    · refine ite h ?_
      dsimp only
      split
      · exact h.selectGain.setCtx
      · exact h.readingStands
    · exact h

theorem beginVfin (h : Keeps true β s t) : Keeps true β s (t.beginVfin b c x) := by
  unfold State.beginVfin
  split
  · exact h.beginReading
  · exact h

theorem settleOver (h : Keeps true β s t) : Keeps true β s (t.settleOver c) := by
  unfold State.settleOver
  refine ite h ?_
  have quiet := h.setChanSame (c := c) (r := { t.chan c with activity := .quiet, timer := 0 }) rfl
  dsimp only
  split
  · exact quiet
  · split
    · exact quiet.beginReading
    · exact ite quiet.beginVfin quiet
    · exact quiet

theorem captureOver (h : Keeps true β s t) : Keeps true β s (t.captureOver c) := by
  unfold State.captureOver
  split
  · exact h
  · exact ite (ite h.setCtx h.setCtx.beginVfin) h

theorem beginCapture {y : Bias} (h : Keeps true true s t) : Keeps true true s (t.beginCapture b c y) :=
  h.mapCtx.selectGain.switchOn

theorem afterDischarge (h : Keeps true true s t) : Keeps true true s (t.afterDischarge b c x) := by
  unfold State.afterDischarge
  refine ite h (ite h.endRun ?_)
  split
  · exact h.beginCapture
  · exact h.endStep
  · exact h

theorem dischargeOver (h : Keeps true true s t) : Keeps true true s (t.dischargeOver c) := by
  unfold State.dischargeOver
  refine ite h ?_
  have quiet := h.setChanSame (c := c) (r := { t.chan c with activity := .quiet, timer := 0, biasNext := none }) rfl
  dsimp only
  split
  · exact quiet.connectBias
  · split
    · exact quiet.afterDischarge
    · exact quiet

theorem waitOver (h : Keeps true β s t) : Keeps true β s (t.waitOver b) := by
  unfold State.waitOver
  split
  · exact h
  · split
    · exact h.endStep
    · exact h

theorem sample {k : Int} (h : Keeps true β s t) : Keeps true β s (t.sample c k) := by
  unfold State.sample
  dsimp only
  split
  · exact h.setChanSame rfl
  · have written := h.setChanSame (r := (t.chan c).writeSample k) rfl
    refine ite h ?_
    split
    · exact written.setCtx
    · exact written

/-! ### Channels for runs, aborts, releases (R33 to R40, R55 to R57, R123) -/

theorem joinWaiting (h : Keeps true β s t) : Keeps true β s (t.joinWaiting b x) := by
  unfold State.joinWaiting
  exact h.mapWaiting

theorem leaveWaiting (h : Keeps true β s t) : Keeps true β s (t.leaveWaiting n) := h.mapWaiting

theorem giveChannel (h : Keeps true β s t) : Keeps true β s (t.giveChannel c b) := by
  unfold State.giveChannel
  split
  · exact h
  · exact ite (h.setChanOff (give_bias ..)).setCtx (h.setChanOff (give_bias ..)).setCtx.beginSteps

theorem serveWaiting {fuel : Nat} (h : Keeps true β s t) : Keeps true β s (State.serveWaiting fuel t) := by
  induction fuel generalizing t with
  | zero => exact h
  | succ fuel ih =>
    unfold State.serveWaiting
    split
    · exact ih h.leaveWaiting.mapWaiting.giveChannel
    · exact h

/-- The end of a step. -/
theorem settle (h : Keeps true β s t) : Keeps true β s t.settle := h.serveWaiting.arbitrate

theorem actOnAbort (h : Keeps true β s t) : Keeps true β s (t.actOnAbort b x) := by
  unfold State.actOnAbort
  split
  · exact h.leaveWaiting.endRun
  · exact h
  · exact ite h.endRun h.switchOff.mapCtx
  · exact ite h.endRun h.switchOff.mapCtx
  · exact ite h.endRun h.switchOff.mapCtx
  · exact h.endRun

theorem abortRun {y : AbortCause} (h : Keeps true β s t) : Keeps true β s (t.abortRun b y) := by
  unfold State.abortRun
  split
  · exact h
  · exact ite h h.setCtx.actOnAbort

theorem abortWaiting {y : AbortCause} {l : List WaitEntry} (h : Keeps true β s t) :
    Keeps true β s (t.abortWaiting y l) := by
  induction l generalizing t with
  | nil => exact h
  | cons w l ih => exact ih h.abortRun

theorem serviceReview (h : Keeps true β s t) : Keeps true β s (State.serviceReview n t) :=
  ite h.arbitrationDue (ite h.abortWaiting h)

/-- The record of a channel whose calibration is over, in whatever state it goes to. -/
theorem setCalibrated {v : Offsets} {now : Stamp} {k : ChannelState} (h : Keeps true β s t) :
    Keeps true β s (t.setChan c { (t.chan c).calibrated v now with state := k }) :=
  h.setChanSame (calibrated_bias ..)

theorem calibrationOver (h : Keeps true β s t) : Keeps true β s (t.calibrationOver c) := by
  unfold State.calibrationOver
  dsimp only
  split
  · split
    · exact h.setCalibrated.channelReady.tellChannel
    · exact h.setCalibrated.tellChannel.serviceReview
  · exact h

theorem inRunCalibrationOver (h : Keeps true β s t) : Keeps true β s (t.inRunCalibrationOver c) := by
  unfold State.inRunCalibrationOver
  dsimp only
  split
  · next o _ _ _ =>
    have passed := h.setChanSame (c := c) (r := { (t.chan c).calibrated o t.now with activity := .quiet })
      (calibrated_bias ..)
    split
    · exact passed.beginSteps
    · exact (h.setChanOff rfl).tellChannel.abortRun.serviceReview
  · exact h

theorem startRun {y : Holder} {v : Bool} (h : Keeps true β s t) : Keeps true β s (t.startRun b y n v).1 :=
  (h.mapRsq rfl).setCtx.setBus.joinWaiting

theorem startRoutineRun {y : RoutineKind} (h : Keeps true β s t) : Keeps true β s (t.startRoutineRun b y) :=
  ite h.startRun.abortRun h.startRun

theorem accessCheckOver {v : Bool} (h : Keeps true β s t) : Keeps true β s (t.accessCheckOver b v) := by
  unfold State.accessCheckOver
  refine ite ?_ h.accessFailed
  dsimp only
  split
  · exact h.reachState.startRoutineRun
  · exact h.reachState

theorem runRequest (h : Keeps true β s t) : Keeps true β s (runRequest p q t) :=
  h.withHeldBus fun h => ite h.refuse (ite h.refuse (ite h.refuse h.startRun.renewHold.answer))

theorem cancelRun (h : Keeps true β s t) : Keeps true β s (cancelRun p q t) := by
  unfold Machine.cancelRun
  refine ite h.refuse ?_
  split
  · exact h.refuse
  · split
    · exact h.refuse
    · exact ite h.refuse (ite h.refuse h.ok.renewHold.abortRun)

theorem requestRelease {y : ReleaseReason} (h : Keeps true β s t) : Keeps true β s (t.requestRelease b y) := by
  have marked : Keeps true β s (t.markRelease b y) := h.setBus
  unfold State.requestRelease
  refine ite h ?_
  split
  · exact h
  · exact h
  · exact h.enterReleasing
  · exact h.enterReleasing
  · exact h.enterReleasing
  · exact h.enterReleasing
  · exact ite h.enterReleasing marked
  · split
    · exact marked.abortRun
    · exact marked

theorem releaseEach {f : BusRecord → Bool} {y : ReleaseReason} {l : List Bus} (h : Keeps true β s t) :
    Keeps true β s (t.releaseEach f y l) := by
  induction l generalizing t with
  | nil => exact h
  | cons b l ih => exact ih (ite h.requestRelease h)

theorem releaseAll {f : BusRecord → Bool} {y : ReleaseReason} (h : Keeps true β s t) :
    Keeps true β s (t.releaseAll f y) := h.releaseEach

theorem releaseRequest (h : Keeps true β s t) : Keeps true β s (releaseRequest p q t) := by
  unfold Machine.releaseRequest
  split
  · exact h.refuse
  · exact ite h.refuse h.ok.requestRelease

/-! ### CONNECT and lines that reach NORMAL (R35, R43 to R45) -/

theorem takeSequence (h : Keeps a β s t) : Keeps a β s t.takeSequence := h.mapGar rfl

theorem connectNow {e : QueueEntry} (h : Keeps a β s t) : Keeps a β s (t.connectNow p q e) := by
  unfold State.connectNow
  refine ite h.refuse (ite h.refuse ?_)
  split
  · exact h.refuse
  · have hd := h.decideWinner (e := some e)
    split
    · next e => exact (e ▸ hd).takeSequence.answer.grantDesk
    · next e => exact (e ▸ hd).grant.refuse

theorem preemptRoutine (h : Keeps true β s t) : Keeps true β s (t.preemptRoutine n) := by
  unfold State.preemptRoutine
  split
  · exact ite h.requestRelease h
  · exact h

theorem enqueue {e : QueueEntry} (h : Keeps true β s t) : Keeps true β s (t.enqueue p q e) := by
  unfold State.enqueue
  exact (h.mapGar (f := fun g => { g with queue := g.queue ++ [e] })
    rfl).takeSequence.answer.preemptRoutine.arbitrationDue

theorem connectRequest (h : Keeps true β s t) : Keeps true β s (connectRequest p q t) := by
  unfold Machine.connectRequest
  dsimp only
  split
  · exact ite h.refuse (ite h.refuse (ite h.refuse (ite h.connectNow (ite h.refuse h.enqueue))))
  · exact h.refuse

theorem countFree (h : Keeps a β s t) : Keeps a β s { t with free := t.free + 1 } :=
  h.other rfl rfl rfl rfl rfl rfl rfl rfl

theorem lineFree (h : Keeps true β s t) : Keeps true β s (t.lineFree n) := by
  unfold State.lineFree
  exact ite h.arbitrationDue (ite h.arbitrationDue.countFree.answerSeizes
    h.arbitrationDue.countFree.settle.answerSeizes)

theorem freeLine (h : Keeps true β s t) : Keeps true β s (t.freeLine b) := by
  unfold State.freeLine
  split
  · exact h.leaveLine.lineFree
  · exact h.leaveLine

theorem pointOperated (h : Keeps true β s t) : Keeps true β s (t.pointOperated b) := by
  unfold State.pointOperated
  dsimp only
  split
  · exact h.setBus
  · exact h.reportConnectEnd.freeLine

/-! ### The exchange (R59 to R73) -/

theorem callAttempt {y : AttemptCause} (h : Keeps a β s t) : Keeps a β s (t.callAttempt b n y) := h.tellHolder

theorem callOnSplit {y : AttemptCause} (h : Keeps true β s t) : Keeps true β s (t.callOnSplit n y) := by
  unfold State.callOnSplit
  split
  · exact h
  · exact ite h (ite h.requestRelease h.callAttempt)

theorem unlock (h : Keeps a β s t) : Keeps a β s (t.unlock n) := ite h.mapRts.testDone h

theorem actOnCall {y : CallState} (h : Keeps true β s t) : Keeps true β s (t.actOnCall n y) := by
  unfold State.actOnCall
  cases y with
  | busy | ringing => exact h.callOnSplit
  | idle => exact h.unlock
  | lockout => exact h

theorem callStateRequest (h : Keeps true β s t) : Keeps true β s (callStateRequest p q t) := by
  unfold Machine.callStateRequest
  dsimp only
  split
  · exact h.refuse
  · exact ite h.refuse (ite (ite h.ok.setSeizes.unlock h.ok.setSeizes) h.ok.setCall.actOnCall)

theorem seizeWaits {y : Byte} (h : Keeps a β s t) : Keeps a β s (t.seizeWaits n y) := h.setCall.setSeizes

theorem seizeGranted (h : Keeps a β s t) : Keeps a β s (t.seizeGranted p q n) := h.setCall.ok

theorem seizeSplit (h : Keeps true β s t) : Keeps true β s (t.seizeSplit p q n b) :=
  ite h.seizeWaits (ite h.ok.callAttempt h.seizeWaits.requestRelease)

theorem seizeRequest (h : Keeps true β s t) : Keeps true β s (seizeRequest p q t) := by
  unfold Machine.seizeRequest
  refine ite h.refuse (ite h.refuse ?_)
  split
  · exact h.seizeGranted
  · exact h.seizeGranted
  · exact h.seizeWaits
  · exact h.seizeSplit
  · exact h.seizeSplit

theorem testRequest (h : Keeps a β s t) : Keeps a β s (testRequest p q t) :=
  ite h.refuse (ite h.refuse (ite h.refuse (ite h.refuse (ite h.refuse h.mapRts.ok.arbitrationDue))))

theorem setTime {y : Stamp} (h : Keeps a β s t) : Keeps a β s (t.setTime y) := by
  have timed : Keeps a β s { t with exc := { t.exc with time := y, subMs := 0 } } :=
    h.other rfl rfl rfl rfl rfl rfl rfl rfl
  exact ite timed timed.arbitrationDue

theorem timeSet (h : Keeps a β s t) : Keeps a β s (timeSet p q t) := by
  have known : Keeps a β s { t with exc := { t.exc with unset := false } } :=
    h.other rfl rfl rfl rfl rfl rfl rfl rfl
  exact ite h.refuse known.setTime.ok

/-! ### Configuration (R12 to R15, R46, R81, R82, R112, R132, R162, R170, R180 to R182) -/

theorem writeLines {k : Nat} {v : Bool} {l : List Nat} (h : Keeps a β s t) : Keeps a β s (t.writeLines k v l) := by
  induction l generalizing t with
  | nil => exact h
  | cons n l ih => exact ih h.setLine

theorem configLines (h : Keeps a β s t) : Keeps a β s (configLines p q t) := by
  unfold Machine.configLines
  dsimp only
  split
  · exact h.refuse
  · refine ite h.refuse ?_
    split
    · exact h.answer
    · exact ite h.refuse h.writeLines.ok

theorem configClass (h : Keeps a β s t) : Keeps a β s (configClass p q t) :=
  ite h.refuse (ite h.refuse (ite h.refuse (ite h.refuse h.setCls.ok)))

theorem configProgram (h : Keeps a β s t) : Keeps a β s (configProgram p q t) := by
  unfold Machine.configProgram
  dsimp only
  split
  · exact h.refuse
  · exact ite h.refuse (ite h.refuse (ite h.refuse (ite h.refuse h.setProgram.ok)))

theorem configPriority (h : Keeps a β s t) : Keeps a β s (configPriority p q t) := by
  unfold Machine.configPriority
  exact (h.mapGar (f := fun g => { g with prio := (prioritiesOf q.payload).bound }) rfl).ok

theorem configRoutine (h : Keeps a β s t) : Keeps a β s (configRoutine p q t) := h.mapRts.ok

theorem configStorm (h : Keeps a β s t) : Keeps a β s (configStorm p q t) := h.mapTkt.ok

theorem setTimes {y : TimeParams} (h : Keeps true β s t) : Keeps true β s (t.setTimes y) :=
  h.trans ⟨rfl, id, fun w => ⟨w.1, w.2, w.3, w.4, w.5, w.6⟩, fun _ _ _ => rfl, nofun⟩

theorem configTimes (h : Keeps true β s t) : Keeps true β s (configTimes p q t) := h.setTimes.ok

theorem okChannel (h : Keeps a β s t) : Keeps a β s (t.okChannel p q c) := h.ok

theorem channelSetEnable (h : Keeps true β s t) : Keeps true β s (channelSetEnable p q t) := by
  unfold Machine.channelSetEnable
  split
  · exact (h.setChanOr (enabled_bias ..)).serviceReview.okChannel
  · exact h.refuse

theorem disableChannel (h : Keeps true β s t) : Keeps true β s (t.disableChannel c) := by
  have off := h.setChanOr (disabled_bias (t.chan c))
  unfold State.disableChannel
  exact (ite off.tellChannel off).serviceReview

theorem channelSetDisable (h : Keeps true β s t) : Keeps true β s (channelSetDisable p q t) := by
  unfold Machine.channelSetDisable
  split
  · exact h.disableChannel.okChannel
  · exact h.refuse

theorem startWindow (h : Keeps a β s t) : Keeps a β s t.startWindow := h.mapTkt

theorem enterOperational (h : Keeps true β s t) : Keeps true β s t.enterOperational := by
  have commit : Keeps true β s { t with op := .operational, mc := { t.mc with
      chans := ⟨t.mc.chans.mc0.commit, t.mc.chans.mc1.commit⟩ } } := by
    refine h.trans ⟨rfl, id, fun w => ⟨w.1, w.2, w.3, w.4, w.5, w.6⟩, fun _ c hc => ?_, nofun⟩
    cases c
    · exact (commit_bias _).resolve_left hc
    · exact (commit_bias _).resolve_left hc
  exact commit.startWindow.serviceReview

theorem configCommit (h : Keeps true β s t) : Keeps true β s (configCommit p q t) := by
  unfold Machine.configCommit
  refine ite h.refuse ?_
  split
  · exact h.answer
  · exact h.ok.enterOperational

theorem failQueue {l : List QueueEntry} (h : Keeps a β s t) : Keeps a β s (t.failQueue l) := by
  induction l generalizing t with
  | nil => exact h
  | cons e l ih => exact ih h.notifyDesk

theorem restartStorm (h : Keeps a β s t) : Keeps a β s t.restartStorm :=
  ite h.mapTkt.startWindow.broadcast h.mapTkt.startWindow

theorem restartBlocks (h : Keeps true β s t) : Keeps true β s t.restartBlocks := by
  unfold State.restartBlocks
  exact (h.releaseAll.mapGar (f := fun g => { g with queue := [], ratio := 0 })
    rfl).failQueue.restartScheduler.restartStorm

theorem restartRequest (h : Keeps true β s t) : Keeps true β s (restartRequest p q t) := by
  unfold Machine.restartRequest
  exact h.ok.restartBlocks.broadcast

theorem countersClear (h : Keeps a β s t) : Keeps a β s (countersClear p q t) :=
  ite h.refuse (ite h.refuse h.clearGroup.ok)

/-! ### Requests that read (R93, R126, R128, R170, R176, R179) -/

theorem lineGet (h : Keeps a β s t) : Keeps a β s (lineGet p q t) := ite h.refuse h.ok

theorem statusGet (h : Keeps a β s t) : Keeps a β s (statusGet p q t) := h.ok

theorem channelGet (h : Keeps a β s t) : Keeps a β s (channelGet p q t) := by
  unfold Machine.channelGet
  split
  · exact h.refuse
  · exact h.ok

theorem resultGet (h : Keeps a β s t) : Keeps a β s (resultGet p q t) := by
  unfold Machine.resultGet
  refine ite h.refuse ?_
  split
  · exact h.refuse
  · exact h.ok

theorem countersGet (h : Keeps a β s t) : Keeps a β s (countersGet p q t) := ite h.refuse h.ok

theorem subscribe (h : Keeps a β s t) : Keeps a β s (subscribe p q t) := (h.setPort fun ⟨hq, hn⟩ => ⟨hq, hn⟩).ok

theorem traceRequest (h : Keeps a β s t) : Keeps a β s (traceRequest p q t) := by
  unfold Machine.traceRequest
  refine ite h.refuse ?_
  split
  · exact h.refuse
  · refine ite h.refuse ?_
    unfold State.startTrace
    refine ite h.refuse ?_
    split
    · exact h.refuse
    · exact ite h.refuse (h.setPort fun ⟨hq, hn⟩ => ⟨hq, hn⟩).ok

/-! ### The port units (R129, R173 to R176, R183) -/

theorem setReceiver {r : Receiver} (h : Keeps a β s t) : Keeps a β s (t.setReceiver p r) :=
  h.setPort fun ⟨hq, hn⟩ => ⟨hq, hn⟩

theorem handRequest (h : Keeps a β s t) : Keeps a β s (t.handRequest p q) := by
  unfold State.handRequest
  refine ite h (ite h.refuse.count ?_)
  split
  · exact h.refuse
  · next room => exact h.setPort fun ⟨_, hn⟩ => ⟨by simpa using Nat.lt_of_not_le room, hn⟩

theorem linkUp (h : Keeps a β s t) : Keeps a β s (t.linkUp p) := by
  have up : Keeps a β s (t.setPort p { t.port p with link := .up }) := h.setPort fun ⟨hq, hn⟩ => ⟨hq, hn⟩
  exact ite up.resumeScheduler up

theorem handFrame {v : Bool} (h : Keeps a β s t) : Keeps a β s (t.handFrame p v q) := by
  unfold State.handFrame
  split
  · exact h.handRequest
  · exact ite h.linkUp.handRequest h

theorem goodFrame {v : Bool} (h : Keeps a β s t) : Keeps a β s (t.goodFrame p v q) := h.setReceiver.handFrame

theorem countBadFrame (h : Keeps a β s t) : Keeps a β s (t.countBadFrame p) := by
  unfold State.countBadFrame
  exact h.count

theorem huntBytes {v : Bool} {fuel : Nat} {l : List Byte} (h : Keeps a β s t) :
    Keeps a β s (State.huntBytes p v fuel l t) := by
  induction fuel generalizing l t with
  | zero => exact h.setReceiver
  | succ fuel ih =>
    unfold State.huntBytes
    split
    · exact h.setReceiver
    · exact h.setReceiver
    · exact ih h.countBadFrame
    · exact ih h.setReceiver.handFrame

theorem badFrame {y : LineBytes} (h : Keeps a β s t) : Keeps a β s (t.badFrame p y) := h.countBadFrame.huntBytes

theorem interruptedFrame (h : Keeps a β s t) : Keeps a β s (t.interruptedFrame p) := h.setReceiver.countBadFrame

theorem frameSent (h : Keeps a β s t) : Keeps a β s (t.setPort p (t.port p).sent) := by
  refine h.setPort fun ⟨hq, hn⟩ => ?_
  unfold PortUnit.sent
  split
  · exact ⟨hq, hn⟩
  · exact ⟨by simpa using hq, by simpa using hn⟩
  · exact ⟨by simpa using hq, by simp; omega⟩

theorem stream (h : Keeps a β s t) : Keeps a β s (t.setPort p (t.port p).stream) := by
  refine h.setPort fun ⟨hq, hn⟩ => ?_
  unfold PortUnit.stream
  split
  · exact ⟨hq, hn⟩
  · split
    · exact ⟨hq, hn⟩
    · exact ⟨by simpa using hq, by simp; omega⟩

theorem loseNotices (h : Keeps a β s t) : Keeps a β s (State.loseNotices p n t) := by
  induction n generalizing t with
  | zero => exact h
  | succ n ih => exact ih h.countLost

theorem breakPort (h : Keeps a β s t) : Keeps a β s (t.breakPort p) := by
  unfold State.breakPort
  exact (h.setPort fun _ => ⟨Nat.zero_le _, Nat.zero_le _⟩).loseNotices

theorem exchangeDown (h : Keeps true β s t) : Keeps true β s t.exchangeDown :=
  h.breakPort.setSeizes.releaseAll.holdScheduler

theorem deskDown {d : Desk} (h : Keeps true β s t) : Keeps true β s (t.deskDown d) := by
  unfold State.deskDown
  exact (h.breakPort.mapGar (f := fun g => { g with queue := g.queue.filter fun e => e.desk ≠ d })
    rfl).releaseAll.returnTickets

/-! ### The storm window (R162, R164) -/

theorem stormChanged {y : StormState} (h : Keeps a β s t) : Keeps a β s (t.stormChanged y n) :=
  ite h (ite h.broadcast.holdScheduler h.broadcast.resumeScheduler)

theorem windowOver (h : Keeps a β s t) : Keeps a β s t.windowOver := h.mapTkt.startWindow.stormChanged

end Keeps

end Sys2Proof
end

