-- ==== Sys2Proof/Proofs/Invariants.lean ====
section
/-! PROOFS. What every command keeps, and the invariants of every step that follow from it (R172, R47, R55, log 7,
log 30). -/

namespace Sys2Proof

open Machine

/-! ## Every command -/

/-- The commands that can bring about a bias switch-on: the end of the pass after which Vx is measured, and the end of a
discharge (R88, R102, R106). -/
def raisesBias : Instr → Bool
  | .passEnd _ => true
  | .dischargeEnd _ => true
  | _ => false

theorem canonical_powerOn (d : Desk) (n : Nat) : Canonical (State.powerOn d n) := by
  refine ⟨rfl, rfl, rfl, rfl, fun g => ?_, rfl⟩
  rcases g with _ | _ | _ | _ <;> rfl

theorem portsBounded_powerOn (d : Desk) (n : Nat) : PortsBounded (State.powerOn d n) := by
  intro p
  cases p <;> exact ⟨Nat.zero_le _, Nat.zero_le _⟩

theorem Keeps.powerReset {strap : BitVec 2} {s : State} :
    Keeps true false s { State.powerOn (strapDesk strap) s.free with pending := s.pending } where
  pending := rfl
  ports _ := portsBounded_powerOn (strapDesk strap) s.free
  tables _ :=
    have w := canonical_powerOn (strapDesk strap) s.free
    ⟨w.1, w.2, w.3, w.4, w.5, w.6⟩
  bias _ c hc := by cases c <;> exact absurd rfl hc
  calm := nofun

/-- The next state of a command is the one its meaning gives. -/
theorem Keeps.of_next {a β : Bool} {i : Instr} {s t u : State} (h : exec i s = .next t) (e : exec i s = .next u)
    (k : Keeps a β s u) : Keeps a β s t := by
  obtain rfl := Host.Outcome.next.inj (h.symm.trans e)
  exact k

/-- Every command keeps the queue, the sizes of the port units and the canonical tables, and all but two of them
raise no bias. -/
theorem exec_keeps {i : Instr} {s t : State} (h : exec i s = .next t) : Keeps true (raisesBias i) s t := by
  have start {β : Bool} : Keeps true β s s := .refl
  cases i with
  | powerReset => exact .of_next h rfl .powerReset
  | goodFrame => exact .of_next h rfl start.goodFrame.settle
  | badFrame => exact .of_next h rfl start.badFrame.settle
  | interruptedFrame => exact .of_next h rfl start.interruptedFrame.settle
  | exchangeLinkDown => exact .of_next h rfl ((Keeps.ite start.exchangeDown start.setReceiver).settle)
  | deskLinkDown => exact .of_next h rfl ((Keeps.ite start.deskDown start.setReceiver).settle)
  | frameSent => exact .of_next h rfl start.frameSent
  | traceData => exact .of_next h rfl start.stream
  | callState => exact .of_next h rfl ((start.serve .callStateRequest).settle)
  | seize => exact .of_next h rfl ((start.serve .seizeRequest).settle)
  | testRequest => exact .of_next h rfl ((start.serve .testRequest).settle)
  | timeSet => exact .of_next h rfl ((start.serve .timeSet).settle)
  | timeAdvance => exact .of_next h rfl start.setTime.settle
  | connect => exact .of_next h rfl ((start.serve .connectRequest).settle)
  | release => exact .of_next h rfl ((start.serve .releaseRequest).settle)
  | setMode => exact .of_next h rfl ((start.serve .setMode).settle)
  | renew => exact .of_next h rfl ((start.serve .renew).settle)
  | run => exact .of_next h rfl ((start.serve .runRequest).settle)
  | cancelRun => exact .of_next h rfl ((start.serve .cancelRun).settle)
  | trace => exact .of_next h rfl ((start.serve .traceRequest).settle)
  | ticketTake => exact .of_next h rfl ((start.serve .ticketTake).settle)
  | ticketDrop => exact .of_next h rfl ((start.serve .ticketDrop).settle)
  | ticketClear => exact .of_next h rfl ((start.serve .ticketClear).settle)
  | ticketClose => exact .of_next h rfl ((start.serve .ticketClose).settle)
  | ticketPurge => exact .of_next h rfl ((start.serve .ticketPurge).settle)
  | ticketGet => exact .of_next h rfl ((start.serve .ticketGet).settle)
  | ticketList => exact .of_next h rfl ((start.serve .ticketList).settle)
  | lineGet => exact .of_next h rfl ((start.serve .lineGet).settle)
  | statusGet => exact .of_next h rfl ((start.serve .statusGet).settle)
  | busGet => exact .of_next h rfl ((start.serve .busGet).settle)
  | channelGet => exact .of_next h rfl ((start.serve .channelGet).settle)
  | resultGet => exact .of_next h rfl ((start.serve .resultGet).settle)
  | countersGet => exact .of_next h rfl ((start.serve .countersGet).settle)
  | subscribe => exact .of_next h rfl ((start.serve .subscribe).settle)
  | configLines => exact .of_next h rfl ((start.serve .configLines).settle)
  | configClass => exact .of_next h rfl ((start.serve .configClass).settle)
  | configProgram => exact .of_next h rfl ((start.serve .configProgram).settle)
  | configPriority => exact .of_next h rfl ((start.serve .configPriority).settle)
  | configRoutine => exact .of_next h rfl ((start.serve .configRoutine).settle)
  | configStorm => exact .of_next h rfl ((start.serve .configStorm).settle)
  | configTimes => exact .of_next h rfl ((start.serve .configTimes).settle)
  | channelSetEnable => exact .of_next h rfl ((start.serveWhere .channelSetEnable).settle)
  | channelSetDisable => exact .of_next h rfl ((start.serveWhere .channelSetDisable).settle)
  | configCommit => exact .of_next h rfl ((start.serve .configCommit).settle)
  | routineStart => exact .of_next h rfl ((start.serve .routineStart).settle)
  | routineStop => exact .of_next h rfl ((start.serve .routineStop).settle)
  | restart => exact .of_next h rfl ((start.serve .restartRequest).settle)
  | countersClear => exact .of_next h rfl ((start.serve .countersClear).settle)
  | shelfPointOperated => exact .of_next h rfl (by split <;> [exact start.pointOperated.settle; exact start])
  | lineRelayOperated => exact .of_next h rfl (by split <;> [exact start.lineOperated.settle; exact start])
  | accessCheckEnd => exact .of_next h rfl (by split <;> [exact start.accessCheckOver.settle; exact start])
  | lineRelayReleased => exact .of_next h rfl (by split <;> [exact start.freeLine.settle; exact start])
  | shelfPointReleased => exact .of_next h rfl (by split <;> [exact start.becomeIdle.settle; exact start])
  | holdExpired => exact .of_next h rfl (by split <;> [exact start.requestRelease.settle; exact start])
  | toneLimit => exact .of_next h rfl start.toneLimitExpired
  | toneDividerExpiry => exact .of_next h rfl start.dividerExpired
  | toneBurstEnd => exact .of_next h rfl start.burstEnded
  | toneSilenceEnd => exact .of_next h rfl start.silenceEnded
  | warmupStage => exact .of_next h rfl (start.setChanSame (nextStage_bias _))
  | warmupEnd => exact .of_next h rfl (start.setChanSame (endWarmUp_bias _))
  | calibrationGainDone => exact .of_next h rfl (start.setChanSame (calGainDone_bias _))
  | calibrationEnd => exact .of_next h rfl start.calibrationOver.settle
  | inRunCalibrationEnd => exact .of_next h rfl start.inRunCalibrationOver.settle
  | converterSample => exact .of_next h rfl start.sample
  | passEnd => exact .of_next h rfl start.passOver.settle
  | settleEnd => exact .of_next h rfl start.settleOver
  | captureEnd => exact .of_next h rfl start.captureOver
  | dischargeEnd => exact .of_next h rfl start.dischargeOver.settle
  | waitStepEnd => exact .of_next h rfl start.waitOver.settle
  | periodTimerExpiry => exact .of_next h rfl (by split <;> [exact start.periodExpired.settle; exact start])
  | windowEnd => exact .of_next h rfl (by split <;> [exact start.windowOver.settle; exact start])

/-! ## Every step -/

/-- While no command waits a step keeps sizes and tables: only timers, the moment and the queue change. -/
theorem idle_ports_tables (s : State) : s.idle.ports = s.ports ∧ s.idle.lrt = s.lrt ∧ s.idle.acc.points = s.acc.points ∧
    s.idle.rsq.programs = s.rsq.programs ∧ s.idle.cnt = s.cnt := by
  unfold State.idle
  split
  · split <;> exact ⟨rfl, rfl, rfl, rfl, rfl⟩
  · exact ⟨rfl, rfl, rfl, rfl, rfl⟩

/-- A step is the effect of the command at the front of the queue, or what happens while none waits. -/
theorem step_cases {s t : State} (h : step s = .next t) :
    (∃ i rest, s.pending = i :: rest ∧ exec i { s with pending := rest } = .next t) ∨ t = s.idle := by
  unfold step at h
  split at h
  · next i rest e => exact .inl ⟨i, rest, e, h⟩
  · exact .inr (Host.Outcome.next.inj h).symm

/-- Settles O1. -/
theorem stepTakesFrontCommand : Obligations.StepTakesFrontCommand := fun _ _ _ => rfl

/-- Settles O2. -/
theorem commandsKeepQueue : Obligations.CommandsKeepQueue := fun _ _ _ h => (exec_keeps h).pending

/-- Settles O3: every command keeps the sizes, and while none waits no port changes. -/
theorem stepKeepsPortSizes : Obligations.StepKeepsPortSizes := by
  intro s t hs h
  rcases step_cases h with ⟨i, rest, -, he⟩ | rfl
  · exact (exec_keeps he).ports hs
  · intro p
    rw [State.port, (idle_ports_tables s).1]
    exact hs p

/-- Settles O5: every command keeps the tables canonical, and while none waits no table changes. -/
theorem stepKeepsTablesCanonical : Obligations.StepKeepsTablesCanonical := by
  intro s t hs h
  rcases step_cases h with ⟨i, rest, -, he⟩ | rfl
  · exact (exec_keeps he).tables ⟨hs.1, hs.2, hs.3, hs.4, hs.5, hs.6⟩
  · obtain ⟨-, hlrt, hpoints, hprograms, hcnt⟩ := idle_ports_tables s
    exact ⟨hlrt ▸ hs.1, hlrt ▸ hs.2, hpoints ▸ hs.3, hprograms ▸ hs.4, hcnt ▸ hs.5, hcnt ▸ hs.6⟩

/-! ## Nothing left to grant (R47, R55, log 7) -/

/-- The arbitrations at the end of a step leave none due. -/
theorem arbitrate_not_due (fuel : Nat) (s : State) : (State.arbitrate fuel s).gar.arbDue = false := by
  induction fuel generalizing s with
  | zero => rfl
  | succ fuel ih =>
    unfold State.arbitrate
    dsimp only
    split
    · split
      · exact ih _
      · rfl
    · rfl

/-- Whether a run can be served is read from the wait list and the channels. -/
theorem noRunToServe_congr {s t : State} (hmc : t.mc = s.mc) (hw : t.gar.waiting = s.gar.waiting)
    (h : NoRunToServe s) : NoRunToServe t := by
  have ready : t.readyChannel = s.readyChannel := by
    unfold State.readyChannel State.chan
    rw [hmc]
  exact h.imp hw.trans ready.trans

/-- The end of a step settles it, whatever came before: READY channels are given until no run or no channel is left,
and the arbitrations that follow touch neither. -/
theorem settled_settle (s : State) : Settled s.settle := by
  have calm : Keeps false false (State.serveWaiting (2 * s.gar.waiting.length + 2) s) s.settle := Keeps.refl.arbitrate
  obtain ⟨hmc, hw⟩ := calm.calm rfl
  exact ⟨arbitrate_not_due _ _, noRunToServe_congr hmc hw (serveWaiting_settles s)⟩

theorem settled_setCtx {s : State} {b : Bus} {x : Option RunContext} (h : Settled s) : Settled (s.setCtx b x) := h

theorem settled_tellHolder {s : State} {r : BusRecord} {n : Notice} (h : Settled s) : Settled (s.tellHolder r n) := by
  unfold State.tellHolder
  split
  · exact (reportsOnly_notify _ n).settled h
  · exact h

/-- The tone events end settled: they change one bus and tell its holder (R28, R29). -/
theorem settled_tone {s : State} (b : Bus) (h : Settled s) : Settled (s.toneLimitExpired b) ∧
    Settled (s.dividerExpired b) ∧ Settled (s.burstEnded b) ∧ Settled (s.silenceEnded b) := by
  refine ⟨?_, ?_, ?_, ?_⟩
  · unfold State.toneLimitExpired
    dsimp only
    split
    · exact settled_tellHolder (s := s.setBus b _) h
    · exact h
  · unfold State.dividerExpired
    dsimp only
    split <;> exact h
  · unfold State.burstEnded
    dsimp only
    split <;> exact h
  · unfold State.silenceEnded
    dsimp only
    split <;> exact h

theorem settled_beginReading {s : State} {b : Bus} {c : Channel} {x : Stage} {g : Gain} {n : Nat} (h : Settled s) :
    Settled (s.beginReading b c x g n) := settled_setCtx (settled_setChan h rfl)

theorem settled_beginVfin {s : State} {b : Bus} {c : Channel} {x : RunContext} (h : Settled s) :
    Settled (s.beginVfin b c x) := by
  unfold State.beginVfin
  split
  · exact settled_beginReading h
  · exact h

theorem settled_settleOver {s : State} {c : Channel} (h : Settled s) : Settled (s.settleOver c) := by
  have quiet := settled_setChan (c := c) (r := { s.chan c with activity := .quiet, timer := 0 }) h rfl
  unfold State.settleOver
  dsimp only
  split
  · exact h
  · split
    · exact quiet
    · split
      · exact settled_beginReading quiet
      · split
        · exact settled_beginVfin quiet
        · exact quiet
      · exact quiet

theorem settled_captureOver {s : State} {c : Channel} (h : Settled s) : Settled (s.captureOver c) := by
  unfold State.captureOver
  split
  · exact h
  · split
    · dsimp only
      split
      · exact h
      · exact settled_beginVfin (settled_setCtx h)
    · exact h

theorem settled_sample {s : State} {c : Channel} {k : Int} (h : Settled s) : Settled (s.sample c k) := by
  unfold State.sample
  dsimp only
  split
  · exact settled_setChan h rfl
  · split
    · exact h
    · have written := settled_setChan (c := c) (r := (s.chan c).writeSample k) h rfl
      split
      · exact settled_setCtx written
      · exact written

@[simp] theorem nextStage_state (r : ChannelRecord) : r.nextStage.state = r.state := by
  unfold ChannelRecord.nextStage
  split <;> rfl

@[simp] theorem calGainDone_state (r : ChannelRecord) : r.calGainDone.state = r.state := by
  unfold ChannelRecord.calGainDone
  split <;> rfl

/-- The end of a warm-up makes no channel READY (R78). -/
theorem endWarmUp_ready {r : ChannelRecord} (h : r.endWarmUp.state = .ready) : r.state = .ready := by
  unfold ChannelRecord.endWarmUp at h
  split at h
  · cases h
  · exact h

/-- The next state of a command is the one its meaning gives. -/
theorem settled_of_next {i : Instr} {s t u : State} (h : exec i s = .next t) (e : exec i s = .next u) (k : Settled u) :
    Settled t := by
  obtain rfl := Host.Outcome.next.inj (h.symm.trans e)
  exact k

/-- Every command ends settled: most end with the arbiter's turn, and the others bring about nothing to grant. -/
theorem exec_settled {i : Instr} {s t : State} (hs : Settled s) (h : exec i s = .next t) : Settled t := by
  cases i with
  | powerReset => exact settled_of_next h rfl ⟨rfl, .inl rfl⟩
  | frameSent => exact settled_of_next h rfl hs
  | traceData => exact settled_of_next h rfl hs
  | toneLimit b => exact settled_of_next h rfl (settled_tone b hs).1
  | toneDividerExpiry b => exact settled_of_next h rfl (settled_tone b hs).2.1
  | toneBurstEnd b => exact settled_of_next h rfl (settled_tone b hs).2.2.1
  | toneSilenceEnd b => exact settled_of_next h rfl (settled_tone b hs).2.2.2
  | warmupStage => exact settled_of_next h rfl (settled_setChan hs (nextStage_state _))
  | warmupEnd => exact settled_of_next h rfl (settled_setChan' hs endWarmUp_ready)
  | calibrationGainDone => exact settled_of_next h rfl (settled_setChan hs (calGainDone_state _))
  | converterSample => exact settled_of_next h rfl (settled_sample hs)
  | settleEnd => exact settled_of_next h rfl (settled_settleOver hs)
  | captureEnd => exact settled_of_next h rfl (settled_captureOver hs)
  | shelfPointOperated => exact settled_of_next h rfl (by split <;> [exact settled_settle _; exact hs])
  | lineRelayOperated => exact settled_of_next h rfl (by split <;> [exact settled_settle _; exact hs])
  | accessCheckEnd => exact settled_of_next h rfl (by split <;> [exact settled_settle _; exact hs])
  | lineRelayReleased => exact settled_of_next h rfl (by split <;> [exact settled_settle _; exact hs])
  | shelfPointReleased => exact settled_of_next h rfl (by split <;> [exact settled_settle _; exact hs])
  | holdExpired => exact settled_of_next h rfl (by split <;> [exact settled_settle _; exact hs])
  | periodTimerExpiry => exact settled_of_next h rfl (by split <;> [exact settled_settle _; exact hs])
  | windowEnd => exact settled_of_next h rfl (by split <;> [exact settled_settle _; exact hs])
  | _ => exact settled_of_next h rfl (settled_settle _)

/-- The passing of a millisecond changes no channel's state. -/
theorem readyChannel_tickMs (s : State) : s.tickMs.readyChannel = s.readyChannel := by
  have tick (c : Channel) : (s.tickMs.chan c).state = (s.chan c).state := by cases c <;> rfl
  simp only [State.readyChannel, tick]

theorem settled_idle {s : State} (h : Settled s) : Settled s.idle := by
  unfold State.idle
  split
  · split
    · exact ⟨h.1, h.2.imp id (readyChannel_tickMs s).trans⟩
    · exact h
  · exact h

/-- Settles O4: a command ends with the arbiter's turn or brings about nothing to grant, and time grants nothing. -/
theorem stepKeepsSettled : Obligations.StepKeepsSettled := by
  intro s t hs h
  rcases step_cases h with ⟨i, rest, -, he⟩ | rfl
  · exact exec_settled (s := { s with pending := rest }) hs he
  · exact settled_idle hs

/-- Settles O6. -/
theorem resetMeetsInvariants : Obligations.ResetMeetsInvariants :=
  ⟨portsBounded_powerOn .d1 0, canonical_powerOn .d1 0, rfl, .inl rfl⟩

end Sys2Proof
end

