-- ==== Sys2Proof/Proofs/HazardInterlock.lean ====
section
/-! PROOFS. The hazard interlock of the bias switch-on (R88, R90, R121). -/

namespace Sys2Proof

open Machine

variable {s t : State} {b : Bus} {c d : Channel} {x : RunContext}

/-- The operation, or the steps of it, bring channel `d` from B0 to another level only where it is channel `c` and the
hazard flag of the line on its bus is clear. -/
def RaisesClear (c : Channel) (s t : State) : Prop :=
  ∀ d, (s.chan d).bias = .off → (t.chan d).bias ≠ .off → d = c ∧ s.channelHazard (s.chan c) = false

/-- What raises no bias raises none toward a hazard. -/
theorem Keeps.raisesClear {a : Bool} (h : Keeps a false s t) : RaisesClear c s t := fun d hoff hon =>
  absurd ((h.bias rfl d hon).trans hoff) hon

/-- What follows without raising a bias changes nothing about it. -/
theorem RaisesClear.then_keeps {u : State} {a : Bool} (h : RaisesClear c s t) (k : Keeps a false t u) :
    RaisesClear c s u := fun d hoff hon => h d hoff (k.bias rfl d hon ▸ hon)

/-- What comes before raises no bias and leaves the hazard check as it is. -/
theorem RaisesClear.after {u : State} {a : Bool} (h : RaisesClear c t u) (k : Keeps a false s t)
    (same : t.channelHazard (t.chan c) = s.channelHazard (s.chan c)) : RaisesClear c s u := by
  intro d hoff hon
  have hoff' : (t.chan d).bias = .off := by
    by_contra ht
    exact ht ((k.bias rfl d ht).trans hoff)
  obtain ⟨hd, clear⟩ := h d hoff' hon
  exact ⟨hd, same ▸ clear⟩

/-- The record at the end of a discharge, before what follows it. -/
def dischargeEnded (r : ChannelRecord) : ChannelRecord := { r with activity := .quiet, timer := 0, biasNext := none }

/-- The hazard check stands in the switch-on itself (R88). -/
theorem raisesClear_connectBias (y : Bias) : RaisesClear c s (s.connectBias c y) := by
  intro d hoff hon
  unfold State.connectBias at hon
  dsimp only at hon
  split at hon
  · exact absurd hoff hon
  · next clear =>
    rw [State.setChan_chan] at hon
    split at hon
    · next e => exact ⟨e, by simpa using clear⟩
    · exact absurd hoff hon

theorem raisesClear_switchOn (y : Bias) : RaisesClear c s (s.switchOn c y) := by
  unfold State.switchOn
  dsimp only
  split
  · exact (Keeps.refl (a := true)).raisesClear
  · split
    · exact raisesClear_connectBias y
    · exact (Keeps.refl.setChanOff rfl).raisesClear

theorem raisesClear_vfStands (y : Bias) (k : Pass) : RaisesClear c s (s.vfStands b c x y k) := by
  unfold State.vfStands
  dsimp only
  split
  · exact (Keeps.refl.setCtx.closingDischarge).raisesClear
  · exact raisesClear_switchOn (s := s.setCtx b _) y

theorem raisesClear_readingStands (k : Pass) (n : Nat) : RaisesClear c s (s.readingStands b c x k n) := by
  unfold State.readingStands
  split
  · exact Keeps.refl.fvStands.raisesClear
  · exact raisesClear_vfStands _ k
  · exact Keeps.refl.vxStands.raisesClear
  · exact Keeps.refl.vfinStands.raisesClear
  · exact (Keeps.refl (a := true)).raisesClear

/-- Conditions under which a channel is brought from B0 to another level: its line is no hazard, and it works for a run
or its switch-on waited for a discharge. -/
def MayRaise (s : State) (c : Channel) : Prop :=
  (∀ b line, (s.chan c).bus = some b → (s.bus b).line = some line → (s.line line).hazard = false) ∧
    ((s.chan c).biasNext = none → ∃ b x, s.runOn c = some (b, x))

theorem channelHazard_iff (r : ChannelRecord) : s.channelHazard r = true ↔
    ∃ b line, r.bus = some b ∧ (s.bus b).line = some line ∧ (s.line line).hazard = true := by
  unfold State.channelHazard
  cases hb : r.bus with
  | none => simp
  | some b => cases hl : (s.bus b).line <;> simp [hl]

theorem mayRaise_of (clear : s.channelHazard (s.chan c) = false)
    (run : (s.chan c).biasNext = none → ∃ b x, s.runOn c = some (b, x)) : MayRaise s c := by
  refine ⟨fun b line hb hl => ?_, run⟩
  by_contra h
  have := (channelHazard_iff (s.chan c)).2 ⟨b, line, hb, hl, by simpa using h⟩
  simp [clear] at this

/-- A pass that is over raises a bias only for the channel's run (R102). -/
theorem mayRaise_of_passOver (hoff : (s.chan d).bias = .off) (hon : ((s.passOver c).chan d).bias ≠ .off) :
    MayRaise s d := by
  unfold State.passOver at hon
  split at hon
  · exact absurd hoff hon
  · next b x run =>
    split at hon
    · split at hon
      · exact absurd hoff hon
      · dsimp only at hon
        split at hon
        · exact absurd (Keeps.refl.selectGain.setCtx.bias rfl d hon |>.trans hoff) hon
        · obtain ⟨rfl, clear⟩ := raisesClear_readingStands _ _ d hoff hon
          exact mayRaise_of clear fun _ => ⟨b, x, run⟩
    · exact absurd hoff hon

theorem raisesClear_beginCapture (y : Bias) : RaisesClear c s (s.beginCapture b c y) := by
  refine (raisesClear_switchOn y).after (a := true) (Keeps.refl.mapCtx.selectGain) ?_
  simp [State.selectGain, State.mapCtx, State.channelHazard]

theorem raisesClear_afterDischarge : RaisesClear c s (s.afterDischarge b c x) := by
  unfold State.afterDischarge
  split
  · exact (Keeps.refl (a := true)).raisesClear
  · split
    · exact Keeps.refl.endRun.raisesClear
    · split
      · exact raisesClear_beginCapture _
      · exact Keeps.refl.endStep.raisesClear
      · exact (Keeps.refl (a := true)).raisesClear

/-- The fields by which a channel is known to work for a run. -/
theorem runOn_setChan {r : ChannelRecord} (hs : r.state = (s.chan c).state) (hb : r.bus = (s.chan c).bus)
    (hr : r.run = (s.chan c).run) : (s.setChan c r).runOn c = s.runOn c := by
  simp only [State.runOn, State.setChan_chan, if_true, State.setChan_ctx, hs, hb, hr]

theorem channelHazard_dischargeEnded (s : State) (c : Channel) :
    (s.setChan c (dischargeEnded (s.chan c))).channelHazard ((s.setChan c (dischargeEnded (s.chan c))).chan c) =
      s.channelHazard (s.chan c) := by
  simp [State.channelHazard, dischargeEnded]

/-- The end of a discharge raises a bias for a switch-on that waited for it, or for the channel's run (R88, R106). -/
theorem mayRaise_of_dischargeOver (hoff : (s.chan d).bias = .off) (hon : ((s.dischargeOver c).chan d).bias ≠ .off) :
    MayRaise s d := by
  have quiet : Keeps true false s (s.setChan c (dischargeEnded (s.chan c))) := Keeps.refl.setChanSame rfl
  unfold State.dischargeOver at hon
  dsimp only at hon
  split at hon
  · exact absurd hoff hon
  · split at hon
    · next level waited =>
      obtain ⟨rfl, clear⟩ := (raisesClear_connectBias level).after quiet (channelHazard_dischargeEnded s c) d hoff hon
      exact mayRaise_of clear fun hn => by simp [hn] at waited
    · split at hon
      · next b x run =>
        obtain ⟨rfl, clear⟩ := raisesClear_afterDischarge.after quiet (channelHazard_dischargeEnded s c) d hoff hon
        exact mayRaise_of clear fun _ => ⟨b, x, (runOn_setChan (r := dischargeEnded (s.chan d)) rfl rfl rfl) ▸ run⟩
      · exact absurd ((quiet.bias rfl d hon).trans hoff) hon

/-- A command that brings a bias from B0 to another level finds the line no hazard. -/
theorem mayRaise_of_exec {i : Instr} (h : exec i s = .next t) (hoff : (s.chan c).bias = .off)
    (hon : (t.chan c).bias ≠ .off) : MayRaise s c := by
  by_cases raises : raisesBias i = false
  · have kept := raises ▸ exec_keeps h
    exact absurd ((kept.bias rfl c hon).trans hoff) hon
  · cases i with
    | passEnd d =>
      obtain rfl := Host.Outcome.next.inj h
      have settled : Keeps true false (s.passOver d) (s.passOver d).settle := Keeps.refl.settle
      exact mayRaise_of_passOver hoff (settled.bias rfl c hon ▸ hon)
    | dischargeEnd d =>
      obtain rfl := Host.Outcome.next.inj h
      have settled : Keeps true false (s.dischargeOver d) (s.dischargeOver d).settle := Keeps.refl.settle
      exact mayRaise_of_dischargeOver hoff (settled.bias rfl c hon ▸ hon)
    | _ => exact absurd rfl raises

/-- No bias changes while no command waits. -/
theorem idle_bias (s : State) (c : Channel) : (s.idle.chan c).bias = (s.chan c).bias := by
  unfold State.idle
  split
  · split
    · cases c <;> rfl
    · rfl
  · rfl

/-- The end of a discharge for which a switch-on waited (R88). -/
theorem dischargeOver_of_waited {level : Bias} (act : (s.chan c).activity = .discharging)
    (waited : (s.chan c).biasNext = some level) :
    s.dischargeOver c = (s.setChan c (dischargeEnded (s.chan c))).connectBias c level := by
  simp [State.dischargeOver, act, waited, dischargeEnded]

/-- Settles O57: the switch-on carries the check, and nothing else raises a bias. -/
theorem hazardFlagKeepsBiasOff : Obligations.HazardFlagKeepsBiasOff := by
  refine ⟨fun s t c h hoff hon => ?_, fun s c hs => ⟨fun act => ?_, fun level act waited => ⟨fun danger => ?_, fun safe => ?_⟩⟩⟩
  · rcases step_cases h with ⟨i, rest, -, he⟩ | rfl
    · exact mayRaise_of_exec (s := { s with pending := rest }) he hoff hon
    · exact absurd ((idle_bias s c).trans hoff) hon
  · have unchanged : s.dischargeOver c = s := by simp [State.dischargeOver, act]
    exact congrArg Host.Outcome.next ((congrArg State.settle unchanged).trans (settle_of_settled hs))
  · have off : s.dischargeOver c = s.setChan c (dischargeEnded (s.chan c)) := by
      have hz : s.channelHazard (s.chan c) = true := (channelHazard_iff _).2 danger
      rw [dischargeOver_of_waited act waited, State.connectBias,
        if_pos ((channelHazard_dischargeEnded s c).trans hz)]
    exact congrArg Host.Outcome.next ((congrArg State.settle off).trans (settle_of_settled (settled_setChan hs rfl)))
  · have on : s.dischargeOver c = s.setChan c { dischargeEnded (s.chan c) with
        bias := level, activity := .settling, timer := s.settleMs level } := by
      have hz : ¬ s.channelHazard (s.chan c) = true := fun h => safe ((channelHazard_iff _).1 h)
      rw [dischargeOver_of_waited act waited, State.connectBias,
        if_neg (mt (channelHazard_dischargeEnded s c).symm.trans hz), State.setChan_chan, if_pos rfl,
        setChan_setChan]
      rfl
    refine congrArg Host.Outcome.next
      ((congrArg State.settle on).trans (settle_of_settled (settled_setChan hs rfl)) |>.trans ?_)
    cases level <;> rfl

end Sys2Proof
end

