-- ==== Sys2Proof/Proofs/Encodings.lean ====
section
/-! PROOFS. Frames and payload fields read back as they were written (R173, R185). -/

namespace Sys2Proof

open Machine

/-! ## Frames (R173, R184) -/

/-- The bytes of a frame behind its SYNC, followed by others, are a good frame. -/
theorem scanFrame_frame (kind tag : Byte) (payload rest : List Byte) (h : payload.length ≤ 248) :
    scanFrame ((BitVec.ofNat 8 (payload.length + 2) :: kind :: tag :: payload ++
      [crc8 (BitVec.ofNat 8 (payload.length + 2) :: kind :: tag :: payload)]) ++ rest) =
        .good kind tag payload rest := by
  have hlen : (BitVec.ofNat 8 (payload.length + 2)).toNat = payload.length + 2 := by
    rw [BitVec.toNat_ofNat]
    omega

  simp [scanFrame, hlen, h]

/-- Settles O8. -/
theorem framesSentAreGoodFrames : Obligations.FramesSentAreGoodFrames := fun kind tag payload rest h =>
  ⟨_, rfl, scanFrame_frame kind tag payload rest h⟩

/-! ## Fields (R185) -/

/-- A field is the bytes that stand at its offset. -/
theorem field_append (before bytes after : List Byte) :
    field (before ++ bytes ++ after) before.length bytes.length = beNat bytes := by
  simp [field]

theorem beNat_u8 {n : Nat} (h : n < 256) : beNat (u8 n) = n := by
  simp [beNat, u8]
  omega

theorem beNat_u16 {n : Nat} (h : n < 65536) : beNat (u16 n) = n := by
  simp [beNat, u16]
  omega

theorem beNat_u24 {n : Nat} (h : n < 16777216) : beNat (u24 n) = n := by
  simp [beNat, u24, u16]
  omega

theorem beNat_u32 {n : Nat} (h : n < 4294967296) : beNat (u32 n) = n := by
  simp [beNat, u32, u24, u16]
  omega

/-- Settles O9. -/
theorem fieldsReadBack : Obligations.FieldsReadBack := fun before after n =>
  ⟨fun h => (field_append before (u8 n) after).trans (beNat_u8 h),
    fun h => (field_append before (u16 n) after).trans (beNat_u16 h),
    fun h => (field_append before (u24 n) after).trans (beNat_u24 h),
    fun h => (field_append before (u32 n) after).trans (beNat_u32 h)⟩

/-- A field of `len` bytes is a number of that many bytes. -/
theorem field_lt (payload : List Byte) (off len : Nat) : field payload off len < 256 ^ len := by
  have bound (l : List Byte) : ∀ a, l.foldl (fun a b => a * 256 + b.toNat) a < (a + 1) * 256 ^ l.length := by
    induction l with
    | nil => simp
    | cons b l ih =>
      intro a
      have hb : b.toNat < 256 := b.isLt
      calc _ < (a * 256 + b.toNat + 1) * 256 ^ l.length := ih _
        _ ≤ ((a + 1) * 256) * 256 ^ l.length := Nat.mul_le_mul_right _ (by omega)
        _ = (a + 1) * 256 ^ (b :: l).length := by rw [List.length_cons, Nat.pow_succ]; ring
  have hlen : ((payload.drop off).take len).length ≤ len := by simp
  calc _ < (0 + 1) * 256 ^ ((payload.drop off).take len).length := bound _ 0
    _ ≤ 256 ^ len := by simpa using Nat.pow_le_pow_right (by decide) hlen

end Sys2Proof
end

