-- ==== Sys2Proof/Proofs/RequestChecks.lean ====
section
/-! PROOFS. The checks at the head of a FIFO (R175, R177, R179), and the step that a request passed to its owning block
makes. -/

namespace Sys2Proof

open Machine

variable {s : State} {p : Port} {k : RequestKind} {q : Request}

/-! ## A request refused or passed on -/

/-- The head of a FIFO, where it is of the kind and passes the command's test. -/
theorem headRequest_of_head {test : Request → Bool} (head : (s.port p).requests.head? = some q)
    (kind : kindOf q.kind = some k) (ht : test q = true) : s.headRequest p k test = some q := by
  unfold State.headRequest
  split
  · next a l e =>
    obtain rfl : a = q := by simpa [e] using head
    simp [kind, ht]
  · next e => simp [e] at head

/-- A request that fails a check of R175 is refused with that check's reason. -/
theorem serveWhere_of_gate {test : Request → Bool} {owner : Port → Request → State → State} {r : Reason}
    (head : (s.port p).requests.head? = some q) (kind : kindOf q.kind = some k) (ht : test q = true)
    (gate : s.gate p k q = some r) : serveWhere test k owner p s = answered s p q (.refused r) [] := by
  simp only [serveWhere, headRequest_of_head head kind ht, takeRequest, gate, refuse_popRequest]

/-- The step of a request that its owning block answers and that leaves nothing to grant. -/
theorem next_of_asks {owner : Port → Request → State → State} {t : State} (h : Asks s p k q)
    (ho : owner p q (s.popRequest p) = t) (ht : Settled t) : Host.Outcome.next (serve k owner p s).settle =
      (.next t : Host.Outcome State Fault Refusal) := by
  rw [serve_of_asks owner h, ho, settle_of_settled ht]

/-! ## The checks -/

theorem roleAllows_iff (d : Desk) (p : Port) (k : RequestKind) : roleAllows d p k = true ↔
    (k = .lineGet ∨ k = .statusGet) ∨
      ((k = .callState ∨ k = .seize ∨ k = .testRequest ∨ k = .timeSet) ∧ p = .p0) ∨
      (¬ (k = .callState ∨ k = .seize ∨ k = .testRequest ∨ k = .timeSet) ∧ p ≠ .p0 ∧
        (kindRole k = .supervisorOnly → p = deskPort d)) := by
  have hd := deskPort_ne d
  cases k <;> simp [roleAllows, kindRole] <;> rintro rfl <;> exact hd

theorem supervisorOnly_iff (k : RequestKind) : kindRole k = .supervisorOnly ↔
    (k = .configLines ∨ k = .configClass ∨ k = .configProgram ∨ k = .configPriority ∨
      k = .configRoutine ∨ k = .configStorm ∨ k = .configTimes ∨ k = .channelSet ∨ k = .configCommit ∨
      k = .routineStart ∨ k = .routineStop ∨ k = .restart ∨ k = .countersClear ∨ k = .ticketPurge) := by
  cases k <;> simp [kindRole]

theorem configAllows_iff (d : Desk) (p : Port) (k : RequestKind) : configAllows d p k = true ↔
    (p = .p0 ∧ (k = .callState ∨ k = .seize ∨ k = .timeSet ∨ k = .statusGet)) ∨
      (p = deskPort d ∧
        ((kindRole k = .supervisorOnly ∧ k ≠ .routineStart ∧ k ≠ .routineStop ∧ k ≠ .restart ∧ k ≠ .ticketPurge) ∨
          k = .lineGet ∨ k = .busGet ∨ k = .channelGet ∨ k = .countersGet ∨ k = .subscribe ∨ k = .statusGet)) := by
  have hd := ne_deskPort d
  cases p <;> cases k <;> simp [configAllows, kindRole, hd]

/-- The first check that fails names the refusal. -/
theorem gate_eq (s : State) (p : Port) (k : RequestKind) (q : Request) : s.gate p k q =
    if ¬ roleAllows s.supervisor p k then some .notPermitted
    else if s.op = .config ∧ ¬ configAllows s.supervisor p k then some .notConfigured
    else if ¬ lengthOk k q.payload then some .badField
    else none := rfl

/-- Each kind's command refuses what fails a check. -/
theorem exec_of_gate {r : Reason} (hs : Settled s) (gate : s.gate p k q = some r)
    (head : (s.port p).requests.head? = some q) (kind : kindOf q.kind = some k) :
    exec (requestCommand p q k) s = .next (answered s p q (.refused r) []) := by
  have refused {test : Request → Bool} {owner : Port → Request → State → State} (ht : test q = true) :
      Host.Outcome.next (serveWhere test k owner p s).settle =
        (.next (answered s p q (.refused r) []) : Host.Outcome State Fault Refusal) := by
    rw [serveWhere_of_gate head kind ht gate, settle_answered hs]
  cases k with
  | channelSet =>
    by_cases h : setsDisable q
    · rw [show requestCommand p q .channelSet = .channelSetDisable p from if_pos h]
      exact refused (test := setsDisable) h
    · rw [show requestCommand p q .channelSet = .channelSetEnable p from if_neg h]
      exact refused (test := fun q => !setsDisable q) (by simpa using h)
  | _ => exact refused (test := fun _ => true) rfl

/-- Settles O10. -/
theorem requestChecksInOrder : Obligations.RequestChecksInOrder := by
  intro s p k q exchange everyone supervisors inRole inConfig
  have role : roleAllows s.supervisor p k = true ↔ inRole := by
    rw [roleAllows_iff, supervisorOnly_iff]
  have config : configAllows s.supervisor p k = true ↔ inConfig := by
    rw [configAllows_iff, supervisorOnly_iff]
  have passes (h : s.op = .operational ∨ inConfig) : ¬ (s.op = .config ∧ ¬ configAllows s.supervisor p k) := by
    rw [config]
    rintro ⟨hop, hnot⟩
    exact h.elim (by simp [hop]) hnot
  refine ⟨fun h => ?_, fun h hop hnot => ?_, fun h hc hl => ?_, fun h hc hl => ?_,
    fun r hs gate head kind => exec_of_gate hs gate head kind⟩
  · rw [gate_eq, if_pos (mt role.1 h)]
  · rw [gate_eq, if_neg (not_not.2 (role.2 h)), if_pos ⟨hop, mt config.1 hnot⟩]
  · rw [gate_eq, if_neg (not_not.2 (role.2 h)), if_neg (passes hc), if_pos (by simp [hl])]
  · rw [gate_eq, if_neg (not_not.2 (role.2 h)), if_neg (passes hc), if_neg (by simp [hl])]

end Sys2Proof
end

