-- ==== Sys2Proof/Proofs/PortUnits.lean ====
section
/-! PROOFS. Frames received and sent, links going up and down, notices offered (R74, R75, R129, R173 to R176, R183). -/

namespace Sys2Proof

open Machine

variable {s : State} {p : Port} {q : Request}

/-! ## One port written -/

@[simp] theorem setPort_setPort (s : State) (p : Port) (u v : PortUnit) : (s.setPort p u).setPort p v = s.setPort p v := by
  simp [State.setPort]

/-- A reply joins the reply queue of one port. -/
theorem refuse_setPort (s : State) (p : Port) (u : PortUnit) (q : Request) (r : Reason) :
    (s.setPort p u).refuse p q r = s.setPort p (PortUnit.kick { u with
      replies := u.replies ++ [{ kind := replyKind q.kind, tag := q.tag, outcome := .refused r, data := [] }] }) := by
  simp [State.refuse, State.answer, State.reply, PortUnit.withReply]

/-- A counter of group 3 below its top grows by 1. -/
theorem count_group3 {i : Nat} (h : s.cnt.g3.count i < 65535) : s.count 3 i = { s with
    cnt := { s.cnt with g3 := { s.cnt.g3 with
      counts := writeTable (fun _ => 0) s.cnt.g3.counts i (s.cnt.g3.count i + 1) } } } :=
  count_of_lt (g := 3) h

/-! ## The request path of a good frame (R174, R184) -/

/-- What R174 makes of a frame whose port unit is `u`, row by row. -/
theorem handRequest_setPort (s : State) (p : Port) (u : PortUnit) (q : Request) :
    (s.setPort p u).handRequest p q =
      if 8 ≤ u.replies.length + u.requests.length then s.setPort p u
      else if kindOf q.kind = none then ((s.setPort p u).refuse p q .unknownKind).countUnknownKind p
      else if 4 ≤ u.requests.length then (s.setPort p u).refuse p q .queueFull
      else s.setPort p { u with requests := u.requests ++ [q] } := by
  simp only [State.handRequest, State.setPort_port, if_true, setPort_setPort, Option.isNone_iff_eq_none]

/-- A frame with a known kind that finds room joins the request FIFO. -/
theorem handRequest_of_room {u : PortUnit} (hk : kindOf q.kind ≠ none) (hreq : u.requests.length < 4)
    (hroom : u.replies.length + u.requests.length < 8) :
    (s.setPort p u).handRequest p q = s.setPort p { u with requests := u.requests ++ [q] } := by
  rw [handRequest_setPort, if_neg (by omega), if_neg hk, if_neg (by omega)]

theorem goodFrame_eq (s : State) (p : Port) (rested : Bool) (q : Request) : s.goodFrame p rested q =
    (s.setPort p { s.port p with receiver := .hunt }).handFrame p rested q := rfl

theorem handFrame_of_up {u : PortUnit} {rested : Bool} (up : u.link = .up) :
    (s.setPort p u).handFrame p rested q = (s.setPort p u).handRequest p q := by
  simp [State.handFrame, up]

theorem handFrame_of_down {u : PortUnit} (down : u.link = .down) :
    (s.setPort p u).handFrame p false q = s.setPort p u ∧
      (s.setPort p u).handFrame p true q = ((s.setPort p u).linkUp p).handRequest p q := by
  simp [State.handFrame, down]

/-- Settles O11: the first row of R174 that applies decides. -/
theorem goodFrameRequestPath : Obligations.GoodFrameRequestPath := by
  intro s p rested kind tag payload hs u refused i
  have path {t : State} (h : s.goodFrame p rested ⟨kind, tag, payload⟩ = t) (ht : Settled t) :
      exec (.goodFrame p rested kind tag payload) s = .next t :=
    congrArg Host.Outcome.next ((congrArg State.settle h).trans (settle_of_settled ht))
  refine ⟨fun down hr => ?_, fun up => ?_⟩
  · subst hr
    exact path (handFrame_of_down down).1 hs
  · have frame := (goodFrame_eq s p rested ⟨kind, tag, payload⟩).trans
      ((handFrame_of_up up).trans (handRequest_setPort s p u ⟨kind, tag, payload⟩))
    split
    · next full => exact path (frame.trans (if_pos full)) hs
    · next room =>
      rw [if_neg room] at frame
      split
      · next unknown =>
        intro hcount
        rw [if_pos unknown, refuse_setPort] at frame
        exact path (frame.trans (count_group3 hcount)) hs
      · next known =>
        rw [if_neg known] at frame
        split
        · next full => exact path (frame.trans ((if_pos full).trans (refuse_setPort ..))) hs
        · next free => exact path (frame.trans (if_neg free)) hs

/-! ## Links that come UP (R74, R131, R183) -/

theorem linkUp_desk (s : State) (d : Desk) (u : PortUnit) :
    (s.setPort (deskPort d) u).linkUp (deskPort d) = s.setPort (deskPort d) { u with link := .up } := by
  simp [State.linkUp, deskPort_ne d]

/-- The exchange link comes UP: a HELD scheduler that no storm holds goes on, which is an event of R47. -/
theorem linkUp_p0 (s : State) (u : PortUnit) : (s.setPort .p0 u).linkUp .p0 =
    if s.rts.state = .held ∧ s.tkt.storm = .normal then
      ((s.setPort .p0 { u with link := .up }).mapRts fun r => { r with state := .running }).arbitrationDue
    else s.setPort .p0 { u with link := .up } := by
  have storm : (¬ s.tkt.storm = .storm) ↔ s.tkt.storm = .normal := by cases s.tkt.storm <;> simp
  simp [State.linkUp, State.resumeScheduler, State.held, storm]

/-- A good frame on a link that is DOWN, its line rested at mark, is handed on once the link is UP. -/
theorem goodFrame_of_down {t : State} (hdown : (s.port p).link = .down)
    (up : (s.setPort p { s.port p with receiver := .hunt }).linkUp p = t) :
    s.goodFrame p true q = t.handRequest p q :=
  (handFrame_of_down (u := { s.port p with receiver := .hunt }) hdown).2.trans (congrArg (·.handRequest p q) up)

/-- Settles O12. -/
theorem goodFrameBringsLinkUp : Obligations.GoodFrameBringsLinkUp := by
  refine ⟨fun s d kind tag payload hs hk hdown hreq hroom => ?_, fun s kind tag payload hs busy hk hdown hreq hroom => ?_⟩
  · have joined := (goodFrame_of_down hdown (linkUp_desk s d _)).trans
      (handRequest_of_room (q := ⟨kind, tag, payload⟩) (u := { s.port (deskPort d) with receiver := .hunt, link := .up })
        hk hreq hroom)
    exact congrArg Host.Outcome.next ((congrArg State.settle joined).trans (settle_of_settled hs))
  · let u : PortUnit := { s.port .p0 with receiver := .hunt, link := .up }
    let v : PortUnit := { u with requests := u.requests ++ [⟨kind, tag, payload⟩] }
    have up := linkUp_p0 s { s.port .p0 with receiver := .hunt }
    split at up
    · next held =>
      rw [if_pos held]
      let running := s.mapRts fun r => { r with state := .running }
      have joined := (goodFrame_of_down hdown up).trans
        (handRequest_of_room (s := running.arbitrationDue) (p := .p0) (q := ⟨kind, tag, payload⟩) (u := u) hk hreq hroom)
      refine congrArg Host.Outcome.next ((congrArg State.settle joined).trans ?_)
      exact settle_due_of_noIdleBus (s := running.setPort .p0 v) hs (busy held.1)
    · next other =>
      rw [if_neg other]
      have joined := (goodFrame_of_down hdown up).trans
        (handRequest_of_room (q := ⟨kind, tag, payload⟩) (u := u) hk hreq hroom)
      exact congrArg Host.Outcome.next ((congrArg State.settle joined).trans (settle_of_settled hs))

/-! ## Discarded frames (R166, R173) -/

/-- The bad frames of a port with one more among them. -/
def badFrameCounted (s : State) (p : Port) : State := { s with
  cnt := { s.cnt with g3 := { s.cnt.g3 with
    counts := writeTable (fun _ => 0) s.cnt.g3.counts (portNum p * 3) (s.cnt.g3.count (portNum p * 3) + 1) } } }

theorem countBadFrame_of_lt (h : s.cnt.g3.count (portNum p * 3) < 65535) : s.countBadFrame p = badFrameCounted s p :=
  count_group3 h

theorem huntBytes_of_nothing {rested : Bool} {l : List Byte} (n : Nat) (h : syncByte ∉ l) :
    State.huntBytes p rested n l s = s.setReceiver p .hunt := by
  cases n with
  | zero => rfl
  | succ n => simp only [State.huntBytes, huntIn, afterSync_of_not_mem h]

/-- A hunt passes over the bytes before a SYNC, and what stands behind it decides. -/
theorem huntBytes_of_sync {rested : Bool} {junk begun : List Byte} (h : syncByte ∉ junk) :
    State.huntBytes p rested (junk ++ syncByte :: begun).length (junk ++ syncByte :: begun) s =
      match scanFrame begun with
      | .unfinished => s.setReceiver p (.collecting { rested := rested, bytes := begun })
      | .bad => State.huntBytes p rested begun.length begun (s.countBadFrame p)
      | .good kind tag payload rest => State.huntBytes p rested rest.length rest
          ((s.setReceiver p .hunt).handFrame p rested { kind := kind, tag := tag, payload := payload }) := by
  have hlen : (junk ++ syncByte :: begun).length = junk.length + begun.length + 1 := by simp +arith
  rw [hlen]
  simp only [State.huntBytes, huntIn, afterSync_append h]
  cases hscan : scanFrame begun with
  | unfinished => rfl
  | bad => exact huntBytes_fuel p rested _ _ _ _ (by omega) le_rfl
  | good k t y r =>
    have := scanFrame_length hscan
    exact huntBytes_fuel p rested _ _ _ _ (by omega) le_rfl

/-- A good frame on a link that is UP, or of a desk whose line had rested at mark, joins the request FIFO. -/
theorem handFrame_of_room {u : PortUnit} {rested : Bool} (link : u.link = .up ∨ (p ≠ .p0 ∧ rested = true))
    (hk : kindOf q.kind ≠ none) (hreq : u.requests.length < 4) (hroom : u.replies.length + u.requests.length < 8) :
    (s.setPort p u).handFrame p rested q = s.setPort p { u with link := .up, requests := u.requests ++ [q] } := by
  cases hl : u.link with
  | up =>
    rw [handFrame_of_up hl, handRequest_of_room hk hreq hroom, hl]
  | down =>
    obtain ⟨hp, rfl⟩ := link.resolve_left (by simp [hl])
    obtain ⟨d, rfl⟩ : ∃ d, p = deskPort d := by
      cases p
      · exact absurd rfl hp
      · exact ⟨.d1, rfl⟩
      · exact ⟨.d2, rfl⟩
      · exact ⟨.d3, rfl⟩
      · exact ⟨.d4, rfl⟩
    rw [(handFrame_of_down hl).2, linkUp_desk]
    exact handRequest_of_room (u := { u with link := .up }) hk hreq hroom

/-- Settles O13. -/
theorem discardedFramesAreCounted : Obligations.DiscardedFramesAreCounted := by
  intro s p heard hs hcount counted receives
  obtain ⟨rested, bytes⟩ := heard
  have ends {t : State} (h : s.badFrame p ⟨rested, bytes⟩ = t) (ht : Settled t) :
      exec (.badFrame p ⟨rested, bytes⟩) s = .next t :=
    congrArg Host.Outcome.next ((congrArg State.settle h).trans (settle_of_settled ht))
  have bad : s.badFrame p ⟨rested, bytes⟩ = State.huntBytes p rested bytes.length bytes (badFrameCounted s p) :=
    congrArg (State.huntBytes p rested bytes.length bytes) (countBadFrame_of_lt hcount)
  refine ⟨?_, fun h => ends (bad.trans (huntBytes_of_nothing _ h)) hs, ?_, ?_⟩
  · have interrupted : s.interruptedFrame p = counted (receives .hunt) :=
      countBadFrame_of_lt (s := s.setReceiver p .hunt) hcount
    exact congrArg Host.Outcome.next ((congrArg State.settle interrupted).trans (settle_of_settled hs))
  · intro junk begun hb hjunk
    change bytes = _ at hb
    subst hb
    rw [huntBytes_of_sync hjunk] at bad
    refine ⟨fun h => ?_, fun h => ?_⟩
    · rw [h] at bad
      exact ends bad hs
    · rw [h] at bad
      have same : counted (s.port p) = badFrameCounted s p := by
        simp [counted, badFrameCounted, State.setPort, State.port]
      rw [same]
      exact congrArg (fun t => Host.Outcome.next (State.settle t)) bad
  · intro junk kind tag payload tail hb hjunk htail hlen hk hlink hreq hroom
    change bytes = _ at hb
    have hframe := scanFrame_frame kind tag payload tail hlen
    rw [show frameBytes kind tag payload = syncByte :: _ from rfl, List.append_assoc, List.cons_append] at hb
    subst hb
    rw [huntBytes_of_sync hjunk, hframe] at bad
    refine ends (bad.trans ?_) hs
    have joined := handFrame_of_room (s := badFrameCounted s p) (q := ⟨kind, tag, payload⟩)
      (u := { s.port p with receiver := .hunt }) hlink hk hreq hroom
    refine (congrArg (State.huntBytes p rested tail.length tail) joined).trans ((huntBytes_of_nothing _ htail).trans ?_)
    simp [counted, badFrameCounted, State.setReceiver, State.setPort, State.port]

end Sys2Proof
end

