-- ==== Sys2Proof/Proofs/NoticesAndLinks.lean ====
section
/-! PROOFS. The transmitter and the trace stream (R129, R175), offered notices (R176), links that go down (R75, R183). -/

namespace Sys2Proof

open Machine

variable {s : State} {p : Port}

/-! ## The transmitter and the trace stream -/

@[simp] theorem setPort_port_self (s : State) (p : Port) : s.setPort p (s.port p) = s := by
  simp [State.setPort, State.port]

/-- The frame a free transmitter takes. -/
def nextFrame (replies : List Reply) (notices : List QueuedNotice) : Transmitter :=
  match replies, notices with
  | r :: _, _ => .reply (replyFrame r)
  | [], q :: _ => .notice (noticeFrame q)
  | [], [] => .free

theorem kick_of_free {u : PortUnit} (h : u.tx = .free) : u.kick = { u with tx := nextFrame u.replies u.notices } := by
  obtain ⟨link, receiver, requests, replies, notices, lost, mask, transfer, tx⟩ := u
  obtain rfl : tx = .free := h
  cases replies with
  | cons r l => rfl
  | nil => cases notices <;> rfl

theorem sent_of_reply {u : PortUnit} {f : List Byte} (h : u.tx = .reply f) : u.sent =
    { u with replies := u.replies.drop 1, tx := nextFrame (u.replies.drop 1) u.notices } := by
  rw [PortUnit.sent, h]
  exact kick_of_free rfl

theorem sent_of_notice {u : PortUnit} {f : List Byte} (h : u.tx = .notice f) : u.sent =
    { u with notices := u.notices.drop 1, tx := nextFrame u.replies (u.notices.drop 1) } := by
  rw [PortUnit.sent, h]
  exact kick_of_free rfl

theorem stream_of_room {u : PortUnit} {x : Transfer} (hx : u.transfer = some x) (room : u.notices.length + 9 ≤ 32) :
    u.stream = PortUnit.kick { u with
      notices := u.notices ++ [{ lost := u.lost, notice := .traceData x.handle x.step x.offset (x.samples.take 32) }]
      lost := 0
      transfer := if x.samples.length ≤ 32 then none
        else some { x with offset := x.offset + 32, samples := x.samples.drop 32 } } := by
  have last : (x.samples.drop 32).isEmpty = true ↔ x.samples.length ≤ 32 := by simp
  simp only [PortUnit.stream, hx, if_neg (show ¬ 23 < u.notices.length by omega), last]

theorem stream_of_no_room {u : PortUnit} (h : ¬ u.notices.length + 9 ≤ 32) : u.stream = u := by
  unfold PortUnit.stream
  split
  · rfl
  · rw [if_pos (by omega)]

/-- Settles O14. -/
theorem queuedFramesAreSent : Obligations.QueuedFramesAreSent := by
  refine ⟨fun s p => ⟨fun free => ?_, fun f reply => ?_, fun f notice => ?_⟩, fun s d x hx => ?_⟩
  · have idle : (s.port p).sent = s.port p := by rw [PortUnit.sent, free]
    exact congrArg Host.Outcome.next ((congrArg (s.setPort p) idle).trans (setPort_port_self s p))
  · exact congrArg (fun u => Host.Outcome.next (s.setPort p u)) (sent_of_reply reply)
  · exact congrArg (fun u => Host.Outcome.next (s.setPort p u)) (sent_of_notice notice)
  · intro u
    split
    · next room =>
      refine ⟨u.stream, rfl, ?_⟩
      rw [stream_of_room hx room]
      simp [u]
    · next full =>
      exact congrArg Host.Outcome.next
        ((congrArg (s.setPort (deskPort d)) (stream_of_no_room full)).trans (setPort_port_self s _))

/-! ## Offered notices (R176) -/

/-- A broadcast notice as it reaches one port. -/
def offeredTo (n : Notice) (u : PortUnit) : PortUnit := if u.subscribes n then (u.offer n).1 else u

/-- The offer to one port, where it has room if it subscribes. -/
theorem offer_port {count : Nat → Nat → State → State} {n : Notice}
    (room : (s.port p).subscribes n = true → (s.port p).link = .up ∧ (s.port p).notices.length < 32) :
    (if (s.port p).subscribes n then offerWith count n s p else s) = s.setPort p (offeredTo n (s.port p)) := by
  unfold offeredTo
  split
  · next hsub =>
    obtain ⟨up, free⟩ := room hsub
    simp [offerWith, offer_of_room n up free]
  · exact (setPort_port_self s p).symm

/-- A broadcast to ports that have room where they subscribe writes those ports and nothing else. -/
theorem broadcast_ports {count : Nat → Nat → State → State} {n : Notice} {l : List Port} (nodup : l.Nodup)
    (room : ∀ p ∈ l, (s.port p).subscribes n = true → (s.port p).link = .up ∧ (s.port p).notices.length < 32) :
    ∃ ports : PerPort PortUnit,
      l.foldl (fun s p => if (s.port p).subscribes n then offerWith count n s p else s) s = { s with ports := ports } ∧
      ∀ p, ports.get p = if p ∈ l then offeredTo n (s.port p) else s.port p := by
  induction l generalizing s with
  | nil => exact ⟨s.ports, rfl, fun p => by simp [State.port]⟩
  | cons p l ih =>
    obtain ⟨hp, hl⟩ := List.nodup_cons.1 nodup
    have other {r : Port} (hr : r ∈ l) : (s.setPort p (offeredTo n (s.port p))).port r = s.port r := by
      rw [State.setPort_port, if_neg (by rintro rfl; exact hp hr)]
    obtain ⟨ports, hfold, hports⟩ := ih (s := s.setPort p (offeredTo n (s.port p))) hl fun r hr => by
      rw [other hr]
      exact room r (List.mem_cons_of_mem p hr)
    refine ⟨ports, ?_, fun r => ?_⟩
    · rw [List.foldl_cons, offer_port (room p List.mem_cons_self), hfold]
      rfl
    · rw [hports r]
      by_cases hr : r ∈ l
      · simp [hr, other hr]
      · by_cases e : r = p <;> simp [hr, e, hp]

theorem broadcast_of_room {n : Notice}
    (room : ∀ p, (s.port p).subscribes n = true → (s.port p).link = .up ∧ (s.port p).notices.length < 32) :
    ∃ ports : PerPort PortUnit, s.broadcast n = { s with ports := ports } ∧
      ∀ p, ports.get p = offeredTo n (s.port p) := by
  obtain ⟨ports, hfold, hports⟩ := broadcast_ports (count := countWith 6) (l := allPorts) (by decide)
    fun p _ => room p
  refine ⟨ports, hfold, fun p => (hports p).trans (if_pos ?_)⟩
  cases p <;> decide

/-- A notice lost at a port counts there and in the bank (R166, R176). -/
theorem notify_of_no_room {n : Notice} (h : (s.port p).link = .down ∨ 32 ≤ (s.port p).notices.length)
    (hcount : s.cnt.g3.count (lostIndex p) < 65535) :
    s.notify p n = { s.setPort p { s.port p with lost := min 255 ((s.port p).lost + 1) } with
      cnt := { s.cnt with g3 := { s.cnt.g3 with
        counts := writeTable (fun _ => 0) s.cnt.g3.counts (lostIndex p) (s.cnt.g3.count (lostIndex p) + 1) } } } := by
  have counted := count_group3 (s := s.setPort p { s.port p with lost := min 255 ((s.port p).lost + 1) }) hcount
  rw [State.count] at counted
  simp only [State.notify, offerWith, offer_of_no_room n h, if_true, counted]
  rfl

/-- Settles O16. -/
theorem noticesReachPorts : Obligations.NoticesReachPorts := by
  refine ⟨fun s n room => ?_, fun s p n h hcount => ?_⟩
  · obtain ⟨ports, hb, hports⟩ := broadcast_of_room room
    have port (p : Port) : (s.broadcast n).port p = offeredTo n (s.port p) := by
      rw [hb]
      exact hports p
    refine ⟨by rw [hb], fun p => ⟨fun other => ?_, fun hsub => ?_⟩⟩
    · rw [port, offeredTo, if_neg (by simp [other])]
    · obtain ⟨up, free⟩ := room p hsub
      simp [port, offeredTo, hsub, offer_of_room n up free, up]
  · have least : min 255 ((s.port p).lost + 1) = if (s.port p).lost < 255 then (s.port p).lost + 1 else 255 := by
      split <;> omega
    rw [← least]
    exact notify_of_no_room h hcount

/-! ## Links that go down (R75, R183) -/

theorem breakPort_of_no_notice (h : (s.port p).notices = []) :
    s.breakPort p = s.setPort p ((s.port p).broken (resetMask p)) := by
  simp [State.breakPort, h, State.loseNotices]

/-- A release of no bus releases nothing. -/
theorem releaseAll_of_none {which : BusRecord → Bool} {reason : ReleaseReason} (h : ∀ b, which (s.bus b) = false) :
    s.releaseAll which reason = s := by
  unfold State.releaseAll
  generalize s.gar.waiting.map WaitEntry.bus ++ allBuses = l
  induction l with
  | nil => rfl
  | cons b l ih => rw [State.releaseEach, h, if_neg (by decide), ih]

theorem returnTickets_of_none {d : Desk} (h : ∀ t ∈ s.tkt.tickets, t.assignee ≠ some d) (l : List Nat) :
    s.returnTickets d l = s := by
  induction l with
  | nil => rfl
  | cons n l ih =>
    unfold State.returnTickets
    split
    · next t ht =>
      rw [if_neg (fun hd => h t (List.mem_of_find?_eq_some ht) hd.2), ih]
    · exact ih

theorem holdScheduler_eq (s : State) : s.holdScheduler =
    { s with rts := { s.rts with state := if s.rts.state = .running then .held else s.rts.state } } := by
  unfold State.holdScheduler
  split
  · rfl
  · rfl

theorem resetMask_deskPort (d : Desk) : resetMask (deskPort d) = 7 := by cases d <;> rfl

/-- Settles O15. -/
theorem linkDownEffects : Obligations.LinkDownEffects := by
  refine ⟨fun s hs => ⟨fun down => ?_, fun up quiet leaving => ?_⟩,
    fun s d hs => ⟨fun down => ?_, fun up quiet buses tickets => ?_⟩⟩
  · refine congrArg Host.Outcome.next ((congrArg State.settle (if_neg (by simp [down]))).trans ?_)
    exact settle_of_settled (s := s.setReceiver .p0 .hunt) hs
  · have none (b : Bus) : splitHeld (s.bus b) = false := by
      have := leaving b
      simp only [splitHeld, Bool.and_eq_false_iff, decide_eq_false_iff_not, not_not]
      tauto
    let t : State := { s.setPort .p0 ((s.port .p0).broken 0) with exc := { s.exc with seizes := [] } }
    have effect : s.exchangeDown = t.holdScheduler := by
      unfold State.exchangeDown
      rw [breakPort_of_no_notice quiet]
      exact congrArg State.holdScheduler (releaseAll_of_none (s := t) none)
    refine congrArg Host.Outcome.next ((congrArg State.settle ((if_pos up).trans (effect.trans (holdScheduler_eq t)))).trans ?_)
    exact settle_of_settled hs
  · refine congrArg Host.Outcome.next ((congrArg State.settle (if_neg (by simp [State.deskUp, down]))).trans ?_)
    exact settle_of_settled (s := s.setReceiver (deskPort d) .hunt) hs
  · have none (b : Bus) : ((s.bus b).heldByDesk d && decide ((s.bus b).state ≠ .idle)) = false := by
      simp [BusRecord.heldByDesk, buses b]
    let t : State := (s.setPort (deskPort d) ((s.port (deskPort d)).broken 7)).mapGar fun g =>
      { g with queue := g.queue.filter fun e => e.desk ≠ d }
    have effect : s.deskDown d = t := by
      unfold State.deskDown
      rw [breakPort_of_no_notice quiet, resetMask_deskPort]
      exact (congrArg (fun u => State.returnTickets u d (u.tkt.tickets.map Ticket.number))
        (releaseAll_of_none (s := t) none)).trans (returnTickets_of_none (s := t) tickets _)
    refine congrArg Host.Outcome.next ((congrArg State.settle ((if_pos (by simp [State.deskUp, up])).trans effect)).trans ?_)
    exact settle_of_settled (s := t) hs

end Sys2Proof
end

