-- ==== Sys2Proof/Proofs/ExchangeRequests.lean ====
section
/-! PROOFS. The exchange's reports and seizes (R60 to R70), and what a release for a call does to the bus. -/

namespace Sys2Proof

open Machine

variable {s : State} {p : Port} {q : Request} {line : Nat} {b : Bus} {d : Desk}

/-! ## Lines read after a write -/

/-- A value that is listed reads back, whatever form the table has. -/
theorem readTable_writeTable_same {α : Type} [DecidableEq α] {f : Nat → α} {k : Nat} {v : α} (t : Table α)
    (h : v ≠ f k) : readTable f (writeTable f t k v) k = v := by
  rw [writeTable, if_neg h]
  induction t with
  | nil => simp [putTable, readTable]
  | cons e t ih =>
    obtain ⟨j, w⟩ := e
    unfold putTable
    split
    · next hj => rw [readTable, if_neg (by omega), ih]
    · split <;> simp [readTable]

theorem line_setLine_same {r : LineRecord} (h : r ≠ LineRecord.fresh) : (s.setLine line r).line line = r :=
  readTable_writeTable_same s.lrt.lines h

/-- A line with a call on it is no line at power reset. -/
theorem line_setCall_same {c : CallState} (h : c ≠ .idle) : (s.setCall line c).line line = { s.line line with call := c } :=
  line_setLine_same fun e => h (congrArg LineRecord.call e)

/-! ## Answers pass over the updates of other parts -/

theorem answered_setLine {o : ReplyOutcome} {data : List Byte} {n : Nat} {r : LineRecord} :
    (answered s p q o data).setLine n r = answered (s.setLine n r) p q o data := rfl

theorem answered_setCall {o : ReplyOutcome} {data : List Byte} {n : Nat} {c : CallState} :
    (answered s p q o data).setCall n c = answered (s.setCall n c) p q o data := rfl

theorem answered_setBus {o : ReplyOutcome} {data : List Byte} {r : BusRecord} :
    (answered s p q o data).setBus b r = answered (s.setBus b r) p q o data := rfl

/-- A notice to a desk with room changes that desk's port alone. -/
theorem notifyDesk_of_room {n : Notice} (up : (s.port (deskPort d)).link = .up)
    (room : (s.port (deskPort d)).notices.length < 32) : s.notifyDesk d n = s.setPort (deskPort d) (PortUnit.kick
      { s.port (deskPort d) with
        notices := (s.port (deskPort d)).notices ++ [{ lost := (s.port (deskPort d)).lost, notice := n }], lost := 0 }) :=
  notify_of_room n up room

theorem tellHolder_desk {r : BusRecord} {n : Notice} (h : r.holder = some (.desk d)) :
    s.tellHolder r n = s.notifyDesk d n := by
  simp only [State.tellHolder, h]

/-! ## Call-state reports (R61 to R64) -/

theorem seizeEntry_none (h : ∀ e ∈ s.exc.seizes, e.line ≠ line) : s.seizeEntry line = none := by
  simpa [State.seizeEntry, List.find?_eq_none] using h

/-- A report for a line without a pending seize is answered, written and acted on. -/
theorem callStateRequest_of_free {c : CallState} (hc : callOf (field q.payload 2 1) = some c)
    (hline : field q.payload 0 2 ≤ 2047) (free : ∀ e ∈ s.exc.seizes, e.line ≠ field q.payload 0 2) :
    callStateRequest p q (s.popRequest p) =
      (answered (s.setCall (field q.payload 0 2) c) p q .ok []).actOnCall (field q.payload 0 2) c := by
  have entry : ((s.popRequest p).ok p q false []).seizeEntry (field q.payload 0 2) = none := seizeEntry_none free
  simp only [callStateRequest, hc, isLine_iff.2 hline, entry, Option.isSome_none]
  rw [ok_popRequest]
  rfl

theorem callStateRequest_refused (h : 2047 < field q.payload 0 2 ∨ callOf (field q.payload 2 1) = none) :
    callStateRequest p q (s.popRequest p) = answered s p q (.refused .badField) [] := by
  unfold callStateRequest
  dsimp only
  split
  · exact refuse_popRequest ..
  · next c hc =>
    have hline : ¬ isLine (field q.payload 0 2) = true := by
      rw [isLine_iff]
      have := h.resolve_right (by simp [hc])
      omega
    rw [if_pos hline]
    exact refuse_popRequest ..

theorem splitBus_none {x : AccessState} (h : ∀ b m, x ≠ .split b m) : x.splitBus = none := by
  cases x with
  | normal => rfl
  | split b m => exact absurd rfl (h b m)
  | bridge => rfl

theorem splitBus_of {x : AccessState} (h : x = .split b .settled ∨ x = .split b .operating) : x.splitBus = some b := by
  rcases h with rfl | rfl <;> rfl

/-- Settles O17: the report is refused, or written and then nothing acts on it. -/
theorem callStateIsRecorded : Obligations.CallStateIsRecorded := by
  intro s p q asks hs _ line state
  refine ⟨fun h => next_of_asks asks (callStateRequest_refused h) hs, fun c hc hline free quiet => ?_⟩
  refine next_of_asks asks ((callStateRequest_of_free hc hline free).trans ?_) hs
  show _ = answered (s.setCall line c) p q .ok []
  rcases quiet with rfl | ⟨rfl, hlock⟩ | ⟨hidle, hsplit⟩
  · rfl
  · exact if_neg (show ¬ s.rts.lockout.contains line = true by simpa using hlock)
  · have access : ((answered (s.setCall line c) p q .ok []).line line).access.splitBus = none := by
      rw [answered_line_at, line_setCall_same hidle]
      exact splitBus_none hsplit
    cases c with
    | idle => exact absurd rfl hidle
    | lockout => rfl
    | busy | ringing => simp only [State.actOnCall, State.callOnSplit, line, access]

/-- A call on a line that a bus without a pending release holds in SPLIT (R62). -/
theorem actOnCall_split {c : CallState} {cause : AttemptCause}
    (hcall : (field q.payload 2 1, c, cause) ∈ [(1, CallState.busy, AttemptCause.busy), (2, .ringing, .ringing)])
    (haccess : (s.line line).access = .split b .settled ∨ (s.line line).access = .split b .operating)
    (hreason : (s.bus b).reason = none) :
    let t := answered (s.setCall line c) p q .ok []
    t.actOnCall line c =
      if (s.bus b).isRoutine then t.requestRelease b .preemptedCall else t.callAttempt b line cause := by
  intro t
  have hidle : c ≠ .idle := by
    simp only [List.mem_cons, Prod.mk.injEq, List.not_mem_nil, or_false] at hcall
    rcases hcall with ⟨-, rfl, -⟩ | ⟨-, rfl, -⟩ <;> decide
  have access : (t.line line).access.splitBus = some b := by
    rw [answered_line_at, line_setCall_same hidle]
    exact splitBus_of haccess
  have called : t.callOnSplit line cause =
      if (s.bus b).isRoutine then t.requestRelease b .preemptedCall else t.callAttempt b line cause := by
    have pending : ¬ (t.bus b).reason.isSome = true := by
      rw [show t.bus b = s.bus b from rfl, hreason]
      simp
    simp only [State.callOnSplit, access]
    rw [if_neg pending]
    rfl
  simp only [List.mem_cons, Prod.mk.injEq, List.not_mem_nil, or_false] at hcall
  rcases hcall with ⟨-, rfl, rfl⟩ | ⟨-, rfl, rfl⟩ <;> exact called

/-- The state a report carries with its cause. -/
theorem callOf_of_mem {n : Nat} {c : CallState} {cause : AttemptCause}
    (h : (n, c, cause) ∈ [(1, CallState.busy, AttemptCause.busy), (2, .ringing, .ringing)]) : callOf n = some c := by
  simp only [List.mem_cons, Prod.mk.injEq, List.not_mem_nil, or_false] at h
  rcases h with ⟨rfl, rfl, -⟩ | ⟨rfl, rfl, -⟩ <;> rfl

theorem isRoutine_desk {r : BusRecord} (h : r.holder = some (.desk d)) : r.isRoutine = false := by
  simp only [BusRecord.isRoutine, h]

theorem isRoutine_routine {r : BusRecord} {k : RoutineKind} (h : r.holder = some (.routine k)) : r.isRoutine = true := by
  simp only [BusRecord.isRoutine, h]

/-- The holder's desk, which has room, is told of a call. -/
theorem callAttempt_of_room {cause : AttemptCause} (holder : (s.bus b).holder = some (.desk d))
    (up : (s.port (deskPort d)).link = .up) (room : (s.port (deskPort d)).notices.length < 32) :
    s.callAttempt b line cause = s.setPort (deskPort d) (PortUnit.kick
      { s.port (deskPort d) with
        notices := (s.port (deskPort d)).notices ++
          [{ lost := (s.port (deskPort d)).lost, notice := .callAttempt b line cause s.now }]
        lost := 0 }) := by
  rw [State.callAttempt, tellHolder_desk holder, notifyDesk_of_room up room]

theorem answered_port_of_ne {o : ReplyOutcome} {data : List Byte} {r : Port} (h : r ≠ p) :
    (answered s p q o data).port r = s.port r := by simp [h]

/-- A SEIZE of a line that a bus holds in SPLIT, with no tag pending (R65). -/
theorem seizeRequest_of_split (hline : field q.payload 0 2 ≤ 2047)
    (free : ∀ e ∈ s.exc.seizes, e.line ≠ field q.payload 0 2)
    (haccess : (s.line (field q.payload 0 2)).access = .split b .settled ∨
      (s.line (field q.payload 0 2)).access = .split b .operating) :
    seizeRequest p q (s.popRequest p) = (s.popRequest p).seizeSplit p q (field q.payload 0 2) b := by
  have entry : (s.popRequest p).seizeEntry (field q.payload 0 2) = none := seizeEntry_none free
  simp only [seizeRequest, isLine_iff.2 hline, entry]
  rcases haccess with h | h <;> simp [h]

/-- Settles O18: both ways lead to the same notice to the holder's desk. -/
theorem callsOnDeskHeldLines : Obligations.CallsOnDeskHeldLines := by
  refine ⟨?_, ?_⟩
  · intro s q b d c cause asks hs _ line hline hcall free access reason holder up room
    let u := answered (s.setCall line c) .p0 q .ok []
    have port : u.port (deskPort d) = s.port (deskPort d) := answered_port_of_ne (deskPort_ne d)
    have told := callAttempt_of_room (s := u) (line := line) (cause := cause) holder (port ▸ up) (port ▸ room)
    have effect : callStateRequest .p0 q (s.popRequest .p0) = u.callAttempt b line cause := by
      rw [callStateRequest_of_free (callOf_of_mem hcall) hline free, actOnCall_split hcall access reason,
        if_neg (by simp [isRoutine_desk holder])]
    refine ⟨_, next_of_asks asks (effect.trans told) hs, ?_, ?_, rfl, rfl, rfl, rfl, rfl, rfl, rfl, rfl, rfl⟩
    · simp only [State.setPort_port, if_true, kick_notices, port]
      rfl
    · simp [ne_deskPort d, u]
      rfl
  · intro s q b d asks hs line hline free access reason holder guard priority up room
    let u := answered s .p0 q .ok [1]
    have port : u.port (deskPort d) = s.port (deskPort d) := answered_port_of_ne (deskPort_ne d)
    have told := callAttempt_of_room (s := u) (line := line) (cause := .seize) holder (port ▸ up) (port ▸ room)
    have guarded : (s.popRequest .p0).guarded b line = true := by
      show (!(s.bus b).isRoutine && (s.bus b).guard && !(s.lineClass line).priority) = true
      rw [isRoutine_desk holder, guard, priority]
      rfl
    have effect : seizeRequest .p0 q (s.popRequest .p0) = u.callAttempt b line .seize := by
      rw [seizeRequest_of_split hline free access, State.seizeSplit, if_neg (by simp [reason]), if_pos guarded,
        ok_popRequest]
      rfl
    refine ⟨_, next_of_asks asks (effect.trans told) hs, ?_, ?_, rfl, rfl, rfl, rfl, rfl, rfl, rfl, rfl, rfl⟩
    · simp [ne_deskPort d, u]
    · simp only [State.setPort_port, if_true, kick_notices, port]
      rfl

end Sys2Proof
end

