-- ==== Sys2Proof/Proofs/ChoicesAndTables.lean ====
section
/-! PROOFS. The choices that are functions of lists and figures alone: the winner of an arbitration, free numbers, the
wait list, the ticket that an eviction takes, what a completing run decides, and the resistance formula. -/

namespace Sys2Proof

open Machine

/-! ## The winner of an arbitration (R50, R51) -/

theorem bestDesk_ne_none {desks : List DeskClaim} (h : bestDesk desks = none) : desks = [] := by
  cases desks with
  | nil => rfl
  | cons c rest =>
    unfold bestDesk at h
    split at h
    · split at h <;> exact absurd h (by simp)
    · exact absurd h (by simp)

/-- A candidate wins alone, at the limit of the service ratio, and over desks of lower priority. -/
theorem chooseWinner_routine {count sr : Nat} {prio : Priorities} {desks : List DeskClaim} {c : Candidate}
    (h : desks = [] ∨ sr ≤ count ∨ ∀ d ∈ desks, d.1.priority < prio.ofName c.name) :
    chooseWinner count sr prio (bestDesk desks) (some c) = .routine c := by
  unfold chooseWinner
  cases hbest : bestDesk desks with
  | none => rfl
  | some d =>
    have mem := best_mem desks d hbest
    rcases h with rfl | h | h
    · simp at mem
    · exact if_pos h
    · show (if sr ≤ count then _ else if d.1.priority < prio.ofName c.name then _ else _) = _
      rw [if_pos (h d mem), ite_self]

/-- A desk claim wins below the limit and against a candidate of no higher priority. -/
theorem chooseWinner_desk {count sr : Nat} {prio : Priorities} {d : DeskClaim} {cand : Option Candidate}
    (h : ∀ c, cand = some c → count < sr ∧ prio.ofName c.name ≤ d.1.priority) :
    chooseWinner count sr prio (some d) cand = .desk d := by
  cases cand with
  | none => rfl
  | some c =>
    obtain ⟨hcount, hprio⟩ := h c rfl
    exact (if_neg (by omega)).trans (if_neg (by omega))

/-- Settles O25. -/
theorem arbitrationChoosesWinner : Obligations.ArbitrationChoosesWinner := by
  intro count sr prio desks cand w
  refine ⟨?_, ?_, fun before d after hsplit hbefore hafter hcand => ?_, ?_, ?_, ?_⟩
  · rintro rfl rfl
    rfl
  · rintro c rfl h
    exact chooseWinner_routine h
  · have best : bestDesk desks = some d := hsplit ▸ best_split before d after hbefore hafter
    show chooseWinner count sr prio (bestDesk desks) cand = _
    rw [best]
    exact chooseWinner_desk hcand
  · rintro rfl
    cases w <;> rfl
  · rintro c rfl hw
    rw [hw]
    rfl
  · rintro c d rfl hw
    rw [hw]
    rfl

/-! ## Free numbers and the wait list (R55, R114, R146) -/

/-- The search skips 0 and the values in use, and stops at the first that is neither. -/
theorem firstFree_of_skipped (used : Nat → Bool) {fuel n k : Nat} (hn : n < 65536) (hk : k < fuel)
    (skipped : ∀ j, j < k → (n + j) % 65536 = 0 ∨ used ((n + j) % 65536) = true)
    (hzero : (n + k) % 65536 ≠ 0) (free : used ((n + k) % 65536) = false) :
    firstFree used fuel n = (n + k) % 65536 := by
  induction k generalizing fuel n with
  | zero =>
    obtain ⟨fuel, rfl⟩ : ∃ m, fuel = m + 1 := ⟨fuel - 1, by omega⟩
    simp only [Nat.add_zero, Nat.mod_eq_of_lt hn] at hzero free ⊢
    simp [firstFree, hzero, free]
  | succ k ih =>
    obtain ⟨fuel, rfl⟩ : ∃ m, fuel = m + 1 := ⟨fuel - 1, by omega⟩
    have first := skipped 0 (by omega)
    have shift (j : Nat) : ((n + 1) % 65536 + j) % 65536 = (n + (j + 1)) % 65536 := by omega
    have skip : (n = 0 || used n) = true := by
      simpa only [Nat.add_zero, Nat.mod_eq_of_lt hn, Bool.or_eq_true, decide_eq_true_eq] using first
    rw [firstFree, if_pos skip, ih (by omega) (by omega), shift]
    · intro j hj
      rw [shift]
      exact skipped (j + 1) (by omega)
    · rwa [shift]
    · rwa [shift]

/-- In a list in priority order a run joins between those at or above its priority and those below it. -/
theorem insertWaiting_eq (w : WaitEntry) {l : List WaitEntry} (h : l.Pairwise fun a b => b.priority ≤ a.priority) :
    insertWaiting w l =
      l.filter (fun v => w.priority ≤ v.priority) ++ w :: l.filter (fun v => v.priority < w.priority) := by
  induction l with
  | nil => rfl
  | cons v rest ih =>
    obtain ⟨hv, hrest⟩ := List.pairwise_cons.1 h
    unfold insertWaiting
    split
    · next lower =>
      have below : ∀ u ∈ v :: rest, u.priority < w.priority := by
        intro u hu
        rcases List.mem_cons.1 hu with rfl | hu
        · exact lower
        · have := hv u hu
          omega
      have none_above : (v :: rest).filter (fun u => w.priority ≤ u.priority) = [] :=
        List.filter_eq_nil_iff.2 fun u hu => by simpa using below u hu
      have all_below : (v :: rest).filter (fun u => u.priority < w.priority) = v :: rest :=
        List.filter_eq_self.2 fun u hu => by simpa using below u hu
      rw [none_above, all_below]
      rfl
    · next higher =>
      rw [ih hrest, List.filter_cons_of_pos (by simpa using higher), List.filter_cons_of_neg (by simpa using higher)]
      rfl

/-- Settles O34: the wait list stays in priority order because the two parts around the new run are parts of it. -/
theorem numbersAndWaitList : Obligations.NumbersAndWaitList := by
  refine ⟨fun used fuel n k hn hk => firstFree_of_skipped used hn hk, fun w l h => ⟨insertWaiting_eq w h, ?_⟩⟩
  rw [insertWaiting_eq w h, List.pairwise_append, List.pairwise_cons]
  refine ⟨h.filter _, ⟨fun b hb => ?_, h.filter _⟩, fun a ha b hb => ?_⟩
  · have := (List.mem_filter.1 hb).2
    simp only [decide_eq_true_eq] at this
    omega
  · have above := (List.mem_filter.1 ha).2
    simp only [decide_eq_true_eq] at above
    rcases List.mem_cons.1 hb with rfl | hb
    · exact above
    · have below := (List.mem_filter.1 hb).2
      simp only [decide_eq_true_eq] at below
      omega

/-! ## Tickets: evictions, and the tickets a run did not find (R149, R151) -/

theorem oldestClosed_cons_of_none {t : Ticket} {rest : List Ticket} (h : oldestClosed rest = none) :
    oldestClosed (t :: rest) = if t.state = .closed then some t else none := by
  rw [oldestClosed, h]

theorem oldestClosed_cons_ne_none {t v : Ticket} {rest : List Ticket} (h : oldestClosed rest = some v) :
    oldestClosed (t :: rest) ≠ none := by
  rw [oldestClosed, h]
  cases t.closeTime with
  | none => exact Option.some_ne_none v
  | some c =>
    dsimp only
    split
    · split
      · split <;> exact Option.some_ne_none _
      · exact Option.some_ne_none t
    · exact Option.some_ne_none v

theorem oldestClosed_eq_none {tickets : List Ticket} :
    oldestClosed tickets = none ↔ ∀ t ∈ tickets, t.state ≠ .closed := by
  induction tickets with
  | nil => simp [oldestClosed]
  | cons t rest ih =>
    rw [List.forall_mem_cons, ← ih]
    cases hrest : oldestClosed rest with
    | none => simp [oldestClosed_cons_of_none hrest]
    | some v => simp [oldestClosed_cons_ne_none hrest]

/-- The ticket an eviction takes stands after only later close times, and before none that is earlier. -/
theorem oldestClosed_split {tickets : List Ticket} (h : ∀ t ∈ tickets, t.state = .closed → t.closeTime ≠ none)
    {u : Ticket} (hu : oldestClosed tickets = some u) :
    u.state = .closed ∧ ∃ before after c, tickets = before ++ u :: after ∧ u.closeTime = some c ∧
      (∀ t ∈ before, ∀ a, t.state = .closed → t.closeTime = some a → c.before a = true) ∧
      (∀ t ∈ after, ∀ a, t.state = .closed → t.closeTime = some a → a.before c = false) := by
  induction tickets generalizing u with
  | nil => simp [oldestClosed] at hu
  | cons t rest ih =>
    have hrest : ∀ v ∈ rest, v.state = .closed → v.closeTime ≠ none := fun v hv => h v (List.mem_cons_of_mem _ hv)
    have ht : t.state = .closed → t.closeTime ≠ none := h t (List.mem_cons_self ..)
    cases hold : oldestClosed rest with
    | none =>
      have others := oldestClosed_eq_none.1 hold
      have ends : t.state = .closed ∧ t = u := by
        simp only [oldestClosed, hold] at hu
        simpa using hu
      obtain ⟨closed, rfl⟩ := ends
      obtain ⟨c, hc⟩ := Option.ne_none_iff_exists'.1 (ht closed)
      exact ⟨closed, [], rest, c, rfl, hc, by simp, fun v hv _ hclosed => absurd hclosed (others v hv)⟩
    | some v =>
      obtain ⟨vclosed, before, after, c, rfl, hc, hbefore, hafter⟩ := ih hrest hold
      by_cases closed : t.state = .closed
      · obtain ⟨ct, hct⟩ := Option.ne_none_iff_exists'.1 (ht closed)
        have choice : (if c.before ct then v else t) = u := by
          simp only [oldestClosed, hold, hct, closed, hc, if_true] at hu
          split at hu <;> simp_all
        split at choice
        · next older =>
          subst choice
          refine ⟨vclosed, t :: before, after, c, rfl, hc, ?_, hafter⟩
          intro w hw a hstate ha
          rcases List.mem_cons.1 hw with rfl | hw
          · exact (Option.some.inj (hct.symm.trans ha)) ▸ older
          · exact hbefore w hw a hstate ha
        · next notOlder =>
          subst choice
          have notOlder : c.before ct = false := by simpa using notOlder
          refine ⟨closed, [], _, ct, rfl, hct, by simp, ?_⟩
          intro w hw a hstate ha
          rcases List.mem_append.1 hw with hw | hw
          · exact not_before_trans notOlder (before_asymm (hbefore w hw a hstate ha))
          · rcases List.mem_cons.1 hw with rfl | hw
            · exact (Option.some.inj (hc.symm.trans ha)) ▸ notOlder
            · exact not_before_trans notOlder (hafter w hw a hstate ha)
      · have same : v = u := by
          simp only [oldestClosed, hold, closed, if_false] at hu
          split at hu <;> simp_all
        subst same
        refine ⟨vclosed, t :: before, after, c, rfl, hc, ?_, hafter⟩
        intro w hw a hstate ha
        rcases List.mem_cons.1 hw with rfl | hw
        · exact absurd hstate closed
        · exact hbefore w hw a hstate ha

/-- Settles O43. -/
theorem evictionPicksOldestClosed : Obligations.EvictionPicksOldestClosed :=
  fun _ h => ⟨oldestClosed_eq_none, fun _ hu => oldestClosed_split h hu⟩

theorem clearedBefore_iff {t : Ticket} {start : Stamp} (h : t.state = .cleared) :
    t.clearedBefore start = true ↔ ∃ c, t.clearedTime = some c ∧ c.before start = true := by
  unfold Ticket.clearedBefore
  cases t.clearedTime <;> simp [h]

/-- A live ticket gains a not-found count only where its code was ABLE and it is not HARD. -/
theorem decideTicket_live {s : State} {t : Ticket} {start : Stamp} {found : Testability}
    (h : t.state = .opened ∨ t.state = .assigned) :
    s.decideTicket t start found =
      if t.severity ≠ .hard ∧ found = .able then
        if 2 ≤ t.notFound + 1 then s.closeTicket { t with notFound := t.notFound + 1 } .notFound none
        else s.putTicket { t with notFound := t.notFound + 1 }
      else s := by
  unfold State.decideTicket
  rcases h with h | h <;> rw [h]

/-- Settles O44, row by row of R151's table. -/
theorem unconfirmedTicketTable : Obligations.UnconfirmedTicketTable := by
  intro s t start found live after
  refine ⟨fun hlive stays => ?_, fun hlive hsev hable zero => ?_, fun hlive hsev hable one => ?_,
    fun hclear notAfter => ?_, fun hclear hafter hfound => ?_, fun hclear hafter hfound => ?_,
    fun hclear hafter hfound => ?_, fun hclosed => ?_⟩
  · rw [decideTicket_live hlive, if_neg fun h => stays.elim h.1 (absurd h.2)]
  · rw [decideTicket_live hlive, if_pos ⟨hsev, hable⟩, if_neg (by omega), zero]
    rfl
  · rw [decideTicket_live hlive, if_pos ⟨hsev, hable⟩, if_pos (by omega)]
  · simp only [State.decideTicket, hclear, mt (clearedBefore_iff hclear).1 notAfter]
    rfl
  · simp only [State.decideTicket, hclear, (clearedBefore_iff hclear).2 hafter, hfound, if_true]
  · simp only [State.decideTicket, hclear, (clearedBefore_iff hclear).2 hafter, hfound, if_true]
  · have moved : s.decideTicket t start found = s.verifyToTail t.line := by
      rcases hfound with rfl | rfl <;>
        simp only [State.decideTicket, hclear, (clearedBefore_iff hclear).2 hafter, if_true]
    rw [moved]
    exact ⟨rfl, rfl⟩
  · unfold State.decideTicket
    rw [hclosed]

/-! ## The resistance formula (R104) -/

/-- The quotient of R104, rounded half up, against the exact one. -/
theorem roundedQuotient_near (e : Nat) {top : Nat} (h : 0 < top) :
    2 * e ≤ 2 * ((e + top / 2) / top * top) + top ∧ 2 * ((e + top / 2) / top * top) ≤ 2 * e + top := by
  have split := Nat.div_add_mod (e + top / 2) top
  have rest := Nat.mod_lt (e + top / 2) h
  rw [Nat.mul_comm] at split
  omega

/-- The three outcomes of a measured drop: the marker past its value, or the quotient with the mark of the ratio. -/
theorem resistance_of_drop {vx vf : Int} {b : Bias} {range : SourceRange} {r : Nat} (htop : 0 < biasMv b - vx)
    (hdrop : 0 < vx - vf) (hr : r = (rangeOhm range * (vx - vf).toNat + (biasMv b - vx).toNat / 2) / (biasMv b - vx).toNat) :
    resistance vx vf b range =
      if 999999999 < r then (999999999, .opened)
      else if ratio vx vf b < 100 ∨ 900 < ratio vx vf b then (r, .edge) else (r, .ok) := by
  subst hr
  exact (if_neg (by omega)).trans (if_neg (by omega))

/-- Settles O60. -/
theorem resistanceTable : Obligations.ResistanceTable := by
  intro vx vf b range _ _ top res
  by_cases htop : top ≤ 0
  · have hres : res = (999999999, .opened) := if_pos htop
    rw [hres]
    exact ⟨by decide, fun _ => rfl, by omega, by omega⟩
  by_cases hdrop : vx - vf ≤ 0
  · have hres : res = (0, .edge) := (if_neg htop).trans (if_pos hdrop)
    rw [hres]
    exact ⟨by decide, by omega, fun _ _ => rfl, by omega⟩
  obtain ⟨den, hden⟩ := Int.eq_ofNat_of_zero_le (show 0 ≤ top by omega)
  obtain ⟨drop, hdropNat⟩ := Int.eq_ofNat_of_zero_le (show 0 ≤ vx - vf by omega)
  generalize hr : (rangeOhm range * drop + den / 2) / den = r
  have hres : res = _ := resistance_of_drop (r := r) (by omega) (by omega)
    (by rw [hdropNat, show biasMv b - vx = (den : Int) from hden]; exact hr.symm)
  have near := roundedQuotient_near (rangeOhm range * drop) (show 0 < den by omega)
  rw [hr] at near
  rw [hden, hdropNat, hres]
  refine ⟨?_, by omega, by omega, fun _ _ => ?_⟩
  · split
    · exact Nat.le_refl _
    · split <;> exact Nat.not_lt.1 ‹_›
  have lower : 2 * ((rangeOhm range : Int) * drop) ≤ 2 * (r * den) + den := by exact_mod_cast near.1
  have upper : 2 * ((r : Int) * den) ≤ 2 * (rangeOhm range * drop) + den := by exact_mod_cast near.2
  split
  · next past =>
    have scaled : (999999999 : Int) * den ≤ r * den := Int.mul_le_mul_of_nonneg_right (by omega) (by omega)
    exact ⟨fun h => absurd h (by decide), fun _ => by linarith, by simp, by simp, by simp⟩
  · split
    · next edge => exact ⟨fun _ => by constructor <;> linarith, by simp, by simp, fun _ => edge, by simp⟩
    · next inside =>
      exact ⟨fun _ => by constructor <;> linarith, by simp, fun _ => by omega, by simp, by simp⟩

end Sys2Proof
end

