-- ==== Sys2Proof/Proofs/PowerAndSamples.lean ====
section
/-! PROOFS. What power reset leaves (R171), and where a converter sample goes (R87, R92). -/

namespace Sys2Proof

open Machine

variable {s : State} {c d : Channel}

/-! ## Power reset -/

theorem strapDesk_port (strap : BitVec 2) : portNum (deskPort (strapDesk strap)) = strap.toNat + 1 := by
  revert strap
  decide

/-- No entry of an empty program table is a program beyond the two of R111. -/
theorem defaultProgram_empty {n : Nat} (h : 2 ≤ n) : defaultProgram n = [] := by
  match n, h with
  | n + 2, _ => rfl

/-- Settles O7: power reset writes every record afresh. -/
theorem powerResetValues : Obligations.PowerResetValues := by
  intro strap s
  have groups : ∀ g i, ((State.powerOn (strapDesk strap) s.free).cnt.group g).count i = 0 ∧
      ((State.powerOn (strapDesk strap) s.free).cnt.group g).carries = 0 := by
    intro g i
    match g with
    | 0 | 1 | 2 | _ + 3 => exact ⟨rfl, rfl⟩
  have masks : ∀ g, g < 4 → ((State.powerOn (strapDesk strap) s.free).cnt.group g).mask = groupMask g := by
    intro g h
    interval_cases g <;> rfl
  refine ⟨_, rfl, rfl, strapDesk_port strap, fun _ => rfl, fun _ => rfl, fun b => ?_, fun _ _ => rfl, rfl, rfl,
    rfl, rfl, rfl, rfl, rfl, rfl, rfl, rfl, fun c => ?_, rfl, rfl, rfl, fun n => defaultProgram_empty, rfl, rfl, rfl,
    rfl, rfl, rfl, rfl, rfl, rfl, rfl, rfl, rfl, rfl, rfl, rfl, rfl, rfl, rfl, rfl, rfl, rfl, rfl, rfl, rfl, groups, rfl,
    masks, fun p => ?_, rfl, rfl⟩
  · cases b <;> exact ⟨rfl, rfl, rfl, rfl, rfl, rfl, rfl, rfl, rfl, rfl, rfl, rfl⟩
  · cases c <;> exact ⟨rfl, rfl, rfl, rfl, rfl, rfl, rfl, rfl, rfl, rfl, rfl, rfl, rfl, rfl⟩
  · cases p <;> exact ⟨rfl, rfl, rfl, rfl, rfl, rfl, rfl, rfl⟩

/-! ## Samples -/

/-- The sample just written has the number before the new W. -/
theorem sampleAt_writeSample_new (r : ChannelRecord) (v : Int) :
    ChannelRecord.sampleAt c (r.writeSample v) r.written = v := by
  unfold ChannelRecord.sampleAt ChannelRecord.writeSample
  have back : (r.written + 1 - r.written : Word32).toNat = 1 := by
    rw [show r.written + 1 - r.written = 1 by bv_omega]
    rfl
  rw [back]
  rfl

/-- The samples that the ring still holds keep their numbers as one is written. -/
theorem sampleAt_writeSample_old (r : ChannelRecord) (v : Int) {n : Word32} (h1 : 1 ≤ (r.written - n).toNat)
    (h2 : (r.written - n).toNat < 8192) :
    ChannelRecord.sampleAt c (r.writeSample v) n = ChannelRecord.sampleAt c r n := by
  unfold ChannelRecord.sampleAt ChannelRecord.writeSample
  have further : (r.written + 1 - n : Word32).toNat = (r.written - n).toNat + 1 := by bv_omega
  obtain ⟨k, hk⟩ : ∃ k, (r.written - n).toNat = k + 1 := ⟨_, (Nat.sub_add_cancel h1).symm⟩
  have inside : k + 1 < Config.ringSlots := by rw [← hk]; exact h2
  rw [further, hk, Nat.add_sub_cancel, Nat.add_sub_cancel, List.getElem?_take_of_lt inside]
  rfl

/-- A sample of a BUSY channel goes to the ring, and to the run's work at most beside it. -/
theorem sample_busy {code : Int} (hcal : (s.chan c).cal = none) (hbusy : (s.chan c).state = .busy) :
    s.sample c code = s.setChan c ((s.chan c).writeSample code) ∨
      ∃ b x, s.sample c code = (s.setChan c ((s.chan c).writeSample code)).setCtx b x := by
  simp only [State.sample, hcal]
  rw [if_neg (not_not.2 hbusy)]
  split
  · exact .inr ⟨_, _, rfl⟩
  · exact .inl rfl

theorem exec_converterSample (code : Int) :
    exec (.converterSample c code) s = .next (s.sample c (max (-32768) (min 32767 code))) := by
  have ends : converterCode code = max (-32768) (min 32767 code) := by
    simp only [converterCode, clampInt, clipLow, clipHigh]
    omega
  exact ends ▸ rfl

/-- Settles O55. -/
theorem sampleGoesToRing : Obligations.SampleGoesToRing := by
  intro s c code r v
  refine ⟨fun w hcal room => ?_, fun hcal hstate => ?_, fun hcal hbusy => ?_⟩
  · rw [exec_converterSample]
    have taken : w.take v = { w with raw := v :: w.raw } := if_pos room
    simp only [State.sample, show (s.chan c).cal = some w from hcal]
    rw [show w.take (max (-32768) (min 32767 code)) = _ from taken]
  · rw [exec_converterSample]
    simp only [State.sample, show (s.chan c).cal = none from hcal]
    rw [if_pos (show (s.chan c).state ≠ .busy from hstate)]
  · have old (n : Word32) := sampleAt_writeSample_old (c := c) (n := n) r v
    have new := sampleAt_writeSample_new (c := c) r v
    rcases sample_busy (code := v) hcal hbusy with h | ⟨b, x, h⟩ <;>
    · refine ⟨_, (exec_converterSample code).trans (congrArg Host.Outcome.next h), ?_⟩
      simp only [State.setCtx_chan, State.setChan_chan, if_true]
      exact ⟨rfl, fun d hd => if_neg hd, new, old, rfl, rfl, rfl, rfl, rfl, rfl, rfl, rfl, rfl, rfl⟩

end Sys2Proof
end

