-- ==== Sys2Proof/Proofs/HeldBuses.lean ====
section
/-! PROOFS. The desk requests that act on a held bus: SET_MODE, RENEW, RUN and RELEASE with their refusals, and BUS_GET
(R18, R26, R28 to R36, R41). -/

namespace Sys2Proof

open Machine

variable {s : State} {d : Desk} {q : Request} {b : Bus} {p : Port} {k : RequestKind}

/-! ## Refusals in the order of R18 -/

/-- The exact next state of a request, from what serving it leads to. -/
theorem next_of_served {owner : Port → Request → State → State} {t : State} (asks : Asks s p k q)
    (h : (owner p q (s.popRequest p)).settle = t) :
    Host.Outcome.next (serve k owner p s).settle = (.next t : Host.Outcome State Fault Refusal) := by
  rw [serve_of_asks owner asks, h]

theorem releaseRequest_badField (h : busOf (field q.payload 0 1) = none) :
    releaseRequest p q (s.popRequest p) = answered s p q (.refused .badField) [] := by
  simp only [releaseRequest, h]
  exact refuse_popRequest ..

theorem releaseRequest_notHolder (h : busOf (field q.payload 0 1) = some b) (holder : (s.bus b).holder ≠ some (.desk d)) :
    releaseRequest (deskPort d) q (s.popRequest (deskPort d)) = answered s (deskPort d) q (.refused .notHolder) [] := by
  have notHeld : ¬ ((s.popRequest (deskPort d)).bus b).heldByDesk (senderDesk (deskPort d)) = true := by
    rw [senderDesk_deskPort]
    exact fun e => holder (of_decide_eq_true e)
  simp only [releaseRequest, h]
  rw [if_pos notHeld]
  exact refuse_popRequest ..

/-- Settles O26: SET_MODE, RENEW and RUN share one check of the held bus, RELEASE has its own. -/
theorem heldBusRefusals : Obligations.HeldBusRefusals := by
  intro s d q hs p bus notMine leaving
  refine ⟨fun asks => ⟨fun h => ?_, fun b h no => ?_⟩, fun asks => ⟨fun h => ?_, fun b h mode no => ?_⟩,
    fun asks => ⟨fun h => ?_, fun b h program ticketing no => ?_⟩, fun asks => ⟨fun h => ?_, fun b h no => ?_⟩⟩
  · exact next_of_served asks ((held_refused hs).1 (.inl h))
  · exact next_of_served asks ((held_refused hs).2 b h rfl no)
  · exact next_of_served asks ((held_refused hs).1 (h.imp_right fun h => by rw [setModeOf_none.2 h]; rfl))
  · have valid : (setModeOf (field q.payload 1 1)).isSome = true := by
      rw [Option.isSome_iff_ne_none, ne_eq, setModeOf_none]
      omega
    exact next_of_served asks ((held_refused hs).2 b h valid no)
  · refine next_of_served asks ((held_refused hs).1 (h.imp_right fun h => ?_))
    rcases h with h | h
    · rw [decide_eq_false (by omega), Bool.false_and]
    · rw [flagOf_none.2 h]
      exact Bool.and_false _
  · have valid : (field q.payload 1 1 ≤ 7 && (flagOf (field q.payload 2 1)).isSome) = true := by
      rw [decide_eq_true program, flagOf_le ticketing]
      rfl
    exact next_of_served asks ((held_refused hs).2 b h valid no)
  · exact next_of_asks asks (releaseRequest_badField h) hs
  · exact next_of_asks asks (releaseRequest_notHolder h no) hs

/-! ## RELEASE -/

theorem releaseRequest_held (h : busOf (field q.payload 0 1) = some b) (holder : (s.bus b).holder = some (.desk d)) :
    releaseRequest (deskPort d) q (s.popRequest (deskPort d)) =
      (answered s (deskPort d) q .ok []).requestRelease b .released := by
  have held : ((s.popRequest (deskPort d)).bus b).heldByDesk (senderDesk (deskPort d)) = true := by
    rw [senderDesk_deskPort]
    exact decide_eq_true holder
  simp only [releaseRequest, h]
  rw [if_neg (by simp only [held]; simp), ok_popRequest]
  rfl

/-- The line relay starts to release on a bus that has reached HELD or MONITOR, where no notice tells the reason. -/
theorem enterReleasing_untold {r : BusRecord} {line : Nat} {reason : ReleaseReason} (hr : s.bus b = r)
    (hline : r.line = some line) (reached : r.reached = true) (untold : reason.tellsReleasing = false) :
    s.enterReleasing b reason = (s.setBus b { r with
      state := .releasing, reason := some reason, hold := r.hold.stop, gen := ToneGen.off, audio := .disconnected,
      run := none, relay := .lineReleasing 6 }).setAccess line (accessOf r.mode b .releasing) := by
  subst hr
  simp only [State.enterReleasing, hline, State.reportReleasing, reached, untold, Config.releaseMs]
  rfl

/-- Settles O27. -/
theorem releaseStartsRelease : Obligations.ReleaseStartsRelease := by
  intro s d q b line asks hs hb r holder hold
  have served := releaseRequest_held hb holder
  let u := answered s (deskPort d) q .ok []
  have stopped : r.hold.stop = hold := by
    show r.hold.stop = match r.hold with | .absent => .absent | _ => .stopped
    cases r.hold <;> rfl
  refine ⟨fun state reason reached hline => ?_, fun state reason relay => ?_, fun leaving => ?_⟩
  · refine next_of_asks asks (served.trans (((requestRelease_connected (s := u) .released state reason).trans
      (enterReleasing_untold (s := u) (r := r) rfl hline reached rfl)).trans ?_)) hs
    rw [stopped]
    cases hmode : r.mode with
    | none => rfl
    | some m => cases m <;> rfl
  · refine next_of_asks asks (served.trans ((requestRelease_connecting (s := u) .released state reason relay).trans ?_)) hs
    rw [← stopped]
    rfl
  · exact next_of_asks asks (served.trans (requestRelease_leaving (s := u) .released leaving)) hs

/-! ## SET_MODE -/

theorem admitsMode_iff {x : BusState} : x.admitsMode = true ↔ x = .held ∨ x = .talk ∨ x = .tone := by
  cases x <;> simp [BusState.admitsMode]

theorem setModeOf_isSome {n : Nat} (h : n ≤ 2) : (setModeOf n).isSome = true := by
  rw [Option.isSome_iff_ne_none, ne_eq, setModeOf_none]
  omega

theorem clampNat_eq {lo hi v : Nat} (h : lo ≤ hi) : clampNat lo hi v = max lo (min hi v) := by
  unfold clampNat
  split
  · omega
  · split <;> omega

/-- The tone parameters as they are written (R28), with each range spelled out. -/
theorem ToneParams_bound_eq (t : ToneParams) : t.bound =
    { divider := max 250 (min 1250 t.divider), on := if t.on = 0 ∧ 0 < t.off then 1 else min 50 t.on,
      off := min 50 t.off, limit := if t.limit = 0 then 0 else max 10 (min 1800 t.limit) } := by
  simp only [ToneParams.bound, boundToneLimit, clampNat_eq (show 0 ≤ 50 by decide),
    clampNat_eq (show 250 ≤ 1250 by decide), clampNat_eq (show 10 ≤ 1800 by decide), Nat.zero_max]
  have first : (min 50 t.on = 0 ∧ 0 < min 50 t.off) ↔ (t.on = 0 ∧ 0 < t.off) := by omega
  simp only [first]

theorem hold_renew_eq (h : HoldTimer) (ms : Nat) :
    h.renew ms = match h with | .running _ => .running ms | h => h := by
  cases h <;> rfl

/-- An accepted SET_MODE: the record of the mode asked for, with its hold timer renewed. -/
theorem setMode_of_admitted {st : BusState} (hb : busOf (field q.payload 0 1) = some b)
    (holder : (s.bus b).holder = some (.desk d)) (state : (s.bus b).state ≠ .releasing) (reason : (s.bus b).reason = none)
    (admits : (s.bus b).state.admitsMode = true) (mode : setModeOf (field q.payload 1 1) = some st) :
    setMode (deskPort d) q (s.popRequest (deskPort d)) =
      let u := s.modeRecord (s.bus b) st (toneOf q.payload).bound
      answered (s.setBus b { u with hold := u.hold.renew s.holdMs }) (deskPort d) q
        (okOutcome (st = .tone && toneOf q.payload ≠ (toneOf q.payload).bound)) (modeBytes u) := by
  unfold setMode
  rw [held_ok hb (by rw [mode]; rfl) holder state reason, if_neg (not_not.2 admits), mode]
  exact ok_popRequest (s.setBus b _) ..

/-- Settles O28. -/
theorem setModeMovesBus : Obligations.SetModeMovesBus := by
  intro s d q b asks hs hb r holder state reason admitted hold asked into t limit rest start
  have bound : asked.bound = t := ToneParams_bound_eq asked
  have renewed (h : HoldTimer) : h.renew s.holdMs = match h with
    | .running _ => .running (s.acc.holdTime * 1000) | h => h := hold_renew_eq h _
  have moves {st : BusState} {u : State} (hadm : admitted) (mode : setModeOf (field q.payload 1 1) = some st)
      (h : (let u := s.modeRecord (s.bus b) st (toneOf q.payload).bound
        answered (s.setBus b { u with hold := u.hold.renew s.holdMs }) (deskPort d) q
          (okOutcome (st = .tone && toneOf q.payload ≠ (toneOf q.payload).bound)) (modeBytes u)) = u)
      (hu : Settled u) : exec (.setMode (deskPort d)) s = .next u :=
    next_of_asks asks ((setMode_of_admitted hb holder state reason (admitsMode_iff.2 hadm) mode).trans h) hu
  refine ⟨fun hadm mode => moves (st := .held) hadm (by rw [mode]; rfl) ?_ hs,
    fun hadm mode => moves (st := .talk) hadm (by rw [mode]; rfl) ?_ hs,
    fun hadm mode => moves (st := .tone) hadm (by rw [mode]; rfl) ?_ hs, fun hnot mode => ?_⟩
  · dsimp only [State.modeRecord]
    rw [renewed]
    rfl
  · dsimp only [State.modeRecord]
    rw [renewed]
    rfl
  · dsimp only [State.modeRecord]
    rw [renewed, show (toneOf q.payload).bound = t from bound]
    rfl
  · refine next_of_asks asks ?_ hs
    unfold setMode
    rw [held_ok hb (setModeOf_isSome mode) holder state reason, if_pos (mt admitsMode_iff.1 hnot)]
    exact refuse_popRequest ..

/-! ## RENEW and BUS_GET -/

theorem busGet_of_bus (hb : busOf (field q.payload 0 1) = some b) :
    busGet (deskPort d) q (s.popRequest (deskPort d)) =
      answered (if (s.bus b).holder = some (.desk d) then s.renewHold b else s) (deskPort d) q .ok
        (busRecordBytes b (s.bus b)) := by
  simp only [busGet, hb]
  by_cases holder : (s.bus b).holder = some (.desk d)
  · have held : ((s.popRequest (deskPort d)).bus b).heldByDesk (senderDesk (deskPort d)) = true := by
      rw [senderDesk_deskPort]
      exact decide_eq_true holder
    rw [if_pos held, if_pos holder]
    exact ok_popRequest (s.renewHold b) ..
  · have notHeld : ¬ ((s.popRequest (deskPort d)).bus b).heldByDesk (senderDesk (deskPort d)) = true := by
      rw [senderDesk_deskPort]
      exact fun e => holder (of_decide_eq_true e)
    rw [if_neg notHeld, if_neg holder]
    exact ok_popRequest ..

/-- Settles O29. -/
theorem renewAndBusGet : Obligations.RenewAndBusGet := by
  intro s d q hs p hold renewed
  have renews (b : Bus) : s.renewHold b = renewed b := by
    show s.setBus b { s.bus b with hold := (s.bus b).hold.renew s.holdMs } = _
    rw [hold_renew_eq]
    rfl
  refine ⟨fun b asks hb holder state reason => ?_, fun b asks hb => ?_, fun asks hb => ?_⟩
  · refine next_of_asks asks ?_ hs
    rw [← renews, renew, held_ok hb rfl holder state reason]
    exact ok_popRequest (s.renewHold b) ..
  · rw [← renews]
    refine next_of_asks asks (busGet_of_bus hb) ?_
    split <;> exact hs
  · refine next_of_asks asks ?_ hs
    simp only [busGet, hb]
    exact refuse_popRequest ..

end Sys2Proof
end

