-- ==== Sys2Proof/Proofs/ConnectRequests.lean ====
section
/-! PROOFS. CONNECT: its refusals in order, the bus request queue, and the NOWAIT grant (R21, R42 to R45). -/

namespace Sys2Proof

open Machine

variable {s : State} {d : Desk} {q : Request} {b : Bus} {p : Port} {mode : Mode} {line : Nat}

/-! ## The checks of R43 in order -/

theorem duplicateConnect_iff : s.duplicateConnect d line = true ↔ (∃ e ∈ s.gar.queue, e.desk = d ∧ e.line = line) ∨
    ∃ b, (s.bus b).holder = some (.desk d) ∧ (s.bus b).line = some line := by
  simp [State.duplicateConnect, BusRecord.heldByDesk, mem_allBuses]

/-- The queue entry a CONNECT makes, with the arrival sequence and the priority of the moment. -/
def connectEntry (s : State) (d : Desk) (q : Request) (mode : Mode) : QueueEntry :=
  { desk := d, tag := q.tag.toNat, seq := s.gar.nextSeq, line := field q.payload 0 2, mode := mode,
    guard := field q.payload 3 1 = 1 && mode = .split, priority := s.gar.prio.ofDesk d }

theorem connectRequest_badField (h : 2047 < field q.payload 0 2 ∨ 1 < field q.payload 2 1 ∨ 1 < field q.payload 3 1 ∨
    1 < field q.payload 4 1) : connectRequest p q (s.popRequest p) = answered s p q (.refused .badField) [] := by
  unfold connectRequest
  dsimp only
  split
  · next m g n hm hg hn =>
    have known : ¬ 1 < field q.payload 2 1 ∧ ¬ 1 < field q.payload 3 1 ∧ ¬ 1 < field q.payload 4 1 := by
      rw [← modeOf_none, ← flagOf_none, ← flagOf_none, hm, hg, hn]
      simp
    rw [if_pos (by rw [isLine_iff]; omega)]
    exact refuse_popRequest ..
  · exact refuse_popRequest ..

theorem connectRequest_of_line (hline : field q.payload 0 2 ≤ 2047) (hmode : modeOf (field q.payload 2 1) = some mode)
    (hguard : field q.payload 3 1 ≤ 1) (hnowait : field q.payload 4 1 ≤ 1) :
    connectRequest (deskPort d) q (s.popRequest (deskPort d)) =
      if ¬ (s.line (field q.payload 0 2)).equipped then answered s (deskPort d) q (.refused .notEquipped) []
      else if s.duplicateConnect d (field q.payload 0 2) then answered s (deskPort d) q (.refused .duplicate) []
      else if field q.payload 4 1 = 1 then
        (s.popRequest (deskPort d)).connectNow (deskPort d) q (connectEntry s d q mode)
      else if 8 ≤ s.gar.queue.length ∨ 2 ≤ (s.gar.queue.filter fun f => f.desk = d).length then
        answered s (deskPort d) q (.refused .queueFull) []
      else (s.popRequest (deskPort d)).enqueue (deskPort d) q (connectEntry s d q mode) := by
  simp only [connectRequest, hmode, flagOf_le hguard, flagOf_le hnowait, isLine_iff.2 hline, senderDesk_deskPort,
    refuse_popRequest, not_true, if_false, decide_eq_true_eq]
  rfl

/-- An equipped line that the desk neither queues nor holds passes the first checks. -/
theorem connectRequest_of_passed (hline : field q.payload 0 2 ≤ 2047)
    (hmode : modeOf (field q.payload 2 1) = some mode) (hguard : field q.payload 3 1 ≤ 1)
    (hnowait : field q.payload 4 1 ≤ 1) (equipped : (s.line (field q.payload 0 2)).equipped = true)
    (once : ¬ s.duplicateConnect d (field q.payload 0 2) = true) :
    connectRequest (deskPort d) q (s.popRequest (deskPort d)) =
      if field q.payload 4 1 = 1 then
        (s.popRequest (deskPort d)).connectNow (deskPort d) q (connectEntry s d q mode)
      else if 8 ≤ s.gar.queue.length ∨ 2 ≤ (s.gar.queue.filter fun f => f.desk = d).length then
        answered s (deskPort d) q (.refused .queueFull) []
      else (s.popRequest (deskPort d)).enqueue (deskPort d) q (connectEntry s d q mode) := by
  rw [connectRequest_of_line hline hmode hguard hnowait, if_neg (not_not.2 equipped), if_neg once]

/-! ## The refusals of R44 in order -/

theorem connectNow_refused {e : QueueEntry} :
    ((s.heldBy e.line).isSome = true → (s.popRequest p).connectNow p q e = answered s p q (.refused .lineHeld) []) ∧
    ((s.heldBy e.line).isSome = false → (s.freePoint (shelfOf e.line)).isNone = true →
      (s.popRequest p).connectNow p q e = answered s p q (.refused .shelfFull) []) ∧
    ((s.heldBy e.line).isSome = false → (s.freePoint (shelfOf e.line)).isNone = false → NoIdleBus s →
      (s.popRequest p).connectNow p q e = answered s p q (.refused .noBus) []) := by
  have held : (s.popRequest p).heldBy e.line = s.heldBy e.line := rfl
  have point : (s.popRequest p).freePoint (shelfOf e.line) = s.freePoint (shelfOf e.line) := rfl
  refine ⟨fun h => ?_, fun h1 h2 => ?_, fun h1 h2 idle => ?_⟩
  · rw [State.connectNow, held, if_pos h]
    exact refuse_popRequest ..
  · rw [State.connectNow, held, point, if_neg (by rw [h1]; simp), if_pos h2]
    exact refuse_popRequest ..
  · rw [State.connectNow, held, point, if_neg (by rw [h1]; simp), if_neg (by rw [h2]; simp),
      show (s.popRequest p).idleBus = none from idle]
    exact refuse_popRequest ..

/-- Settles O22. -/
theorem connectRefusals : Obligations.ConnectRefusals := by
  intro s d q asks hs line refusedWith twice held
  have refuses {r : Reason} (h : connectRequest (deskPort d) q (s.popRequest (deskPort d)) =
      answered s (deskPort d) q (.refused r) []) : refusedWith r := next_of_asks asks h hs
  refine ⟨fun h => refuses (connectRequest_badField h), fun hline hmode hguard hnowait => ?_⟩
  obtain ⟨mode, hmode⟩ : ∃ m, modeOf (field q.payload 2 1) = some m := by
    rw [← Option.ne_none_iff_exists', ne_eq, modeOf_none]
    omega
  have twice_iff : s.duplicateConnect d line = true ↔ twice := duplicateConnect_iff
  have held_iff : (s.heldBy line).isSome = true ↔ held := heldBy_isSome s line
  have points_iff := freePoint_isNone s (line / 64)
  have passed (equipped : (s.line line).equipped = true) (once : ¬ twice) :=
    connectRequest_of_passed (d := d) hline hmode hguard hnowait equipped (mt twice_iff.1 once)
  obtain ⟨lineHeld, shelfFull, noBus⟩ := connectNow_refused (s := s) (p := deskPort d) (q := q)
    (e := connectEntry s d q mode)
  refine ⟨fun unequipped => refuses ?_, fun equipped again => refuses ?_,
    fun equipped once queued full => refuses ?_, fun equipped once now isHeld => refuses ?_,
    fun equipped once now free full => refuses ?_, fun equipped once now free room busy => refuses ?_⟩
  · rw [connectRequest_of_line hline hmode hguard hnowait, if_pos (by rw [unequipped]; simp)]
  · rw [connectRequest_of_line hline hmode hguard hnowait, if_neg (not_not.2 equipped), if_pos (twice_iff.2 again)]
  · rw [passed equipped once, if_neg (by omega), if_pos full]
  · rw [passed equipped once, if_pos now]
    exact lineHeld (held_iff.2 isHeld)
  · rw [passed equipped once, if_pos now]
    exact shelfFull (Bool.eq_false_iff.2 (mt held_iff.1 free)) (points_iff.2 full)
  · rw [passed equipped once, if_pos now]
    refine noBus (Bool.eq_false_iff.2 (mt held_iff.1 free)) (Bool.eq_false_iff.2 fun none => ?_) busy
    obtain ⟨k, hk, free⟩ := room
    exact points_iff.1 none k hk free

/-! ## The queue -/

/-- A line with no bus, or with a bus that a desk holds, preempts nothing. -/
theorem preemptRoutine_of_desks (h : ∀ b, (s.bus b).line = some line → ∃ e, (s.bus b).holder = some (.desk e)) :
    s.preemptRoutine line = s := by
  unfold State.preemptRoutine
  split
  · next b hb =>
    have on : (s.bus b).line = some line := by
      have := List.find?_some hb
      simp only [Bool.and_eq_true, decide_eq_true_eq] at this
      exact this.2
    obtain ⟨e, he⟩ := h b on
    rw [if_neg (by simp [isRoutine_desk he])]
  · rfl

theorem notDuplicate (queue : ∀ e ∈ s.gar.queue, e.desk ≠ d ∨ e.line ≠ line)
    (buses : ∀ b, (s.bus b).line = some line → ∃ e, e ≠ d ∧ (s.bus b).holder = some (.desk e)) :
    ¬ s.duplicateConnect d line = true := by
  rw [duplicateConnect_iff]
  rintro (⟨e, he, hd, hl⟩ | ⟨b, hd, hl⟩)
  · exact (queue e he).elim (· hd) (· hl)
  · obtain ⟨e, hne, he⟩ := buses b hl
    rw [hd] at he
    cases he
    exact hne rfl

/-- Settles O23. -/
theorem connectJoinsQueue : Obligations.ConnectJoinsQueue := by
  intro s d q mode asks hs busy line hline hmode hguard queued equipped notQueued buses room share
  let u : State := { s with gar := { s.gar with
    nextSeq := nextSequence s.gar.nextSeq, queue := s.gar.queue ++ [connectEntry s d q mode] } }
  have code : modeOf (field q.payload 2 1) = some mode := by rw [hmode, modeOf_modeCode]
  have joined : connectRequest (deskPort d) q (s.popRequest (deskPort d)) =
      ((answered u (deskPort d) q .accepted (u16 s.gar.nextSeq)).preemptRoutine line).arbitrationDue := by
    rw [connectRequest_of_passed hline code hguard (by omega) equipped (notDuplicate notQueued buses),
      if_neg (by omega), if_neg (by omega), State.enqueue]
    exact congrArg (fun t : State => (t.preemptRoutine line).arbitrationDue) (answer_popRequest u ..)
  have kept : (answered u (deskPort d) q .accepted (u16 s.gar.nextSeq)).preemptRoutine line =
      answered u (deskPort d) q .accepted (u16 s.gar.nextSeq) :=
    preemptRoutine_of_desks fun b hb => (buses b hb).imp fun _ h => h.2
  refine next_of_served asks ?_
  rw [joined, kept]
  exact settle_due_of_noIdleBus hs busy

/-! ## The NOWAIT grant -/

theorem heldBy_eq_none (h : ∀ c, (s.bus c).line ≠ some line) : s.heldBy line = none := by
  simp [State.heldBy, h]

/-- With no other claimant and the service-ratio counter at 0 a further arbitration changes nothing. -/
theorem settle_due_of_noClaimant (h : Settled s) (n : NoClaimant s) (op : s.op = .operational)
    (zero : s.gar.ratio = 0) : s.arbitrationDue.settle = s := by
  have same : ratioCleared s = s := by
    show { s with gar := { s.gar with ratio := 0, arbDue := false } } = s
    rw [← zero, ← h.1]
  cases hb : s.idleBus with
  | none => exact settle_due_of_noIdleBus h hb
  | some b => exact (settle_of_noClaimant (s := s.arbitrationDue) h.2 n rfl op b hb).trans same

/-- With no other claimant the NOWAIT request wins, and the service-ratio counter is cleared. -/
theorem decideWinner_nowait {e : QueueEntry} (n : NoClaimant s) (eligible : s.eligible e = true) :
    s.decideWinner (some e) = (s.mapGar fun g => { g with ratio := 0 }, .desk (e, false)) := by
  have notAsked : s.mayAsk = false := by simp [State.mayAsk, n.2]
  simp [State.decideWinner, State.candidate, notAsked, n.1, bestDesk, eligible, chooseWinner, nextRatio]

/-- The check at a grant passes for an equipped line without a call (R20). -/
theorem grantCheck_none {c : Claim} (equipped : (s.line c.line).equipped = true) (clear : c.mode = .split →
    (s.port .p0).link = .up ∧ (s.line c.line).call ≠ .busy ∧ (s.line c.line).call ≠ .ringing) :
    s.grantCheck c = none := by
  unfold State.grantCheck
  rw [if_neg (not_not.2 equipped)]
  cases hmode : c.mode with
  | bridge => rfl
  | split =>
    obtain ⟨up, busy, ringing⟩ := clear hmode
    have quiet : s.callActive c.line = false := by
      unfold State.callActive
      cases hc : (s.line c.line).call with
      | idle | lockout => rfl
      | busy => exact absurd hc busy
      | ringing => exact absurd hc ringing
    simp [up, quiet]

/-- What a queue entry claims of a bus. -/
def claimOf (e : QueueEntry) : Claim :=
  { holder := .desk e.desk, line := e.line, mode := e.mode, guard := e.guard, tag := e.tag, seq := e.seq }

theorem grantDesk_of_passed {e : QueueEntry} (h : s.grantCheck (claimOf e) = none) :
    s.grantDesk b e = (s.beginConnect b (claimOf e)).arbitrationDue := by
  unfold claimOf at h ⊢
  simp only [State.grantDesk, h]

/-- A NOWAIT request that finds an IDLE bus, a free line and a point, and no other claimant. -/
theorem connectNow_granted {e : QueueEntry} {k : Nat} (n : NoClaimant s) (idle : s.idleBus = some b)
    (free : s.heldBy e.line = none) (point : s.freePoint (shelfOf e.line) = some k) :
    (s.popRequest p).connectNow p q e =
      (answered { s with gar := { s.gar with ratio := 0, nextSeq := nextSequence s.gar.nextSeq } } p q .accepted
        (u16 e.seq)).grantDesk b e := by
  have held : (s.popRequest p).heldBy e.line = none := free
  have room : (s.popRequest p).freePoint (shelfOf e.line) = some k := point
  have bus : (s.popRequest p).idleBus = some b := idle
  have eligible : (s.popRequest p).eligible e = true := by simp [State.eligible, held, room]
  rw [State.connectNow, held, room, bus, if_neg (by simp), if_neg (by simp)]
  dsimp only
  rw [decideWinner_nowait (s := s.popRequest p) n eligible]
  exact congrArg (State.grantDesk · b e)
    (answer_popRequest { s with gar := { s.gar with ratio := 0, nextSeq := nextSequence s.gar.nextSeq } } p q ..)

/-- Settles O24. -/
theorem nowaitConnectTakesIdleBus : Obligations.NowaitConnectTakesIdleBus := by
  intro s d q b mode k asks hs hn op idle line hline hmode hguard nowait equipped free point clear
  have code : modeOf (field q.payload 2 1) = some mode := by rw [hmode, modeOf_modeCode]
  let e := connectEntry s d q mode
  let u : State := { s with gar := { s.gar with ratio := 0, nextSeq := nextSequence s.gar.nextSeq } }
  let v := answered u (deskPort d) q .accepted (u16 e.seq)
  have once : ¬ s.duplicateConnect d line = true :=
    notDuplicate (by simp [hn.1]) fun c hc => absurd hc (free c)
  have served : connectRequest (deskPort d) q (s.popRequest (deskPort d)) = v.grantDesk b e := by
    rw [connectRequest_of_passed hline code hguard (by omega) equipped once, if_pos nowait]
    exact connectNow_granted hn idle (heldBy_eq_none free) point
  have upThere : mode = .split → (v.port .p0).link = .up := fun h => by
    rw [answered_port_of_ne (ne_deskPort d)]
    exact (clear h).1
  have granted : v.grantDesk b e = (v.beginConnect b (claimOf e)).arbitrationDue :=
    grantDesk_of_passed (grantCheck_none equipped fun h => ⟨upThere h, (clear h).2⟩)
  have claims : NoClaimant (v.beginConnect b (claimOf e)) := hn
  refine next_of_served asks ?_
  rw [served, granted, settle_due_of_noClaimant (by exact hs) claims op rfl]
  have shelf : v.freePoint (shelfOf (claimOf e).line) = some k := point
  rw [State.beginConnect, shelf]
  cases mode <;> rfl

end Sys2Proof
end

