-- ==== Sys2Proof/Proofs/SeizesAndCalls.lean ====
section
/-! PROOFS. SEIZE, and what a call or a SEIZE does to a bus that gives its line up (R62, R65 to R68, R25, R33, R35, R37). -/

namespace Sys2Proof

open Machine

variable {s : State} {p : Port} {q : Request} {line : Nat} {b : Bus} {d : Desk}

/-! ## Releases and aborts a call brings -/

theorem hold_stop_eq (h : HoldTimer) : h.stop = match h with | .absent => .absent | _ => .stopped := by
  cases h <;> rfl

theorem enterReleasing_told {r : BusRecord} {reason : ReleaseReason} {m : Option Mode}
    (hr : s.bus b = r) (hline : r.line = some line) (hmode : r.mode = m) (reached : r.reached = true)
    (tells : reason.tellsReleasing = true) :
    s.enterReleasing b reason = State.tellHolder ((s.setBus b { r with
      state := .releasing, reason := some reason, hold := r.hold.stop, gen := ToneGen.off, audio := .disconnected,
      run := none, relay := .lineReleasing 6 }).setAccess line (accessOf m b .releasing)) r
      (.busState b .releasing (some line) (.release reason)) := by
  subst hr hmode
  simp only [State.enterReleasing, hline, State.reportReleasing, reached, tells, Config.releaseMs]
  rfl

theorem requestRelease_measuring {reason : ReleaseReason} {cause : AbortCause} (state : (s.bus b).state = .measuring)
    (first : (s.bus b).reason = none) (aborts : causeOf reason = some cause) :
    s.requestRelease b reason = (s.markRelease b reason).abortRun b cause := by
  simp [State.requestRelease, first, state, aborts]

/-- An abort of a run whose bias is on drops the bias and discharges for 30 ms (R90, R123). -/
theorem abortRun_biased {x : RunContext} {ch : Channel} {cause : AbortCause} (ctx : s.ctx b = some x)
    (final : x.final = false) (abort : x.abort = none) (channel : x.channel = some ch)
    (phase : x.phase = .reading ∨ x.phase = .settle ∨ x.phase = .capture) (bias : (s.chan ch).bias ≠ .off) :
    s.abortRun b cause = (s.setCtx b (some { x with
        abort := some cause, phase := .discharge, work := { x.work with stage := .closing, reading := none } })).setChan
      ch { s.chan ch with bias := .off, activity := .discharging, timer := 30, biasNext := none } := by
  let y : RunContext := { x with abort := some cause }
  let u := s.setCtx b (some y)
  have aborts : s.abortRun b cause = u.actOnAbort b y := by
    simp [State.abortRun, ctx, abort, final, u, y]
  have here : u.chan ch = s.chan ch := rfl
  rw [aborts, actOnAbort_biased (z := u) (y := y) (b := b) phase channel (here ▸ bias),
    switchOff_biased (z := u) (here ▸ bias)]
  simp only [u, State.mapCtx, State.setChan_ctx, State.setCtx_ctx, if_true, setCtx_setChan, setCtx_setCtx]
  rfl

/-! ## SEIZE -/

theorem line_congr {t : State} {n : Nat} (h : s.lrt = t.lrt) : s.line n = t.line n := by
  rw [State.line, State.line, h]

theorem popRequest_port_self :
    (s.popRequest p).port p = { s.port p with requests := (s.port p).requests.drop 1 } := by
  rw [State.popRequest, State.setPort_port, if_pos rfl]

/-- The records read as before but for the line whose call state and access state are written. -/
theorem line_setCall_setAccess {c : CallState} {a : AccessState} {n : Nat} (w : Canonical s) :
    ((s.setCall line c).setAccess line a).line n =
      if n = line then { s.line line with call := c, access := a } else s.line n := by
  have same : (s.setCall line c).line line = { s.line line with call := c } := by
    rw [State.setCall, line_setLine w, if_pos rfl]
  have called : Canonical (s.setCall line c) := canonical_setLine w ..
  rw [State.setAccess, line_setLine called, same]
  by_cases hn : n = line
  · rw [if_pos hn, if_pos hn]
  · rw [if_neg hn, if_neg hn, State.setCall, line_setLine w, if_neg hn]

/-- A tag for a line without pending seize makes an entry at the table's tail (R68). -/
theorem addTag_new {tag : Byte} {table : List SeizeEntry} (h : ∀ e ∈ table, e.line ≠ line) :
    addTag line tag table = table ++ [{ line := line, tags := [tag], report := none }] := by
  have none : ¬ table.any (fun e => e.line = line) = true := by simpa using h
  exact if_neg none

/-- A SEIZE that waits, of a line without pending seize. -/
theorem seizeWaits_new {tag : Byte} (h : ∀ e ∈ s.exc.seizes, e.line ≠ line) : s.seizeWaits line tag =
    { s.setLine line { s.line line with call := .busy } with
      exc := { s.exc with seizes := s.exc.seizes ++ [{ line := line, tags := [tag], report := none }] } } := by
  rw [← addTag_new h]
  rfl

/-- A SEIZE of a known line with room for its tag is decided by the line's access state. -/
theorem seizeRequest_of_access (hline : field q.payload 0 2 ≤ 2047)
    (room : ∀ e, s.seizeEntry (field q.payload 0 2) = some e → e.tags.length < 2) :
    seizeRequest p q (s.popRequest p) =
      match (s.line (field q.payload 0 2)).access with
      | .normal => (s.popRequest p).seizeGranted p q (field q.payload 0 2)
      | .bridge _ _ => (s.popRequest p).seizeGranted p q (field q.payload 0 2)
      | .split _ .releasing => (s.popRequest p).seizeWaits (field q.payload 0 2) q.tag
      | .split b .operating => (s.popRequest p).seizeSplit p q (field q.payload 0 2) b
      | .split b .settled => (s.popRequest p).seizeSplit p q (field q.payload 0 2) b := by
  have entry : ¬ ((s.popRequest p).seizeEntry (field q.payload 0 2)).any (fun e => 2 ≤ e.tags.length) = true := by
    show ¬ (s.seizeEntry (field q.payload 0 2)).any (fun e => 2 ≤ e.tags.length) = true
    cases h : s.seizeEntry (field q.payload 0 2) with
    | none => simp
    | some e => simpa using room e h
  unfold seizeRequest
  dsimp only
  rw [if_neg (not_not.2 (isLine_iff.2 hline)), if_neg entry]
  rfl

/-- A SEIZE that nothing holds against takes the line back (R65, R66). -/
theorem seizeSplit_takes (reason : (s.bus b).reason = none) (gives : (s.bus b).guard = false ∨
    (s.lineClass line).priority = true ∨ ∃ k, (s.bus b).holder = some (.routine k)) :
    s.seizeSplit p q line b = (s.seizeWaits line q.tag).requestRelease b .preemptedCall := by
  have unguarded : ¬ s.guarded b line = true := by
    simp only [State.guarded]
    rcases gives with h | h | ⟨k, h⟩
    · simp [h]
    · simp [h]
    · simp [isRoutine_routine h]
  rw [State.seizeSplit, if_neg (by simp [reason]), if_neg unguarded]

/-- Settles O19: SEIZE answered or held back at once; a SEIZE that takes a split line back; a call on a line that
routine work holds. -/
theorem seizeOutcomes : Obligations.SeizeOutcomes := by
  refine ⟨?_, ?_, ?_⟩
  · intro s p q asks hs line pending
    refine ⟨fun h => ?_, fun hline e he full => ?_, fun hline room access => ?_, fun b hline none access => ?_⟩
    · refine next_of_asks asks ?_ hs
      rw [seizeRequest, if_pos (by rw [isLine_iff]; omega)]
      exact refuse_popRequest ..
    · refine next_of_asks asks ?_ hs
      have entry : (s.popRequest p).seizeEntry line = some e := he
      rw [seizeRequest, if_neg (not_not.2 (isLine_iff.2 hline)), entry, if_pos (by simpa using full)]
      exact refuse_popRequest ..
    · refine next_of_asks asks ?_ hs
      have granted : seizeRequest p q (s.popRequest p) = (s.popRequest p).seizeGranted p q line := by
        rw [seizeRequest_of_access hline room]
        rcases access with h | ⟨b, m, h⟩ <;> rw [h]
      exact granted.trans (ok_popRequest (s.setLine line { s.line line with call := .busy }) ..)
    · refine next_of_asks asks ?_ hs
      rw [seizeRequest_of_access hline (by rw [show s.seizeEntry line = _ from none]; simp), access]
      exact seizeWaits_new (s := s.popRequest p) (by simpa [pending] using none)
  · intro s q b asks hs line r hold pending hline free reason access gives
    let u : State := { (s.popRequest .p0).setLine line { s.line line with call := .busy } with exc := pending }
    have served : seizeRequest .p0 q (s.popRequest .p0) = u.requestRelease b .preemptedCall := by
      rw [seizeRequest_of_split hline free access, seizeSplit_takes (s := s.popRequest .p0) reason gives,
        seizeWaits_new (s := s.popRequest .p0) free]
      rfl
    have stopped : r.hold.stop = hold := hold_stop_eq _
    refine ⟨fun state relay => ?_, fun d canonical state holder hbus mode reached up room => ?_⟩
    · refine next_of_asks asks (served.trans
        ((requestRelease_connecting (s := u) .preemptedCall state reason relay).trans ?_)) hs
      rw [← stopped]
      rfl
    · let v : State := (u.setBus b { r with
        state := .releasing, reason := some .preemptedCall, hold := hold, gen := ToneGen.off, audio := .disconnected,
        run := none, relay := .lineReleasing 6 }).setAccess line (accessOf (some .split) b .releasing)
      have port : v.port (deskPort d) = s.port (deskPort d) := by
        show (s.popRequest .p0).port (deskPort d) = _
        rw [State.popRequest, State.setPort_port, if_neg (deskPort_ne d)]
      have lines : v.lrt = ((s.setCall line .busy).setAccess line (.split b .releasing)).lrt := rfl
      have told := notifyDesk_of_room (s := v) (d := d)
        (n := .busState b .releasing (some line) (.release .preemptedCall)) (port ▸ up) (port ▸ room)
      have effect : u.requestRelease b .preemptedCall =
          v.notifyDesk d (.busState b .releasing (some line) (.release .preemptedCall)) := by
        rw [requestRelease_connected (s := u) .preemptedCall (state.imp_right (·.imp_right .inl)) reason,
          enterReleasing_told (s := u) (r := r) rfl hbus mode reached rfl, tellHolder_desk holder, stopped]
      refine ⟨_, next_of_asks asks (served.trans (effect.trans told)) hs, rfl, rfl, fun n => ?_, ?_, ?_, rfl, rfl, rfl,
        rfl, rfl, rfl, rfl⟩
      · exact (line_congr lines).trans (line_setCall_setAccess canonical)
      · rw [State.setPort_port, if_pos rfl, kick_notices, port]
      · exact ((State.setPort_port ..).trans (if_neg (ne_deskPort d))).trans (popRequest_port_self (s := s) (p := .p0))
  · intro s q b k c asks hs line r hold marked hline hcall free access reason holder
    obtain ⟨cause, withCause⟩ : ∃ cause, (field q.payload 2 1, c, cause) ∈
        [(1, CallState.busy, AttemptCause.busy), (2, .ringing, .ringing)] := by
      simp only [List.mem_cons, Prod.mk.injEq, List.not_mem_nil, or_false] at hcall ⊢
      rcases hcall with ⟨h, rfl⟩ | ⟨h, rfl⟩
      · exact ⟨.busy, .inl ⟨h, rfl, rfl⟩⟩
      · exact ⟨.ringing, .inr ⟨h, rfl, rfl⟩⟩
    let u := answered (s.setCall line c) .p0 q .ok []
    have served : callStateRequest .p0 q (s.popRequest .p0) = u.requestRelease b .preemptedCall := by
      rw [callStateRequest_of_free (callOf_of_mem withCause) hline free, actOnCall_split withCause access reason,
        if_pos (isRoutine_routine holder)]
    have mark : u.markRelease b .preemptedCall = answered marked .p0 q .ok [] := by
      simp only [marked, ← show r.hold.stop = hold from hold_stop_eq _]
      rfl
    refine ⟨fun state relay => ?_, fun x ch state ctx final abort channel phase bias => ?_⟩
    · exact next_of_asks asks (served.trans
        ((requestRelease_connecting (s := u) .preemptedCall state reason relay).trans mark)) hs
    · refine next_of_served asks ?_
      let v : State := answered marked .p0 q .ok []
      have aborted := abortRun_biased (s := v) (cause := .preemptedCall) ctx final abort channel phase bias
      have calm : Settled (v.setCtx b (some { x with
          abort := some .preemptedCall, phase := .discharge,
          work := { x.work with stage := .closing, reading := none } })) := hs
      rw [served, requestRelease_measuring (s := u) state reason rfl, mark]
      exact (congrArg State.settle aborted).trans (settle_of_settled (settled_setChan calm rfl))

end Sys2Proof
end

