-- ==== Sys2Proof/Proofs/TestRequestsAndTime.lean ====
section
/-! PROOFS. TEST_REQUEST with the routine grant that follows (R49, R71, R136, R139, R142), and the time of day (R73). -/

namespace Sys2Proof

open Machine

variable {s : State} {p : Port} {q : Request} {line : Nat} {b : Bus}

/-- Settledness reads the channels, the wait list and the due mark alone. -/
theorem settled_congr {t : State} (hs : Settled s) (mc : t.mc = s.mc) (waiting : t.gar.waiting = s.gar.waiting)
    (due : t.gar.arbDue = s.gar.arbDue) : Settled t :=
  ⟨due.trans hs.1, noRunToServe_congr mc waiting hs.2⟩

/-! ## Arbitrations that are due, one at a time -/

theorem arbitrate_due (h : Settled s) (op : s.op = .operational) (idle : s.idleBus = some b) (n : Nat) :
    State.arbitrate (n + 1) s.arbitrationDue = State.arbitrate n (s.arbitrateOnce b) := by
  have clear : s.arbitrationDue.mapGar (fun g => { g with arbDue := false }) = s := clearDue_of_not_due h.1
  have bus : s.arbitrationDue.idleBus = some b := idle
  have due : s.arbitrationDue.gar.arbDue = true ∧ s.arbitrationDue.op = .operational := ⟨rfl, op⟩
  rw [State.arbitrate, if_pos due, bus]
  dsimp only
  rw [clear]

theorem arbitrate_due_noIdleBus (h : Settled s) (busy : NoIdleBus s) (n : Nat) :
    State.arbitrate (n + 1) s.arbitrationDue = s := by
  have clear : s.arbitrationDue.mapGar (fun g => { g with arbDue := false }) = s := clearDue_of_not_due h.1
  have none : s.arbitrationDue.idleBus = none := busy
  rw [State.arbitrate, none]
  dsimp only
  rw [clear, ite_self]

/-- Nothing to dispatch: no verify line, no lockout entry, no deferred entry, and no sweep under way. -/
def NothingToDispatch (s : State) : Prop :=
  s.tkt.verify = [] ∧ s.rts.lockout = [] ∧ s.rts.deferred = [] ∧ s.rts.phase = .between

theorem candidate_of_nothing (h : NothingToDispatch s) : s.candidate = (s, none) := by
  obtain ⟨verify, lockout, deferred, phase⟩ := h
  unfold State.candidate
  split
  · simp [State.askCandidate, State.review, verify, lockout, State.reviewLockout, deferred, State.reviewDeferred, phase]
  · rfl

/-- With nothing queued and nothing to dispatch an arbitration only clears the service-ratio counter. -/
theorem arbitrateOnce_of_nothing (h : NothingToDispatch s) (queue : s.gar.queue = []) :
    s.arbitrateOnce b = s.mapGar fun g => { g with ratio := 0 } := by
  simp [State.arbitrateOnce, State.decideWinner, candidate_of_nothing h, queue, bestDesk, chooseWinner, nextRatio,
    State.grant]

theorem arbitrate_due_of_nothing (hs : Settled s) (h : NothingToDispatch s) (queue : s.gar.queue = [])
    (zero : s.gar.ratio = 0) (op : s.op = .operational) (n : Nat) :
    State.arbitrate (n + 1) s.arbitrationDue = s := by
  cases idle : s.idleBus with
  | none => exact arbitrate_due_noIdleBus hs idle n
  | some b =>
    have same : s.mapGar (fun g => { g with ratio := 0 }) = s := by
      show { s with gar := { s.gar with ratio := 0 } } = s
      rw [← zero]
    rw [arbitrate_due hs op idle, arbitrateOnce_of_nothing h queue, same, arbitrate_of_not_due n hs.1]

/-- One grant after which nothing is left to grant. -/
theorem settle_of_oneGrant {t : State} (hs : Settled s) (op : s.op = .operational) (idle : s.idleBus = some b)
    (grants : s.arbitrateOnce b = t.arbitrationDue) (ht : Settled t) (nothing : NothingToDispatch t)
    (queue : t.gar.queue = []) (zero : t.gar.ratio = 0) (opThen : t.op = .operational) :
    s.arbitrationDue.settle = t := calc
  s.arbitrationDue.settle = State.arbitrate 256 s.arbitrationDue :=
    congrArg (State.arbitrate 256) (serveWaiting_of_none _ hs.2)
  _ = State.arbitrate 255 (s.arbitrateOnce b) := arbitrate_due hs op idle 255
  _ = State.arbitrate 255 t.arbitrationDue := by rw [grants]
  _ = t := arbitrate_due_of_nothing ht nothing queue zero opThen 254

/-! ## What a grant leaves unchanged (R21) -/

@[simp] theorem beginConnect_op (c : Claim) : (s.beginConnect b c).op = s.op := rfl

@[simp] theorem beginConnect_gar (c : Claim) : (s.beginConnect b c).gar = s.gar := rfl

theorem settled_beginConnect {c : Claim} (hs : Settled s) : Settled (s.beginConnect b c) :=
  settled_congr hs rfl rfl rfl

theorem nothingToDispatch_beginConnect {c : Claim} (h : NothingToDispatch s) :
    NothingToDispatch (s.beginConnect b c) := h

/-! ## TEST_REQUEST -/

theorem lockoutTestOn_iff : s.lockoutTestOn line = true ↔ ∃ b ∈ allBuses,
    (s.bus b).state ≠ .idle ∧ (s.bus b).line = some line ∧ (s.bus b).holder = some (.routine .lockout) := by
  simp [State.lockoutTestOn, and_assoc]

/-- The table of R71 after its first row. -/
theorem testRequest_eq : testRequest p q (s.popRequest p) =
    if ¬ isLine (field q.payload 0 2) then answered s p q (.refused .badField) []
    else if ¬ (s.line (field q.payload 0 2)).equipped then answered s p q (.refused .notEquipped) []
    else if (s.line (field q.payload 0 2)).call ≠ .lockout then answered s p q (.refused .notLockout) []
    else if s.rts.lockout.contains (field q.payload 0 2) ∨ s.lockoutTestOn (field q.payload 0 2) then
      answered s p q (.refused .duplicate) []
    else if 16 ≤ s.rts.lockout.length then answered s p q (.refused .full) []
    else (answered { s with rts := { s.rts with lockout := s.rts.lockout ++ [field q.payload 0 2] } } p q .ok
      (u8 (s.rts.lockout ++ [field q.payload 0 2]).length)).arbitrationDue := by
  have listed := ok_popRequest { s with rts := { s.rts with lockout := s.rts.lockout ++ [field q.payload 0 2] } } p q
    false (u8 (s.rts.lockout ++ [field q.payload 0 2]).length)
  simp only [← refuse_popRequest, show ReplyOutcome.ok = okOutcome false from rfl, ← listed]
  rfl

/-- The line at the head of the lockout list, the only routine work there is, wins the arbitration (R136, R139). -/
theorem decideWinner_lockout (verify : s.tkt.verify = []) (lockout : s.rts.lockout = [line])
    (queue : s.gar.queue = []) (asked : s.mayAsk = true) (call : (s.line line).call = .lockout)
    (equipped : (s.line line).equipped = true) (offerable : s.offerable line = true) :
    s.decideWinner none = (s.mapGar fun g => { g with ratio := 0 },
      .routine { line := line, source := .lockoutList, name := .lockout }) := by
  have review : s.review = (s, some (line, .lockoutList)) := by
    simp [State.review, verify, lockout, State.reviewLockout, call, equipped, offerable]
  simp [State.decideWinner, State.candidate, asked, State.askCandidate, review, queue, bestDesk, chooseWinner,
    nextRatio, nameFor]

theorem grantRoutine_of_passed {k : Candidate} {c : Claim} (claim : c =
      { holder := .routine (subKind k.source), line := k.line, mode := .split, guard := false, tag := 0, seq := 0 })
    (h : (s.routineGranted k b).grantCheck c = none) :
    s.grantRoutine b k = ((s.routineGranted k b).beginConnect b c).arbitrationDue := by
  subst claim
  simp only [State.grantRoutine, h]

/-- Settles O20: the table row by row, and the one grant that follows where routine work may have a bus. -/
theorem testRequestTable : Obligations.TestRequestTable := by
  refine ⟨?_, ?_⟩
  · intro s p q asks hs busy line
    have test_iff := lockoutTestOn_iff (s := s) (line := line)
    split
    · next h =>
      have beyond : ¬ isLine line = true := by
        rw [isLine_iff]
        omega
      exact next_of_asks asks ((testRequest_eq (s := s) (p := p)).trans (if_pos beyond)) hs
    next h =>
    have known := (testRequest_eq (s := s) (p := p) (q := q)).trans
      (if_neg (not_not.2 (isLine_iff.2 (Nat.not_lt.1 h))))
    split
    · next h => exact next_of_asks asks (known.trans (if_pos (by simpa using h))) hs
    next h =>
    replace known := known.trans (if_neg (by simpa using h))
    split
    · next h => exact next_of_asks asks (known.trans (if_pos h)) hs
    next h =>
    replace known := known.trans (if_neg h)
    split
    · next h =>
      exact next_of_asks asks (known.trans (if_pos (h.imp List.contains_iff_mem.2 test_iff.2))) hs
    next h =>
    replace known := known.trans (if_neg (mt (Or.imp List.contains_iff_mem.1 test_iff.1) h))
    split
    · next h => exact next_of_asks asks (known.trans (if_pos h)) hs
    next h =>
    replace known := known.trans (if_neg h)
    refine next_of_served asks ((congrArg State.settle known).trans ?_)
    rw [List.length_append, List.length_singleton]
    exact settle_due_of_noIdleBus hs busy
  · intro s p q b k asks hs line hline equipped call free point idle op queue running below serves verify lockout
      deferred phase
    let listed : State := { s with rts := { s.rts with lockout := [line] } }
    let u : State := answered listed p q .ok [1]
    let won : Candidate := { line := line, source := .lockoutList, name := .lockout }
    let claim : Claim :=
      { holder := .routine .lockout, line := line, mode := .split, guard := false, tag := 0, seq := 0 }
    let granted : State := (u.mapGar fun g => { g with ratio := 0 }).routineGranted won b
    have joined : testRequest p q (s.popRequest p) = u.arbitrationDue := by
      have tested : ¬ (s.rts.lockout.contains line ∨ s.lockoutTestOn line) := by
        rw [lockoutTestOn_iff, lockout]
        simp [free]
      rw [testRequest_eq, if_neg (not_not.2 (isLine_iff.2 hline)), if_neg (not_not.2 equipped),
        if_neg (not_not.2 call), if_neg tested, if_neg (by simp [lockout]), lockout]
      rfl
    have asked : u.mayAsk = true := by
      have inService : s.served ≠ 0 := by
        obtain ⟨c, enable, pending, ready⟩ := serves
        rw [ne_eq, served_ne]
        exact fun none => none c ((inService_iff _).2 ⟨enable, pending, .inr (.inr (.inl ready))⟩)
      have : (s.rts.state = .running && s.rts.held < s.rts.params.rbl && s.served ≠ 0) = true := by
        simp [running, below, inService]
      exact this
    have offerable : u.offerable line = true := by
      have : ((s.heldBy line).isNone && (s.freePoint (shelfOf line)).isSome &&
          !s.gar.queue.any fun e => e.line = line) = true := by
        rw [heldBy_eq_none free, show s.freePoint (shelfOf line) = some k from point, queue]
        rfl
      exact this
    have wins := decideWinner_lockout (s := u) verify rfl queue asked call equipped offerable
    have passes : granted.grantCheck claim = none := by
      have quiet : s.callActive line = false := by
        unfold State.callActive
        rw [call]
      have : granted.callActive line = false := quiet
      have : (granted.line line).equipped = true := equipped
      simp [State.grantCheck, claim, Holder.isDesk, *]
    have grants : u.arbitrateOnce b = (granted.beginConnect b claim).arbitrationDue := by
      rw [State.arbitrateOnce, wins]
      exact grantRoutine_of_passed rfl passes
    have left : [line].filter (fun k => k ≠ line) = s.rts.lockout := by simp [lockout]
    have rts : granted.rts = { s.rts with
        held := s.rts.held + 1
        dispatch := s.rts.dispatch.set b (some { source := .lockoutList, name := .lockout }) } :=
      congrArg (fun lockout : List Nat => ({ s.rts with
        lockout := lockout
        held := s.rts.held + 1
        dispatch := s.rts.dispatch.set b (some { source := .lockoutList, name := .lockout }) } : RoutineScheduler)) left
    have nothing : NothingToDispatch granted := ⟨verify, left.trans lockout, deferred, phase⟩
    have calm : Settled granted := settled_congr hs rfl rfl rfl
    have shelf : granted.freePoint (shelfOf claim.line) = some k := point
    have ends : u.arbitrationDue.settle = granted.beginConnect b claim :=
      settle_of_oneGrant (s := u) hs op idle grants (settled_beginConnect calm)
        (nothingToDispatch_beginConnect nothing) ((congrArg GrantArbiter.queue (beginConnect_gar claim)).trans queue)
        (congrArg GrantArbiter.ratio (beginConnect_gar claim)) ((beginConnect_op claim).trans op)
    refine next_of_served asks ((congrArg State.settle joined).trans (ends.trans ?_))
    rw [State.beginConnect, shelf, ← rts]
    rfl

/-! ## Time of day -/

/-- A time written starts no arbitration where no bus is IDLE or nothing waits on the deferred list. -/
theorem settle_setTime (hs : Settled s) (h : NoIdleBus s ∨ s.rts.deferred = []) (t : Stamp) :
    (s.setTime t).settle = { s with exc := { s.exc with time := t, subMs := 0 } } := by
  have settled : Settled { s with exc := { s.exc with time := t, subMs := 0 } } := hs
  unfold State.setTime
  dsimp only
  split
  · exact settle_of_settled settled
  · next changed =>
    refine settle_due_of_noIdleBus settled (h.resolve_right fun none => changed ?_)
    rw [none]
    rfl

/-- The reply leaves open whether the time written is work to offer. -/
theorem setTime_ok {t : Stamp} {data : List Byte} :
    ((s.popRequest p).setTime t).ok p q false data = (answered s p q .ok data).setTime t := by
  unfold State.setTime
  by_cases same : dueCount t s.rts.deferred = dueCount s.now s.rts.deferred
  · exact (congrArg (State.ok · p q false data) (if_pos same)).trans
      ((ok_popRequest { s with exc := { s.exc with time := t, subMs := 0 } } ..).trans (if_pos same).symm)
  · exact (congrArg (State.ok · p q false data) (if_neg same)).trans
      ((ok_popRequest (State.arbitrationDue { s with exc := { s.exc with time := t, subMs := 0 } }) ..).trans
        (if_neg same).symm)

theorem Stamp_next_eq {t : Stamp} (sec : t.sec ≤ 86399) (day : t.day ≤ 65535) : t.next =
    if t.sec = 86399 then ⟨if t.day = 65535 then 0 else t.day + 1, 0⟩ else ⟨t.day, t.sec + 1⟩ := by
  simp only [Stamp.next, Stamp.later]
  split
  · next last =>
    rw [last]
    split
    · next day => rw [day]
    · exact congrArg (Stamp.mk · 0) (by omega)
  · exact congrArg₂ Stamp.mk (by omega) (by omega)

/-- Settles O21. -/
theorem timeOfDay : Obligations.TimeOfDay := by
  refine ⟨?_, ?_⟩
  · intro s p q asks hs calm day sec
    split
    · next late =>
      refine next_of_asks asks ?_ hs
      rw [timeSet, if_pos late]
      exact refuse_popRequest ..
    · next inDay =>
      let u : State := { s with exc := { s.exc with unset := false } }
      have served : timeSet p q (s.popRequest p) = (answered u p q .ok (u16 day ++ u24 sec)).setTime ⟨day, sec⟩ := by
        rw [timeSet, if_neg inDay]
        exact setTime_ok (s := u)
      exact next_of_served asks ((congrArg State.settle served).trans
        (settle_setTime (s := answered u p q .ok (u16 day ++ u24 sec)) hs calm _))
  · intro s hs calm sec day
    rw [← Stamp_next_eq sec day]
    exact congrArg Host.Outcome.next (settle_setTime hs calm _)

end Sys2Proof
end

