-- ==== Sys2Proof/Proofs/TicketFrames.lean ====
section
/-! PROOFS. What the ticket table's work leaves alone: a finding writes line records, tickets, ports and counts, and
nothing else (9.2). -/

namespace Sys2Proof

open Machine

variable {s t : State}

/-- `t` is `s` with other line records, tickets, ports and counts. -/
def TicketWork (s t : State) : Prop :=
  ∃ lrt tkt ports cnt, t = { s with lrt := lrt, tkt := tkt, ports := ports, cnt := cnt }

namespace TicketWork

theorem refl (s : State) : TicketWork s s := ⟨_, _, _, _, rfl⟩

theorem trans {u : State} (h : TicketWork s t) (h' : TicketWork t u) : TicketWork s u := by
  obtain ⟨_, _, _, _, rfl⟩ := h
  obtain ⟨_, _, _, _, rfl⟩ := h'
  exact ⟨_, _, _, _, rfl⟩

theorem settled (h : TicketWork s t) (hs : Settled s) : Settled t := by
  obtain ⟨_, _, _, _, rfl⟩ := h
  exact hs

theorem bus (h : TicketWork s t) (b : Bus) : t.bus b = s.bus b := by
  obtain ⟨_, _, _, _, rfl⟩ := h
  rfl

theorem mapTkt {f : TicketTable → TicketTable} (h : TicketWork s t) : TicketWork s (t.mapTkt f) := by
  obtain ⟨_, _, _, _, rfl⟩ := h
  exact ⟨_, _, _, _, rfl⟩

theorem setLine {n : Nat} {r : LineRecord} (h : TicketWork s t) : TicketWork s (t.setLine n r) := by
  obtain ⟨_, _, _, _, rfl⟩ := h
  exact ⟨_, _, _, _, rfl⟩

theorem reports {F : State → State} (hF : ReportsOnly F) (h : TicketWork s t) : TicketWork s (F t) := by
  rw [hF.frame t]
  obtain ⟨_, _, _, _, rfl⟩ := h
  exact ⟨_, _, _, _, rfl⟩

theorem count {g i : Nat} (h : TicketWork s t) : TicketWork s (t.count g i) := h.reports (reportsOnly_count g i)

theorem broadcast {n : Notice} (h : TicketWork s t) : TicketWork s (t.broadcast n) := h.reports (reportsOnly_broadcast n)

theorem ite {p : Prop} [Decidable p] {u : State} (h : TicketWork s t) (hu : TicketWork s u) :
    TicketWork s (if p then t else u) := by
  split
  · exact h
  · exact hu

theorem reopen {u : Ticket} (h : TicketWork s t) : TicketWork s (t.reopen u) := by
  unfold State.reopen State.sendChange State.verifyReview
  exact (ite h.mapTkt h.mapTkt.mapTkt).broadcast

theorem mergeFinding {u : Ticket} {f : Finding} (h : TicketWork s t) : TicketWork s (t.mergeFinding u f) := by
  have written : TicketWork s ((t.putTicket (u.merged f t.now)).countFinding f.code .merged) := h.mapTkt.count
  unfold State.mergeFinding
  dsimp only
  exact ite (ite (ite written.mapTkt written).broadcast (ite written.mapTkt written)).reopen
    (ite (ite written.mapTkt written).broadcast (ite written.mapTkt written))

theorem createTicket {f : Finding} (h : TicketWork s t) : TicketWork s (t.createTicket f) := by
  unfold State.createTicket
  exact (ite h.mapTkt.setLine.setLine.count.mapTkt h.mapTkt.setLine.setLine.count).broadcast

theorem evict {u : Ticket} (h : TicketWork s t) : TicketWork s (t.evict u) := by
  unfold State.evict State.sendChange
  exact h.mapTkt.broadcast

theorem overflowFinding {f : Finding} (h : TicketWork s t) : TicketWork s (t.overflowFinding f) := by
  unfold State.overflowFinding
  exact ite h.count.setLine.mapTkt h.count.setLine

theorem raiseTicket {f : Finding} (h : TicketWork s t) : TicketWork s (t.raiseTicket f) := by
  unfold State.raiseTicket
  split
  · exact h.createTicket
  · split
    · exact h.evict.createTicket
    · exact h.overflowFinding

theorem takeFinding {f : Finding} (h : TicketWork s t) : TicketWork s (t.takeFinding f) := by
  unfold State.takeFinding
  split
  · exact h.mergeFinding
  · exact ite h.count.setLine h.raiseTicket

end TicketWork

/-- A finding handed to the ticket table writes line records, tickets, ports and counts alone. -/
theorem takeFinding_frame (s : State) (f : Finding) : TicketWork s (s.takeFinding f) := (TicketWork.refl s).takeFinding

end Sys2Proof
end

