-- ==== Sys2Proof/Proofs/ConnectRelays.lean ====
section
/-! PROOFS. The relay operations of a connect, a connect cut short, and the parts of a release (R22 to R25, R35, R69,
R138, R143). -/

namespace Sys2Proof

open Machine

variable {s : State} {b : Bus} {d : Desk} {line : Nat}

/-! ## The end of an operation that is not in progress -/

theorem exec_shelfPointOperated_idle (h : ∀ ms, (s.bus b).relay ≠ .pointOperating ms) :
    exec (.shelfPointOperated b) s = .next s := by
  show Host.Outcome.next _ = _
  split
  · next ms hr => exact absurd hr (h ms)
  · rfl

theorem exec_lineRelayOperated_idle (h : ∀ ms, (s.bus b).relay ≠ .lineOperating ms) :
    exec (.lineRelayOperated b) s = .next s := by
  show Host.Outcome.next _ = _
  split
  · next ms hr => exact absurd hr (h ms)
  · rfl

theorem exec_accessCheckEnd_idle (h : ∀ ms, (s.bus b).relay ≠ .checking ms) (u v w : Bool) :
    exec (.accessCheckEnd b u v w) s = .next s := by
  show Host.Outcome.next _ = _
  split
  · next ms hr => exact absurd hr (h ms)
  · rfl

theorem exec_lineRelayReleased_idle (h : ∀ ms, (s.bus b).relay ≠ .lineReleasing ms) :
    exec (.lineRelayReleased b) s = .next s := by
  show Host.Outcome.next _ = _
  split
  · next ms hr => exact absurd hr (h ms)
  · rfl

theorem exec_shelfPointReleased_idle (h : ∀ ms, (s.bus b).relay ≠ .pointReleasing ms) :
    exec (.shelfPointReleased b) s = .next s := by
  show Host.Outcome.next _ = _
  split
  · next ms hr => exact absurd hr (h ms)
  · rfl

theorem exec_holdExpired_idle (h : ∀ ms, (s.bus b).hold ≠ .running ms) : exec (.holdExpired b) s = .next s := by
  show Host.Outcome.next _ = _
  split
  · next ms hr => exact absurd hr (h ms)
  · rfl

/-! ## The end of one that is -/

theorem exec_shelfPointOperated {ms : Nat} (h : (s.bus b).relay = .pointOperating ms) :
    exec (.shelfPointOperated b) s = .next (s.pointOperated b).settle := by
  simp only [exec, execShelfPointOperated, h]

theorem exec_lineRelayOperated {ms : Nat} (h : (s.bus b).relay = .lineOperating ms) :
    exec (.lineRelayOperated b) s = .next (s.lineOperated b).settle := by
  simp only [exec, execLineRelayOperated, h]

theorem exec_accessCheckEnd {ms : Nat} (h : (s.bus b).relay = .checking ms) (u v w : Bool) :
    exec (.accessCheckEnd b u v w) s = .next (s.accessCheckOver b (u && v && w)).settle := by
  simp only [exec, execAccessCheckEnd, h]

theorem exec_lineRelayReleased {ms : Nat} (h : (s.bus b).relay = .lineReleasing ms) :
    exec (.lineRelayReleased b) s = .next (s.freeLine b).settle := by
  simp only [exec, execLineRelayReleased, h]

theorem exec_shelfPointReleased {ms : Nat} (h : (s.bus b).relay = .pointReleasing ms) :
    exec (.shelfPointReleased b) s = .next (s.becomeIdle b).settle := by
  simp only [exec, execShelfPointReleased, h]

theorem exec_holdExpired {ms : Nat} (h : (s.bus b).hold = .running ms) :
    exec (.holdExpired b) s = .next (s.requestRelease b .holdExpired).settle := by
  simp only [exec, execHoldExpired, h]

/-! ## Notices to the holder's desk -/

/-- A notice to the desk that holds a bus, where its port has room. -/
theorem tellHolder_of_room {r : BusRecord} {n : Notice} (holder : r.holder = some (.desk d))
    (up : (s.port (deskPort d)).link = .up) (room : (s.port (deskPort d)).notices.length < 32) :
    ∃ u, s.tellHolder r n = s.setPort (deskPort d) u ∧ u.notices = (s.port (deskPort d)).notices ++
      [{ lost := (s.port (deskPort d)).lost, notice := n }] :=
  ⟨_, (tellHolder_desk holder).trans (notifyDesk_of_room up room), by rw [kick_notices]⟩

/-! ## Connects -/

/-- A desk's bus that reaches MONITOR or HELD. -/
theorem reachState_of_room {st : BusState} {audio : AudioPath} {m : Mode} (hline : (s.bus b).line = some line)
    (mode : (s.bus b).mode = some m) (holder : (s.bus b).holder = some (.desk d))
    (up : (s.port (deskPort d)).link = .up) (room : (s.port (deskPort d)).notices.length < 32) :
    ∃ u, s.reachState b st audio =
      (((s.setBus b { s.bus b with state := st, relay := .operated, audio := audio, reached := true }).setAccess line
        (accessOf (s.bus b).mode b .settled)).setPort (deskPort d) u) ∧
      u.notices = (s.port (deskPort d)).notices ++
        [{ lost := (s.port (deskPort d)).lost
           notice := .connectDone b line m (s.bus b).tag (s.bus b).seq }] := by
  obtain ⟨u, told, notices⟩ := tellHolder_of_room
    (s := (s.setBus b { s.bus b with state := st, relay := .operated, audio := audio, reached := true }).setAccess line
      (accessOf (s.bus b).mode b .settled)) (n := .connectDone b line m (s.bus b).tag (s.bus b).seq) holder up room
  have onLine : (s.bus b).line.getD 0 = line := by rw [hline]; rfl
  have inMode : (s.bus b).mode.getD .split = m := by rw [mode]; rfl
  refine ⟨u, ?_, notices⟩
  unfold State.reachState State.connectDone
  dsimp only
  rw [onLine, inMode]
  split
  · next l hl =>
    cases hl.symm.trans hline
    exact told
  · next hl => exact absurd (hl.symm.trans hline) (by simp)

theorem pointOperated_of_clear (reason : (s.bus b).reason = none) :
    s.pointOperated b = s.setBus b { s.bus b with relay := .lineOperating 8 } := by
  unfold State.pointOperated
  dsimp only
  split
  · rfl
  · next hr => exact absurd (hr.symm.trans reason) (by simp)

theorem lineOperated_of_clear (reason : (s.bus b).reason = none) : s.lineOperated b =
    if (s.bus b).mode = some .bridge then s.reachState b .monitor .listening
    else s.setBus b { s.bus b with relay := .checking 4 } := by
  unfold State.lineOperated
  dsimp only
  split
  · next hr => exact absurd (hr.symm.trans reason) (by simp)
  · split
    · next mode => rw [if_pos mode]
    · next mode => rw [if_neg (by simp [mode])]; rfl
    · next mode => rw [if_neg (by simp [mode])]; rfl

/-- An access check passed, on a desk's bus. -/
theorem accessCheckOver_passed {v : State}
    (h : s.reachState b .held .disconnected = v) (same : (v.bus b).holder = some (.desk d)) :
    s.accessCheckOver b true = v := by
  simp only [State.accessCheckOver, if_true, h, same]

/-- The report of a connect's end, or of a release, to a desk. -/
theorem reportReleasing_desk {r : BusRecord} {reason : ReleaseReason} (holder : r.holder = some (.desk d)) :
    TicketWork s (s.reportReleasing b r reason) := by
  have told (n : Notice) : TicketWork s (s.notifyDesk d n) := (TicketWork.refl s).reports (reportsOnly_notify _ n)
  simp only [State.reportReleasing, State.tellHolder, State.reportConnectEnd, holder]
  exact TicketWork.ite (TicketWork.ite (told _) (TicketWork.refl s)) (TicketWork.ite (TicketWork.refl s) (told _))

theorem enterReleasing_desk {reason : ReleaseReason} (holder : (s.bus b).holder = some (.desk d)) :
    TicketWork (s.setBus b { s.bus b with
      state := .releasing, reason := some reason, hold := (s.bus b).hold.stop, gen := ToneGen.off,
      audio := .disconnected, run := none, relay := .lineReleasing 6 }) (s.enterReleasing b reason) := by
  unfold State.enterReleasing
  dsimp only
  refine TicketWork.trans ?_ (reportReleasing_desk holder)
  split
  · exact (TicketWork.refl _).setLine
  · exact TicketWork.refl _

/-! ## Deferred lines -/

/-- An entry joins behind those due no later and ahead of those due after it (R138). -/
theorem insertDeferred_split {e : DeferredEntry} {before after : List DeferredEntry}
    (hbefore : ∀ f ∈ before, e.due.before f.due = false) (hafter : ∀ f ∈ after, e.due.before f.due = true) :
    insertDeferred e (before ++ after) = before ++ e :: after := by
  induction before with
  | nil =>
    cases after with
    | nil => rfl
    | cons f rest => simp [insertDeferred, hafter]
  | cons f rest ih =>
    have later := hbefore f (List.mem_cons_self ..)
    simp [insertDeferred, later, ih fun g hg => hbefore g (List.mem_cons_of_mem _ hg)]

/-- A line new to a deferred list with room joins it, and the grant arbiter is to arbitrate. -/
theorem deferLine_new (new : ∀ f ∈ s.rts.deferred, f.line ≠ line) (room : s.rts.deferred.length < 32) :
    s.deferLine line = State.arbitrationDue { s with rts := { s.rts with
      deferred := insertDeferred { line := line, tries := 1, due := s.retryTime, sweep := s.rts.number }
        s.rts.deferred } } := by
  have notOn : ¬ s.onDeferred line = true := by simpa [State.onDeferred] using new
  rw [State.deferLine, if_neg notOn, if_neg (by omega), State.setDeferred]
  dsimp only
  split <;> rfl

/-! ## Lines given back -/

theorem noIdleBus_setBus {r : BusRecord} (h : NoIdleBus s) (busy : r.state ≠ .idle) : NoIdleBus (s.setBus b r) := by
  simp only [NoIdleBus, State.idleBus, List.find?_eq_none, decide_eq_true_eq] at h ⊢
  intro c hc
  rw [State.setBus_bus]
  split
  · exact busy
  · exact h c hc

theorem leaveLine_of_line (hline : (s.bus b).line = some line) :
    s.leaveLine b = (s.setBus b { s.bus b with
      state := .releasing, line := none, lastLine := some line, hold := (s.bus b).hold.stop,
      relay := .pointReleasing 6 }).setAccess line .normal := by
  simp only [State.leaveLine, hline, Config.releaseMs]

/-- A line without pending SEIZE that comes back is work to offer, and no more. -/
theorem freeLine_of_noSeize (hline : (s.bus b).line = some line) (none : ∀ e ∈ s.exc.seizes, e.line ≠ line) :
    s.freeLine b = (s.leaveLine b).arbitrationDue := by
  have kept : (s.leaveLine b).exc = s.exc := by rw [leaveLine_of_line hline]; rfl
  have entry : (s.leaveLine b).arbitrationDue.seizeEntry line = Option.none :=
    seizeEntry_none (by rw [show (s.leaveLine b).arbitrationDue.exc = s.exc from kept]; exact none)
  simp only [State.freeLine, hline, State.lineFree, entry]
  rfl

/-- The replies to the tags of a pending SEIZE join P0's reply queue in their order (R69). -/
theorem grantTags_eq (tags : List Byte) : ∃ u, s.grantTags tags = s.setPort .p0 u ∧
    u.replies = (s.port .p0).replies ++ tags.map (fun t => { kind := 0x82, tag := t, outcome := .ok, data := [0] }) ∧
    u.requests = (s.port .p0).requests ∧ u.notices = (s.port .p0).notices ∧ u.link = (s.port .p0).link := by
  induction tags generalizing s with
  | nil => exact ⟨s.port .p0, (setPort_port_self s .p0).symm, (List.append_nil _).symm, rfl, rfl, rfl⟩
  | cons t rest ih =>
    obtain ⟨u, eq, replies, requests, notices, link⟩ := ih (s := s.reply .p0 (seizeReply t false))
    simp only [State.reply, State.setPort_port, if_true, PortUnit.withReply, kick_replies, kick_requests,
      kick_notices, kick_link] at replies requests notices link
    refine ⟨u, ?_, ?_, requests, notices, link⟩
    · rw [State.grantTags, eq, State.reply, setPort_setPort]
    · rw [replies, List.append_assoc]
      rfl

/-- A connect of routine work that a pending release ends at the shelf point: the line is deferred and given back, and
the shelf point relay releases (R25, R138, R143). -/
theorem pointOperated_deferred {k : RoutineKind} {e : ReleaseReason} (hline : (s.bus b).line = some line)
    (holder : (s.bus b).holder = some (.routine k)) (other : k ≠ .lockout) (reason : (s.bus b).reason = some e)
    (defers : e = .preemptedCall ∨ e = .preemptedDesk ∨ e = .noExchange)
    (free : ∀ f ∈ s.exc.seizes, f.line ≠ line) (new : ∀ f ∈ s.rts.deferred, f.line ≠ line)
    (room : s.rts.deferred.length < 32) :
    s.pointOperated b = State.arbitrationDue ((State.leaveLine · b) { s with rts := { s.rts with
      deferred := insertDeferred { line := line, tries := 1, due := s.retryTime, sweep := s.rts.number }
        s.rts.deferred } }) := by
  have deferred : s.reportConnectEnd (s.bus b) e = s.deferLine line := by
    have here : (s.bus b).line.getD 0 = line := by rw [hline]; rfl
    simp only [State.reportConnectEnd, holder, here]
    rcases defers with rfl | rfl | rfl <;> simp [causeOf, other, State.dispatchInterrupted, AbortCause.defers]
  let u : State := { s with rts := { s.rts with
    deferred := insertDeferred { line := line, tries := 1, due := s.retryTime, sweep := s.rts.number } s.rts.deferred } }
  have back : u.arbitrationDue.freeLine b = (u.arbitrationDue.leaveLine b).arbitrationDue :=
    freeLine_of_noSeize hline free
  simp only [State.pointOperated, reason, deferred, deferLine_new new room]
  exact back.trans ((congrArg State.arbitrationDue (leaveLine_of_line (s := u.arbitrationDue) hline)).trans
    (congrArg State.arbitrationDue (leaveLine_of_line (s := u) hline)).symm)

/-- Settles O30: each operation in turn, the failed check, and the routine connect cut short. -/
theorem connectRelaySequence : Obligations.ConnectRelaySequence := by
  intro s b hs r reached
  refine ⟨exec_shelfPointOperated_idle, exec_lineRelayOperated_idle, exec_accessCheckEnd_idle, fun reason => ⟨?_, ?_, ?_, ?_, ?_⟩, ?_⟩
  · intro ms relay
    rw [exec_shelfPointOperated relay]
    exact congrArg Host.Outcome.next ((congrArg State.settle (pointOperated_of_clear reason)).trans (settle_of_settled hs))
  · intro ms relay mode
    rw [exec_lineRelayOperated relay]
    have checks := (lineOperated_of_clear reason).trans (if_neg (by simp [show (s.bus b).mode = _ from mode]))
    exact congrArg Host.Outcome.next ((congrArg State.settle checks).trans (settle_of_settled hs))
  · intro ms line d relay mode hline holder up room
    obtain ⟨u, reach, notices⟩ := reachState_of_room (st := .monitor) (audio := .listening) hline mode holder up room
    have operated := (lineOperated_of_clear reason).trans (if_pos mode)
    refine ⟨_, (exec_lineRelayOperated relay).trans (congrArg Host.Outcome.next
      ((congrArg State.settle (operated.trans reach)).trans (settle_of_settled (settled_congr hs rfl rfl rfl)))), ?_⟩
    refine ⟨rfl, ?_, ?_, rfl, rfl, rfl, rfl, rfl, rfl, rfl⟩
    · rw [mode]
      rfl
    · rw [State.setPort_port, if_pos rfl]
      exact notices
  · intro ms line d relay mode hline holder up room
    obtain ⟨u, reach, notices⟩ := reachState_of_room (st := .held) (audio := .disconnected) hline mode holder up room
    have passed : s.accessCheckOver b (true && true && true) = _ :=
      accessCheckOver_passed (d := d) reach (by simpa [State.setAccess] using holder)
    refine ⟨_, (exec_accessCheckEnd relay true true true).trans (congrArg Host.Outcome.next
      ((congrArg State.settle passed).trans (settle_of_settled (settled_congr hs rfl rfl rfl)))), ?_⟩
    refine ⟨rfl, ?_, ?_, rfl, rfl, rfl, rfl, rfl, rfl, rfl⟩
    · rw [mode]
      rfl
    · rw [State.setPort_port, if_pos rfl]
      exact notices
  · intro ms u v w line d relay hline holder fails
    let t := s.takeFinding (accessFinding line (.desk d) s.now)
    have found : TicketWork s t := takeFinding_frame s _
    have failed : s.accessCheckOver b (u && v && w) = t.enterReleasing b .accessFail := by
      rw [fails]
      simp only [State.accessCheckOver, State.accessFailed, show (s.bus b).line = _ from hline,
        show (s.bus b).holder = _ from holder]
      rfl
    have released : TicketWork _ (t.enterReleasing b .accessFail) :=
      enterReleasing_desk (d := d) (found.bus b ▸ holder)
    have calm : Settled (t.enterReleasing b .accessFail) := released.settled (settled_congr (found.settled hs) rfl rfl rfl)
    refine ⟨_, (exec_accessCheckEnd relay u v w).trans (congrArg Host.Outcome.next
      ((congrArg State.settle failed).trans (settle_of_settled calm))), ?_⟩
    simp only [released.bus, State.setBus_bus, if_true, found.bus]
    exact ⟨trivial, trivial, trivial, hline, fun c hc => if_neg hc⟩
  · intro ms line k e before after relay hline holder other reason busy connecting free new room split due hbefore hafter
    have deferred := pointOperated_deferred hline holder other reason.1 reason.2 free new room
    let u : State := { s with rts := { s.rts with
      deferred := before ++ { line := line, tries := 1, due := due, sweep := s.rts.number } :: after } }
    rw [split, insertDeferred_split hbefore hafter] at deferred
    have left : u.leaveLine b = _ := leaveLine_of_line hline
    refine (exec_shelfPointOperated relay).trans (congrArg Host.Outcome.next
      ((congrArg State.settle deferred).trans ?_))
    refine (settle_due_of_noIdleBus (s := u.leaveLine b) ?_ ?_).trans ?_
    · rw [left]
      exact settled_congr hs rfl rfl rfl
    · rw [left]
      exact noIdleBus_setBus (s := u) busy BusState.noConfusion
    · rw [left, hold_stop_eq]
      rfl

end Sys2Proof
end

