-- ==== Sys2Proof/Proofs/ReleasesAndTimers.lean ====
section
/-! PROOFS. The relay operations of a release with the SEIZE it held back, and the hold and tone timers of a bus (R28,
R29, R32, R35, R37, R69, R70, R130). -/

namespace Sys2Proof

open Machine

variable {s : State} {b : Bus} {d : Desk} {line : Nat}

/-! ## The line relay released -/

/-- The pending SEIZE leaves the table, its held report is written, and its tags are answered (R69, R70). -/
def takeSeize (s : State) (line : Nat) (e : SeizeEntry) : State :=
  let u : State := { s with exc := { s.exc with seizes := s.exc.seizes.filter fun f => f.line ≠ line } }
  match e.report with
  | some c => u.setCall line c
  | none => u

theorem answerSeizes_of {e : SeizeEntry} (entry : s.seizeEntry line = some e) :
    s.answerSeizes line = (takeSeize s line e).grantTags e.tags := by
  simp only [State.answerSeizes, entry]
  rfl

theorem takeSeize_eq (s : State) (line : Nat) (e : SeizeEntry) : ∃ lrt, takeSeize s line e =
    { s with exc := { s.exc with seizes := s.exc.seizes.filter fun f => f.line ≠ line }, lrt := lrt } ∧
    lrt.classes = s.lrt.classes := by
  unfold takeSeize
  cases e.report <;> exact ⟨_, rfl, rfl⟩

theorem takeSeize_line (w : Canonical s) (e : SeizeEntry) (n : Nat) : (takeSeize s line e).line n =
    if n = line then { s.line line with call := e.report.getD (s.line line).call } else s.line n := by
  unfold takeSeize
  cases e.report with
  | some c => exact line_setLine w ..
  | none =>
    by_cases h : n = line
    · rw [if_pos h, h]
      rfl
    · rw [if_neg h]
      rfl

theorem takeSeize_arbitrationDue (s : State) (line : Nat) (e : SeizeEntry) :
    takeSeize s.arbitrationDue line e = (takeSeize s line e).arbitrationDue := by
  unfold takeSeize
  cases e.report <;> rfl

theorem grantTags_arbitrationDue (s : State) (tags : List Byte) :
    s.arbitrationDue.grantTags tags = (s.grantTags tags).arbitrationDue := by
  induction tags generalizing s with
  | nil => rfl
  | cons t rest ih => exact ih (s.reply .p0 (seizeReply t false))

/-- A line with a pending SEIZE comes back while every bus is in use: whichever is first by the free choice of order
(log 8), the answer and the arbitration end alike. -/
theorem settle_lineFree_of_seize {e : SeizeEntry} (hs : Settled s) (busy : NoIdleBus s)
    (entry : s.seizeEntry line = some e) : (s.lineFree line).settle =
      (takeSeize { s with free := s.free + 1 } line e).grantTags e.tags := by
  let t : State := { s with free := s.free + 1 }
  let x : State := (takeSeize t line e).grantTags e.tags
  obtain ⟨lrt, taken, -⟩ := takeSeize_eq t line e
  obtain ⟨u, tags, -⟩ := grantTags_eq (s := takeSeize t line e) e.tags
  have form : x = { t with exc := { t.exc with seizes := t.exc.seizes.filter fun f => f.line ≠ line }, lrt := lrt }.setPort
      .p0 u := tags.trans (congrArg (State.setPort · .p0 u) taken)
  have calm : Settled x := by
    rw [form]
    exact settled_congr hs rfl rfl rfl
  have busyThen : NoIdleBus x := by
    rw [form]
    exact busy
  have pending : ¬ (s.arbitrationDue.seizeEntry line).isNone = true := by
    rw [show s.arbitrationDue.seizeEntry line = some e from entry]
    simp
  have answered : t.answerSeizes line = x := answerSeizes_of (s := t) entry
  have answeredDue : t.arbitrationDue.answerSeizes line = x.arbitrationDue := by
    rw [answerSeizes_of (s := t.arbitrationDue) entry, takeSeize_arbitrationDue, grantTags_arbitrationDue]
  have first : t.arbitrationDue.settle = t := settle_due_of_noIdleBus hs busy
  unfold State.lineFree
  dsimp only
  rw [if_neg pending]
  split
  · exact (congrArg State.settle answeredDue).trans (settle_due_of_noIdleBus calm busyThen)
  · exact (congrArg (fun v : State => (v.answerSeizes line).settle) first).trans
      ((congrArg State.settle answered).trans (settle_of_settled calm))

theorem freeLine_of_line (hline : (s.bus b).line = some line) : s.freeLine b = (s.leaveLine b).lineFree line := by
  simp only [State.freeLine, hline]

/-! ## The shelf point released -/

/-- At the end of a release the point is free and the bus record fresh (R35). -/
def idleAgain (s : State) (b : Bus) (line k : Nat) : State := (s.setPoint (line / 64) k none).setBus b BusRecord.fresh

theorem becomeIdle_routine {k : Nat} {n : RoutineKind} (last : (s.bus b).lastLine = some line)
    (point : (s.bus b).point = some k) (holder : (s.bus b).holder = some (.routine n)) :
    s.becomeIdle b = ((idleAgain s b line k).routineLeft b).arbitrationDue := by
  have untold (notice : Notice) (u : State) : u.tellHolder (s.bus b) notice = u := by
    simp only [State.tellHolder, holder]
  simp only [State.becomeIdle, last, point, untold, ite_self, isRoutine_routine holder, if_true]
  split <;> rfl

/-- On a desk's bus the desk may be told. -/
theorem becomeIdle_desk {k : Nat} (last : (s.bus b).lastLine = some line) (point : (s.bus b).point = some k)
    (holder : (s.bus b).holder = some (.desk d)) :
    ∃ ports cnt, s.becomeIdle b = State.arbitrationDue { idleAgain s b line k with ports := ports, cnt := cnt } := by
  have told (notice : Notice) : ∃ ports cnt, (idleAgain s b line k).tellHolder (s.bus b) notice =
      { idleAgain s b line k with ports := ports, cnt := cnt } :=
    ⟨_, _, (tellHolder_desk holder).trans ((reportsOnly_notify _ notice).frame _)⟩
  simp only [State.becomeIdle, last, point, isRoutine_desk holder, Bool.false_eq_true, if_false]
  split
  · next reason _ =>
    split
    · obtain ⟨ports, cnt, eq⟩ := told (.busState b .idle (some line) (.release reason))
      exact ⟨ports, cnt, congrArg State.arbitrationDue eq⟩
    · exact ⟨_, _, rfl⟩
  · exact ⟨_, _, rfl⟩

/-- A bus that has become IDLE while nothing else claims one: the arbitration only clears the service-ratio counter. -/
theorem settle_idleAgain {u : State} (hs : Settled u) (claims : NoClaimant u) (op : u.op = .operational)
    (fresh : u.bus b = BusRecord.fresh) : u.arbitrationDue.settle = { u with gar := { u.gar with ratio := 0 } } := by
  obtain ⟨c, idle⟩ : ∃ c, u.idleBus = some c := by
    rw [← Option.isSome_iff_exists]
    simp only [State.idleBus, List.find?_isSome, decide_eq_true_eq]
    exact ⟨b, mem_allBuses b, by rw [fresh]; rfl⟩
  rw [settle_of_noClaimant (s := u.arbitrationDue) hs.2 claims rfl op c idle]
  show { u with gar := { u.gar with ratio := 0, arbDue := false } } = _
  rw [← hs.1]

/-- Settles O31: the line given back without and with a pending SEIZE, then the point, for a desk and for routine
work. -/
theorem releaseRelaySequence : Obligations.ReleaseRelaySequence := by
  intro s b hs r left
  have leaves (line : Nat) (hline : r.line = some line) (state : r.state = .releasing) :
      s.leaveLine b = (s.setBus b (left line)).setAccess line .normal := by
    rw [leaveLine_of_line hline, hold_stop_eq, ← state] <;> rfl
  have calm (line : Nat) : Settled ((s.setBus b (left line)).setAccess line .normal) := settled_congr hs rfl rfl rfl
  have busyThen (line : Nat) (busy : NoIdleBus s) (state : r.state = .releasing) :
      NoIdleBus ((s.setBus b (left line)).setAccess line .normal) :=
    noIdleBus_setBus busy (by rw [show (left line).state = .releasing from state]; exact BusState.noConfusion)
  refine ⟨exec_lineRelayReleased_idle, exec_shelfPointReleased_idle, ?_, ?_, ?_, ?_⟩
  · intro ms line relay hline busy state free
    rw [exec_lineRelayReleased relay, freeLine_of_noSeize hline free, leaves line hline state,
      settle_due_of_noIdleBus (calm line) (busyThen line busy state)]
    rfl
  · intro ms line e canonical relay hline busy state entry
    let v : State := (s.setBus b (left line)).setAccess line .normal
    let w : State := { v with free := v.free + 1 }
    obtain ⟨lrt, taken, classes⟩ := takeSeize_eq w line e
    obtain ⟨u, tags, replies, requests, notices, link⟩ := grantTags_eq (s := takeSeize w line e) e.tags
    have form : (takeSeize w line e).grantTags e.tags =
        { w with exc := { w.exc with seizes := w.exc.seizes.filter fun f => f.line ≠ line }, lrt := lrt }.setPort .p0 u :=
      tags.trans (congrArg (State.setPort · .p0 u) taken)
    have port (p : Port) : (takeSeize w line e).port p = s.port p := by
      rw [taken]
      rfl
    have given : (s.freeLine b).settle = (takeSeize w line e).grantTags e.tags := by
      rw [freeLine_of_line hline, leaves line hline state]
      exact settle_lineFree_of_seize (calm line) (busyThen line busy state) entry
    refine ⟨_, (exec_lineRelayReleased relay).trans (congrArg Host.Outcome.next (given.trans form)), rfl, rfl, fun n => ?_,
      ?_⟩
    · have written : Canonical ((s.setBus b (left line)).setAccess line .normal) :=
        canonical_setLine (s := s.setBus b (left line)) ⟨canonical.lines, canonical.classes, canonical.points,
          canonical.programs, canonical.counts, canonical.bins⟩ ..
      have canonicalThen : Canonical w := ⟨written.lines, written.classes, written.points, written.programs,
        written.counts, written.bins⟩
      have before (n : Nat) : w.line n = if n = line then { s.line line with access := .normal } else s.line n :=
        line_setLine canonical line _ n
      have after : (takeSeize w line e).lrt = lrt := congrArg State.lrt taken
      refine (line_congr (t := takeSeize w line e) after.symm).trans ((takeSeize_line canonicalThen e n).trans ?_)
      rw [before, before, if_pos rfl]
      by_cases h : n = line
      · rw [if_pos h, if_pos h]
      · rw [if_neg h, if_neg h, if_neg h]
    · simp only [State.setPort_port, if_true, replies, requests, notices, link, port]
      exact ⟨trivial, trivial, trivial, trivial, fun p hp => if_neg hp, classes, rfl, rfl, rfl, rfl, rfl, rfl, rfl⟩
  · intro ms line k d relay last point holder claims op
    obtain ⟨ports, cnt, eq⟩ := becomeIdle_desk last point holder
    have fresh : State.bus { idleAgain s b line k with ports := ports, cnt := cnt } b = BusRecord.fresh :=
      (State.setBus_bus ..).trans (if_pos rfl)
    refine ⟨_, (exec_shelfPointReleased relay).trans (congrArg Host.Outcome.next ((congrArg State.settle eq).trans
      (settle_idleAgain (settled_congr hs rfl rfl rfl) claims op fresh))), rfl, rfl, rfl, rfl, rfl, rfl, rfl, rfl⟩
  · intro ms line k n relay last point holder claims op
    have fresh : ((idleAgain s b line k).routineLeft b).bus b = BusRecord.fresh := (State.setBus_bus ..).trans (if_pos rfl)
    exact (exec_shelfPointReleased relay).trans (congrArg Host.Outcome.next
      ((congrArg State.settle (becomeIdle_routine last point holder)).trans
        (settle_idleAgain (settled_congr hs rfl rfl rfl) claims op fresh)))

/-! ## Timers -/

/-- Only a bus in TONE has tone events (R28, R29). -/
theorem toneEvents_of_ne (h : (s.bus b).state ≠ .tone) : s.toneLimitExpired b = s ∧ s.dividerExpired b = s ∧
    s.burstEnded b = s ∧ s.silenceEnded b = s := by
  refine ⟨?_, ?_, ?_, ?_⟩
  · unfold State.toneLimitExpired
    dsimp only
    split
    · next state _ => exact absurd state h
    · rfl
  · unfold State.dividerExpired
    dsimp only
    split
    · next state _ => exact absurd state h
    · rfl
  · unfold State.burstEnded
    dsimp only
    split
    · next state _ => exact absurd state h
    · rfl
  · unfold State.silenceEnded
    dsimp only
    split
    · next state _ => exact absurd state h
    · rfl

theorem toneLimitExpired_of {ms : Nat} (state : (s.bus b).state = .tone) (limit : (s.bus b).gen.limitMs = some ms) :
    s.toneLimitExpired b = (s.setBus b { s.bus b with state := .held, gen := ToneGen.off }).tellHolder (s.bus b)
      (.busState b .held (s.bus b).line .toneLimit) := by
  unfold State.toneLimitExpired
  dsimp only
  split
  · rfl
  · next no => exact (no ms state limit).elim

theorem dividerExpired_of {n : Nat} (state : (s.bus b).state = .tone) (divider : (s.bus b).gen.divider = some n) :
    s.dividerExpired b = s.setBus b { s.bus b with gen := { (s.bus b).gen with
      output := (s.bus b).gen.output.toggle, divider := some (s.bus b).tone.divider } } := by
  unfold State.dividerExpired
  dsimp only
  split
  · rfl
  · next no => exact (no n state divider).elim

theorem burstEnded_of {ms : Nat} (state : (s.bus b).state = .tone) (cadence : (s.bus b).gen.cadence = .burst ms) :
    s.burstEnded b = s.setBus b { s.bus b with gen := { (s.bus b).gen with
      output := .rest, divider := none, cadence := .silence ((s.bus b).tone.off * 100) } } := by
  unfold State.burstEnded
  dsimp only
  split
  · rfl
  · next no => exact (no ms state cadence).elim

theorem silenceEnded_of {ms : Nat} (state : (s.bus b).state = .tone) (cadence : (s.bus b).gen.cadence = .silence ms) :
    s.silenceEnded b = s.setBus b { s.bus b with gen := ToneGen.burst (s.bus b).tone (s.bus b).gen.limitMs } := by
  unfold State.silenceEnded
  dsimp only
  split
  · rfl
  · next no => exact (no ms state cadence).elim

/-- A release that tells the desk, where its port has room. -/
theorem enterReleasing_of_room {reason : ReleaseReason} (hline : (s.bus b).line = some line)
    (reached : (s.bus b).reached = true) (tells : reason.tellsReleasing = true)
    (holder : (s.bus b).holder = some (.desk d)) (up : (s.port (deskPort d)).link = .up)
    (room : (s.port (deskPort d)).notices.length < 32) :
    ∃ u, s.enterReleasing b reason = ((s.setBus b { s.bus b with
        state := .releasing, reason := some reason, hold := (s.bus b).hold.stop, gen := ToneGen.off,
        audio := .disconnected, run := none, relay := .lineReleasing 6 }).setAccess line
          (accessOf (s.bus b).mode b .releasing)).setPort (deskPort d) u ∧
      u.notices = (s.port (deskPort d)).notices ++ [{ lost := (s.port (deskPort d)).lost,
                                                      notice := .busState b .releasing (some line) (.release reason) }] := by
  rw [enterReleasing_told rfl hline rfl reached tells]
  exact tellHolder_of_room (s := (s.setBus b _).setAccess line _) holder up room

/-- Settles O32, timer by timer. -/
theorem holdAndToneTimers : Obligations.HoldAndToneTimers := by
  intro s b hs r told
  refine ⟨exec_holdExpired_idle, ?_, fun state => ?_, fun state => ⟨?_, ?_, ?_, ?_, ?_⟩⟩
  · intro ms line d running hline holder reason reached state up room
    obtain ⟨u, release, notices⟩ :=
      enterReleasing_of_room (reason := .holdExpired) hline reached rfl holder up room
    have stopped : (s.bus b).hold.stop = .stopped := by
      rw [show (s.bus b).hold = _ from running]
      rfl
    refine ⟨_, (exec_holdExpired running).trans (congrArg Host.Outcome.next ((congrArg State.settle
      ((requestRelease_connected .holdExpired state reason).trans release)).trans
        (settle_of_settled (settled_congr hs rfl rfl rfl)))), ?_, ?_⟩
    · rw [stopped]
      rfl
    · show PortUnit.notices _ = _
      rw [State.setPort_port, if_pos rfl]
      exact notices
  · obtain ⟨limit, divider, burst, silence⟩ := toneEvents_of_ne state
    exact ⟨congrArg Host.Outcome.next limit, congrArg Host.Outcome.next divider, congrArg Host.Outcome.next burst,
      congrArg Host.Outcome.next silence⟩
  · intro ms d limit holder up room
    obtain ⟨u, tell, notices⟩ := tellHolder_of_room
      (s := s.setBus b { r with state := .held, gen := ToneGen.off }) (n := .busState b .held r.line .toneLimit)
      holder up room
    refine ⟨_, congrArg Host.Outcome.next ((toneLimitExpired_of state limit).trans tell), rfl, ?_⟩
    show PortUnit.notices _ = _
    rw [State.setPort_port, if_pos rfl]
    exact notices
  · intro n divider high
    refine congrArg Host.Outcome.next ((dividerExpired_of state divider).trans ?_)
    rw [show (s.bus b).gen.output = _ from high]
    rfl
  · intro n divider low
    refine congrArg Host.Outcome.next ((dividerExpired_of state divider).trans ?_)
    rw [show (s.bus b).gen.output = _ from low]
    rfl
  · intro ms cadence
    exact congrArg Host.Outcome.next (burstEnded_of state cadence)
  · intro ms cadence on
    refine congrArg Host.Outcome.next ((silenceEnded_of state cadence).trans ?_)
    have burst : ToneGen.burst r.tone r.gen.limitMs =
        { output := .high, divider := some r.tone.divider, cadence := .burst (r.tone.on * 100),
          limitMs := r.gen.limitMs } := by
      rw [ToneGen.burst, if_neg on]
    exact congrArg (fun g => s.setBus b { r with gen := g }) burst

end Sys2Proof
end

