-- ==== Sys2Proof/Proofs/RunRequests.lean ====
section
/-! PROOFS. RUN and CANCEL_RUN, and the first step of a run (R55, R83, R96, R100, R113, R124). -/

namespace Sys2Proof

open Machine

variable {s : State} {d : Desk} {q : Request} {b : Bus} {c : Channel} {line : Nat}

/-! ## Buses and contexts written twice -/

theorem setBus_setBus (s : State) (b : Bus) (r v : BusRecord) : (s.setBus b r).setBus b v = s.setBus b v := by
  cases b <;> rfl

/-! ## A run's first step -/

/-- A voltage reading begins: the gain is selected and the context names the stage. -/
theorem beginReading_of {x : RunContext} (ctx : s.ctx b = some x) (stage : Stage) (g : Gain) (n : Nat) :
    s.beginReading b c stage g n = (s.setCtx b (some { x with
        phase := .reading, gain := g
        work := { x.work with stage := stage, reading := some { n := n, gain := g, changes := 0, raw := [] } } })).setChan
      c { s.chan c with gain := g } := by
  simp only [State.beginReading, State.mapCtx, State.selectGain, State.setChan_ctx, ctx, Option.map_some,
    setCtx_setChan]

/-- The FV reading of a pair begins at gain 1, on a channel whose bias is off and that does not discharge (R100). -/
theorem beginFvPair_of {x : RunContext} (ctx : s.ctx b = some x) (bias : (s.chan c).bias = .off)
    (activity : (s.chan c).activity ≠ .discharging) (p : Pair) (n : Nat) :
    s.beginFvPair b c p n = (s.setCtx b (some { x with
        phase := .reading, gain := .g1
        work := { x.work with stage := .fv p, reading := some { n := n, gain := .g1, changes := 0, raw := [] } } })).setChan
      c { s.chan c with pair := some p, gain := .g1 } := by
  have free : ¬ ((s.chan c).bias ≠ .off ∨ (s.chan c).activity = .discharging) := by simp [bias, activity]
  have selected : s.selectPair c (some p) = s.setChan c { s.chan c with pair := some p } := if_neg free
  rw [State.beginFvPair, selected, beginReading_of (x := x) (by rw [State.setChan_ctx]; exact ctx), State.setChan_chan,
    if_pos rfl, ← setCtx_setChan, setChan_setChan]

/-- A program's FV step begins: the pair TG is selected and its reading starts at gain 1 (R96, R100, R126). -/
theorem beginSteps_fv {x : RunContext} (ctx : s.ctx b = some x) (bias : (s.chan c).bias = .off)
    (activity : (s.chan c).activity ≠ .discharging) (m i : Nat) (rest : List ProgramStep) :
    State.beginSteps b c (.fv m :: rest) i s = (s.setCtx b (some { x with
        stepIx := i, final := false, phase := .reading, gain := .g1
        cur := some (blankResult (.fv m) .ok { channel := some c, first := (s.chan c).written, length := 0 })
        work := { StepWork.idle with
          stage := .fv .tg, reading := some { n := m, gain := .g1, changes := 0, raw := [] } } })).setChan
      c { s.chan c with pair := some .tg, gain := .g1 } := by
  let y : RunContext := { x with
    stepIx := i, final := false, work := StepWork.idle
    cur := some (blankResult (.fv m) .ok { channel := some c, first := (s.chan c).written, length := 0 }) }
  have begins : State.beginSteps b c (.fv m :: rest) i s = (s.setCtx b (some y)).beginFvPair b c .tg m := by
    simp [State.beginSteps, ctx, isBiasStep, State.startStep, y]
  have here : (s.setCtx b (some y)).ctx b = some y := by simp
  rw [begins, beginFvPair_of here bias activity, setCtx_setCtx]
  rfl

/-! ## A channel given to a run (R55, R56, R83) -/

/-- Where the calibration is old the run waits for a calibration first. -/
theorem giveChannel_old {x : RunContext} (ctx : s.ctx b = some x) (old : (s.chan c).stale = true) :
    s.giveChannel c b = (s.setCtx b (some { x with channel := some c, phase := .calibrate, gain := .g1, range := .rc })).setChan
      c { (s.chan c).atRest with
        state := .busy, run := some x.handle, bus := some b, activity := .calInRun, cal := some ⟨[], []⟩ } := by
  have given : (s.chan c).give x.handle b = { (s.chan c).atRest with
      state := .busy, run := some x.handle, bus := some b, activity := .calInRun, cal := some ⟨[], []⟩ } := if_pos old
  simp only [State.giveChannel, ctx, given, if_true, setCtx_setChan]

/-- Where it is not, the program's first step begins. -/
theorem giveChannel_fresh {x : RunContext} (ctx : s.ctx b = some x) (fresh : ¬ (s.chan c).stale = true) :
    s.giveChannel c b = State.beginSteps b c (s.program x.program) 0
      ((s.setCtx b (some { x with channel := some c, phase := .calibrate, gain := .g1, range := .rc })).setChan
        c { (s.chan c).atRest with state := .busy, run := some x.handle, bus := some b }) := by
  have given : (s.chan c).give x.handle b = { (s.chan c).atRest with
      state := .busy, run := some x.handle, bus := some b } := if_neg fresh
  have notCal : ¬ ({ (s.chan c).atRest with
      state := .busy, run := some x.handle, bus := some b } : ChannelRecord).activity = .calInRun := Activity.noConfusion
  simp only [State.giveChannel, ctx, given]
  rw [if_neg notCal]
  rfl

theorem stale_iff {r : ChannelRecord} : r.stale = true ↔ ∀ a, r.calAge = some a → 900000 < a := by
  unfold ChannelRecord.stale
  cases r.calAge with
  | none => simp
  | some a => exact decide_eq_true_iff.trans (by simp [Config.staleMs])

/-- The only run that waits is given the READY channel, and then nothing waits. -/
theorem settle_of_oneWaiting {w : WaitEntry} {t : State} (waiting : s.gar.waiting = [w])
    (ready : s.readyChannel = some c) (given : (s.takeHead c w).giveChannel c w.bus = t) (left : t.gar.waiting = [])
    (dueThen : t.gar.arbDue = false) : s.settle = t := by
  have served : State.serveWaiting (2 * s.gar.waiting.length + 2) s = t := by
    rw [waiting, List.length_singleton, State.serveWaiting, ready, waiting]
    exact (congrArg (State.serveWaiting _) given).trans (serveWaiting_of_none _ (.inl left))
  rw [State.settle, served, arbitrate_of_not_due _ dueThen]

/-! ## RUN -/

/-- The context a RUN of a desk's bus makes (R113, log 44). -/
def runContext (s : State) (d : Desk) (b : Bus) (line n : Nat) (ticketing : Bool) (h : Nat) : RunContext :=
  { handle := h, origin := .desk d, line := line, bus := b, cls := (s.line line).cls, program := n,
    ticketing := ticketing, channel := none, stepIx := 0, phase := .waitChannel, final := false, gain := .g1,
    range := .rc, start := s.now, done := [], cur := none, pending := [], abort := none, work := StepWork.idle }

/-- The state once a desk's run is bound to its bus and has joined the wait list. -/
def runBound (s : State) (d : Desk) (b : Bus) (x : RunContext) (hold : HoldTimer) : State :=
  { (s.setBus b { s.bus b with state := .measuring, run := some x.handle, hold := hold }).setCtx b (some x) with
    rsq := { (s.setCtx b (some x)).rsq with nextHandle := (x.handle + 1) % 65536 }
    gar := { s.gar with
      waiting := insertWaiting { handle := x.handle, bus := b, priority := s.gar.prio.ofDesk d } s.gar.waiting } }

theorem renewHold_setBus (s : State) (b : Bus) (r : BusRecord) :
    (s.setBus b r).renewHold b = s.setBus b { r with hold := r.hold.renew (s.acc.holdTime * 1000) } := by
  rw [State.renewHold, State.setBus_bus, if_pos rfl, setBus_setBus]
  rfl

theorem startRun_eq {n h : Nat} {ticketing : Bool} (hline : (s.bus b).line = some line)
    (free : firstFree s.handleUsed 40 s.rsq.nextHandle = h) :
    (s.startRun b (.desk d) n ticketing).1.renewHold b = runBound s d b (runContext s d b line n ticketing h)
      ((s.bus b).hold.renew (s.acc.holdTime * 1000)) ∧
    (s.startRun b (.desk d) n ticketing).2 = h := by
  have here : (s.bus b).line.getD 0 = line := by rw [hline]; rfl
  refine ⟨?_, free⟩
  let x := runContext s d b line n ticketing h
  let u : State := (((s.mapRsq fun k => { k with nextHandle := (h + 1) % 65536 }).setCtx b (some x)).joinWaiting b x)
  have bound : (s.startRun b (.desk d) n ticketing).1 =
      u.setBus b { s.bus b with state := .measuring, run := some h } := by
    simp only [State.startRun, here, free]
    rfl
  rw [bound, renewHold_setBus]
  rfl

/-- RUN on a held bus, up to the three refusals of its own. -/
theorem runRequest_refused (hb : busOf (field q.payload 0 1) = some b) (hn : field q.payload 1 1 ≤ 7)
    (ht : field q.payload 2 1 ≤ 1) (holder : (s.bus b).holder = some (.desk d)) (state : (s.bus b).state ≠ .releasing)
    (reason : (s.bus b).reason = none) :
    ((s.bus b).state ≠ .held → runRequest (deskPort d) q (s.popRequest (deskPort d)) =
      answered s (deskPort d) q (.refused .wrongState) []) ∧
    ((s.bus b).state = .held → s.program (field q.payload 1 1) = [] →
      runRequest (deskPort d) q (s.popRequest (deskPort d)) = answered s (deskPort d) q (.refused .emptyProgram) []) ∧
    ((s.bus b).state = .held → s.program (field q.payload 1 1) ≠ [] → s.served = 0 →
      runRequest (deskPort d) q (s.popRequest (deskPort d)) = answered s (deskPort d) q (.refused .noChannel) []) := by
  have valid : (field q.payload 1 1 ≤ 7 && (flagOf (field q.payload 2 1)).isSome) = true := by
    rw [decide_eq_true hn, flagOf_le ht]
    rfl
  unfold runRequest
  rw [held_ok hb valid holder state reason]
  refine ⟨fun other => ?_, fun held empty => ?_, fun held steps none => ?_⟩
  · exact (if_pos other).trans (refuse_popRequest ..)
  · have isEmpty : ((s.popRequest (deskPort d)).program (field q.payload 1 1)).isEmpty = true := by
      rw [show (s.popRequest (deskPort d)).program (field q.payload 1 1) = [] from empty]
      rfl
    exact (if_neg (not_not.2 held)).trans ((if_pos isEmpty).trans (refuse_popRequest ..))
  · have isEmpty : ¬ ((s.popRequest (deskPort d)).program (field q.payload 1 1)).isEmpty = true := by
      rwa [show (s.popRequest (deskPort d)).program (field q.payload 1 1) = s.program (field q.payload 1 1) from rfl,
        List.isEmpty_iff]
    exact (if_neg (not_not.2 held)).trans ((if_neg isEmpty).trans ((if_pos none).trans (refuse_popRequest ..)))

/-- An accepted RUN. -/
theorem runRequest_accepted {h : Nat} (hb : busOf (field q.payload 0 1) = some b) (hn : field q.payload 1 1 ≤ 7)
    (ht : field q.payload 2 1 ≤ 1) (hline : (s.bus b).line = some line) (holder : (s.bus b).holder = some (.desk d))
    (held : (s.bus b).state = .held) (reason : (s.bus b).reason = none)
    (steps : s.program (field q.payload 1 1) ≠ []) (serves : s.served ≠ 0)
    (free : firstFree s.handleUsed 40 s.rsq.nextHandle = h) :
    runRequest (deskPort d) q (s.popRequest (deskPort d)) = answered
      (runBound s d b (runContext s d b line (field q.payload 1 1) (field q.payload 2 1 = 1) h)
        ((s.bus b).hold.renew (s.acc.holdTime * 1000))) (deskPort d) q .accepted (u16 h) := by
  have valid : (field q.payload 1 1 ≤ 7 && (flagOf (field q.payload 2 1)).isSome) = true := by
    rw [decide_eq_true hn, flagOf_le ht]
    rfl
  have isEmpty : ¬ ((s.popRequest (deskPort d)).program (field q.payload 1 1)).isEmpty = true := by
    rwa [show (s.popRequest (deskPort d)).program (field q.payload 1 1) = s.program (field q.payload 1 1) from rfl,
      List.isEmpty_iff]
  have state : (s.bus b).state ≠ .releasing := by rw [held]; exact BusState.noConfusion
  obtain ⟨bound, handle⟩ := startRun_eq (s := s.popRequest (deskPort d)) (d := d) (n := field q.payload 1 1)
    (ticketing := field q.payload 2 1 = 1) hline free
  unfold runRequest
  rw [held_ok hb valid holder state reason, if_neg (not_not.2 held), if_neg isEmpty, if_neg (by exact serves)]
  simp only [flagOf_le ht, senderDesk_deskPort, Option.getD_some, bound, handle]
  exact answer_popRequest (runBound s d b _ _) ..

/-- A further write of the run's context. -/
theorem setCtx_runBound {x y : RunContext} {hold : HoldTimer} (same : y.handle = x.handle) :
    (runBound s d b x hold).setCtx b (some y) = runBound s d b y hold := by
  have twice : ((s.setCtx b (some x)).setCtx b (some y)).rsq = (s.setCtx b (some y)).rsq :=
    congrArg State.rsq (setCtx_setCtx ..)
  unfold runBound
  rw [same, ← twice]
  rfl

/-- The run just bound, the only one that waits, leaves the wait list as it is given a channel. -/
theorem takeHead_runBound {x : RunContext} {hold : HoldTimer} {p : Port} {o : ReplyOutcome} {data : List Byte}
    {w : WaitEntry} (waiting : s.gar.waiting = [])
    (hw : w = { handle := x.handle, bus := b, priority := s.gar.prio.ofDesk d }) :
    (answered (runBound s d b x hold) p q o data).takeHead c w = answered { runBound s d b x hold with
      gar := { s.gar with moment := s.gar.moment.given c w (s.chan c).written } } p q o data := by
  have left : (insertWaiting w s.gar.waiting).filter (fun v => v.handle ≠ w.handle) = s.gar.waiting := by
    simp [waiting, insertWaiting]
  subst hw
  exact congrArg (fun l => answered { runBound s d b x hold with
    gar := { s.gar with waiting := l, moment := s.gar.moment.given c _ (s.chan c).written } } p q o data) left

/-- Settles O33: the refusals, the wait list, and the READY channel given at once with or without a calibration. -/
theorem runBindsBus : Obligations.RunBindsBus := by
  intro s d q b line asks hs hb n r hn ht holder hline state reason inService h hold x joining
  obtain ⟨wrongState, emptyProgram, noChannel⟩ := runRequest_refused hb hn ht holder state reason
  have served_iff : (s.served ≠ 0) ↔ ∃ c, inService c := by
    rw [ne_eq, served_ne]
    simp only [inService_iff, not_forall, not_not, inService]
  have bound (held : r.state = .held) (steps : s.program n ≠ []) (serves : ∃ c, inService c) :
      runRequest (deskPort d) q (s.popRequest (deskPort d)) =
        answered (runBound s d b x hold) (deskPort d) q .accepted (u16 h) := by
    rw [← show r.hold.renew (s.acc.holdTime * 1000) = hold from hold_renew_eq _ _]
    exact runRequest_accepted hb hn ht hline holder held reason steps (served_iff.2 serves) rfl
  refine ⟨fun other => next_of_asks asks (wrongState other) hs, fun held empty => next_of_asks asks (emptyProgram held empty) hs,
    fun held steps none => next_of_asks asks (noChannel held steps (not_not.1 (mt served_iff.1 (by simpa using none)))) hs,
    fun held steps serves ready => next_of_asks asks (bound held steps serves) ⟨hs.1, .inr ready⟩, ?_⟩
  intro c held steps serves ready given bound' old
  have waiting : s.gar.waiting = [] := hs.2.resolve_right (by rw [ready]; exact Option.some_ne_none c)
  let t : State := answered (runBound s d b x hold) (deskPort d) q .accepted (u16 h)
  let v : State := answered { runBound s d b x hold with
    gar := { s.gar with moment := s.gar.moment.given c joining (s.chan c).written } } (deskPort d) q .accepted (u16 h)
  have taken : t.takeHead c joining = v := takeHead_runBound waiting rfl
  have ctx : v.ctx b = some x := (State.setCtx_ctx ..).trans (if_pos rfl)
  have gives {u : State} (hu : v.giveChannel c b = u) (left : u.gar.waiting = s.gar.waiting)
      (due : u.gar.arbDue = s.gar.arbDue) : exec (.run (deskPort d)) s = .next u := by
    refine next_of_served asks ((congrArg State.settle (bound held steps serves)).trans ?_)
    refine settle_of_oneWaiting (s := t) (w := joining) ?_ ready (taken.symm ▸ hu) (left.trans waiting) (due.trans hs.1)
    show insertWaiting joining s.gar.waiting = _
    rw [waiting]
    rfl
  have rebound (y : RunContext) (u : ChannelRecord) (same : y.handle = h) :
      (v.setCtx b (some y)).setChan c u = answered (bound' y u) (deskPort d) q .accepted (u16 h) := by
    have written := setCtx_runBound (s := s) (d := d) (b := b) (x := x) (y := y) (hold := hold) same
    refine (congrArg (fun z : State => answered (State.setChan { z with
      gar := { s.gar with moment := s.gar.moment.given c joining (s.chan c).written } } c u) (deskPort d) q .accepted
        (u16 h)) written).trans ?_
    simp only [runBound, same]
    rfl
  refine ⟨fun isOld => gives ((giveChannel_old ctx (stale_iff.2 isOld)).trans (rebound _ _ rfl)) rfl rfl,
    fun m rest fresh program => gives ((giveChannel_fresh ctx (mt stale_iff.1 fresh)).trans ?_) rfl rfl⟩
  let y : RunContext := { x with channel := some c, phase := .calibrate, gain := .g1, range := .rc }
  let w : State := (v.setCtx b (some y)).setChan c given
  have chan : w.chan c = given := (State.setChan_chan ..).trans (if_pos rfl)
  have ctxThen : w.ctx b = some y := (State.setCtx_ctx ..).trans (if_pos rfl)
  have steps : v.program x.program = .fv m :: rest := program
  have quiet : (w.chan c).activity ≠ .discharging := by
    rw [show (w.chan c).activity = .quiet from congrArg ChannelRecord.activity chan]
    decide
  have first := beginSteps_fv (c := c) ctxThen (congrArg ChannelRecord.bias chan) quiet m 0 rest
  have rewritten (y' : RunContext) (u : ChannelRecord) :
      (w.setCtx b (some y')).setChan c u = (v.setCtx b (some y')).setChan c u := by
    show (((v.setCtx b (some y)).setCtx b (some y')).setChan c given).setChan c u = _
    rw [setCtx_setCtx, setChan_setChan]
  rw [chan] at first
  rw [steps]
  exact first.trans ((rewritten _ _).trans (rebound _ _ rfl))

/-! ## CANCEL_RUN -/

theorem runBus_eq_none {h : Nat} : s.runBus h = none ↔ ¬ ∃ b x, s.ctx b = some x ∧ x.handle = h := by
  simp [State.runBus, mem_allBuses, Option.any_eq_false]

/-- CANCEL_RUN of a run in flight (R124). -/
theorem cancelRun_of_run {x : RunContext} (h : field q.payload 0 2 ≠ 0) (bus : s.runBus (field q.payload 0 2) = some b)
    (ctx : s.ctx b = some x) : cancelRun (deskPort d) q (s.popRequest (deskPort d)) =
      if x.origin ≠ .desk d then answered s (deskPort d) q (.refused .notHolder) []
      else if x.final then answered s (deskPort d) q (.refused .tooLate) []
      else (answered (s.renewHold b) (deskPort d) q .ok []).abortRun b .cancelled := by
  have known : (s.popRequest (deskPort d)).runBus (field q.payload 0 2) = some b := bus
  have here : (s.popRequest (deskPort d)).ctx b = some x := ctx
  simp only [cancelRun, if_neg h, known, here, senderDesk_deskPort, refuse_popRequest, ok_popRequest]
  rfl

/-- An abort while the run's step is in its discharge records the cause alone (R123). -/
theorem abortRun_discharging {x : RunContext} {cause : AbortCause} (ctx : s.ctx b = some x) (final : x.final = false)
    (abort : x.abort = none) (phase : x.phase = .discharge) :
    s.abortRun b cause = s.setCtx b (some { x with abort := some cause }) := by
  simp [State.abortRun, ctx, final, abort, State.actOnAbort, phase]

/-- The first abort of a run counts. -/
theorem abortRun_again {x : RunContext} {cause : AbortCause} (ctx : s.ctx b = some x) (abort : x.abort ≠ none) :
    s.abortRun b cause = s := by
  simp [State.abortRun, ctx, Option.isSome_iff_ne_none, abort]

/-- Settles O35, row by row of R124's table. -/
theorem cancelRunTable : Obligations.CancelRunTable := by
  intro s d q asks hs h p inFlight hold renewed
  refine ⟨fun zero => next_of_asks asks ?_ hs, fun nonzero none => next_of_asks asks ?_ hs, ?_⟩
  · rw [cancelRun, if_pos zero]
    exact refuse_popRequest ..
  · have unknown : (s.popRequest p).runBus h = Option.none := runBus_eq_none.2 none
    rw [cancelRun, if_neg nonzero, unknown]
    exact refuse_popRequest ..
  · intro b x nonzero bus ctx
    have run := cancelRun_of_run (d := d) nonzero bus ctx
    have renews : s.renewHold b = renewed b := by
      show s.setBus b { s.bus b with hold := (s.bus b).hold.renew s.holdMs } = _
      rw [hold_renew_eq]
      rfl
    have accepted (origin : x.origin = .desk d) (final : x.final = false) :
        cancelRun p q (s.popRequest p) = (answered (renewed b) p q .ok []).abortRun b .cancelled := by
      rw [run, if_neg (not_not.2 origin), if_neg (by simp [final]), renews]
    refine ⟨fun other => next_of_asks asks (run.trans (if_pos other)) hs, fun origin final => ?_,
      fun origin final abort => ?_, fun origin final abort phase => ?_, fun c origin final abort channel phase bias => ?_⟩
    · exact next_of_asks asks (run.trans ((if_neg (not_not.2 origin)).trans (if_pos final))) hs
    · exact next_of_asks asks ((accepted origin final).trans
        (abortRun_again (s := answered (renewed b) p q .ok []) ctx abort)) hs
    · exact next_of_asks asks ((accepted origin final).trans
        (abortRun_discharging (s := answered (renewed b) p q .ok []) ctx final abort phase)) hs
    · refine next_of_asks asks ((accepted origin final).trans
        (abortRun_biased (s := answered (renewed b) p q .ok []) ctx final abort channel phase bias)) ?_
      have calm : Settled ((answered (renewed b) p q .ok []).setCtx b (some { x with
        abort := some .cancelled, phase := .discharge,
        work := { x.work with stage := .closing, reading := none } })) := hs
      exact settled_setChan calm rfl

end Sys2Proof
end

