-- ==== Sys2Proof/Proofs/ReadingsAndTraces.lean ====
section
/-! PROOFS. The requests that only read (R10, R41, R93, R126, R159, R170, R179, R186), and TRACE (R128, R129). -/

namespace Sys2Proof

open Machine

variable {s : State} {p : Port} {q : Request} {d : Desk}

/-! ## The reading requests -/

theorem statusBytes_popRequest (s : State) (p : Port) : (s.popRequest p).statusBytes = s.statusBytes := by
  have link (r : Port) : ((s.popRequest p).port r).link = (s.port r).link := by
    rw [State.popRequest, State.setPort_port]
    split
    · next h => rw [h]
    · rfl
  have links : (allPorts.map fun r => u8 (linkCode ((s.popRequest p).port r).link)) =
      allPorts.map fun r => u8 (linkCode (s.port r).link) := by simp only [link]
  unfold State.statusBytes
  rw [links]
  rfl

/-- The state filter reads the bit of the ticket's state. -/
theorem stateFilter_ofNat (states : Nat) (t : Ticket) :
    stateFilter (BitVec.ofNat 8 states) t = states.testBit (ticketStateCode t.state) := by
  have bit : ticketStateCode t.state < 8 := by cases t.state <;> decide
  rw [stateFilter, BitVec.getLsbD_ofNat, decide_eq_true bit, Bool.true_and]

theorem ticketListBytes_eq (asked : List Ticket) : ticketListBytes asked =
    u8 (min 24 asked.length) ++ ((asked.take 24).map ticketEntryBytes).flatten ++
      u8 (if 24 < asked.length then 1 else 0) ++ u16 ((asked[24]?.map Ticket.number).getD 0) := by
  have mark : flagByte (24 < asked.length) = u8 (if 24 < asked.length then 1 else 0) := by
    by_cases h : 24 < asked.length <;> simp [flagByte, h, u8]
  rw [ticketListBytes, listBytes, List.length_take, mark]

/-- Settles O37: each request's answer, its refusals, and TICKET_LIST. -/
theorem readingRequests : Obligations.ReadingRequests := by
  refine ⟨fun s p q hs => ⟨fun asks h => ?_, fun asks => ?_, fun c asks h => ?_, fun r asks nonzero step h => ?_,
      fun asks h => ?_, fun t asks nonzero h => ?_⟩,
    fun s p q hs => ⟨fun asks h => ?_, fun asks h => ?_, fun asks h => ?_, fun asks nonzero step h => ?_,
      fun asks h => ?_, fun asks h => ?_, fun asks nonzero h => ?_⟩, ?_⟩
  · refine next_of_asks asks ?_ hs
    rw [lineGet, if_neg (not_not.2 (isLine_iff.2 h))]
    exact ok_popRequest ..
  · refine next_of_asks asks ?_ hs
    rw [statusGet, statusBytes_popRequest]
    exact ok_popRequest ..
  · refine next_of_asks asks ?_ hs
    rw [channelGet, h]
    exact ok_popRequest ..
  · refine next_of_asks asks ?_ hs
    have known : (s.popRequest p).result (field q.payload 0 2) = some r := h
    rw [resultGet, if_neg (by omega), known]
    exact ok_popRequest ..
  · refine next_of_asks asks ?_ hs
    rw [countersGet, if_neg (by omega)]
    exact ok_popRequest ..
  · refine next_of_asks asks ?_ hs
    have known : (s.popRequest p).ticket (field q.payload 0 2) = some t := h
    rw [ticketGet, withTicket, if_neg nonzero, known]
    exact ok_popRequest ..
  · refine next_of_asks asks ?_ hs
    rw [lineGet, if_pos (by rw [isLine_iff]; omega)]
    exact refuse_popRequest ..
  · refine next_of_asks asks ?_ hs
    rw [channelGet, channelOf_none.2 h]
    exact refuse_popRequest ..
  · refine next_of_asks asks ?_ hs
    rw [resultGet, if_pos h]
    exact refuse_popRequest ..
  · refine next_of_asks asks ?_ hs
    have unknown : (s.popRequest p).result (field q.payload 0 2) = none := List.find?_eq_none.2 (by simpa using h)
    rw [resultGet, if_neg (by omega), unknown]
    exact refuse_popRequest ..
  · refine next_of_asks asks ?_ hs
    rw [countersGet, if_pos h]
    exact refuse_popRequest ..
  · refine next_of_asks asks ?_ hs
    rw [ticketGet, withTicket, if_pos h]
    exact refuse_popRequest ..
  · refine next_of_asks asks ?_ hs
    have unknown : (s.popRequest p).ticket (field q.payload 0 2) = none := h
    rw [ticketGet, withTicket, if_neg nonzero, unknown]
    exact refuse_popRequest ..
  · intro s p q asks hs states line code wanted
    refine ⟨fun h => next_of_asks asks ?_ hs, fun h1 h15 hline hcode => next_of_asks asks ?_ hs⟩
    · rw [ticketList, if_pos h]
      exact refuse_popRequest ..
    · have asked : ticketsAsked s.tkt.tickets (BitVec.ofNat 8 states) line code (field q.payload 4 2) = wanted := by
        simp only [ticketsAsked, stateFilter_ofNat]
        rfl
      rw [← ticketListBytes_eq, ← asked, ticketList, if_neg (by omega)]
      exact ok_popRequest ..

/-! ## TRACE -/

/-- Samples in the ring: what `available` asks. -/
theorem available_iff {w a : Word32} {count : Nat} : available w a count = true ↔
    (w - a).toNat ≤ 8192 ∧ (w - (a + BitVec.ofNat 32 count)).toNat < 2147483648 := by
  simp [available]

/-- TRACE up to the transfer buffer (R128, steps 3 to 5). -/
theorem traceRequest_of {r : ResultRecord} {x : StepResult} (h : field q.payload 0 2 ≠ 0) (step : field q.payload 2 1 ≤ 11)
    (found : s.rsq.history.find? (fun r => r.handle = field q.payload 0 2) = some r)
    (hx : r.steps[field q.payload 2 1]? = some x) : traceRequest p q (s.popRequest p) =
      if x.trace.length = 0 ∨ x.trace.length ≤ field q.payload 3 2 then answered s p q (.refused .badField) []
      else (s.popRequest p).startTrace p q x.trace (field q.payload 0 2) (field q.payload 2 1) (field q.payload 3 2)
        (field q.payload 5 2) := by
  have known : (s.popRequest p).result (field q.payload 0 2) = some r := found
  have trace : r.traceOf (field q.payload 2 1) = some x.trace := by rw [ResultRecord.traceOf, hx]; rfl
  rw [traceRequest, if_neg (by omega), known, Option.bind_some, trace]
  dsimp only
  rw [refuse_popRequest]

/-- TRACE past its checks: the transfer buffer is filled and the reply joins its queue, on the port alone. -/
theorem startTrace_accepted {t : TraceRef} {handle step offset asked : Nat} {c : Channel}
    (idle : (s.port p).transfer = none) (channel : t.channel = some c)
    (held : available (s.chan c).written (t.first + BitVec.ofNat 32 offset)
      (min (clampNat 1 1024 asked) (t.length - offset)) = true) :
    let count := min (clampNat 1 1024 asked) (t.length - offset)
    (s.popRequest p).startTrace p q t handle step offset asked = s.setPort p (PortUnit.withReply
      { s.port p with
        requests := (s.port p).requests.drop 1
        transfer := some { handle := handle, step := step, offset := offset,
                           samples := copySamples c (s.chan c) (t.first + BitVec.ofNat 32 offset) count } }
      { kind := replyKind q.kind, tag := q.tag, outcome := okOutcome (count ≠ asked)
        data := u16 handle ++ u8 step ++ u16 offset ++ u16 count ++ u8 ((count + 31) / 32) }) := by
  intro count
  have port : (s.popRequest p).port p = { s.port p with requests := (s.port p).requests.drop 1 } := popRequest_port_self
  have free : ¬ ((s.popRequest p).port p).transfer.isSome = true := by rw [port, idle]; exact Bool.false_ne_true
  have inRing : ¬ ¬ available ((s.popRequest p).chan c).written (t.first + BitVec.ofNat 32 offset) count = true :=
    not_not.2 held
  rw [State.startTrace, if_neg free, channel]
  dsimp only
  rw [if_neg inRing, port]
  simp only [State.ok, State.answer, State.reply, State.popRequest, setPort_setPort, State.setPort_port, if_true]
  rfl

/-- Settles O36, the checks of R128 in their order. -/
theorem traceCopiesSamples : Obligations.TraceCopiesSamples := by
  intro s d q asks hs p h step offset asked refusedWith
  have refuses {r : Reason} (served : traceRequest p q (s.popRequest p) = answered s p q (.refused r) []) :
      refusedWith r := next_of_asks asks served hs
  refine ⟨fun bad => refuses ?_, fun nonzero small none => refuses ?_, fun r nonzero small found => ⟨fun short => refuses ?_, ?_⟩⟩
  · rw [traceRequest, if_pos bad]
    exact refuse_popRequest ..
  · have unknown : (s.popRequest p).result h = Option.none := List.find?_eq_none.2 (by simpa using none)
    rw [traceRequest, if_neg (by omega), unknown]
    exact refuse_popRequest ..
  · have known : (s.popRequest p).result h = some r := found
    have beyond : r.traceOf step = Option.none := by
      rw [ResultRecord.traceOf, List.getElem?_eq_none short]
      rfl
    rw [traceRequest, if_neg (by omega), known, Option.bind_some, beyond]
    exact refuse_popRequest ..
  · intro x hx t capped count a
    have served := traceRequest_of (p := p) nonzero small found hx
    have transfer : ((s.popRequest p).port p).transfer = (s.port p).transfer := by rw [popRequest_port_self]
    have within (inside : offset < t.length) : ¬ (t.length = 0 ∨ t.length ≤ offset) := by omega
    refine ⟨fun short => refuses (served.trans (if_pos (.inr short))), fun inside busy => refuses ?_,
      fun c inside idle channel => ?_⟩
    · rw [served, if_neg (within inside), State.startTrace, if_pos (by rw [transfer, Option.isSome_iff_ne_none]; exact busy)]
      exact refuse_popRequest ..
    intro w held
    refine ⟨fun lost => refuses ?_, fun there => ?_⟩
    · have stale : ¬ available ((s.popRequest p).chan c).written a count = true := mt available_iff.1 lost
      rw [served, if_neg (within inside), State.startTrace, if_neg (by rw [transfer, idle]; exact Bool.false_ne_true), channel]
      exact (if_pos stale).trans (refuse_popRequest ..)
    · have accepted := startTrace_accepted (q := q) (handle := h) (step := step) (asked := asked) idle channel
        (available_iff.2 there)
      refine ⟨_, copySamples c (s.chan c) a count, next_of_asks asks (served.trans ((if_neg (within inside)).trans accepted)) hs,
        ?_, ?_, fun i hi => ?_, ?_⟩
      · rw [PortUnit.withReply, kick_transfer]
        rfl
      · rw [copySamples, List.length_map, List.length_range]
      · simp [copySamples, hi]
      · simp only [PortUnit.withReply, kick_replies, kick_requests, kick_notices, kick_link, kick_lost, kick_mask]
        exact ⟨rfl, trivial, trivial, trivial, trivial, trivial⟩

end Sys2Proof
end

