-- ==== Sys2Proof/Proofs/TicketRequests.lean ====
section
/-! PROOFS. TICKET_TAKE, TICKET_DROP, TICKET_CLEAR, TICKET_CLOSE and TICKET_PURGE (R152, R156 to R158). -/

namespace Sys2Proof

open Machine

variable {s : State} {p : Port} {q : Request} {d : Desk} {t : Ticket}

/-! ## The ticket a request names -/

theorem withTicket_of {act : Ticket → State → State} (h : field q.payload 0 2 ≠ 0)
    (ticket : s.ticket (field q.payload 0 2) = some t) :
    withTicket act p q (s.popRequest p) = act t (s.popRequest p) := by
  have known : (s.popRequest p).ticket (field q.payload 0 2) = some t := ticket
  rw [withTicket, if_neg h, known]

/-- TICKET_DROP and TICKET_CLEAR ask that the ticket is ASSIGNED, to the sender (R156, R157). -/
theorem withAssigned_of {act : Ticket → State → State} (h : field q.payload 0 2 ≠ 0)
    (ticket : s.ticket (field q.payload 0 2) = some t) :
    withAssigned act (deskPort d) q (s.popRequest (deskPort d)) =
      if t.state ≠ .assigned then answered s (deskPort d) q (.refused .wrongState) []
      else if t.assignee ≠ some d then answered s (deskPort d) q (.refused .notHolder) []
      else act t (s.popRequest (deskPort d)) := by
  rw [withAssigned, withTicket_of h ticket, senderDesk_deskPort, refuse_popRequest, refuse_popRequest]

/-- The ticket rewritten, answered with its new state. -/
theorem okTicket_putTicket (u : Ticket) (st : TicketState) :
    ((s.popRequest p).putTicket u).okTicket p q st = answered (s.putTicket u) p q .ok (u8 (ticketStateCode st)) :=
  ok_popRequest (s.putTicket u) ..

/-! ## TICKET_TAKE and TICKET_DROP -/

theorem ticketTake_of (h : field q.payload 0 2 ≠ 0) (ticket : s.ticket (field q.payload 0 2) = some t) :
    (t.state = .opened → ticketTake (deskPort d) q (s.popRequest (deskPort d)) =
      (answered (s.putTicket { t with state := .assigned, assignee := some d }) (deskPort d) q .ok [1]).broadcast
        (.ticketChange t.number t.line t.code .assigned t.severity .taken (some d) s.now)) ∧
    (t.state = .assigned → ticketTake (deskPort d) q (s.popRequest (deskPort d)) =
      answered s (deskPort d) q (.refused .taken) [BitVec.ofNat 8 ((t.assignee.map deskCode).getD 255)]) ∧
    (t.state = .cleared ∨ t.state = .closed → ticketTake (deskPort d) q (s.popRequest (deskPort d)) =
      answered s (deskPort d) q (.refused .wrongState) []) := by
  unfold ticketTake
  rw [withTicket_of h ticket, senderDesk_deskPort]
  refine ⟨fun state => ?_, fun state => ?_, fun state => ?_⟩
  · rw [state]
    exact congrArg (State.broadcast · _) (okTicket_putTicket { t with state := .assigned, assignee := some d } .assigned)
  · rw [state]
    exact answer_popRequest ..
  · rcases state with state | state <;> rw [state] <;> exact refuse_popRequest ..

/-- Settles O38. -/
theorem ticketTakeAndDrop : Obligations.TicketTakeAndDrop := by
  intro s d q t hs nonzero ticket p put change
  have told {u : State} {n : Notice} (hu : Settled u) : Settled (u.broadcast n) := (reportsOnly_broadcast n).settled hu
  refine ⟨fun asks => ?_, fun asks => ?_⟩
  · obtain ⟨opened, assigned, others⟩ := ticketTake_of (d := d) nonzero ticket
    exact ⟨fun state => next_of_asks asks (opened state) (told hs), fun state => next_of_asks asks (assigned state) hs,
      fun state => next_of_asks asks (others state) hs⟩
  · have checked := withAssigned_of (d := d) (act := fun t s =>
      let u := { t with state := .opened, assignee := none }
      ((s.putTicket u).okTicket p q u.state).sendChange u .dropped (some (senderDesk p))) nonzero ticket
    refine ⟨fun state mine => ?_, fun state other => ?_, fun state => next_of_asks asks (checked.trans (if_pos state)) hs⟩
    · refine next_of_asks asks (checked.trans ((if_neg (not_not.2 state)).trans ((if_neg (not_not.2 mine)).trans ?_)))
        (told hs)
      rw [show senderDesk p = d from senderDesk_deskPort d]
      exact congrArg (State.broadcast · (change .opened .dropped))
        (okTicket_putTicket { t with state := .opened, assignee := none } .opened)
    · exact next_of_asks asks (checked.trans ((if_neg (not_not.2 state)).trans (if_pos other))) hs

/-! ## TICKET_CLEAR -/

/-- Reports do not read whether an arbitration is due. -/
theorem ReportsOnly_arbitrationDue {F : State → State} (h : ReportsOnly F) (s : State) :
    F s.arbitrationDue = (F s).arbitrationDue := by
  obtain ⟨f, h⟩ := h
  rw [h, h]
  rfl

theorem now_verifyAppend (s : State) (line : Nat) : (s.verifyAppend line).now = s.now := by
  unfold State.verifyAppend
  split <;> rfl

/-- The line joins the verify list where it is not on it; the report that follows starts at most an arbitration that
finds no IDLE bus. -/
theorem settle_verifyAppend {line : Nat} {n : Notice} (hs : Settled s) (calm : NoIdleBus s ∨ line ∈ s.tkt.verify) :
    ((s.verifyAppend line).broadcast n).settle = State.broadcast { s with tkt := { s.tkt with
      verify := if line ∈ s.tkt.verify then s.tkt.verify else s.tkt.verify ++ [line] } } n := by
  by_cases on : line ∈ s.tkt.verify
  · have same : s.verifyAppend line = s := if_pos (List.contains_iff_mem.2 on)
    rw [same, if_pos on]
    exact settle_of_settled ((reportsOnly_broadcast n).settled hs)
  · let u : State := { s with tkt := { s.tkt with verify := s.tkt.verify ++ [line] } }
    have joined : s.verifyAppend line = u.arbitrationDue := if_neg (mt List.contains_iff_mem.1 on)
    have busy : NoIdleBus (u.broadcast n) := by
      rw [(reportsOnly_broadcast n).frame u]
      exact calm.resolve_right on
    rw [joined, if_neg on, ReportsOnly_arbitrationDue (reportsOnly_broadcast n)]
    exact settle_due_of_noIdleBus ((reportsOnly_broadcast n).settled (s := u) hs) busy

/-- Settles O39. -/
theorem ticketClearEffects : Obligations.TicketClearEffects := by
  intro s d q t asks hs nonzero ticket calm p u
  have checked := withAssigned_of (d := d) (act := fun t s =>
    let u := { t with state := .cleared, assignee := none, clearedBy := some (senderDesk p), clearedTime := some s.now }
    (((s.putTicket u).okTicket p q u.state).verifyAppend t.line).sendChange u .cleared (some (senderDesk p))) nonzero
      ticket
  refine ⟨fun state mine => ?_, fun state other => next_of_asks asks (checked.trans
    ((if_neg (not_not.2 state)).trans (if_pos other))) hs, fun state => next_of_asks asks (checked.trans (if_pos state)) hs⟩
  let n : Notice := .ticketChange t.number t.line t.code .cleared t.severity .cleared (some d) s.now
  let v : State := answered (s.putTicket u) p q .ok [2]
  have served : ticketClear p q (s.popRequest p) = (v.verifyAppend t.line).broadcast n := by
    have ok : ((s.popRequest p).putTicket u).okTicket p q .cleared = v := okTicket_putTicket u .cleared
    refine checked.trans ((if_neg (not_not.2 state)).trans ((if_neg (not_not.2 mine)).trans ?_))
    rw [show senderDesk p = d from senderDesk_deskPort d]
    show (State.verifyAppend (((s.popRequest p).putTicket u).okTicket p q .cleared) t.line).sendChange u .cleared
      (some d) = _
    rw [ok, State.sendChange, now_verifyAppend]
    rfl
  refine ⟨_, next_of_served asks ((congrArg State.settle served).trans (settle_verifyAppend (s := v) hs calm)), ?_,
    (reportsOnly_broadcast n).ports_eq rfl rfl rfl, ?_⟩
  · rw [(reportsOnly_broadcast n).frame]
    rfl
  · rw [(reportsOnly_broadcast n).frame]
    exact ⟨rfl, rfl, rfl, rfl, rfl, rfl, rfl⟩

/-! ## TICKET_CLOSE and TICKET_PURGE -/

/-- Once a ticket is not CLEARED any more, its line keeps its place on the verify list only for another that is. -/
theorem hasCleared_putTicket {u : Ticket} (closed : u.state ≠ .cleared) (same : u.number = t.number) (line : Nat) :
    (s.putTicket u).hasCleared line =
      s.tkt.tickets.any fun v => v.number ≠ t.number && v.line = line && v.state = .cleared := by
  show (s.tkt.tickets.map fun v => if v.number = u.number then u else v).any _ = _
  rw [List.any_map]
  congr 1
  funext v
  by_cases h : v.number = t.number <;> simp [same, h, closed]

/-- What a ticket that closes leaves: the ticket table, the line's open codes, reports and counts (R152, R155). -/
theorem closeTicket_eq (s : State) (t : Ticket) (reason : CloseReason) (desk : Option Desk) :
    ∃ ports cnt, s.closeTicket t reason desk = { s with
      tkt := { s.tkt with
        tickets := s.tkt.tickets.map fun v => if v.number = t.number then { t with
          state := .closed, closeTime := some s.now, closeReason := some reason, assignee := none,
          clearedTime := none } else v
        verify := if t.state = .cleared ∧ (s.tkt.tickets.any fun v =>
            v.number ≠ t.number && v.line = t.line && v.state = .cleared) = false then
          s.tkt.verify.filter fun l => l ≠ t.line else s.tkt.verify }
      lrt := (s.setLine t.line { s.line t.line with
        openCodes := (s.line t.line).openCodes.filter fun c => c ≠ t.code }).lrt
      ports := ports, cnt := cnt } := by
  let u : Ticket := { t with state := .closed, closeTime := some s.now, closeReason := some reason, assignee := none,
                             clearedTime := none }
  have review : (s.putTicket u).hasCleared t.line = _ := hasCleared_putTicket (u := u) (t := t) TicketState.noConfusion rfl t.line
  have told : ReportsOnly fun v => (v.count 1 (closeIndex t.code reason)).sendChange u (.closed reason) desk :=
    (reportsOnly_count 1 (closeIndex t.code reason)).comp (ReportsOnly.of_now fun now =>
      reportsOnly_broadcast (u.change (.closed reason) desk now))
  let v : State := (s.putTicket u).closeCode t.line t.code
  have kept : v.hasCleared t.line = (s.putTicket u).hasCleared t.line := rfl
  obtain ⟨ports, cnt, frame⟩ : ∃ ports cnt, s.closeTicket t reason desk =
      { (if t.state = .cleared then v.verifyReview t.line else v) with ports := ports, cnt := cnt } :=
    ⟨_, _, told.frame _⟩
  refine ⟨ports, cnt, frame.trans ?_⟩
  unfold State.verifyReview
  rw [kept, review]
  by_cases cleared : t.state = .cleared
  · rw [if_pos cleared]
    cases others : s.tkt.tickets.any fun v => v.number ≠ t.number && v.line = t.line && v.state = .cleared with
    | true =>
      rw [if_pos rfl, if_neg (by simp)]
      rfl
    | false =>
      rw [if_neg (by simp), if_pos ⟨cleared, rfl⟩]
      rfl
  · rw [if_neg cleared, if_neg fun h => cleared h.1]
    rfl

/-- Settles O40. -/
theorem ticketCloseAndPurge : Obligations.TicketCloseAndPurge := by
  refine ⟨?_, ?_⟩
  · intro s d q t asks hs nonzero ticket p standing u others
    have known : ticketClose p q (s.popRequest p) = _ := withTicket_of nonzero ticket
    have may (live : t.state ≠ .closed) : mayClose s.supervisor (senderDesk p) t = true ↔ standing := by
      rw [show senderDesk p = d from senderDesk_deskPort d]
      exact mayClose_iff s.supervisor d t live
    refine ⟨fun closed => ?_, fun live no => ?_, fun live stands => ?_⟩
    · exact next_of_asks asks (known.trans ((if_pos closed).trans (refuse_popRequest ..))) hs
    · exact next_of_asks asks (known.trans ((if_neg live).trans ((if_pos (mt (may live).1 no)).trans
        (refuse_popRequest ..)))) hs
    · let v : State := answered s p q .ok [3]
      have ok : (s.popRequest p).okTicket p q .closed = v := ok_popRequest ..
      obtain ⟨ports, cnt, closes⟩ := closeTicket_eq v t .manual (some d)
      have served : ticketClose p q (s.popRequest p) = v.closeTicket t .manual (some d) := by
        refine known.trans ((if_neg live).trans ((if_neg (not_not.2 ((may live).2 stands))).trans ?_))
        rw [ok, show senderDesk p = d from senderDesk_deskPort d]
      exact ⟨_, next_of_asks asks (served.trans closes) hs, rfl, rfl, rfl, rfl, rfl, rfl, rfl, rfl⟩
  · intro s p q asks hs left
    refine next_of_asks asks ?_ hs
    have live : Ticket.isLive = fun t => decide (t.state ≠ .closed) := by
      funext t
      cases h : t.state <;> simp [Ticket.isLive, TicketState.isLive, h]
    have kept : s.tkt.tickets.filter Ticket.isLive = left := by rw [live]
    rw [ticketPurge]
    show State.ok { (s.popRequest p) with tkt := { s.tkt with tickets := s.tkt.tickets.filter Ticket.isLive } } p q false
      (u8 (s.tkt.tickets.length - (s.tkt.tickets.filter Ticket.isLive).length) ++
        u8 (s.tkt.tickets.filter Ticket.isLive).length) = _
    rw [kept]
    exact ok_popRequest { s with tkt := { s.tkt with tickets := left } } ..

end Sys2Proof
end

