-- ==== Sys2Proof/Proofs/TicketFindings.lean ====
section
/-! PROOFS. A finding that makes a ticket and one that merges into a live ticket (R145 to R149, R153 to R155, R163). -/

namespace Sys2Proof

open Machine

variable {s t : State} {p : Port} {f : Finding}

/-! ## Reports leave the links alone -/

/-- Every port's link is as it was. -/
def SameLinks (s t : State) : Prop := ∀ p, (t.port p).link = (s.port p).link

theorem offer_link (u : PortUnit) (n : Notice) : (u.offer n).1.link = u.link := by
  unfold PortUnit.offer
  split
  · exact kick_link _
  · rfl

theorem sameLinks_offerWith {count : Nat → Nat → State → State} (hc : ∀ g i s, SameLinks s (count g i s)) (n : Notice)
    (s : State) (p : Port) : SameLinks s (offerWith count n s p) := by
  have offered : SameLinks s (s.setPort p ((s.port p).offer n).1) := by
    intro q
    rw [State.setPort_port]
    split
    next same => rw [offer_link, same]
    next => rfl
  unfold offerWith
  dsimp only
  split
  · exact fun q => (hc _ _ _ q).trans (offered q)
  · exact offered

theorem sameLinks_broadcastWith {count : Nat → Nat → State → State} (hc : ∀ g i s, SameLinks s (count g i s))
    (n : Notice) (s : State) : SameLinks s (broadcastWith count n s) := by
  refine List.foldlRecOn allPorts _ (motive := SameLinks s) (fun _ => rfl) fun t same p _ => ?_
  split
  · exact fun q => (sameLinks_offerWith hc n t p q).trans (same q)
  · exact same

theorem sameLinks_countWith (fuel g i : Nat) (s : State) : SameLinks s (countWith fuel g i s) := by
  induction fuel generalizing g i s with
  | zero => exact fun _ => rfl
  | succ fuel ih =>
    unfold countWith
    dsimp only
    split
    · exact fun q => sameLinks_broadcastWith ih _ _ q
    · exact fun _ => rfl

theorem sameLinks_broadcast (n : Notice) (s : State) : SameLinks s (s.broadcast n) :=
  sameLinks_broadcastWith (sameLinks_countWith 6) n s

/-! ## A creation -/

/-- What a creation leaves beside reports and counts (R149, R153, R163). -/
theorem createTicket_eq (s : State) (f : Finding) :
    let n := firstFree (fun n => (s.ticket n).isSome) 200 s.tkt.nextNumber
    ∃ ports cnt, s.createTicket f = { s with
      tkt := { s.tkt with
        tickets := insertTicket (newTicket n f s.now (s.tkt.storm = .storm)) s.tkt.tickets
        nextNumber := (n + 1) % 65536
        count := if f.severity = .soft then s.tkt.count else min 65535 (s.tkt.count + 1) }
      lrt := ((s.openCode f.line f.code).setUnticketed f.line false).lrt
      ports := ports
      cnt := cnt } := by
  intro n
  let t := newTicket n f s.now (s.tkt.storm = .storm)
  let u : State := s.mapTkt fun k => { k with tickets := insertTicket t k.tickets, nextNumber := (n + 1) % 65536 }
  let v : State := (u.openCode f.line f.code).setUnticketed f.line false
  obtain ⟨ports, cnt, counted⟩ : ∃ ports cnt, v.countFinding f.code .created = { v with ports := ports, cnt := cnt } :=
    ⟨_, _, (reportsOnly_count 0 (findingIndex f.code .created)).frame v⟩
  obtain ⟨ports', cnt', told⟩ : ∃ ports cnt, s.createTicket f =
      { (if f.severity.isGrave then (v.countFinding f.code .created).hardFault else v.countFinding f.code .created)
        with ports := ports, cnt := cnt } := ⟨_, _, (reportsOnly_broadcast _).frame _⟩
  refine ⟨ports', cnt', told.trans ?_⟩
  rw [counted]
  cases h : f.severity <;> rfl

/-- The codes of a line and its flag, written one after the other. -/
theorem line_openCode_setUnticketed (w : Canonical s) (m : Nat) :
    ((s.openCode f.line f.code).setUnticketed f.line false).line m = if m = f.line then
      { s.line f.line with openCodes := addCode f.code (s.line f.line).openCodes, unticketed := false }
    else s.line m := by
  have opened : (s.openCode f.line f.code).line f.line =
      { s.line f.line with openCodes := addCode f.code (s.line f.line).openCodes } := by
    rw [State.openCode, line_setLine w, if_pos rfl]
  have canonical : Canonical (s.openCode f.line f.code) := canonical_setLine w ..
  rw [State.setUnticketed, line_setLine canonical, opened]
  by_cases same : m = f.line
  · rw [if_pos same, if_pos same]
  · rw [if_neg same, if_neg same, State.openCode, line_setLine w, if_neg same]

/-! ## A merge -/

/-- The finding raises the severity of a ticket (R147). -/
theorem severityRank_lt (a b : Severity) : severityRank a < severityRank b ↔
    (a, b) ∈ [(Severity.soft, Severity.hard), (.soft, .hazard), (.hard, .hazard)] := by
  cases a <;> cases b <;> simp [severityRank]

theorem lowerIsWorse_iff (c : FaultCode) : lowerIsWorse c = true ↔ c ∈ [.loopLow, .earthT, .earthR, .openLine] := by
  cases c <;> simp [lowerIsWorse]

/-- The ticket is among the live ones of its line and code. -/
theorem liveTicket_code {u : Ticket} (h : s.liveTicket f.line f.code = some u) : u.code = f.code := by
  have found := List.find?_some h
  simp only [Bool.and_eq_true, decide_eq_true_eq] at found
  exact found.1.2

/-- Of two writes of one ticket the second stays. -/
theorem putTicket_putTicket (s : State) {a b : Ticket} (same : b.number = a.number) :
    (s.putTicket a).putTicket b = s.putTicket b := by
  have rewritten : (s.tkt.tickets.map fun u => if u.number = a.number then a else u).map
      (fun u => if u.number = b.number then b else u) = s.tkt.tickets.map fun u => if u.number = b.number then b else u := by
    rw [List.map_map]
    congr 1
    funext u
    by_cases h : u.number = a.number <;> simp [h, same]
  exact congrArg (fun l => ({ s with tkt := { s.tkt with tickets := l } } : State)) rewritten

/-- The worse of two values stays, each with its distance (R145, R147). -/
theorem mergeWorst_eq (c : FaultCode) (o n : Option Quantity) (x y : Option Nat) :
    mergeWorst c (o, x) (n, y) =
      let worse := o.any fun a => n.any fun b => worseThan c b a
      (if worse then n else o, if worse then y else x) := by
  cases o with
  | none => rfl
  | some a =>
    cases n with
    | none => rfl
    | some b => cases h : worseThan c b a <;> simp [mergeWorst, h]

/-- A merge while its MERGED count does not wrap, up to the reopening (R147, R163). -/
theorem mergeFinding_of_lt {u : Ticket} {f : Finding} (below : s.cnt.g0.count (findingIndex f.code .merged) < 65535) :
    let i := findingIndex f.code .merged
    let raised : Bool := (u.severity, f.severity) ∈ [(.soft, .hard), (.soft, .hazard), (.hard, .hazard)]
    let merged := u.merged f s.now
    let counted : State := { s with
      tkt := { s.tkt with
        tickets := s.tkt.tickets.map fun v => if v.number = u.number then merged else v
        count := if raised = true ∧ u.severity = .soft then min 65535 (s.tkt.count + 1) else s.tkt.count }
      cnt := { s.cnt with g0 := { s.cnt.g0 with
        counts := writeTable (fun _ => 0) s.cnt.g0.counts i (s.cnt.g0.count i + 1) } } }
    let told : State := if raised then counted.sendChange merged .escalated none else counted
    s.mergeFinding u f = if u.clearedBefore f.start then told.reopen merged else told := by
  intro i raised merged counted told
  have bumped : (s.putTicket merged).countFinding f.code .merged = { s.putTicket merged with
      cnt := { s.cnt with g0 := { s.cnt.g0 with
        counts := writeTable (fun _ => 0) s.cnt.g0.counts i (s.cnt.g0.count i + 1) } } } :=
    count_of_lt (s := s.putTicket merged) (g := 0) below
  have grave : (severityRank u.severity < severityRank f.severity ∧ ¬ u.severity.isGrave = true) ↔
      (raised = true ∧ u.severity = .soft) := by
    rw [severityRank_lt, decide_eq_true_iff]
    refine and_congr_right fun _ => ?_
    cases u.severity <;> simp [Severity.isGrave]
  have hard : (if severityRank u.severity < severityRank f.severity ∧ ¬ u.severity.isGrave = true then
      ((s.putTicket merged).countFinding f.code .merged).hardFault
      else (s.putTicket merged).countFinding f.code .merged) = counted := by
    rw [bumped]
    simp only [grave]
    by_cases h : raised = true ∧ u.severity = .soft
    · rw [if_pos h]
      show _ = ({ s with tkt := _, cnt := _ } : State)
      simp only [if_pos h]
      rfl
    · rw [if_neg h]
      show _ = ({ s with tkt := _, cnt := _ } : State)
      simp only [if_neg h]
      rfl
  unfold State.mergeFinding
  dsimp only
  rw [hard]
  have escalated : (if severityRank u.severity < severityRank f.severity then
      counted.sendChange merged .escalated none else counted) = told := by
    rw [show told = if raised = true then counted.sendChange merged .escalated none else counted from rfl]
    exact if_congr ((severityRank_lt ..).trans decide_eq_true_iff.symm) rfl rfl
  rw [escalated]

/-- A reopening: the ticket, its line's place on the verify list and the report (R147, R155). -/
theorem reopen_eq {v : State} {u : Ticket} {a : Ticket} (s : State) (same : a.number = u.number)
    (tickets : v.tkt.tickets = s.tkt.tickets.map fun w => if w.number = a.number then a else w)
    (links : SameLinks s v) (now : v.now = s.now) :
    let desk : Option Desk := a.clearedBy.filter fun d => (s.port (deskPort d)).link = .up
    let reopened : Ticket := { a with
      state := if desk = none then .opened else .assigned, assignee := desk, clearedBy := none, clearedTime := none,
      reopens := min 255 (a.reopens + 1) }
    let others : Bool := s.tkt.tickets.any fun w => w.number ≠ u.number && w.line = a.line && w.state = .cleared
    v.reopen a = State.broadcast { v with tkt := { v.tkt with
      tickets := s.tkt.tickets.map fun w => if w.number = u.number then reopened else w
      verify := if others then v.tkt.verify else v.tkt.verify.filter fun l => l ≠ a.line } }
      (.ticketChange a.number a.line a.code reopened.state a.severity .reopened desk s.now) := by
  intro desk reopened others
  have desks : a.clearedBy.filter v.deskUp = desk := by
    refine congrArg (Option.filter · a.clearedBy) (funext fun d => ?_)
    rw [State.deskUp, links (deskPort d)]
  have written : v.putTicket reopened = { v with tkt := { v.tkt with
      tickets := s.tkt.tickets.map fun w => if w.number = u.number then reopened else w } } := by
    have twice := congrArg (fun z => z.tkt.tickets) (putTicket_putTicket s (a := a) (b := reopened) rfl)
    rw [← same]
    refine congrArg (fun l => ({ v with tkt := { v.tkt with tickets := l } } : State)) (Eq.trans ?_ twice)
    rw [tickets]
    rfl
  have notCleared : reopened.state ≠ .cleared := by
    show (if desk = none then TicketState.opened else .assigned) ≠ .cleared
    split <;> simp
  have review : (v.putTicket reopened).hasCleared a.line = others := by
    rw [written]
    have : (s.putTicket reopened).hasCleared a.line = others := hasCleared_putTicket notCleared same a.line
    rw [← this, State.hasCleared, State.hasCleared, ← same]
    rfl
  unfold State.reopen
  dsimp only
  rw [desks]
  show State.sendChange ((v.putTicket reopened).verifyReview a.line) reopened .reopened desk = _
  rw [State.verifyReview, review, written]
  cases others with
  | true => exact congrArg (fun t => State.broadcast _ (.ticketChange a.number a.line a.code reopened.state a.severity
      .reopened desk t)) now
  | false => exact congrArg (fun t => State.broadcast _ (.ticketChange a.number a.line a.code reopened.state a.severity
      .reopened desk t)) now

/-- A merge that reopens its ticket (R147). -/
theorem clearedBefore_eq_true (u : Ticket) (start : Stamp) : u.clearedBefore start = true ↔
    u.state = .cleared ∧ ∃ c, u.clearedTime = some c ∧ c.before start = true := by
  cases h : u.clearedTime <;> simp [Ticket.clearedBefore, h]

/-- Settles O42: a creation by the frame of its reports; a merge by whether its finding began after the clear. -/
theorem creationMakesTicket : Obligations.CreationMakesTicket := by
  refine ⟨?_, ?_⟩
  · intro s f canonical live severity room n t z
    obtain ⟨ports, cnt, made⟩ := createTicket_eq s f
    have taken : z = _ := (takeFinding_of_no_live live).trans
      ((if_neg severity).trans ((if_pos room : s.raiseTicket f = s.createTicket f).trans made))
    rw [taken]
    exact ⟨rfl, rfl, line_openCode_setUnticketed canonical, rfl, rfl, rfl, rfl, rfl, rfl⟩
  · intro s f t live i below raised worse merged desk reopened others put counted told reopens
    have sameCode := liveTicket_code live
    have isWorse : worse = t.worst.any fun a => f.value.any fun b => worseThan t.code b a := by
      rw [sameCode]
      cases hold : t.worst <;> cases hnew : f.value <;> simp only [worse, hold, hnew] <;>
        simp [worseThan, lowerIsWorse_iff]
    have isMerged : t.merged f s.now = merged := by
      have higher : t.severity.higher f.severity = if raised then f.severity else t.severity :=
        if_congr ((severityRank_lt ..).trans decide_eq_true_iff.symm) rfl rfl
      unfold Ticket.merged
      rw [mergeWorst_eq, higher, ← isWorse]
    have taken := (takeFinding_of_live live).trans (mergeFinding_of_lt (u := t) (f := f) below)
    rw [isMerged] at taken
    have escalated : (if raised then counted.sendChange merged .escalated none else counted) = told := by
      by_cases raise : raised = true
      · have severe : merged.severity = f.severity := if_pos raise
        refine (if_pos raise).trans (Eq.trans ?_ (if_pos raise).symm)
        rw [State.sendChange, Ticket.change, severe]
        rfl
      · exact (if_neg raise).trans (if_neg raise).symm
    have links : SameLinks s told := by
      rw [show told = if raised = true then _ else counted from rfl]
      split
      · exact sameLinks_broadcast _ counted
      · exact fun _ => rfl
    obtain ⟨ports, cnt, frame⟩ : ∃ ports cnt, told = { counted with ports := ports, cnt := cnt } := by
      rw [show told = if raised = true then _ else counted from rfl]
      split
      · exact ⟨_, _, (reportsOnly_broadcast _).frame counted⟩
      · exact ⟨_, _, rfl⟩
    refine ⟨fun no => taken.trans ((if_neg (mt (clearedBefore_eq_true ..).1 no)).trans escalated), fun yes => ?_⟩
    refine taken.trans ((if_pos ((clearedBefore_eq_true ..).2 yes)).trans ((congrArg (State.reopen · merged) escalated).trans
      ((reopen_eq (u := t) (a := merged) (v := told) s rfl (by rw [frame]) links (by rw [frame]; rfl)).trans ?_)))
    rw [frame]

end Sys2Proof
end

