-- ==== Sys2Proof/Proofs/ConfigurationRequests.lean ====
section
/-! PROOFS. CONFIG_LINES, CONFIG_CLASS, CONFIG_PROGRAM and the parameter requests (R12 to R15, R46, R111, R112, R132,
R162, R180). -/

namespace Sys2Proof

open Machine

variable {s : State} {p : Port} {q : Request}

/-! ## CONFIG_LINES -/

/-- The first line of a run that is not NORMAL (R14). -/
theorem find_lineRun {first count n : Nat} {bad : Nat → Bool} (within : first ≤ n ∧ n < first + count)
    (here : bad n = true) (before : ∀ m, first ≤ m → m < n → bad m = false) :
    (lineRun first count).find? bad = some n := by
  have found : (List.range count).find? (bad ∘ fun i => first + i) = some (n - first) := by
    refine List.find?_range_eq_some.2 ⟨?_, List.mem_range.2 (by omega), fun j lt => ?_⟩
    · rw [Function.comp, Nat.add_sub_cancel' within.1]
      exact here
    · rw [Function.comp, before (first + j) (Nat.le_add_right ..) (by omega)]
      rfl
  rw [lineRun, List.find?_map, found, Option.map_some, Nat.add_sub_cancel' within.1]

/-- The lines written before or after the request leaves its FIFO. -/
theorem writeLines_popRequest (c : Nat) (e : Bool) (lines : List Nat) (s : State) :
    (s.popRequest p).writeLines c e lines = (s.writeLines c e lines).popRequest p := by
  induction lines generalizing s with
  | nil => rfl
  | cons n rest ih => exact ih (s.setLine n ((s.line n).configured c e))

/-- The lines written change the line table alone. -/
theorem writeLines_frame (c : Nat) (e : Bool) (lines : List Nat) (s : State) :
    s.writeLines c e lines = { s with lrt := { s.lrt with lines := (s.writeLines c e lines).lrt.lines } } := by
  induction lines generalizing s with
  | nil => rfl
  | cons n rest ih => exact ih (s.setLine n ((s.line n).configured c e))

/-- Settles O45. -/
theorem configLinesWritesRun : Obligations.ConfigLinesWritesRun := by
  intro s p q asks hs wf first asked c count within
  have inSet (hfirst : first ≤ 2047) (hc : c ≤ 7) : ¬ (¬ isLine first = true ∨ 7 < c) := by
    rintro (notLine | big)
    · exact notLine (decide_eq_true (Nat.lt_succ_of_le hfirst))
    · omega
  have unlocked (flag : field q.payload 5 1 ≤ 1) (hfirst : first ≤ 2047) (hc : c ≤ 7) {t : State}
      (run : ∀ bad, bad = (lineRun first count).find? (fun n => (s.line n).access ≠ .normal) →
        (match bad with
        | some n => (s.popRequest p).answer p q (.refused .inUse) (u16 n)
        | none =>
          if s.op = .operational ∧ decide (field q.payload 5 1 = 1) = true ∧
              (s.program (s.cls c).program).isEmpty = true then (s.popRequest p).refuse p q .emptyProgram
          else ((s.popRequest p).writeLines c (decide (field q.payload 5 1 = 1)) (lineRun first count)).ok p q
            (count ≠ asked) (u16 first ++ u16 count)) = t) :
      configLines p q (s.popRequest p) = t := by
    rw [configLines, flagOf_le flag]
    exact (if_neg (inSet hfirst hc)).trans (run _ rfl)
  refine ⟨fun bad => ?_, fun hfirst hc flag n inRun busy free => ?_, fun hfirst hc flag free programmed => ?_⟩
  · refine next_of_asks asks ?_ hs
    unfold configLines
    dsimp only
    split
    · exact refuse_popRequest ..
    next equipped hflag =>
      refine (if_pos ?_).trans (refuse_popRequest ..)
      rcases bad with high | high | high
      · exact .inl fun isL => absurd (of_decide_eq_true isL) (Nat.not_lt.2 high)
      · exact .inr high
      · rw [flagOf_none.2 high] at hflag
        exact absurd hflag (by simp)
  · refine next_of_asks asks (unlocked flag hfirst hc fun bad hbad => ?_) hs
    rw [find_lineRun inRun (decide_eq_true busy) fun m le lt => decide_eq_false (not_not.2 (free m le lt))] at hbad
    rw [hbad]
    exact answer_popRequest ..
  · let t := s.writeLines c (decide (field q.payload 5 1 = 1)) (lineRun first count)
    have frame : t = { s with lrt := { s.lrt with lines := t.lrt.lines } } := writeLines_frame ..
    have settled : Settled t := by
      rw [frame]
      exact hs
    refine ⟨t, next_of_asks asks (unlocked flag hfirst hc fun bad hbad => ?_) settled, frame, fun n inRun => ?_,
      fun n notInRun => ?_⟩
    · rw [List.find?_eq_none.2 fun n mem => by simpa using free n (mem_lineRun.1 mem)] at hbad
      rw [hbad]
      refine (if_neg fun ⟨op, on, empty⟩ => programmed op (of_decide_eq_true on) (List.isEmpty_iff.1 empty)).trans ?_
      rw [writeLines_popRequest]
      exact ok_popRequest ..
    · exact (writeLines_line _ _ _ _ wf n).trans (if_pos (mem_lineRun.2 inRun))
    · exact (writeLines_line _ _ _ _ wf n).trans (if_neg (mt mem_lineRun.1 notInRun))

/-! ## CONFIG_CLASS -/

/-- What does not read as an unlisted entry stands in the table. -/
theorem mem_of_readTable_ne {α : Type} {d : Nat → α} {t : Table α} {k : Nat} (listed : readTable d t k ≠ d k) :
    (k, readTable d t k) ∈ t := by
  induction t with
  | nil => exact absurd rfl listed
  | cons entry rest ih =>
    obtain ⟨j, v⟩ := entry
    by_cases same : j = k
    · rw [readTable, if_pos same, same]
      exact List.mem_cons_self
    · rw [readTable, if_neg same] at listed ⊢
      exact List.mem_cons_of_mem _ (ih listed)

/-- A class is used by a line of the table, or by none (R2). -/
theorem classUsed_iff (w : Canonical s) (c : Nat) :
    s.classUsed c = true ↔ ∃ n, (s.line n).equipped = true ∧ (s.line n).cls = c := by
  rw [State.classUsed, List.any_eq_true]
  constructor
  · rintro ⟨⟨n, r⟩, mem, used⟩
    have reads : s.line n = r := (readTable_of_mem w.lines mem).1
    rw [Bool.and_eq_true, decide_eq_true_eq] at used
    exact ⟨n, by rw [reads]; exact used.1, by rw [reads]; exact used.2⟩
  · rintro ⟨n, equipped, cls⟩
    refine ⟨(n, s.line n), mem_of_readTable_ne (d := fun _ => LineRecord.fresh) fun fresh => ?_, ?_⟩
    · rw [show s.line n = LineRecord.fresh from fresh] at equipped
      exact Bool.noConfusion equipped
    · rw [Bool.and_eq_true, decide_eq_true_eq]
      exact ⟨equipped, cls⟩

/-- Settles O46. -/
theorem configClassWritesEntry : Obligations.ConfigClassWritesEntry := by
  intro s p q asks hs w c e km inSet inRange ordered wouldIdle
  have flag : (flagOf (field q.payload 1 1)).isNone = true ↔ 1 < field q.payload 1 1 := by
    rw [Option.isNone_iff_eq_none, flagOf_none]
  have set : (7 < c ∨ 7 < e.program ∨ (flagOf (field q.payload 1 1)).isNone = true) ↔ ¬ inSet := by
    rw [flag]
    show _ ↔ ¬ (c ≤ 7 ∧ e.program ≤ 7 ∧ field q.payload 1 1 ≤ 1)
    omega
  have range : e.inRange = true ↔ inRange := decide_eq_true_iff
  have order : e.consistent = true ↔ ordered := decide_eq_true_iff
  have clamped : decide (e.bound ≠ e) = decide (km ≠ e.capPerKm) := by
    refine decide_eq_decide.2 (not_congr ⟨fun same => congrArg ClassEntry.capPerKm same, fun same => ?_⟩)
    show ({ e with capPerKm := km } : ClassEntry) = e
    rw [same]
  have idles : (s.op = .operational ∧ s.classUsed c = true ∧ (s.program e.program).isEmpty = true) ↔ wouldIdle := by
    rw [classUsed_iff w, List.isEmpty_iff]
  refine ⟨fun bad => next_of_asks asks ?_ hs, fun ⟨set', range', order'⟩ idle => next_of_asks asks ?_ hs,
    fun ⟨set', range', order'⟩ busy => next_of_asks asks ?_ hs⟩
  · unfold configClass
    dsimp only
    split
    next => exact refuse_popRequest ..
    next hset =>
      split
      next => exact refuse_popRequest ..
      next hrange =>
        refine (if_pos fun hordered => bad ⟨?_, range.1 (not_not.1 hrange), order.1 hordered⟩).trans
          (refuse_popRequest ..)
        exact not_not.1 (mt set.2 hset)
  · exact (if_neg (mt set.1 (not_not.2 set'))).trans ((if_neg (not_not.2 (range.2 range'))).trans
      ((if_neg (not_not.2 (order.2 order'))).trans ((if_pos (idles.2 idle)).trans (refuse_popRequest ..))))
  · exact (if_neg (mt set.1 (not_not.2 set'))).trans ((if_neg (not_not.2 (range.2 range'))).trans
      ((if_neg (not_not.2 (order.2 order'))).trans ((if_neg (mt idles.1 busy)).trans
        ((ok_popRequest (s.setCls c e.bound) ..).trans (by rw [clamped]; rfl)))))

/-! ## CONFIG_PROGRAM -/

/-- An N as the table holds it: the least of the set at or above it, at most 1024 (R112). -/
theorem raiseN_spec (m : Nat) : raiseN m ∈ [16, 64, 256, 1024] ∧ (1024 < m → raiseN m = 1024) ∧
    (m ≤ 1024 → m ≤ raiseN m ∧ ∀ w ∈ [16, 64, 256, 1024], m ≤ w → raiseN m ≤ w) := by
  simp only [List.mem_cons, List.not_mem_nil, or_false, forall_eq_or_imp, forall_eq]
  unfold raiseN
  split
  · omega
  · split
    · omega
    · split <;> omega

theorem programInUse_iff (n : Nat) : s.programInUse n = true ↔ (∃ b x, s.ctx b = some x ∧ x.program = n) ∨
    ∃ b, (s.bus b).state = .connecting ∧ (s.bus b).program = some n := by
  have all (b : Bus) : b ∈ allBuses := by cases b <;> simp [allBuses]
  simp only [State.programInUse, List.any_eq_true, all, true_and, Bool.or_eq_true, Option.any_eq_true,
    decide_eq_true_eq, Bool.and_eq_true, exists_or]

theorem beginsWithFv_iff (steps : List ProgramStep) :
    beginsWithFv steps = true ↔ steps = [] ∨ ∃ m, steps.head? = some (.fv m) := by
  cases steps with
  | nil => simp [beginsWithFv]
  | cons step rest => cases step <;> simp [beginsWithFv]

/-- CONFIG_PROGRAM of a step list that is well formed, of a program number and a length within their sets. -/
theorem configProgram_of {steps : List ProgramStep} (read : stepsOf (field q.payload 1 1) (q.payload.drop 2) = some steps)
    (number : field q.payload 0 1 ≤ 7) (length : field q.payload 1 1 ≤ 12) :
    let n := field q.payload 0 1
    let stored := steps.map boundStep
    configProgram p q (s.popRequest p) =
      if ¬ beginsWithFv steps = true then answered s p q (.refused .badProgram) []
      else if s.programInUse n = true then answered s p q (.refused .inUse) []
      else if s.op = .operational ∧ steps.isEmpty = true ∧ s.routineProgramUsed n = true then
        answered s p q (.refused .emptyProgram) []
      else answered (s.setProgram n stored) p q (okOutcome (stored ≠ steps)) (listBytes programStepBytes stored) := by
  intro n stored
  rw [configProgram, read]
  refine (if_neg (by omega)).trans ?_
  rw [← refuse_popRequest, ← refuse_popRequest, ← refuse_popRequest, ← ok_popRequest]
  rfl

/-- Settles O47. -/
theorem configProgramReplaces : Obligations.ConfigProgramReplaces := by
  intro s p q asks hs n count read inUse raised
  refine ⟨fun bad => next_of_asks asks ?_ hs, ?_⟩
  · unfold configProgram
    dsimp only
    split
    · exact refuse_popRequest ..
    next steps hsteps =>
      refine (if_pos ?_).trans (refuse_popRequest ..)
      exact bad.resolve_left fun malformed => absurd (malformed.symm.trans hsteps) (by simp)
  intro steps hread number length stored
  refine ⟨fun noFv nonempty => ?_, fun fv used => ?_, fun fits free => ⟨?_, List.length_map .., fun i a b ha hb => ?_⟩⟩
  · refine next_of_asks asks ((configProgram_of hread number length).trans (if_pos fun fv => ?_)) hs
    rcases (beginsWithFv_iff steps).1 fv with empty | ⟨m, head⟩
    · exact nonempty empty
    · exact noFv m head
  · exact next_of_asks asks ((configProgram_of hread number length).trans
      ((if_neg (not_not.2 ((beginsWithFv_iff steps).2 fv))).trans (if_pos ((programInUse_iff n).2 used)))) hs
  · have fv : beginsWithFv steps = true := (beginsWithFv_iff steps).2 (fits.symm.imp_left And.left)
    have allowed : ¬ (s.op = .operational ∧ steps.isEmpty = true ∧ s.routineProgramUsed n = true) := by
      rintro ⟨op, empty, -⟩
      rcases fits with ⟨m, head⟩ | ⟨-, config⟩
      · rw [List.isEmpty_iff.1 empty] at head
        exact absurd head (by simp)
      · rw [op] at config
        exact OperState.noConfusion config
    refine next_of_asks asks ((configProgram_of hread number length).trans ((if_neg (not_not.2 fv)).trans
      ((if_neg (mt (programInUse_iff n).1 free)).trans ((if_neg allowed).trans ?_)))) hs
    rw [listBytes, List.length_map]
  · have bounded : b = boundStep a := by
      rw [show stored = steps.map boundStep from rfl, List.getElem?_map, ha] at hb
      exact (Option.some.inj hb).symm
    cases a with
    | fv m => exact ⟨raiseN m, raiseN_spec m, bounded⟩
    | res pair level range m => exact ⟨raiseN m, raiseN_spec m, bounded⟩
    | cap level m => exact ⟨raiseN m, raiseN_spec m, bounded⟩
    | wait ms => exact bounded.trans (congrArg ProgramStep.wait (clampNat_eq (by decide)))

/-! ## The parameter requests -/

/-- Settles O48: each parameter as the model clamps it is the value brought into its range. -/
theorem parametersClampedAndWritten : Obligations.ParametersClampedAndWritten := by
  intro s p q hs at1 at2 into
  refine ⟨fun asks => ?_, fun asks => ?_, fun asks => ?_, fun asks => ?_⟩
  · intro t
    have written : (prioritiesOf q.payload).bound = t := by
      simp only [Priorities.bound, clampNat_eq (Nat.zero_le _), Nat.zero_max]
      rfl
    refine next_of_asks asks (Eq.trans ?_ (ok_popRequest { s with gar := { s.gar with prio := t } } ..)) hs
    rw [configPriority, written]
    rfl
  · intro t
    have written : (routineParamsOf q.payload).bound = t := by
      simp only [RoutineParams.bound, clampNat_eq (Nat.zero_le _), clampNat_eq (show 1 ≤ 8 by decide),
        clampNat_eq (show 60 ≤ 10080 by decide), clampNat_eq (show 1 ≤ 50 by decide),
        clampNat_eq (show 1 ≤ 60 by decide), Nat.zero_max]
      rfl
    refine next_of_asks asks (Eq.trans ?_ (ok_popRequest { s with rts := { s.rts with params := t } } ..)) hs
    rw [configRoutine, written]
    rfl
  · intro sIn t
    have written : (stormParamsOf q.payload).bound = t := by
      simp only [StormParams.bound, clampNat_eq (show 2 ≤ 255 by decide), clampNat_eq (Nat.zero_le _),
        clampNat_eq (show 10 ≤ 600 by decide), clampNat_eq (show 1 ≤ 60 by decide), Nat.zero_max]
      rfl
    refine next_of_asks asks (Eq.trans ?_ (ok_popRequest { s with tkt := { s.tkt with params := t } } ..)) hs
    rw [configStorm, written]
    rfl
  · intro t
    have written : (timeParamsOf q.payload).bound = t := by
      simp only [TimeParams.bound, clampNat_eq (show 30 ≤ 600 by decide), clampNat_eq (show 10 ≤ 1800 by decide),
        clampNat_eq (show 5 ≤ 500 by decide)]
      rfl
    refine next_of_asks asks (Eq.trans ?_ (ok_popRequest
      { s with acc := { s.acc with holdTime := t.hold, toneLimit := t.toneLimit },
               mc := { s.mc with settle1 := t.settle1, settle2 := t.settle2, settle3 := t.settle3 } } ..))
      hs
    rw [configTimes, written]
    rfl

end Sys2Proof
end

