-- ==== Sys2Proof/Proofs/OperatingRequests.lean ====
section
/-! PROOFS. CHANNEL_SET, CONFIG_COMMIT, ROUTINE_START, ROUTINE_STOP, RESTART, COUNTERS_CLEAR and SUBSCRIBE (R58, R81, R82,
R131, R133, R144, R162, R168, R170, R176, R181, R182). -/

namespace Sys2Proof

open Machine

variable {s t : State} {p : Port} {q : Request} {c : Channel}

/-! ## Arbitrations that find nothing to do -/

/-- In CONFIG an arbitration that is due does nothing (R47). -/
theorem settle_due_of_config (h : Settled s) (op : s.op = .config) : s.arbitrationDue.settle = s := by
  have configured : s.arbitrationDue.op = .config := op
  rw [State.settle, serveWaiting_of_none (s := s.arbitrationDue) _ h.2, State.arbitrate, configured,
    if_neg (fun both => OperState.noConfusion both.2)]
  exact clearDue_of_not_due h.1

/-- Without a claimant, and the service-ratio counter at 0, an arbitration changes nothing in either operating state. -/
theorem settle_due_of_unclaimed (h : Settled s) (n : NoClaimant s) (zero : s.gar.ratio = 0) :
    s.arbitrationDue.settle = s := by
  cases op : s.op with
  | config => exact settle_due_of_config h op
  | operational => exact settle_due_of_noClaimant h n op zero

/-! ## Channels in service (R54, R57) -/

theorem served_ne_zero (h : (s.chan c).inService = true) : s.served ≠ 0 := fun zero => served_ne.1 zero c h

/-- The review of the channels in service where one is in service before and after. -/
theorem serviceReview_of_serving {before : Nat} (h : before ≠ 0) (h' : t.served ≠ 0) : t.serviceReview before = t := by
  rw [State.serviceReview, if_neg fun both => h both.1, if_neg fun both => h' both.2]

/-- The review where a loss of service aborts nothing and none begins. -/
theorem serviceReview_of_no_gain {before : Nat} (gain : before = 0 → t.served = 0)
    (loss : before ≠ 0 → t.served = 0 → t.gar.waiting = []) : t.serviceReview before = t := by
  rw [State.serviceReview, if_neg fun both => both.2 (gain both.1)]
  split
  next lost =>
    rw [loss lost.1 lost.2]
    rfl
  next => rfl

/-- The review where a gain of service is at most work to offer. -/
theorem serviceReview_of_no_loss {before : Nat} (kept : before ≠ 0 → t.served ≠ 0) :
    t.serviceReview before = t ∨ t.serviceReview before = t.arbitrationDue := by
  rw [State.serviceReview]
  split
  next => exact .inr rfl
  next =>
    rw [if_neg fun both => kept both.1 both.2]
    exact .inl rfl

theorem served_setChan_ne_zero {r : ChannelRecord} (kept : (s.chan c).inService = true → r.inService = true)
    (h : s.served ≠ 0) : (s.setChan c r).served ≠ 0 := by
  obtain ⟨d, hd⟩ := not_forall.1 (mt served_ne.2 h)
  refine served_ne_zero (c := d) ?_
  rw [State.setChan_chan]
  split
  next same => exact kept (same ▸ not_not.1 hd)
  next => exact not_not.1 hd

theorem served_setChan_eq_zero {r : ChannelRecord} (out : r.inService = false) (h : s.served = 0) :
    (s.setChan c r).served = 0 := by
  refine served_ne.2 fun d => ?_
  rw [State.setChan_chan]
  split
  · rw [out]
    exact Bool.false_ne_true
  · exact served_ne.1 h d

/-! ## CHANNEL_SET -/

/-- The command that takes a CHANNEL_SET, by its value (log 25). -/
theorem setsDisable_iff (asks : Asks s p .channelSet q) : setsDisable q = true ↔ field q.payload 1 1 = 0 := by
  obtain ⟨-, -, passed⟩ := asks
  have length : lengthOk .channelSet q.payload = true := by
    by_contra short
    rw [gate_eq, if_pos short] at passed
    split_ifs at passed
  obtain ⟨a, b, two⟩ := List.length_eq_two.1 (of_decide_eq_true length)
  rw [setsDisable, two, decide_eq_true_iff]
  show some b = some 0 ↔ 0 * 256 + b.toNat = 0
  rw [Nat.zero_mul, Nat.zero_add, Option.some_inj]
  exact ⟨fun h => by rw [h]; rfl, fun h => BitVec.eq_of_toNat_eq h⟩

theorem exec_channelSetEnable (asks : Asks s p .channelSet q) (value : field q.payload 1 1 = 1) :
    exec (.channelSetEnable p) s = .next (channelSetEnable p q (s.popRequest p)).settle := by
  have enables : (!setsDisable q) = true := by
    rw [Bool.not_eq_true', ← Bool.not_eq_true]
    exact mt (setsDisable_iff asks).1 (by omega)
  exact congrArg (fun z => Host.Outcome.next (State.settle z))
    (serveWhere_of_asks (test := fun q => !setsDisable q) channelSetEnable asks enables)

theorem exec_channelSetDisable (asks : Asks s p .channelSet q) (value : field q.payload 1 1 = 0) :
    exec (.channelSetDisable p) s = .next (channelSetDisable p q (s.popRequest p)).settle :=
  congrArg (fun z => Host.Outcome.next (State.settle z))
    (serveWhere_of_asks (test := setsDisable) channelSetDisable asks ((setsDisable_iff asks).2 value))

/-- An enable takes no channel out of service. -/
theorem inService_enabled (op : OperState) (r : ChannelRecord) (h : r.inService = true) : (r.enabled op).inService = true := by
  obtain ⟨-, pending, serving⟩ := (inService_iff r).1 h
  refine (inService_iff _).2 ?_
  unfold ChannelRecord.enabled
  dsimp only
  split
  · exact ⟨rfl, pending, serving⟩
  · rcases serving with st | st | st | st <;> simp [st, pending]

theorem answered_setChan (v : ChannelRecord) : ((s.popRequest p).setChan c v).okChannel p q c =
    answered (s.setChan c v) p q .ok (u8 (channelStateCode v.state) ++ flagByte v.disablePending) := by
  have chan : ((s.popRequest p).setChan c v).chan c = v := by rw [State.setChan_chan, if_pos rfl]
  rw [State.okChannel, chan]
  exact ok_popRequest (s.setChan c v) ..

/-- An enable, where what it gains is no work to offer. -/
theorem exec_enable (asks : Asks s p .channelSet q) (hs : Settled s) (hc : channelOf (field q.payload 0 1) = some c)
    (value : field q.payload 1 1 = 1)
    (calm : (∃ d, d ≠ c ∧ (s.chan d).inService = true) ∨ NoIdleBus s ∨ s.op = .config) {v : ChannelRecord}
    (enabled : (s.chan c).enabled s.op = v) (ready : v.state = .ready → (s.chan c).state = .ready) :
    exec (.channelSetEnable p) s =
      .next (answered (s.setChan c v) p q .ok (u8 (channelStateCode v.state) ++ flagByte v.disablePending)) := by
  let u : State := (s.popRequest p).setChan c v
  let z : State := answered (s.setChan c v) p q .ok (u8 (channelStateCode v.state) ++ flagByte v.disablePending)
  have settled : Settled z := settled_setChan' hs ready
  have taken : channelSetEnable p q (s.popRequest p) = (u.serviceReview (s.popRequest p).served).okChannel p q c := by
    rw [channelSetEnable, hc, flagOf_one.2 value]
    show (((s.popRequest p).setChan c ((s.chan c).enabled s.op)).serviceReview _).okChannel p q c = _
    rw [enabled]
  have answer : u.okChannel p q c = z := answered_setChan v
  have kept : s.served ≠ 0 → u.served ≠ 0 :=
    served_setChan_ne_zero (s := s.popRequest p) (enabled ▸ inService_enabled s.op (s.chan c))
  rw [exec_channelSetEnable asks value, taken]
  refine congrArg Host.Outcome.next ?_
  rcases serviceReview_of_no_loss kept with same | due
  · exact (congrArg (fun w => (State.okChannel w p q c).settle) same).trans
      ((congrArg State.settle answer).trans (settle_of_settled settled))
  · rcases calm with ⟨d, apart, serving⟩ | busy | config
    · have others : s.served ≠ 0 := served_ne_zero serving
      exact (congrArg (fun w => (State.okChannel w p q c).settle) (serviceReview_of_serving others (kept others))).trans
        ((congrArg State.settle answer).trans (settle_of_settled settled))
    · exact (congrArg (fun w => (State.okChannel w p q c).settle) due).trans
        ((congrArg (fun w => (State.arbitrationDue w).settle) answer).trans (settle_due_of_noIdleBus settled busy))
    · exact (congrArg (fun w => (State.okChannel w p q c).settle) due).trans
        ((congrArg (fun w => (State.arbitrationDue w).settle) answer).trans (settle_due_of_config settled config))

/-- A disable leaves the channel out of service. -/
theorem inService_disabled (r : ChannelRecord) : r.disabled.inService = false := by
  unfold ChannelRecord.disabled
  dsimp only
  split <;> simp [ChannelRecord.inService, ChannelRecord.atRest]

/-- What a disable leads to, where no waiting run loses the last channel in service. -/
theorem exec_disable (asks : Asks s p .channelSet q) (hs : Settled s) (hc : channelOf (field q.payload 0 1) = some c)
    (value : field q.payload 1 1 = 0)
    (calm : (∃ d, d ≠ c ∧ (s.chan d).inService = true) ∨ s.gar.waiting = [] ∨ (s.chan c).state = .off) {v : ChannelRecord}
    (disabled : (s.chan c).disabled = v) (ready : v.state ≠ .ready) :
    let u := (s.popRequest p).setChan c v
    exec (.channelSetDisable p) s = .next ((if (s.chan c).state ≠ .off ∧ v.state = .off then
      u.broadcast (.channel c .off .disabled) else u).okChannel p q c) := by
  intro u
  let w : State := if (s.chan c).state ≠ .off ∧ v.state = .off then u.broadcast (.channel c .off .disabled) else u
  obtain ⟨ports, cnt, frame⟩ : ∃ ports cnt, w = { u with ports := ports, cnt := cnt } := by
    rw [show w = if (s.chan c).state ≠ .off ∧ v.state = .off then u.broadcast (.channel c .off .disabled) else u from rfl]
    split
    · exact ⟨_, _, (reportsOnly_broadcast _).frame u⟩
    · exact ⟨_, _, rfl⟩
  have settled : Settled u := settled_setChan' (s := s.popRequest p) hs fun h => absurd h ready
  have review : w.serviceReview (s.popRequest p).served = w := by
    refine serviceReview_of_no_gain (fun none => ?_) ?_
    · rw [frame]
      exact served_setChan_eq_zero (s := s.popRequest p) (c := c) (disabled ▸ inService_disabled _) none
    · rw [frame]
      intro before after
      have others (d : Channel) (apart : d ≠ c) (serving : (s.chan d).inService = true) : False := by
        refine served_ne.1 after d ?_
        show (((s.popRequest p).setChan c v).chan d).inService = true
        rw [State.setChan_chan, if_neg apart]
        exact serving
      rcases calm with ⟨d, apart, serving⟩ | waiting | off
      · exact (others d apart serving).elim
      · exact waiting
      · obtain ⟨d, hd⟩ := not_forall.1 (mt served_ne.2 before)
        refine (others d (fun same => ?_) (not_not.1 hd)).elim
        have serving := ((inService_iff _).1 (not_not.1 hd)).2.2
        rw [same, show (s.popRequest p).chan c = s.chan c from rfl, off] at serving
        simp at serving
  have taken : channelSetDisable p q (s.popRequest p) = (w.serviceReview (s.popRequest p).served).okChannel p q c := by
    rw [channelSetDisable, hc]
    show State.okChannel (State.serviceReview (s.popRequest p).served
      (if (s.chan c).state ≠ .off ∧ (s.chan c).disabled.state = .off then
        ((s.popRequest p).setChan c (s.chan c).disabled).tellChannel c .off .disabled
      else (s.popRequest p).setChan c (s.chan c).disabled)) p q c = _
    rw [disabled]
    rfl
  rw [exec_channelSetDisable asks value, taken, review]
  refine congrArg Host.Outcome.next (settle_of_settled ?_)
  rw [frame]
  exact settled

/-- Settles O49: by the channel's state, an enable and a disable each with what they leave of the channel. -/
theorem channelSetTable : Obligations.ChannelSetTable := by
  intro s p q c asks hs hc other r rest onOk
  refine ⟨fun value op => ?_, fun value op calm => ?_, fun value off => ?_, fun value busy calm => ?_,
    fun value on apart calm => ?_⟩
  · refine exec_enable asks hs hc value (.inr (.inr op)) ?_ id
    rw [op]
    rfl
  · have operational : ¬ s.op = .config := by
      rw [op]
      exact OperState.noConfusion
    have run {v : ChannelRecord} (enabled : r.enabled s.op = v) (ready : v.state = .ready → r.state = .ready) :
        exec (.channelSetEnable p) s = onOk v :=
      exec_enable asks hs hc value (calm.imp_right .inl) enabled ready
    have enabled : r.enabled s.op = match r.state with
        | .off | .faulted => { rest with enable := true, state := .warming, stage := 0, timer := 10 }
        | .busy => { r with enable := true, disablePending := false }
        | .warming | .calibrating | .ready => { r with enable := true } := by
      refine (if_neg operational).trans ?_
      cases st : r.state <;> rfl
    refine run enabled ?_
    cases st : r.state <;> simp
  · have disabled : r.disabled = { r with enable := false } := by
      unfold ChannelRecord.disabled
      rw [show ({ r with enable := false } : ChannelRecord).state = .off from off]
    refine (exec_disable asks hs hc value (.inr (.inr off)) disabled ?_).trans (congrArg Host.Outcome.next ?_)
    · rw [show ({ r with enable := false } : ChannelRecord).state = .off from off]
      exact ChannelState.noConfusion
    · rw [if_neg fun left => left.1 off]
      exact answered_setChan _
  · have disabled : r.disabled = { r with enable := false, disablePending := true } := by
      unfold ChannelRecord.disabled
      rw [show ({ r with enable := false } : ChannelRecord).state = .busy from busy]
    have still : ({ r with enable := false, disablePending := true } : ChannelRecord).state = .busy := busy
    refine (exec_disable asks hs hc value (calm.imp_right .inl) disabled ?_).trans (congrArg Host.Outcome.next ?_)
    · rw [still]
      exact ChannelState.noConfusion
    · rw [still, if_neg fun left => ChannelState.noConfusion left.2]
      exact answered_setChan _
  · let v : ChannelRecord := { rest with enable := false, state := .off, stage := 0 }
    have disabled : r.disabled = v := by
      unfold ChannelRecord.disabled
      dsimp only
      cases st : r.state with
      | off => exact absurd st on
      | busy => exact absurd st apart
      | _ => rfl
    let n : Notice := .channel c .off .disabled
    let u := (s.popRequest p).setChan c v
    have taken := exec_disable asks hs hc value (calm.imp_right .inl) disabled ChannelState.noConfusion
    have told : (if (s.chan c).state ≠ .off ∧ v.state = .off then u.broadcast n else u) = u.broadcast n := if_pos ⟨on, rfl⟩
    have frame : u.broadcast n = { u with ports := (u.broadcast n).ports, cnt := (u.broadcast n).cnt } :=
      (reportsOnly_broadcast n).frame u
    have ports : (u.broadcast n).ports = ((s.popRequest p).broadcast n).ports :=
      (reportsOnly_broadcast n).ports_eq rfl rfl rfl
    have chan : (u.broadcast n).chan c = v := by
      rw [frame]
      exact (State.setChan_chan ..).trans (if_pos rfl)
    have answer : (u.broadcast n).okChannel p q c = (u.broadcast n).ok p q false (u8 0 ++ flagByte r.disablePending) := by
      rw [State.okChannel, chan]
      rfl
    refine ⟨_, taken.trans (congrArg Host.Outcome.next ((congrArg (State.okChannel · p q c) told).trans answer)), ?_, ?_, ?_⟩
    · rw [frame]
      rfl
    · show ((u.broadcast n).ports.set p (((u.broadcast n).ports.get p).withReply _)) = _
      rw [ports]
      rfl
    · rw [frame]
      exact ⟨rfl, rfl, rfl, rfl, rfl, rfl, rfl⟩

/-! ## CONFIG_COMMIT -/

/-- A class that equipped lines have and whose routine program is empty (R181). -/
theorem classFails_iff (w : Canonical s) (n : Nat) :
    (s.classUsed n && (s.program (s.cls n).program).isEmpty) = true ↔
      (∃ m, (s.line m).equipped = true ∧ (s.line m).cls = n) ∧ s.program (s.cls n).program = [] := by
  rw [Bool.and_eq_true, classUsed_iff w, List.isEmpty_iff]

theorem configCommit_of_config (op : s.op = .config) {fails : Option Nat} (h : s.failingClass = fails) :
    configCommit p q (s.popRequest p) = fails.elim (answered s p q .ok []).enterOperational fun n =>
      answered s p q (.refused .badConfig) (u8 n ++ u8 (s.cls n).program) := by
  have configured : ¬ (s.popRequest p).op = .operational := by
    rw [show (s.popRequest p).op = s.op from rfl, op]
    exact OperState.noConfusion
  have same : (s.popRequest p).failingClass = fails := h
  rw [configCommit, if_neg configured, same]
  cases fails with
  | none => exact congrArg State.enterOperational (ok_popRequest ..)
  | some n => exact answer_popRequest ..

/-- Entry to OPERATIONAL, with no claim queued and no run waiting: the channels that gain service leave no work to
offer (R181). -/
theorem settle_enterOperational (hs : Settled s) (unclaimed : NoClaimant s) (zero : s.gar.ratio = 0)
    (waiting : s.gar.waiting = []) : s.enterOperational.settle = { s with
      op := .operational
      mc := { s.mc with chans := ⟨s.mc.chans.mc0.commit, s.mc.chans.mc1.commit⟩ }
      tkt := { s.tkt with window := some (s.tkt.params.window * 1000) } } := by
  let u : State := { s with
    op := .operational
    mc := { s.mc with chans := ⟨s.mc.chans.mc0.commit, s.mc.chans.mc1.commit⟩ }
    tkt := { s.tkt with window := some (s.tkt.params.window * 1000) } }
  have settled : Settled u := ⟨hs.1, .inl waiting⟩
  have entered : s.enterOperational = u.serviceReview s.served := rfl
  rw [entered, State.serviceReview]
  split
  · exact settle_due_of_unclaimed settled unclaimed zero
  · split
    · rw [show u.gar.waiting = [] from waiting]
      exact settle_of_settled settled
    · exact settle_of_settled settled

/-- Settles O50. -/
theorem commitEntersOperational : Obligations.CommitEntersOperational := by
  intro s p q asks hs w emptyProgram warmed
  refine ⟨fun op => next_of_asks asks ((if_pos op).trans (refuse_popRequest ..)) hs, fun c config small empty first => ?_,
    fun config full unclaimed zero waiting => ?_⟩
  · have found : s.failingClass = some c := by
      refine List.find?_range_eq_some.2 ⟨(classFails_iff w c).2 empty, List.mem_range.2 small, fun d lt => ?_⟩
      rw [Bool.not_eq_true', ← Bool.not_eq_true]
      exact mt (classFails_iff w d).1 (first d lt)
    exact next_of_asks asks (configCommit_of_config config found) hs
  · have found : s.failingClass = none :=
      List.find?_eq_none.2 fun c mem => mt (classFails_iff w c).1 (full c (List.mem_range.1 mem))
    refine next_of_served asks ((congrArg State.settle (configCommit_of_config config found)).trans
      ((settle_enterOperational (s := answered s p q .ok []) hs unclaimed zero waiting).trans rfl))

/-! ## ROUTINE_START and ROUTINE_STOP -/

/-- A holding condition holds (R131). -/
theorem held_iff : s.held = true ↔ s.tkt.storm = .storm ∨ (s.port .p0).link = .down := by
  rw [State.held, Bool.or_eq_true, decide_eq_true_iff, decide_eq_true_iff]

theorem held_popRequest : (s.popRequest p).held = s.held := by
  have link : ((s.popRequest p).port .p0).link = (s.port .p0).link := by
    rw [State.popRequest, State.setPort_port]
    split
    next same => rw [same]
    next => rfl
  rw [State.held, State.held, link]
  rfl

/-- A start, once the scheduler has its new state: a sweep starts where none is under way and no period timer runs
(R133); the work it offers finds no IDLE bus. -/
theorem settle_routineStart {st : SchedState} {u : State} (hs : Settled s) (busy : NoIdleBus s)
    (started : u = { s.popRequest p with rts := { s.rts with state := st } } ∨
      u = State.arbitrationDue { s.popRequest p with rts := { s.rts with state := st } }) :
    let ms := s.rts.params.period * 60000
    let r : RoutineScheduler := { s.rts with state := st }
    let t := if u.rts.phase = .between ∧ u.rts.period = none then u.sweepStart else u
    (t.ok p q false (u8 (schedCode t.rts.state))).settle = answered { s with
      rts := if r.phase = .between ∧ r.period = none then
        { r with phase := .inSweep, start := some s.now, counts := ⟨0, 0, 0, 0, 0, 0⟩, late := false,
                 period := some ⟨ms, ms⟩ } else r } p q .ok (u8 (schedCode st)) := by
  intro ms r t
  have rts : u.rts = r := by rcases started with rfl | rfl <;> rfl
  by_cases due : r.phase = .between ∧ r.period = none
  · let x : State := { s with rts := { r with phase := .inSweep, start := some s.now, counts := ⟨0, 0, 0, 0, 0, 0⟩,
                                              late := false, period := some ⟨ms, ms⟩ } }
    have swept : t = (x.popRequest p).arbitrationDue := by
      rw [show t = if u.rts.phase = .between ∧ u.rts.period = none then u.sweepStart else u from rfl, rts, if_pos due]
      rcases started with rfl | rfl <;> rfl
    rw [swept, if_pos due]
    exact (congrArg (fun z => State.settle (State.arbitrationDue z)) (ok_popRequest x ..)).trans
      (settle_due_of_noIdleBus (settled_congr hs rfl rfl rfl) busy)
  · have kept : t = u := by
      rw [show t = if u.rts.phase = .between ∧ u.rts.period = none then u.sweepStart else u from rfl, rts, if_neg due]
    rw [kept, if_neg due, rts]
    have answer := ok_popRequest { s with rts := r } p q false (u8 (schedCode st))
    rcases started with rfl | rfl
    · exact (congrArg State.settle answer).trans (settle_of_settled (settled_congr hs rfl rfl rfl))
    · exact (congrArg (fun z => State.settle (State.arbitrationDue z)) answer).trans
        (settle_due_of_noIdleBus (settled_congr hs rfl rfl rfl) busy)

/-- Settles O51. -/
theorem routineStartAndStop : Obligations.RoutineStartAndStop := by
  intro s p q hs busy held ms sweep begun
  refine ⟨fun asks => ?_, fun asks going => ?_, fun asks stopped free => ?_, fun asks stopped hold => ?_⟩
  · exact next_of_asks asks (ok_popRequest { s with rts := { s.rts with state := .stopped } } ..) hs
  · refine next_of_asks asks ?_ hs
    have same : (if (s.popRequest p).rts.state = .stopped then
        let u := if (s.popRequest p).held then (s.popRequest p).mapRts fun r => { r with state := .held }
          else ((s.popRequest p).mapRts fun r => { r with state := .running }).arbitrationDue
        if u.rts.phase = .between ∧ u.rts.period = none then u.sweepStart else u
      else s.popRequest p) = s.popRequest p := if_neg going
    rw [routineStart, same]
    exact ok_popRequest ..
  · have free' : ¬ (s.popRequest p).held = true := by
      rw [held_popRequest]
      exact mt held_iff.1 free
    refine next_of_served asks (Eq.trans ?_ (settle_routineStart hs busy (st := .running) (.inr rfl)))
    unfold routineStart
    dsimp only
    rw [if_pos (show (s.popRequest p).rts.state = .stopped from stopped), if_neg free']
    rfl
  · have hold' : (s.popRequest p).held = true := held_popRequest.trans (held_iff.2 hold)
    refine next_of_served asks (Eq.trans ?_ (settle_routineStart hs busy (st := .held) (.inl rfl)))
    unfold routineStart
    dsimp only
    rw [if_pos (show (s.popRequest p).rts.state = .stopped from stopped), if_pos hold']
    rfl

/-! ## RESTART -/

theorem releaseEach_of_none {which : BusRecord → Bool} (reason : ReleaseReason) (h : ∀ b, which (s.bus b) = false)
    (buses : List Bus) : s.releaseEach which reason buses = s := by
  induction buses with
  | nil => rfl
  | cons b rest ih => rw [State.releaseEach, h b, if_neg Bool.false_ne_true, ih]

/-- The blocks at RESTART with no bus in use, no claim queued and no lockout entry, in NORMAL; a change in the number of
due deferred entries is work to offer. -/
theorem restartBlocks_at_rest (idle : ∀ b, (s.bus b).state = .idle) (queue : s.gar.queue = [])
    (lockout : s.rts.lockout = []) (storm : s.tkt.storm = .normal) :
    let x : State := { s with
      rts := { s.rts with state := .stopped, deferred := [] }
      tkt := { s.tkt with count := 0, quiet := 0, window := some (s.tkt.params.window * 1000) }
      gar := { s.gar with ratio := 0 } }
    s.restartBlocks = x ∨ s.restartBlocks = x.arbitrationDue := by
  intro x
  have released : s.releaseAll (fun r => r.state ≠ .idle) .restart = s :=
    releaseEach_of_none .restart (fun b => decide_eq_false (not_not.2 (idle b))) _
  have gar : { s.gar with queue := [], ratio := 0 } = { s.gar with ratio := 0 } := by rw [← queue]
  let u : State := { s with gar := { s.gar with ratio := 0 } }
  have blocks : s.restartBlocks = u.restartScheduler.restartStorm := by
    unfold State.restartBlocks
    rw [released]
    dsimp only
    rw [queue]
    show State.restartStorm (State.restartScheduler { s with gar := { s.gar with queue := [], ratio := 0 } }) = _
    rw [gar]
  have calm (v : State) (normal : v.tkt.storm = .normal) : v.restartStorm = { v with tkt := { v.tkt with
      count := 0, quiet := 0, window := some (v.tkt.params.window * 1000) } } := by
    unfold State.restartStorm
    dsimp only
    rw [normal, if_neg StormState.noConfusion]
    show ({ v with tkt := { v.tkt with storm := .normal, count := 0, quiet := 0,
                                       window := some (v.tkt.params.window * 1000) } } : State) = _
    rw [← normal]
  have scheduler : u.restartScheduler = { u with rts := { s.rts with state := .stopped, deferred := [] } } ∨
      u.restartScheduler = State.arbitrationDue { u with rts := { s.rts with state := .stopped, deferred := [] } } := by
    rw [State.restartScheduler]
    show State.setDeferred (State.dropLockouts (u.mapRts fun r => { r with state := .stopped }) s.rts.lockout) [] = _ ∨
      State.setDeferred (State.dropLockouts (u.mapRts fun r => { r with state := .stopped }) s.rts.lockout) [] = _
    rw [lockout, State.dropLockouts, State.setDeferred]
    split
    · exact .inl rfl
    · exact .inr rfl
  rw [blocks]
  rcases scheduler with same | due
  · rw [same]
    exact .inl (calm _ storm)
  · rw [due]
    exact .inr (calm _ storm)

/-- Settles O52. -/
theorem restartKeepsRecords : Obligations.RestartKeepsRecords := by
  intro s p q asks hs idle queue waiting lockout storm
  let v : State := answered s p q .ok []
  let x : State := { v with
    rts := { s.rts with state := .stopped, deferred := [] }
    tkt := { s.tkt with count := 0, quiet := 0, window := some (s.tkt.params.window * 1000) }
    gar := { s.gar with ratio := 0 } }
  let z : State := x.broadcast (.restart s.now)
  have settled : Settled x := settled_congr (s := s) hs rfl rfl rfl
  have frame : z = { x with ports := z.ports, cnt := z.cnt } := (reportsOnly_broadcast _).frame x
  have settles : (restartRequest p q (s.popRequest p)).settle = z := by
    have answer : (s.popRequest p).ok p q false [] = v := ok_popRequest ..
    rw [restartRequest, answer]
    rcases restartBlocks_at_rest (s := v) (fun b => (idle b).1) queue lockout storm with same | due
    · rw [same]
      exact settle_of_settled ((reportsOnly_broadcast _).settled settled)
    · rw [due]
      show (State.broadcast x.arbitrationDue (.restart s.now)).settle = z
      rw [ReportsOnly_arbitrationDue (reportsOnly_broadcast (.restart s.now))]
      refine settle_due_of_unclaimed (s := z) ((reportsOnly_broadcast _).settled settled) ?_ ?_
      · rw [frame]
        exact ⟨queue, SchedState.noConfusion⟩
      · rw [frame]
  refine ⟨z, next_of_served asks settles, ?_, ?_, ?_, (reportsOnly_broadcast _).ports_eq rfl rfl rfl, ?_⟩ <;> rw [frame]
  exact ⟨rfl, rfl, rfl, rfl, rfl, rfl, rfl⟩

/-! ## COUNTERS_CLEAR and SUBSCRIBE -/

/-- A group cleared, with the mask it is left with (log 31). -/
theorem clearGroup_eq (payload : List Byte) {n : Nat} (small : n ≤ 3) :
    let mask : Word32 :=
      if payload.length = 5 then BitVec.ofNat 32 (field payload 1 4) &&& groupMask n else (s.cnt.group n).mask
    s.clearGroup n (maskOf payload) =
      { s with cnt := s.cnt.setGroup n { counts := [], carries := 0, mask := mask } } := by
  intro mask
  rw [State.clearGroup, if_neg (by omega), maskOf]
  by_cases five : payload.length = 5
  · rw [if_pos five, show mask = _ from if_pos five]
  · rw [if_neg five, show mask = _ from if_neg five]

theorem group_setGroup (bank : CounterBank) (n : Nat) (group : CounterGroup) : (bank.setGroup n group).group n = group := by
  match n with
  | 0 => rfl
  | 1 => rfl
  | 2 => rfl
  | _ + 3 => rfl

/-- Settles O53. -/
theorem countersClearAndSubscribe : Obligations.CountersClearAndSubscribe := by
  intro s p q hs g old mask
  have bank : ¬ (g = 4 ∧ q.payload.length = 5) → ¬ (g = 4 ∧ (maskOf q.payload).isSome = true) := by
    rintro none ⟨four, carried⟩
    refine none ⟨four, by_contra fun short => ?_⟩
    rw [maskOf, if_neg short] at carried
    exact Bool.false_ne_true carried
  refine ⟨fun asks small => ?_, fun asks bins short => ?_, fun asks bad => ?_, fun asks => ?_⟩
  · let u : State := { s with cnt := s.cnt.setGroup g { counts := [], carries := 0, mask := mask } }
    have cleared : (s.popRequest p).clearGroup g (maskOf q.payload) = u.popRequest p := clearGroup_eq _ small
    refine next_of_asks asks ?_ hs
    refine (if_neg (show ¬ 4 < g by omega)).trans ((if_neg (show ¬ (g = 4 ∧ _) from fun h => by omega)).trans ?_)
    show ((s.popRequest p).clearGroup g (maskOf q.payload)).ok p q false (u8 g ++ (if g = 4 then [] else
      u32 (((s.popRequest p).clearGroup g (maskOf q.payload)).cnt.group g).mask.toNat)) = _
    rw [cleared, if_neg (by omega), ok_popRequest]
    show answered u p q .ok (u8 g ++ u32 ((s.cnt.setGroup g _).group g).mask.toNat) = _
    rw [group_setGroup]
  · have noMask : ¬ (g = 4 ∧ (maskOf q.payload).isSome = true) := bank fun both => by omega
    refine next_of_asks asks ((if_neg (show ¬ 4 < g by omega)).trans ((if_neg noMask).trans ?_)) hs
    have four : field q.payload 0 1 = 4 := bins
    rw [four]
    exact ok_popRequest { s with cnt := { s.cnt with bins := [] } } ..
  · refine next_of_asks asks ?_ hs
    by_cases big : 4 < g
    · exact (if_pos big).trans (refuse_popRequest ..)
    · obtain ⟨four, five⟩ := bad.resolve_left big
      have carried : g = 4 ∧ (maskOf q.payload).isSome = true := ⟨four, by rw [maskOf, if_pos five]; rfl⟩
      exact (if_neg big).trans ((if_pos carried).trans (refuse_popRequest ..))
  · refine next_of_asks asks ?_ hs
    let m : BitVec 8 := BitVec.ofNat 8 g
    have masked : (s.popRequest p).setPort p { (s.popRequest p).port p with mask := m } =
        (s.setPort p { s.port p with mask := m }).popRequest p := by
      simp only [State.popRequest, setPort_setPort, State.setPort_port, if_true]
    exact (congrArg (fun z => State.ok z p q false [m]) masked).trans (ok_popRequest ..)

end Sys2Proof
end

