-- ==== Sys2Proof/Proofs/SweepAndStorm.lean ====
section
/-! PROOFS. The sweep period timer and the end of a storm window (R131, R133, R162 to R164). -/

namespace Sys2Proof

open Machine

variable {s : State}

/-! ## The period timer -/

theorem exec_periodTimerExpiry {t : PeriodTimer} (period : s.rts.period = some t) :
    exec .periodTimerExpiry s = .next s.periodExpired.settle := by
  show Host.Outcome.next (match s.rts.period with | some _ => s.periodExpired.settle | none => s) = _
  rw [period]

/-! ## The window -/

theorem exec_windowEnd {ms : Nat} (window : s.tkt.window = some ms) : exec .windowEnd s = .next s.windowOver.settle := by
  show Host.Outcome.next (match s.tkt.window with | some _ => s.windowOver.settle | none => s) = _
  rw [window]

/-- The ticket table at a window end, with the storm state and the quiet count it judged (R162, R164). -/
def judgedTable (t : TicketTable) (st : StormState) (quiet : Nat) : TicketTable :=
  { t with storm := st, quiet := quiet, count := 0, window := some (t.params.window * 1000) }

theorem windowOver_eq {st : StormState} {quiet : Nat} (after : stormAfter s.tkt = (st, quiet)) :
    s.windowOver = State.stormChanged { s with tkt := judgedTable s.tkt st quiet } s.tkt.storm s.tkt.count := by
  rw [State.windowOver, after]
  rfl

/-- A window end that keeps the storm state. -/
theorem exec_windowEnd_same {ms : Nat} (hs : Settled s) (window : s.tkt.window = some ms) {st : StormState} {quiet : Nat}
    (after : stormAfter s.tkt = (st, quiet)) (same : st = s.tkt.storm) :
    exec .windowEnd s = .next { s with tkt := judgedTable s.tkt st quiet } := by
  have kept : s.windowOver = { s with tkt := judgedTable s.tkt st quiet } := (windowOver_eq after).trans (if_pos same)
  rw [exec_windowEnd window, kept]
  exact congrArg Host.Outcome.next (settle_of_settled hs)

/-- A window end that changes the storm state: the report, and the scheduler's state as the change leaves it (R131). -/
theorem exec_windowEnd_changed {ms : Nat} (hs : Settled s) (busy : NoIdleBus s) (window : s.tkt.window = some ms)
    {st : StormState} {quiet : Nat} (after : stormAfter s.tkt = (st, quiet)) (changed : st ≠ s.tkt.storm)
    {rts : SchedState} (scheduled : rts = if st = .storm then (if s.rts.state = .running then .held else s.rts.state)
      else if s.rts.state = .held ∧ (s.port .p0).link = .up then .running else s.rts.state) :
    ∃ z, exec .windowEnd s = .next z ∧ z.tkt = judgedTable s.tkt st quiet ∧ z.rts = { s.rts with state := rts } ∧
      z.ports = (s.broadcast (.stormState st .window s.tkt.count s.now)).ports ∧
      z.lrt = s.lrt ∧ z.acc = s.acc ∧ z.gar = s.gar ∧ z.exc = s.exc ∧ z.mc = s.mc ∧ z.rsq = s.rsq := by
  let n : Notice := .stormState st .window s.tkt.count s.now
  let u : State := { s with tkt := judgedTable s.tkt st quiet }
  let w : State := u.broadcast n
  have frame : w = { u with ports := w.ports, cnt := w.cnt } := (reportsOnly_broadcast n).frame u
  have ports : w.ports = (s.broadcast n).ports := (reportsOnly_broadcast n).ports_eq rfl rfl rfl
  have link : (w.port .p0).link = (s.port .p0).link := sameLinks_broadcast n u .p0
  let z : State := { w with rts := { s.rts with state := rts } }
  have settled : Settled z := by
    show Settled { w with rts := { s.rts with state := rts } }
    rw [frame]
    exact settled_congr hs rfl rfl rfl
  have inUse : NoIdleBus z := by
    show NoIdleBus { w with rts := { s.rts with state := rts } }
    rw [frame]
    exact busy
  have same : w.rts = s.rts := by rw [frame]
  have kept (h : rts = s.rts.state) : w = z := by
    show w = { w with rts := { s.rts with state := rts } }
    rw [h, ← same]
  have next : (if st = .storm then w.holdScheduler else w.resumeScheduler) = z ∨
      (if st = .storm then w.holdScheduler else w.resumeScheduler) = z.arbitrationDue := by
    by_cases storm : st = .storm
    · rw [if_pos storm] at scheduled ⊢
      refine .inl ?_
      rw [State.holdScheduler, same]
      by_cases running : s.rts.state = .running
      · rw [if_pos running] at scheduled ⊢
        rw [State.mapRts, same, ← scheduled]
      · rw [if_neg running] at scheduled ⊢
        exact kept scheduled
    · rw [if_neg storm] at scheduled ⊢
      have calm : w.tkt.storm ≠ .storm := by
        rw [frame]
        exact storm
      have may : (w.rts.state = .held ∧ ¬ w.held = true) ↔ (s.rts.state = .held ∧ (s.port .p0).link = .up) := by
        rw [same, held_iff, link]
        refine and_congr_right fun _ => ?_
        cases (s.port .p0).link <;> simp [calm]
      rw [State.resumeScheduler]
      by_cases goes : s.rts.state = .held ∧ (s.port .p0).link = .up
      · rw [if_pos goes] at scheduled
        rw [if_pos (may.2 goes), State.mapRts, same, ← scheduled]
        exact .inr rfl
      · rw [if_neg goes] at scheduled
        rw [if_neg (mt may.1 goes)]
        exact .inl (kept scheduled)
  have settles : s.windowOver.settle = z := by
    have decided : w.tkt.storm = st := by
      rw [frame]
      rfl
    have changes : s.windowOver = if w.tkt.storm = .storm then w.holdScheduler else w.resumeScheduler :=
      (windowOver_eq after).trans (if_neg changed)
    rw [changes, decided]
    rcases next with same | due
    · rw [same]
      exact settle_of_settled settled
    · rw [due]
      exact settle_due_of_noIdleBus settled inUse
  refine ⟨z, (exec_windowEnd window).trans (congrArg Host.Outcome.next settles), ?_, rfl, ports, ?_⟩
  · show w.tkt = _
    rw [frame]
  · show w.lrt = _ ∧ w.acc = _ ∧ w.gar = _ ∧ w.exc = _ ∧ w.mc = _ ∧ w.rsq = _
    rw [frame]
    exact ⟨rfl, rfl, rfl, rfl, rfl, rfl⟩

/-- Settles O58. -/
theorem sweepAndStormTimers : Obligations.SweepAndStormTimers := by
  refine ⟨?_, ?_⟩
  · intro s t hs busy ms
    refine ⟨fun stopped => ?_, fun period between => ?_, fun period sweep => ?_⟩
    · show Host.Outcome.next (match s.rts.period with | some _ => s.periodExpired.settle | none => s) = _
      rw [stopped]
    · refine (exec_periodTimerExpiry period).trans (congrArg Host.Outcome.next ?_)
      rw [State.periodExpired, if_pos between]
      exact settle_due_of_noIdleBus (s := { s with rts := { s.rts with
        phase := .inSweep, start := some s.now, counts := ⟨0, 0, 0, 0, 0, 0⟩, late := false, period := some ⟨ms, ms⟩ } })
        (settled_congr hs rfl rfl rfl) busy
    · refine (exec_periodTimerExpiry period).trans (congrArg Host.Outcome.next ?_)
      have apart : ¬ s.rts.phase = .between := by
        rw [sweep]
        exact SweepPhase.noConfusion
      rw [State.periodExpired, if_neg apart]
      exact settle_of_settled ((reportsOnly_broadcast _).settled
        (s := { s with rts := { s.rts with period := none, late := true } }) hs)
  · intro s ms hs busy window t judged ends changes
    have normal (h : t.storm = .normal) : stormAfter t =
        if t.params.sIn ≤ t.count then (.storm, 0) else (.normal, t.quiet) := by rw [stormAfter, h]
    have storm (h : t.storm = .storm) : stormAfter t = if t.params.sOut < t.count then (.storm, 0)
        else if t.params.quiet ≤ t.quiet + 1 then (.normal, 0) else (.storm, t.quiet + 1) := by rw [stormAfter, h]
    refine ⟨fun st few => ?_, fun st many => ?_, fun st many => ?_, fun st few more => ?_, fun st few last => ?_⟩
    · exact exec_windowEnd_same hs window ((normal st).trans (if_neg (Nat.not_le.2 few))) st.symm
    · exact exec_windowEnd_changed hs busy window ((normal st).trans (if_pos many))
        (by rw [show s.tkt.storm = .normal from st]; exact StormState.noConfusion) (if_pos rfl).symm
    · exact exec_windowEnd_same hs window ((storm st).trans (if_pos many)) st.symm
    · exact exec_windowEnd_same hs window ((storm st).trans ((if_neg (Nat.not_lt.2 few)).trans
        (if_neg (Nat.not_le.2 more)))) st.symm
    · exact exec_windowEnd_changed hs busy window ((storm st).trans ((if_neg (Nat.not_lt.2 few)).trans (if_pos last)))
        (by rw [show s.tkt.storm = .storm from st]; exact StormState.noConfusion) (if_neg StormState.noConfusion).symm

end Sys2Proof
end

