-- ==== Sys2Proof/Proofs/Calibrations.lean ====
section
/-! PROOFS. Warm-up and calibration, in CALIBRATING and inside a run (R78 to R80, R83). -/

namespace Sys2Proof

open Machine

variable {s : State} {c : Channel} {b : Bus}

/-! ## Warm-up -/

theorem nextStage_eq {r : ChannelRecord} (warming : r.state = .warming) (early : r.stage < 2) :
    r.nextStage = { r with stage := r.stage + 1, timer := 10 } := if_pos ⟨warming, early⟩

theorem endWarmUp_eq {r : ChannelRecord} (warming : r.state = .warming) (last : r.stage = 2) :
    r.endWarmUp = { r with state := .calibrating, stage := 0, timer := 0, gain := .g1, cal := some ⟨[], []⟩ } :=
  if_pos ⟨warming, last⟩

theorem setChan_chan_self (s : State) (c : Channel) : s.setChan c (s.chan c) = s := by cases c <;> rfl

/-! ## A gain of a calibration -/

/-- The offset of a gain from its 66 samples (R79). -/
theorem calOffset_eq {raw : List Int} (all : raw.length = 66) : calOffset raw = roundDiv (raw.drop 2).sum 64 := by
  rw [calOffset, List.take_of_length_le (by rw [List.length_drop, all])]

theorem calGainDone_eq {r : ChannelRecord} {w : CalWork} (cal : r.cal = some w) (all : w.raw.length = 66)
    (more : w.formed.length < 4) : r.calGainDone = { r with
      cal := some ⟨[], w.formed ++ [roundDiv (w.raw.reverse.drop 2).sum 64]⟩
      gain := calGain (w.formed.length + 1) } := by
  have formed : r.cal.bind CalWork.formNext =
      some ⟨[], w.formed ++ [roundDiv (w.raw.reverse.drop 2).sum 64]⟩ := by
    rw [cal, Option.bind_some, CalWork.formNext, calOffset_eq (by rw [List.length_reverse, all])]
    exact if_pos ⟨all, more⟩
  rw [ChannelRecord.calGainDone, formed]
  dsimp only
  rw [List.length_append, List.length_singleton]

/-! ## The end of a calibration (R80) -/

/-- The lowest-numbered gain whose offset failed. -/
theorem failedGain_eq (o : Offsets) : failedGain o =
    [(Gain.g1, o.g1), (.g4, o.g4), (.g16, o.g16), (.g64, o.g64)].find? fun e => 2048 < e.2.natAbs := by
  unfold failedGain offsetFails
  by_cases h1 : 2048 < o.g1.natAbs
  · simp [h1]
  · by_cases h4 : 2048 < o.g4.natAbs
    · simp [h1, h4]
    · by_cases h16 : 2048 < o.g16.natAbs
      · simp [h1, h4, h16]
      · by_cases h64 : 2048 < o.g64.natAbs <;> simp [h1, h4, h16, h64]

/-- A channel that becomes READY while no run waits and none was given MC1 at this instant. -/
theorem channelReady_setChan {r : ChannelRecord} (waiting : s.gar.waiting = []) (given : s.givenMc1 = none) :
    (s.setChan c r).channelReady c = s.setChan c r := by
  cases c with
  | mc0 => exact channelReady_of_none .mc0 waiting given
  | mc1 => exact if_neg fun both => both.2 waiting

/-- A calibration in CALIBRATING that passes. -/
theorem calibrationOver_passes {o : Offsets} (calibrating : (s.chan c).state = .calibrating)
    (cal : (s.chan c).cal.bind CalWork.offsets = some o) (passes : failedGain o = none) (waiting : s.gar.waiting = [])
    (given : s.givenMc1 = none) : s.calibrationOver c = (s.setChan c { s.chan c with
      offsets := o, cal := none, gain := .g1, state := .ready, calTime := some s.now, calAge := some 0 }).broadcast
        (.channel c .ready .calDone) := by
  have passed : (failedGain o).isNone = true := by rw [passes]; rfl
  unfold State.calibrationOver
  dsimp only
  rw [calibrating, cal]
  refine (if_pos passed).trans ?_
  rw [channelReady_setChan waiting given, ChannelRecord.calibrated, if_pos passed]
  rfl

/-- A calibration in CALIBRATING that fails. -/
theorem calibrationOver_fails {o : Offsets} {g : Gain} {v : Int} (calibrating : (s.chan c).state = .calibrating)
    (cal : (s.chan c).cal.bind CalWork.offsets = some o) (fails : failedGain o = some (g, v))
    (waiting : s.gar.waiting = []) : s.calibrationOver c = (s.setChan c { s.chan c with
      offsets := o, cal := none, gain := .g1, state := .faulted }).broadcast (.channel c .faulted (.calFail g v)) := by
  have failed : ¬ (failedGain o).isNone = true := by rw [fails]; exact Bool.false_ne_true
  have cause : calFailCause o = .calFail g v := by rw [calFailCause, fails]
  have record : (s.chan c).calibrated o s.now = { s.chan c with offsets := o, cal := none, gain := .g1 } := if_neg failed
  let n : Notice := .channel c .faulted (.calFail g v)
  let u : State := s.setChan c { s.chan c with offsets := o, cal := none, gain := .g1, state := .faulted }
  have out : ({ s.chan c with offsets := o, cal := none, gain := .g1, state := .faulted } : ChannelRecord).inService = false := by
    simp [ChannelRecord.inService, ChannelState.serves]
  have review : (u.broadcast n).serviceReview s.served = u.broadcast n := by
    rw [(reportsOnly_broadcast n).frame u]
    exact serviceReview_of_no_gain (fun before => served_setChan_eq_zero out before) fun _ _ => waiting
  unfold State.calibrationOver
  dsimp only
  rw [calibrating, cal]
  refine (if_neg failed).trans ?_
  rw [cause, record]
  exact review

/-! ## A calibration inside a run (R83) -/

/-- A calibration inside a run that passes: the run goes on to its first step. -/
theorem inRunCalibrationOver_passes {x : RunContext} {o : Offsets} (on : s.runOn c = some (b, x))
    (inRun : (s.chan c).activity = .calInRun) (cal : (s.chan c).cal.bind CalWork.offsets = some o)
    (passes : failedGain o = none) : s.inRunCalibrationOver c =
      State.beginSteps b c (s.program x.program) 0 (s.setChan c { s.chan c with
        offsets := o, cal := none, gain := .g1, calTime := some s.now, calAge := some 0, activity := .quiet }) := by
  have passed : (failedGain o).isNone = true := by rw [passes]; rfl
  unfold State.inRunCalibrationOver
  dsimp only
  rw [on, inRun, cal]
  refine (if_pos passed).trans ?_
  rw [ChannelRecord.calibrated, if_pos passed]

/-- The first part of O54: warm-up and a calibration in CALIBRATING, with its two outcomes. -/
theorem calibration_of_channel (s : State) (c : Channel) (hs : Settled s) :
    let r := s.chan c
    let done (o : Offsets) : ChannelRecord := { r with offsets := o, cal := none, gain := .g1 }
    let passes (o : Offsets) : Prop :=
      o.g1.natAbs ≤ 2048 ∧ o.g4.natAbs ≤ 2048 ∧ o.g16.natAbs ≤ 2048 ∧ o.g64.natAbs ≤ 2048
    ∀ x y z v, r.state = .calibrating → r.cal = some ⟨[], [x, y, z, v]⟩ → s.gar.waiting = [] → s.givenMc1 = none →
      (passes ⟨x, y, z, v⟩ → exec (.calibrationEnd c) s = .next ((s.setChan c
        { done ⟨x, y, z, v⟩ with state := .ready, calTime := some s.now, calAge := some 0 }).broadcast
          (.channel c .ready .calDone))) ∧
      (∀ g o, [(Gain.g1, x), (.g4, y), (.g16, z), (.g64, v)].find? (fun e => 2048 < e.2.natAbs) = some (g, o) →
        exec (.calibrationEnd c) s = .next ((s.setChan c { done ⟨x, y, z, v⟩ with state := .faulted }).broadcast
          (.channel c .faulted (.calFail g o)))) := by
  intro r done passes x y z v calibrating cal waiting given
  have offsets : (s.chan c).cal.bind CalWork.offsets = some ⟨x, y, z, v⟩ := by
    rw [show (s.chan c).cal = some ⟨[], [x, y, z, v]⟩ from cal]
    rfl
  have settled (u : ChannelRecord) (n : Notice) : Settled ((s.setChan c u).broadcast n) :=
    (reportsOnly_broadcast n).settled (s := s.setChan c u) ⟨hs.1, .inl waiting⟩
  refine ⟨fun pass => ?_, fun g o fails => ?_⟩
  · have passed : failedGain ⟨x, y, z, v⟩ = none := Option.isNone_iff_eq_none.1 ((failed_none _).2 pass)
    exact congrArg Host.Outcome.next ((congrArg State.settle
      (calibrationOver_passes calibrating offsets passed waiting given)).trans (settle_of_settled (settled ..)))
  · exact congrArg Host.Outcome.next ((congrArg State.settle
      (calibrationOver_fails calibrating offsets ((failedGain_eq _).trans fails) waiting)).trans
        (settle_of_settled (settled ..)))

/-- The second part of O54: a calibration inside a run that passes. -/
theorem inRunCalibration_passes {x : RunContext} {n : Nat} {rest : List ProgramStep} {u y z v : Int} (hs : Settled s)
    (on : s.runOn c = some (b, x)) (inRun : (s.chan c).activity = .calInRun) (bias : (s.chan c).bias = .off)
    (cal : (s.chan c).cal = some ⟨[], [u, y, z, v]⟩) (pass : u.natAbs ≤ 2048 ∧ y.natAbs ≤ 2048 ∧ z.natAbs ≤ 2048 ∧
      v.natAbs ≤ 2048) (program : s.program x.program = .fv n :: rest) :
    exec (.inRunCalibrationEnd c) s = .next ((s.setChan c
      { s.chan c with
        offsets := ⟨u, y, z, v⟩, cal := none, gain := .g1, calTime := some s.now, calAge := some 0,
        activity := .quiet, pair := some .tg }).setCtx b (some { x with
          stepIx := 0, final := false, phase := .reading, gain := .g1,
          cur := some { kind := .fv, pair := none, status := .ok, values := .fv none none none, bias := none,
                        range := none, gain := none, trace := ⟨some c, (s.chan c).written, 0⟩, findings := [],
                        distance := none },
          work := { StepWork.idle with
            stage := .fv .tg, reading := some { n := n, gain := .g1, changes := 0, raw := [] } } })) := by
  obtain ⟨ctx, state, -⟩ := runOn_some on
  have offsets : (s.chan c).cal.bind CalWork.offsets = some ⟨u, y, z, v⟩ := by
    rw [cal]
    rfl
  have passed : failedGain ⟨u, y, z, v⟩ = none := Option.isNone_iff_eq_none.1 ((failed_none _).2 pass)
  let r : ChannelRecord := { s.chan c with
    offsets := ⟨u, y, z, v⟩, cal := none, gain := .g1, calTime := some s.now, calAge := some 0, activity := .quiet }
  have chan : (s.setChan c r).chan c = r := (State.setChan_chan ..).trans (if_pos rfl)
  have begun := beginSteps_fv (s := s.setChan c r) (b := b) (c := c) (x := x) ctx (by rw [chan]; exact bias)
    (by rw [chan]; exact Activity.noConfusion) n 0 rest
  rw [chan, setCtx_setChan, setChan_setChan] at begun
  have taken := inRunCalibrationOver_passes on inRun offsets passed
  rw [program] at taken
  refine congrArg Host.Outcome.next ((congrArg State.settle (taken.trans begun)).trans (settle_of_settled ?_))
  exact settled_setChan' hs fun ready => ready

end Sys2Proof
end

