-- ==== Sys2Proof/Proofs/RunEnds.lean ====
section
/-! PROOFS. The end of a run: its record, the line's last result, the channel and the bus it leaves (R122, R125 to
R127), and what the work around it leaves alone. -/

namespace Sys2Proof

open Machine

variable {s t : State} {c : Channel} {b : Bus}

/-! ## What the work around the end of a run leaves alone -/

/-- Run contexts, history, channels, buses, the wait list, the sweep number and the time are as they were. -/
structure Aside (s t : State) : Prop where
  rsq : t.rsq = s.rsq := by rfl
  mc : t.mc = s.mc := by rfl
  acc : t.acc = s.acc := by rfl
  waiting : t.gar.waiting = s.gar.waiting := by rfl
  moment : t.gar.moment = s.gar.moment := by rfl
  number : t.rts.number = s.rts.number := by rfl
  exc : t.exc = s.exc := by rfl

namespace Aside

theorem refl (s : State) : Aside s s := ⟨rfl, rfl, rfl, rfl, rfl, rfl, rfl⟩

theorem trans {u : State} (h : Aside s t) (k : Aside t u) : Aside s u where
  rsq := k.rsq.trans h.rsq
  mc := k.mc.trans h.mc
  acc := k.acc.trans h.acc
  waiting := k.waiting.trans h.waiting
  moment := k.moment.trans h.moment
  number := k.number.trans h.number
  exc := k.exc.trans h.exc

theorem of_ticketWork (h : TicketWork s t) : Aside s t := by
  obtain ⟨_, _, _, _, rfl⟩ := h
  exact {}

theorem setLine (s : State) (n : Nat) (r : LineRecord) : Aside s (s.setLine n r) := {}

theorem arbitrationDue (s : State) : Aside s s.arbitrationDue := {}

theorem closeTicket (s : State) (u : Ticket) (reason : CloseReason) (desk : Option Desk) :
    Aside s (s.closeTicket u reason desk) := by
  obtain ⟨ports, cnt, closed⟩ := closeTicket_eq s u reason desk
  rw [closed]
  exact {}

theorem decideTicket (s : State) (u : Ticket) (start : Stamp) (found : Testability) :
    Aside s (s.decideTicket u start found) := by
  unfold State.decideTicket
  split
  · exact refl s
  · split
    · cases found with
      | able => exact closeTicket ..
      | noStep => exact closeTicket ..
      | skippedHazard => exact {}
      | notEvaluated => exact {}
    · exact refl s
  all_goals
    dsimp only
    split
    · split
      · exact closeTicket ..
      · exact {}
    · exact refl s

theorem decideTickets (start : Stamp) (able : FaultCode → Testability) (numbers : List Nat) (s : State) :
    Aside s (s.decideTickets start able numbers) := by
  induction numbers generalizing s with
  | nil => exact refl s
  | cons n rest ih =>
    unfold State.decideTickets
    split
    · exact (decideTicket ..).trans (ih _)
    · exact ih s

/-- The completion report of a ticketing run (R150). -/
theorem takeReport (s : State) (line handle : Nat) (start : Stamp) (findings : List Finding)
    (able : FaultCode → Testability) (pass : Bool) : Aside s (s.takeReport line handle start findings able pass) := by
  have found : Aside s (findings.foldl State.takeFinding s) :=
    List.foldlRecOn findings _ (motive := Aside s) (refl s) fun u h f _ => h.trans (of_ticketWork (takeFinding_frame u f))
  unfold State.takeReport
  dsimp only
  split
  · exact (found.trans (decideTickets ..)).trans (setLine ..)
  · exact found.trans (decideTickets ..)

end Aside

/-- As `Aside`, with the ticket table and every line's last result and covered mark as they were. -/
structure RunTail (s t : State) : Prop extends Aside s t where
  tkt : t.tkt = s.tkt
  wf : Table.wfFrom (fun _ => LineRecord.fresh) 0 s.lrt.lines = true →
    Table.wfFrom (fun _ => LineRecord.fresh) 0 t.lrt.lines = true
  marks : Table.wfFrom (fun _ => LineRecord.fresh) 0 s.lrt.lines = true →
    ∀ n, (t.line n).last = (s.line n).last ∧ (t.line n).covered = (s.line n).covered

namespace RunTail

theorem of_lrt (h : Aside s t) (tkt : t.tkt = s.tkt) (lrt : t.lrt = s.lrt) : RunTail s t where
  toAside := h
  tkt := tkt
  wf := fun w => by rw [lrt]; exact w
  marks := fun _ n => by rw [State.line, State.line, lrt]; exact ⟨rfl, rfl⟩

theorem refl (s : State) : RunTail s s := of_lrt {} rfl rfl

theorem trans {u : State} (h : RunTail s t) (k : RunTail t u) : RunTail s u where
  toAside := h.toAside.trans k.toAside
  tkt := k.tkt.trans h.tkt
  wf := fun w => k.wf (h.wf w)
  marks := fun w n => ⟨(k.marks (h.wf w) n).1.trans (h.marks w n).1, (k.marks (h.wf w) n).2.trans (h.marks w n).2⟩

theorem ite {p : Prop} [Decidable p] {u : State} (h : RunTail s t) (hu : RunTail s u) :
    RunTail s (if p then t else u) := by
  split
  · exact h
  · exact hu

theorem reports {F : State → State} (hF : ReportsOnly F) (s : State) : RunTail s (F s) := by
  rw [hF.frame s]
  exact of_lrt {} rfl rfl

theorem notify (s : State) (p : Port) (n : Notice) : RunTail s (s.notify p n) := reports (reportsOnly_notify p n) s

theorem testDone (s : State) (line : Nat) (v : Verdict) (handle : Option Nat) (cause : Option TestCause)
    (codes : List FoundCode) : RunTail s (s.testDone line v handle cause codes) := notify ..

theorem setLine (s : State) {n : Nat} {r : LineRecord} (last : r.last = (s.line n).last)
    (covered : r.covered = (s.line n).covered) : RunTail s (s.setLine n r) where
  toAside := .setLine s n r
  tkt := rfl
  wf := fun w => writeTable_wf w n r
  marks := fun w m => by
    have read : (s.setLine n r).line m = if m = n then r else s.line m := readTable_writeTable w n r m
    rw [read]
    split
    next same => exact ⟨same ▸ last, same ▸ covered⟩
    next => exact ⟨rfl, rfl⟩

theorem setAccess (s : State) (n : Nat) (a : AccessState) : RunTail s (s.setAccess n a) := setLine s rfl rfl

/-- RTS defers a line, or gives it up for the sweep (R138). -/
theorem deferLine (s : State) (line : Nat) : RunTail s (s.deferLine line) := by
  unfold State.deferLine State.setDeferred State.missLine
  refine ite (refl s) (ite ?_ ?_)
  · have counted : RunTail s (s.mapCounts fun c => { c with missed := countUp c.missed }) := of_lrt {} rfl rfl
    exact counted.trans (setLine (s.mapCounts fun c => { c with missed := countUp c.missed }) rfl rfl)
  · split
    · exact of_lrt {} rfl rfl
    · exact of_lrt {} rfl rfl

theorem dispatchInterrupted (s : State) (line : Nat) (cause : AbortCause) :
    RunTail s (s.dispatchInterrupted line cause) := ite (deferLine s line) (refl s)

theorem binResults (steps : List StepResult) (s : State) : RunTail s (s.binResults steps) := by
  induction steps generalizing s with
  | nil => exact refl s
  | cons r rest ih =>
    unfold State.binResults
    split
    · have added (p : Pair) (ohm : Nat) : RunTail s (s.addBin p ohm) := of_lrt {} rfl rfl
      split
      · exact (added ..).trans (ih _)
      · exact ih s
    · exact ih s

/-- The end is reported to the run's origin (R125). -/
theorem reportRun (s : State) (b : Bus) (x : RunContext) (v : Verdict) (codes : List FoundCode) :
    RunTail s (s.reportRun b x v codes) := by
  unfold State.reportRun
  split
  · exact notify ..
  next k _ =>
    have done : RunTail s (if k = .lockout then
        s.testDone x.line v (some x.handle) (x.abort.map TestCause.abort) codes else s) := ite (testDone ..) (refl s)
    dsimp only
    split
    · exact done.trans (dispatchInterrupted ..)
    · exact done

theorem reportReleasing (s : State) (b : Bus) (r : BusRecord) (reason : ReleaseReason) :
    RunTail s (s.reportReleasing b r reason) := by
  have told (n : Notice) : RunTail s (s.tellHolder r n) := by
    unfold State.tellHolder
    split
    · exact notify ..
    · exact refl s
  unfold State.reportReleasing
  refine ite (ite (told _) (refl s)) ?_
  unfold State.reportConnectEnd
  split
  · exact ite (refl s) (notify ..)
  · dsimp only
    split
    · exact RunTail.trans (ite (testDone ..) (refl s)) (dispatchInterrupted ..)
    · exact ite (testDone ..) (refl s)
  · exact refl s

theorem enterReleasing (s : State) (b : Bus) (reason : ReleaseReason) : RunTail (s.setBus b { s.bus b with
    state := .releasing, reason := some reason, hold := (s.bus b).hold.stop, gen := ToneGen.off,
    audio := .disconnected, run := none, relay := .lineReleasing 6 }) (s.enterReleasing b reason) := by
  unfold State.enterReleasing
  dsimp only
  split
  · exact (setAccess ..).trans (reportReleasing ..)
  · exact reportReleasing ..

end RunTail

/-! ## The parts of the end of a run -/

/-- The completion report of a ticketing run that was not aborted, and its sweep mark (R125, R150). -/
def reportedRun (s : State) (x : RunContext) (steps : List StepResult) (v : Verdict) : State :=
  if x.abort.isNone ∧ x.ticketing then
    (s.takeReport x.line x.handle x.start x.pending (testability steps) (v = .pass)).setCovered x.line
  else s

/-- The result record of a run that ends now (R125). -/
def runRecord (s : State) (x : RunContext) (steps : List StepResult) (v : Verdict) : ResultRecord :=
  { handle := x.handle, line := x.line, cls := x.cls, origin := x.origin, program := x.program,
    ticketing := x.ticketing, verdict := v, start := x.start, finish := s.now, abort := x.abort,
    channel := x.channel, steps := steps }

/-- The record of a run joins the history, and its line has a last result (R9, R125, R127). -/
def loggedRun (s : State) (x : RunContext) (steps : List StepResult) (v : Verdict) : State :=
  State.setLine { s with rsq := { s.rsq with history := pushRecord (runRecord s x steps v) s.rsq.history } } x.line
    { s.line x.line with last := some { handle := x.handle, time := s.now, verdict := v, origin := x.origin } }

/-- The end counted, binned where it is a completed routine run, and reported to its origin (R125, R169). -/
def announcedRun (s : State) (b : Bus) (x : RunContext) (steps : List StepResult) (v : Verdict) : State :=
  let u := s.count 2 (runEndIndex x.origin x.abort)
  let w := if x.abort.isNone ∧ ¬ x.origin.isDesk then u.binResults steps else u
  w.reportRun b x v (foundCodes steps)

theorem endRun_eq {x : RunContext} (ctx : s.ctx b = some x) :
    let steps := s.finalSteps x
    let v := runVerdict x.abort steps
    s.endRun b =
      (((announcedRun (loggedRun (reportedRun s x steps v) x steps v) b x steps v).freeOf x).busAfterRun b).setCtx b none := by
  intro steps v
  rw [State.endRun, ctx]
  rfl

theorem reportedRun_aside (s : State) (x : RunContext) (steps : List StepResult) (v : Verdict) :
    Aside s (reportedRun s x steps v) := by
  unfold reportedRun
  split
  · exact (Aside.takeReport ..).trans (Aside.setLine ..)
  · exact .refl s

theorem announcedRun_tail (s : State) (b : Bus) (x : RunContext) (steps : List StepResult) (v : Verdict) :
    RunTail s (announcedRun s b x steps v) := by
  have counted : RunTail s (s.count 2 (runEndIndex x.origin x.abort)) := .reports (reportsOnly_count ..) s
  exact (RunTail.ite (counted.trans (.binResults ..)) counted).trans (.reportRun ..)

/-- The channel a run leaves: READY, or OFF where a disable is pending (R85). -/
def freedChannel (r : ChannelRecord) : ChannelRecord :=
  if r.disablePending then { r.atRest with state := .off, disablePending := false } else { r.atRest with state := .ready }

theorem channelReady_mc0_setChan {r : ChannelRecord} (waiting : s.gar.waiting = []) (given : c = .mc0 → s.givenMc1 = none) :
    (s.setChan c r).channelReady c = s.setChan c r := by
  cases c with
  | mc0 => exact channelReady_of_none .mc0 waiting (given rfl)
  | mc1 => exact if_neg fun both => both.2 waiting

theorem freeOf_tail {x : RunContext} (channel : x.channel = some c) (run : (s.chan c).run = some x.handle)
    (waiting : s.gar.waiting = []) (given : c = .mc0 → s.givenMc1 = none) :
    RunTail (s.setChan c (freedChannel (s.chan c))) (s.freeOf x) := by
  have freed : s.freeOf x = s.freeChannel c := by
    rw [State.freeOf, channel]
    exact if_pos run
  rw [freed, State.freeChannel, freedChannel]
  by_cases pending : (s.chan c).disablePending = true
  · have left : s.leaveRun c = (s.setChan c { (s.chan c).atRest with
        state := .off, disablePending := false }).tellChannel c .off .disabled := if_pos pending
    rw [if_pos pending, if_pos pending, left]
    exact .reports (reportsOnly_broadcast _) _
  · have left : s.leaveRun c = s.setChan c { (s.chan c).atRest with state := .ready } := if_neg pending
    rw [if_neg pending, if_neg pending, left, channelReady_mc0_setChan waiting given]
    exact .refl _

/-- Why the bus of a run that ends is released, where it is (R30). -/
def leavingReason (u : BusRecord) : Option ReleaseReason :=
  if u.reason.isSome then u.reason else if u.isRoutine then some .runEnd else none

/-- The bus at the end of its run. -/
def busLeft (u : BusRecord) : Option ReleaseReason → BusRecord
  | some e => { u with
      state := .releasing, reason := some e, hold := u.hold.stop, gen := ToneGen.off, audio := .disconnected,
      run := none, relay := .lineReleasing 6 }
  | none => { u with state := .held, run := none }

theorem busLeft_busy (u : BusRecord) (e : Option ReleaseReason) : (busLeft u e).state ≠ .idle := by
  cases e with
  | none => exact BusState.noConfusion
  | some e => exact BusState.noConfusion

theorem busAfterRun_tail (s : State) (b : Bus) :
    RunTail (s.setBus b (busLeft (s.bus b) (leavingReason (s.bus b)))) (s.busAfterRun b) := by
  unfold State.busAfterRun
  dsimp only
  split
  next e reason =>
    have left : leavingReason (s.bus b) = some e := by rw [leavingReason, reason]; rfl
    rw [left]
    exact .enterReleasing s b e
  next reason =>
    have left : leavingReason (s.bus b) = if (s.bus b).isRoutine then some .runEnd else none := by
      rw [leavingReason, reason]
      rfl
    rw [left]
    by_cases routine : (s.bus b).isRoutine = true
    · rw [if_pos routine, if_pos routine]
      exact .enterReleasing s b .runEnd
    · rw [if_neg routine, if_neg routine]
      exact .refl _

/-- A channel that stays in service is freed without a notice. -/
theorem freeOf_ports {x : RunContext} (channel : x.channel = some c) (run : (s.chan c).run = some x.handle)
    (waiting : s.gar.waiting = []) (given : c = .mc0 → s.givenMc1 = none) (stays : (s.chan c).disablePending = false) :
    (s.freeOf x).ports = s.ports := by
  have freed : s.freeOf x = s.freeChannel c := by
    rw [State.freeOf, channel]
    exact if_pos run
  have serves : ¬ (s.chan c).disablePending = true := by
    rw [stays]
    exact Bool.false_ne_true
  have left : s.leaveRun c = s.setChan c { (s.chan c).atRest with state := .ready } := if_neg serves
  rw [freed, State.freeChannel, if_neg serves, left, channelReady_mc0_setChan waiting given]
  rfl

/-- A bus that stays held moves on without a notice. -/
theorem busAfterRun_ports (held : leavingReason (s.bus b) = none) : (s.busAfterRun b).ports = s.ports := by
  unfold State.busAfterRun
  dsimp only
  split
  next e reason =>
    rw [leavingReason, reason] at held
    exact absurd held (Option.some_ne_none e)
  next reason =>
    have desk : ¬ (s.bus b).isRoutine = true := by
      intro routine
      rw [leavingReason, reason, Option.isSome_none, if_neg Bool.false_ne_true, if_pos routine] at held
      exact absurd held (Option.some_ne_none _)
    rw [if_neg desk]
    rfl

/-! ## Which run was given MC1 -/

theorem givenMc1_congr (moment : t.gar.moment = s.gar.moment) (chan : t.chan .mc1 = s.chan .mc1)
    (on : t.runOn .mc1 = s.runOn .mc1) : t.givenMc1 = s.givenMc1 := by
  rw [State.givenMc1, State.givenMc1, moment, on, chan]

theorem runOn_congr {d : Channel} (chan : t.chan d = s.chan d) (ctx : ∀ e, t.ctx e = s.ctx e) :
    t.runOn d = s.runOn d := by
  unfold State.runOn
  simp only [chan, ctx]

/-- A context rewritten for one channel's run is none of another's. -/
theorem runOn_setCtx {d : Channel} {x y : RunContext} (ctx : s.ctx b = some x) (hx : x.channel = some c)
    (hy : y.channel = some c) (apart : d ≠ c) : (s.setCtx b (some y)).runOn d = s.runOn d := by
  have other {x : RunContext} (hx : x.channel = some c) : ¬ ((s.chan d).run = some x.handle ∧ x.channel = some d) := by
    rintro ⟨-, on⟩
    exact apart (Option.some.inj (on.symm.trans hx))
  unfold State.runOn
  dsimp only
  rw [State.setCtx_chan]
  split
  next e state bus =>
    rw [State.setCtx_ctx]
    by_cases same : e = b
    · rw [if_pos same, same, ctx]
      exact (if_neg (other hy)).trans (if_neg (other hx)).symm
    · rw [if_neg same]
  next => rfl

/-! ## The state at the end of the step -/

/-- What the end of a run leaves, field by field. -/
structure RunEnded (s r z : State) (b : Bus) (c : Channel) (x : RunContext) (steps : List StepResult) (v : Verdict) :
    Prop where
  history : z.rsq.history = pushRecord (runRecord s x steps v) s.rsq.history
  ctx : ∀ d, z.ctx d = if d = b then none else s.ctx d
  chan : ∀ d, z.chan d = if d = c then freedChannel (s.chan c) else s.chan d
  bus : ∀ d, z.bus d = if d = b then busLeft (s.bus b) (leavingReason (s.bus b)) else s.bus d
  tkt : z.tkt = r.tkt
  last : (z.line x.line).last = some { handle := x.handle, time := s.now, verdict := v, origin := x.origin }
  covered : (z.line x.line).covered = (r.line x.line).covered
  ports : (s.chan c).disablePending = false → leavingReason (s.bus b) = none →
    z.ports = (announcedRun (loggedRun r x steps v) b x steps v).ports

/-- A run's channel and bus while it ends: where it is on its channel, no run waits and none was given MC1. -/
structure EndsQuietly (s : State) (b : Bus) (c : Channel) (x : RunContext) : Prop where
  ctx : s.ctx b = some x
  channel : x.channel = some c
  run : (s.chan c).run = some x.handle
  waiting : s.gar.waiting = []
  given : c = .mc0 → s.givenMc1 = none
  busy : NoIdleBus s

theorem canonical_reportedRun {x : RunContext} {steps : List StepResult} {v : Verdict} (w : Canonical s) :
    Canonical (reportedRun s x steps v) := by
  unfold reportedRun
  split
  · exact canonical_setLine ((Keeps.refl (a := false) (β := false)).takeReport.tables w) ..
  · exact w

/-- The end of a run, with every bus in use and no run waiting, once the step is over. -/
theorem settle_endRun {x : RunContext} (h : EndsQuietly s b c x) (w : Canonical s) :
    let steps := s.finalSteps x
    let v := runVerdict x.abort steps
    RunEnded s (reportedRun s x steps v) (s.endRun b).settle b c x steps v := by
  intro steps v
  let r := reportedRun s x steps v
  let l := loggedRun r x steps v
  let a := announcedRun l b x steps v
  let f := a.freeOf x
  let e := f.busAfterRun b
  have aside : Aside s r := reportedRun_aside s x steps v
  have announced : RunTail l a := announcedRun_tail l b x steps v
  have chan (d : Channel) : a.chan d = s.chan d := by
    rw [State.chan, announced.mc, State.chan, ← aside.mc]
    rfl
  have waiting : a.gar.waiting = [] := announced.waiting.trans (aside.waiting.trans h.waiting)
  have ctx (d : Bus) : a.ctx d = s.ctx d := by
    rw [State.ctx, announced.rsq, State.ctx, ← aside.rsq]
    rfl
  have given (first : c = .mc0) : a.givenMc1 = none :=
    (givenMc1_congr (announced.moment.trans aside.moment) (chan .mc1) (runOn_congr (chan .mc1) ctx)).trans (h.given first)
  have freed : RunTail (a.setChan c (freedChannel (s.chan c))) f := by
    rw [← chan c]
    exact freeOf_tail h.channel (by rw [chan c]; exact h.run) waiting given
  have acc : f.acc = s.acc := freed.acc.trans (announced.acc.trans aside.acc)
  have bus (d : Bus) : f.bus d = s.bus d := by rw [State.bus, acc, State.bus]
  have left : RunTail (f.setBus b (busLeft (s.bus b) (leavingReason (s.bus b)))) e := by
    rw [← bus b]
    exact busAfterRun_tail f b
  have rsq : e.rsq = a.rsq := left.rsq.trans freed.rsq
  have ended : s.endRun b = e.setCtx b none := endRun_eq h.ctx
  have busy : NoIdleBus (e.setCtx b none) := by
    have inUse : NoIdleBus f := by
      rw [NoIdleBus, State.idleBus]
      simp only [bus]
      exact h.busy
    rw [NoIdleBus, State.idleBus]
    have same (d : Bus) : (e.setCtx b none).bus d =
        (f.setBus b (busLeft (s.bus b) (leavingReason (s.bus b)))).bus d := by
      rw [State.bus, State.bus, ← left.acc]
      rfl
    simp only [same]
    exact noIdleBus_setBus inUse (busLeft_busy _ _)
  have waitingThen : (e.setCtx b none).gar.waiting = [] := left.waiting.trans (freed.waiting.trans waiting)
  have settled := settle_of_noIdleBus (s := e.setCtx b none) (.inl waitingThen) busy
  rw [ended, settled]
  have now : r.now = s.now := congrArg ExchangeCoordinator.time aside.exc
  have record : runRecord r x steps v = runRecord s x steps v := by rw [runRecord, now]; rfl
  have logged : l.line x.line = { r.line x.line with
      last := some { handle := x.handle, time := s.now, verdict := v, origin := x.origin } } := by
    rw [← now]
    exact line_setLine_same fun fresh => absurd (congrArg LineRecord.last fresh) (Option.some_ne_none _)
  have wf : Table.wfFrom (fun _ => LineRecord.fresh) 0 l.lrt.lines = true :=
    writeTable_wf (canonical_reportedRun w).lines _ _
  have wfThen := announced.wf wf
  have marks : (e.line x.line).last = (l.line x.line).last ∧ (e.line x.line).covered = (l.line x.line).covered := by
    obtain ⟨last, covered⟩ := announced.marks wf x.line
    obtain ⟨last', covered'⟩ := freed.marks wfThen x.line
    obtain ⟨last'', covered''⟩ := left.marks (freed.wf wfThen) x.line
    exact ⟨last''.trans (last'.trans last), covered''.trans (covered'.trans covered)⟩
  exact {
    history := by
      show e.rsq.history = _
      rw [rsq, announced.rsq, ← record, ← aside.rsq]
      rfl
    ctx := fun d => by
      show (e.setCtx b none).ctx d = _
      rw [State.setCtx_ctx, State.ctx, rsq, ← ctx d]
      rfl
    chan := fun d => by
      show e.mc.chans.get d = _
      rw [left.mc, ← chan d, ← State.setChan_chan, State.chan, ← freed.mc]
      rfl
    bus := fun d => by
      show e.acc.buses.get d = _
      rw [left.acc, ← bus d, ← State.setBus_bus]
      rfl
    tkt := left.tkt.trans (freed.tkt.trans announced.tkt)
    last := marks.1.trans (congrArg LineRecord.last logged)
    covered := marks.2.trans (by rw [logged])
    ports := fun stays held => (busAfterRun_ports (by rw [bus]; exact held)).trans
      (freeOf_ports h.channel (by rw [chan c]; exact h.run) waiting given (by rw [chan c]; exact stays)) }

/-! ## The report to a desk -/

/-- A desk run's end while its count does not wrap and its desk's port has room: RUN_DONE joins the notice FIFO. -/
theorem announcedRun_notices {x : RunContext} {d : Desk} (steps : List StepResult) (v : Verdict)
    (origin : x.origin = .desk d) (up : (s.port (deskPort d)).link = .up)
    (room : (s.port (deskPort d)).notices.length < 32)
    (below : (s.cnt.group 2).count (runEndIndex x.origin x.abort) < 65535) :
    ((announcedRun s b x steps v).port (deskPort d)).notices = (s.port (deskPort d)).notices ++
      [{ lost := (s.port (deskPort d)).lost,
         notice := .runDone x.handle b x.line v x.abort s.now (foundCodes steps) }] := by
  have desk : ¬ (x.abort.isNone = true ∧ ¬ x.origin.isDesk = true) := by
    rw [origin]
    exact fun both => both.2 rfl
  have reported (u : State) : u.reportRun b x v (foundCodes steps) =
      u.notifyDesk d (.runDone x.handle b x.line v x.abort u.now (foundCodes steps)) := by
    rw [State.reportRun, origin]
  obtain ⟨cnt, counted⟩ : ∃ cnt, s.count 2 (runEndIndex x.origin x.abort) = { s with cnt := cnt } :=
    ⟨_, count_of_lt below⟩
  rw [announcedRun, if_neg desk, counted, reported, notifyDesk_of_room (s := { s with cnt := cnt }) up room,
    State.setPort_port, if_pos rfl, kick_notices]
  rfl

end Sys2Proof
end

