-- ==== Sys2Proof/Proofs/RunDischarges.lean ====
section
/-! PROOFS. The end of a run at the end of a discharge (R85, R90, R116, R122, R123, R125 to R127). -/

namespace Sys2Proof

open Machine

variable {s : State} {c : Channel} {b : Bus} {x y : RunContext}

/-! ## The end of a discharge -/

/-- A channel whose discharge is over. -/
def quietChannel (r : ChannelRecord) : ChannelRecord := { r with activity := .quiet, timer := 0, biasNext := none }

/-- A discharge that no switch-on waits for is over: the run on the channel goes on. -/
theorem dischargeOver_of_run (on : s.runOn c = some (b, x)) (activity : (s.chan c).activity = .discharging)
    (noNext : (s.chan c).biasNext = none) :
    s.dischargeOver c = (s.setChan c (quietChannel (s.chan c))).afterDischarge b c x := by
  obtain ⟨ctx, state, bus, run, channel⟩ := runOn_some on
  have chan : (s.setChan c (quietChannel (s.chan c))).chan c = quietChannel (s.chan c) :=
    (State.setChan_chan ..).trans (if_pos rfl)
  have onThen : (s.setChan c (quietChannel (s.chan c))).runOn c = some (b, x) :=
    runOn_of ctx (by rw [chan]; exact state) (by rw [chan]; exact bus) (by rw [chan]; exact run) channel
  unfold State.dischargeOver
  dsimp only
  rw [if_neg (not_not.2 activity), noNext]
  show (match (s.setChan c (quietChannel (s.chan c))).runOn c with
    | some (b, x) => (s.setChan c (quietChannel (s.chan c))).afterDischarge b c x
    | none => s.setChan c (quietChannel (s.chan c))) = _
  rw [onThen]

theorem setCtx_self (ctx : s.ctx b = some x) : s.setCtx b (some x) = s := by
  rw [← ctx]
  cases b <;> rfl

/-- The run's context as its last step's result is complete. -/
def closedContext (x : RunContext) (r : StepResult) : RunContext :=
  { x with done := x.done ++ [r], cur := none, final := false, work := StepWork.idle }

/-- The run as it ends stands on its channel while no run waits and none was given MC1 at this instant. -/
theorem endsQuietly_of (on : s.runOn c = some (b, x)) (hy : y.channel = some c) (handle : y.handle = x.handle)
    (waiting : s.gar.waiting = []) (given : s.givenMc1 = none) (busy : NoIdleBus s) :
    EndsQuietly ((s.setChan c (quietChannel (s.chan c))).setCtx b (some y)) b c y := by
  obtain ⟨ctx, state, bus, run, channel⟩ := runOn_some on
  exact {
    ctx := (State.setCtx_ctx ..).trans (if_pos rfl)
    channel := hy
    run := by
      rw [State.setCtx_chan, State.setChan_chan, if_pos rfl, handle]
      exact run
    waiting := waiting
    given := fun first => by
      subst first
      have same := runOn_setCtx (s := s.setChan .mc0 (quietChannel (s.chan .mc0))) (d := .mc1) ctx channel hy (by decide)
      exact (givenMc1_congr (s := s.setChan .mc0 (quietChannel (s.chan .mc0)))
        (t := (s.setChan .mc0 (quietChannel (s.chan .mc0))).setCtx b (some y)) rfl rfl same).trans given
    busy := busy }

/-- An aborted run ends with the discharge. -/
theorem exec_dischargeEnd_aborted (on : s.runOn c = some (b, x)) (activity : (s.chan c).activity = .discharging)
    (noNext : (s.chan c).biasNext = none) (phase : x.phase = .discharge) (abort : x.abort ≠ none) :
    exec (.dischargeEnd c) s = .next (((s.setChan c (quietChannel (s.chan c))).setCtx b (some x)).endRun b).settle := by
  obtain ⟨ctx, -⟩ := runOn_some on
  have aborted : x.abort.isSome = true := Option.isSome_iff_ne_none.2 abort
  rw [setCtx_self (s := s.setChan c (quietChannel (s.chan c))) ctx]
  refine congrArg (fun z => Host.Outcome.next (State.settle z)) ((dischargeOver_of_run on activity noNext).trans ?_)
  rw [State.afterDischarge, if_neg (not_not.2 phase), if_pos aborted]

/-- A run whose last step is over ends with the discharge that closes it. -/
theorem exec_dischargeEnd_closing {w : StepResult} (on : s.runOn c = some (b, x))
    (activity : (s.chan c).activity = .discharging) (noNext : (s.chan c).biasNext = none) (phase : x.phase = .discharge)
    (abort : x.abort = none) (stage : x.work.stage = .closing) (cur : x.cur = some w)
    (last : x.stepIx + 1 = (s.program x.program).length) :
    exec (.dischargeEnd c) s = .next (((s.setChan c (quietChannel (s.chan c))).setCtx b
      (some (closedContext x (w.closeTrace (s.chan c).written)))).endRun b).settle := by
  obtain ⟨ctx, -⟩ := runOn_some on
  let u := s.setChan c (quietChannel (s.chan c))
  have aborted : ¬ x.abort.isSome = true := by
    rw [abort]
    exact Bool.false_ne_true
  have chan : (u.chan c).written = (s.chan c).written := by
    rw [show u.chan c = quietChannel (s.chan c) from (State.setChan_chan ..).trans (if_pos rfl)]
    rfl
  have none : (u.program x.program).drop (x.stepIx + 1) = [] := by
    rw [last]
    exact List.drop_length
  refine congrArg (fun z => Host.Outcome.next (State.settle z)) ((dischargeOver_of_run on activity noNext).trans ?_)
  show u.afterDischarge b c x = _
  have ends : u.endStep b c = (u.setCtx b (some (closedContext x (w.closeTrace (s.chan c).written)))).endRun b := by
    have here : u.ctx b = some x := ctx
    rw [State.endStep, here]
    dsimp only
    rw [cur, chan]
    show State.beginSteps b c ((u.program x.program).drop (x.stepIx + 1)) (x.stepIx + 1) _ = _
    rw [none]
    rfl
  rw [State.afterDischarge, if_neg (not_not.2 phase), if_neg aborted, stage]
  exact ends

/-! ## Step results and verdict -/

theorem finalSteps_of_done (cur : y.cur = none) (all : y.done.length = (s.program y.program).length) :
    s.finalSteps y = y.done := by
  unfold State.finalSteps
  rw [cur]
  simp [all]

/-- The step in hand of an aborted run is ABORTED, the steps not begun NOT_RUN (R123). -/
theorem finalSteps_of_cur {w : StepResult} (cur : x.cur = some w) (channel : x.channel = some c) :
    s.finalSteps x = x.done ++ [{ w.closeTrace (s.chan c).written with status := .aborted }] ++
      ((s.program x.program).drop (x.done.length + 1)).map fun st => blankResult st .notRun ⟨some c, 0, 0⟩ := by
  unfold State.finalSteps
  rw [cur, channel]
  simp

theorem runVerdict_none (steps : List StepResult) : runVerdict none steps =
    if ∀ r ∈ steps, r.findings = [] then .pass else .fault := by
  refine (if_neg Bool.false_ne_true).trans (if_congr ?_ rfl rfl)
  simp

/-- The end of a run whose step results and verdict are known. -/
theorem settle_endRun_of {steps : List StepResult} {v : Verdict} (h : EndsQuietly s b c x) (w : Canonical s)
    (results : s.finalSteps x = steps) (verdict : runVerdict x.abort steps = v) :
    RunEnded s (reportedRun s x steps v) (s.endRun b).settle b c x steps v := by
  subst results verdict
  exact settle_endRun h w

/-- The reason a bus leaves with, read off its record. -/
theorem leavingReason_eq (u : BusRecord) : leavingReason u = match u.reason, u.holder with
    | some e, _ => some e
    | none, some (.routine _) => some .runEnd
    | none, _ => none := by
  unfold leavingReason BusRecord.isRoutine
  rcases u.reason with _ | e
  · rcases u.holder with _ | ⟨d | k⟩ <;> rfl
  · rfl

/-- Settles O54: the channel's own calibration, a calibration inside a run, and the end of a run, which is one state
change whether its last step is over or it was aborted. -/
theorem calibration : Obligations.Calibration := by
  refine ⟨?_, ?_, ?_⟩
  · intro s c hs r done passes
    refine ⟨fun warming early => ?_, fun warming last => ?_, fun other => ⟨?_, ?_⟩, fun w cal all more => ?_,
      calibration_of_channel s c hs⟩
    · exact congrArg (fun v => Host.Outcome.next (s.setChan c v)) (nextStage_eq warming early)
    · exact congrArg (fun v => Host.Outcome.next (s.setChan c v)) (endWarmUp_eq warming last)
    · have same : (s.chan c).nextStage = s.chan c := if_neg fun both => other both.1
      exact congrArg Host.Outcome.next ((congrArg (s.setChan c) same).trans (setChan_chan_self s c))
    · have same : (s.chan c).endWarmUp = s.chan c := if_neg fun both => other both.1
      exact congrArg Host.Outcome.next ((congrArg (s.setChan c) same).trans (setChan_chan_self s c))
    · refine congrArg (fun v => Host.Outcome.next (s.setChan c v)) ((calGainDone_eq cal all more).trans ?_)
      rcases w.formed.length with _ | _ | n <;> rfl
  · intro s c b x n rest u y z v hs on inRun bias cal hu hy hz hv program
    exact inRunCalibration_passes hs on inRun bias cal ⟨hu, hy, hz, hv⟩ program
  · intro s c b x w hs canonical busy on phase cur waiting given r activity noNext u closed notBegun leaving freed ended
      unreported verdict cutOff
    obtain ⟨ctx, -, -, -, channel⟩ := runOn_some on
    have leaves : leavingReason (s.bus b) = leaving := (leavingReason_eq _).trans rfl
    let q : State := s.setChan c (quietChannel (s.chan c))
    have isEnded {y : RunContext} {t : State} {v : Verdict} {steps : List StepResult}
        (taken : exec (.dischargeEnd c) s = .next ((q.setCtx b (some y)).endRun b).settle)
        (shape : y = { x with done := y.done, cur := y.cur, final := y.final, work := y.work })
        (h : RunEnded (q.setCtx b (some y)) t ((q.setCtx b (some y)).endRun b).settle b c y steps v) :
        ended v steps ((q.setCtx b (some y)).endRun b).settle := by
      have line : y.line = x.line := by rw [shape]
      have record : runRecord (q.setCtx b (some y)) y steps v = { runRecord s x steps v with channel := some c } := by
        rw [shape, ← channel]
        rfl
      have chan : (q.setCtx b (some y)).chan c = quietChannel r := by
        rw [State.setCtx_chan, State.setChan_chan, if_pos rfl]
      refine ⟨taken, ?_, ?_, ?_, fun d apart => ?_, ?_, fun d apart => ?_, ?_, fun d apart => ?_⟩
      · rw [h.history, record]
        rfl
      · rw [← line, h.last, shape]
        rfl
      · rw [h.ctx, if_pos rfl]
      · rw [h.ctx, if_neg apart, State.setCtx_ctx, if_neg apart]
        rfl
      · rw [h.chan, if_pos rfl, chan, freedChannel]
        rfl
      · rw [h.chan, if_neg apart, State.setCtx_chan, State.setChan_chan, if_neg apart]
      · rw [h.bus, if_pos rfl]
        show busLeft u (leavingReason (s.bus b)) = _
        rw [leaves]
        cases leaving with
        | none => rfl
        | some e => rw [busLeft, hold_stop_eq] <;> rfl
      · rw [h.bus, if_neg apart]
        rfl
    have isUnreported {y : RunContext} {v : Verdict} {steps : List StepResult}
        (shape : y = { x with done := y.done, cur := y.cur, final := y.final, work := y.work })
        (silent : ¬ (y.abort.isNone = true ∧ y.ticketing = true))
        (h : RunEnded (q.setCtx b (some y)) (reportedRun (q.setCtx b (some y)) y steps v)
          ((q.setCtx b (some y)).endRun b).settle b c y steps v) :
        unreported v steps ((q.setCtx b (some y)).endRun b).settle := by
      have line : y.line = x.line := by rw [shape]
      have origin : y.origin = x.origin := by rw [shape]
      have abort : y.abort = x.abort := by rw [shape]
      have handle : y.handle = x.handle := by rw [shape]
      have same : reportedRun (q.setCtx b (some y)) y steps v = q.setCtx b (some y) := if_neg silent
      rw [same] at h
      refine ⟨h.tkt, ?_, fun d desk up room below stays held => ?_⟩
      · rw [← line, h.covered]
        rfl
      · have chan : (q.setCtx b (some y)).chan c = quietChannel r := by
          rw [State.setCtx_chan, State.setChan_chan, if_pos rfl]
        have ports := h.ports (by rw [chan]; exact stays) (leaves.trans held)
        have told := announcedRun_notices (s := loggedRun (q.setCtx b (some y)) y steps v) (b := b) (x := y) (d := d)
          steps v (origin.trans desk) up room (by rw [origin, abort]; exact below)
        rw [State.port, ports]
        refine told.trans ?_
        rw [handle, line, abort]
        rfl
    have canonicalThen {y : RunContext} : Canonical (q.setCtx b (some y)) :=
      ⟨canonical.1, canonical.2, canonical.3, canonical.4, canonical.5, canonical.6⟩
    refine ⟨fun abort stage last all => ?_, fun abort => ?_⟩
    · let y : RunContext := closedContext x closed
      have allDone : y.done.length = (s.program y.program).length := by
        rw [show y.done = x.done ++ [closed] from rfl, List.length_append, List.length_singleton, all]
        exact last
      have steps : (q.setCtx b (some y)).finalSteps y = x.done ++ [closed] := finalSteps_of_done rfl allDone
      have judged : runVerdict y.abort (x.done ++ [closed]) = verdict := by
        rw [show y.abort = none from abort]
        exact (runVerdict_none _).trans (if_congr Iff.rfl rfl rfl)
      have h := settle_endRun_of (endsQuietly_of (y := y) on channel rfl waiting given busy) canonicalThen steps judged
      refine ⟨_, isEnded (exec_dischargeEnd_closing on activity noNext phase abort stage cur last) rfl h,
        fun ticketing => ?_, fun silent => isUnreported rfl (fun both => ?_) h⟩
      · have report : y.abort.isNone = true ∧ y.ticketing = true :=
          ⟨by rw [show y.abort = none from abort]; rfl, ticketing⟩
        refine h.covered.trans ?_
        rw [reportedRun, if_pos report]
        exact (congrArg LineRecord.covered (line_setLine_same fun fresh =>
          absurd (congrArg LineRecord.covered fresh) (Option.some_ne_none _))).trans
          (congrArg some (Aside.takeReport ..).number)
      · have ticketing : x.ticketing = true := both.2
        rw [silent] at ticketing
        exact Bool.false_ne_true ticketing
    · have steps : (q.setCtx b (some x)).finalSteps x = cutOff := by
        have written : ((q.setCtx b (some x)).chan c).written = r.written := by
          rw [State.setCtx_chan, State.setChan_chan, if_pos rfl]
          rfl
        rw [finalSteps_of_cur cur channel, written]
        rfl
      have aborted : x.abort.isSome = true := Option.isSome_iff_ne_none.2 abort
      have judged : runVerdict x.abort cutOff = .incomplete := if_pos aborted
      have h := settle_endRun_of (endsQuietly_of (y := x) on channel rfl waiting given busy) canonicalThen steps judged
      refine ⟨_, isEnded (exec_dischargeEnd_aborted on activity noNext phase abort) rfl h, isUnreported rfl (fun both => ?_) h⟩
      exact abort (Option.isNone_iff_eq_none.1 both.1)

end Sys2Proof
end

