-- ==== Sys2Proof/Proofs/ReadingValues.lean ====
section
/-! PROOFS. The values of a voltage reading: the integer square root, the mean and the deviation of a pass, the gain of
the next pass, and the largest of several values (R94 to R99, R119). -/

namespace Sys2Proof

open Machine

/-! ## The integer square root -/

theorem sqrtFrom_spec (k n acc : Nat) (low : acc * acc ≤ n) (high : n < (acc + 2 ^ k) * (acc + 2 ^ k)) :
    sqrtFrom k n acc * sqrtFrom k n acc ≤ n ∧ n < (sqrtFrom k n acc + 1) * (sqrtFrom k n acc + 1) := by
  induction k generalizing acc with
  | zero => exact ⟨low, high⟩
  | succ k ih =>
    unfold sqrtFrom sqrtBit
    by_cases fits : (acc + 2 ^ k) * (acc + 2 ^ k) ≤ n
    · rw [if_pos fits]
      refine ih _ fits ?_
      rw [Nat.add_assoc, ← Nat.two_mul, ← Nat.pow_succ']
      exact high
    · rw [if_neg fits]
      exact ih acc low (Nat.lt_of_not_le fits)

/-- The integer square root of a number below 2^40 (R99). -/
theorem isqrt_spec {n : Nat} (small : n < 2 ^ 40) : isqrt n * isqrt n ≤ n ∧ n < (isqrt n + 1) * (isqrt n + 1) :=
  sqrtFrom_spec 20 n 0 (Nat.zero_le n) (by simpa using small)

/-! ## The mean and the deviation of a pass -/

theorem corrected_range (offset raw : Int) : -32768 ≤ corrected offset raw ∧ corrected offset raw ≤ 32767 := by
  unfold corrected clampInt clipLow clipHigh
  split
  · omega
  · split <;> omega

theorem sum_bounds {l : List Int} {lo hi : Int} (h : ∀ v ∈ l, lo ≤ v ∧ v ≤ hi) :
    lo * l.length ≤ l.sum ∧ l.sum ≤ hi * l.length := by
  induction l with
  | nil => simp
  | cons v rest ih =>
    obtain ⟨low, high⟩ := ih fun w hw => h w (List.mem_cons_of_mem _ hw)
    obtain ⟨hlo, hhi⟩ := h v List.mem_cons_self
    rw [List.sum_cons, List.length_cons, Int.natCast_succ, Int.mul_add, Int.mul_add, Int.mul_one, Int.mul_one]
    omega

/-- The mean of codes within the converter's range lies within it. -/
theorem mean_range {codes : List Int} (h : ∀ v ∈ codes, -32768 ≤ v ∧ v ≤ 32767) (nonempty : 0 < codes.length) :
    -32768 ≤ roundDiv codes.sum codes.length ∧ roundDiv codes.sum codes.length ≤ 32767 := by
  obtain ⟨low, high⟩ := sum_bounds h
  exact roundDiv_mem_range nonempty (by omega) (by omega)

/-- The mean square of the deviations is below 2^40, so that its root is taken in full (R99). -/
theorem spread_lt {codes : List Int} (h : ∀ v ∈ codes, -32768 ≤ v ∧ v ≤ 32767) :
    (codes.map fun k => ((k - roundDiv codes.sum codes.length) * (k - roundDiv codes.sum codes.length)).toNat).sum /
      codes.length < 2 ^ 40 := by
  rcases Nat.eq_zero_or_pos codes.length with empty | nonempty
  · rw [empty, Nat.div_zero]
    decide
  · obtain ⟨low, high⟩ := mean_range h nonempty
    let mean := roundDiv codes.sum codes.length
    have square (k : Int) (hk : k ∈ codes) : ((k - mean) * (k - mean)).toNat ≤ 65535 * 65535 := by
      obtain ⟨hlo, hhi⟩ := h k hk
      have near : (k - mean).natAbs ≤ 65535 := by omega
      rw [← Int.natAbs_mul_self, Int.toNat_natCast]
      exact Nat.mul_le_mul near near
    have total := List.sum_le_card_nsmul (codes.map fun k => ((k - mean) * (k - mean)).toNat) (65535 * 65535) fun v hv => by
      obtain ⟨k, hk, rfl⟩ := List.mem_map.1 hv
      exact square k hk
    rw [List.length_map, smul_eq_mul] at total
    refine (Nat.div_lt_iff_lt_mul nonempty).2 (Nat.lt_of_le_of_lt total ?_)
    rw [Nat.mul_comm]
    exact Nat.mul_lt_mul_of_pos_right (by decide) nonempty

/-! ## The gain of the next pass (R96) -/

theorem isClip_iff (k : Int) : isClip k = true ↔ k = -32768 ∨ k = 32767 := by
  rw [isClip, Bool.or_eq_true, decide_eq_true_iff, decide_eq_true_iff]
  rfl

theorem any_isClip_iff (l : List Int) : l.any isClip = true ↔ -32768 ∈ l ∨ 32767 ∈ l := by
  simp only [List.any_eq_true, isClip_iff]
  constructor
  · rintro ⟨k, hk, rfl | rfl⟩
    · exact .inl hk
    · exact .inr hk
  · rintro (hk | hk)
    · exact ⟨_, hk, .inl rfl⟩
    · exact ⟨_, hk, .inr rfl⟩

/-- A clipped pass above gain 1 is followed by one at a quarter of its gain. -/
theorem nextGain_lower {changes : Nat} {p : Pass} {g : Gain} (few : changes < 3) (clipped : p.clipped = true)
    (lower : (p.gain, g) ∈ [(Gain.g4, Gain.g1), (.g16, .g4), (.g64, .g16)]) : nextGain changes p = some g := by
  have high : p.gain ≠ .g1 ∧ p.gain.down = g := by
    simp only [List.mem_cons, Prod.mk.injEq, List.not_mem_nil, or_false] at lower
    rcases lower with ⟨hp, rfl⟩ | ⟨hp, rfl⟩ | ⟨hp, rfl⟩ <;> simp [hp, Gain.down]
  rw [nextGain, if_neg (Nat.not_le.2 few), if_pos ⟨clipped, high.1⟩, high.2]

/-- A small pass below gain 64 is followed by one at four times its gain. -/
theorem nextGain_higher {changes : Nat} {p : Pass} {g : Gain} (few : changes < 3) (clear : ¬ p.clipped = true)
    (small : 4 * p.mean.natAbs ≤ 24576)
    (higher : (p.gain, g) ∈ [(Gain.g1, Gain.g4), (.g4, .g16), (.g16, .g64)]) : nextGain changes p = some g := by
  have low : p.gain ≠ .g64 ∧ p.gain.up = g := by
    simp only [List.mem_cons, Prod.mk.injEq, List.not_mem_nil, or_false] at higher
    rcases higher with ⟨hp, rfl⟩ | ⟨hp, rfl⟩ | ⟨hp, rfl⟩ <;> simp [hp, Gain.up]
  rw [nextGain, if_neg (Nat.not_le.2 few), if_neg fun both => clear both.1, if_pos ⟨clear, small, low.1⟩, low.2]

/-- A pass stands where no gain change is left, or none is asked for. -/
theorem nextGain_none {changes : Nat} {p : Pass} (stands : 3 ≤ changes ∨
    ∀ g, ¬ (p.clipped = true ∧ (p.gain, g) ∈ [(Gain.g4, Gain.g1), (.g16, .g4), (.g64, .g16)]) ∧
      ¬ (¬ p.clipped = true ∧ 4 * p.mean.natAbs ≤ 24576 ∧
        (p.gain, g) ∈ [(Gain.g1, Gain.g4), (.g4, .g16), (.g16, .g64)])) : nextGain changes p = none := by
  rw [nextGain]
  split
  next => rfl
  next few =>
    have both := stands.resolve_left few
    rw [if_neg, if_neg]
    · rintro ⟨clear, small, low⟩
      refine (both p.gain.up).2 ⟨clear, small, ?_⟩
      cases hp : p.gain <;> simp [hp, Gain.up] at low ⊢
    · rintro ⟨clipped, high⟩
      refine (both p.gain.down).1 ⟨clipped, ?_⟩
      cases hp : p.gain <;> simp [hp, Gain.down] at high ⊢

/-! ## The largest of several values (R119, log 18) -/

theorem foldl_max_spec (l : List Nat) (a : Nat) :
    a ≤ l.foldl max a ∧ (∀ v ∈ l, v ≤ l.foldl max a) ∧ (l.foldl max a = a ∨ l.foldl max a ∈ l) := by
  induction l generalizing a with
  | nil => simp
  | cons v rest ih =>
    obtain ⟨start, all, attained⟩ := ih (max a v)
    rw [List.foldl_cons]
    refine ⟨(Nat.le_max_left a v).trans start, fun w hw => ?_, ?_⟩
    · rcases List.mem_cons.1 hw with rfl | hw
      · exact (Nat.le_max_right a w).trans start
      · exact all w hw
    · rcases attained with same | mem
      · rw [same]
        rcases Nat.le_total a v with h | h
        · exact .inr (by rw [Nat.max_eq_right h]; exact List.mem_cons_self)
        · exact .inl (Nat.max_eq_left h)
      · exact .inr (List.mem_cons_of_mem _ mem)

theorem exists_max_magnitude {values : List Quantity} (nonempty : values ≠ []) :
    ∃ k ∈ values, k.magnitude = (values.map Quantity.magnitude).foldl max 0 ∧
      ∀ l ∈ values, l.magnitude ≤ (values.map Quantity.magnitude).foldl max 0 := by
  obtain ⟨-, all, attained⟩ := foldl_max_spec (values.map Quantity.magnitude) 0
  have bound (l : Quantity) (hl : l ∈ values) : l.magnitude ≤ (values.map Quantity.magnitude).foldl max 0 :=
    all _ (List.mem_map_of_mem hl)
  rcases attained with zero | mem
  · obtain ⟨k, hk⟩ := List.exists_mem_of_ne_nil values nonempty
    exact ⟨k, hk, by rw [zero]; exact Nat.le_zero.1 (zero ▸ bound k hk), bound⟩
  · obtain ⟨k, hk, same⟩ := List.mem_map.1 mem
    exact ⟨k, hk, same, bound⟩

/-- One of the largest is taken, whichever the free choice names. -/
theorem largestValue_spec {values : List Quantity} (nonempty : values ≠ []) :
    ∃ k, largestValue values = some k ∧ k ∈ values ∧ ∀ l ∈ values, l.magnitude ≤ k.magnitude := by
  obtain ⟨m, hm, top, bound⟩ := exists_max_magnitude nonempty
  let ties := values.filter fun v => v.magnitude = (values.map Quantity.magnitude).foldl max 0
  have tied : 0 < ties.length := List.length_pos_of_mem (List.mem_filter.2 ⟨hm, decide_eq_true top⟩)
  have index : Config.tiePick (ties.map Quantity.signed) % ties.length < ties.length := Nat.mod_lt _ tied
  obtain ⟨hk, same⟩ := List.mem_filter.1 (List.getElem_mem index)
  exact ⟨ties[Config.tiePick (ties.map Quantity.signed) % ties.length], List.getElem?_eq_getElem index, hk,
    fun l hl => (bound l hl).trans (of_decide_eq_true same).ge⟩

end Sys2Proof
end

