-- ==== Sys2Proof/Proofs/RunReadings.lean ====
section
/-! PROOFS. The readings of a run's FV step: a further pass, a value that stands, and what it writes (R95 to R100, R118,
R119, R121). -/

namespace Sys2Proof

open Machine

variable {s : State} {c : Channel} {b : Bus} {x y : RunContext} {rd : Reading}

/-! ## A pass is over -/

/-- The pass in hand of a reading whose samples are all there. -/
def passInHand (s : State) (c : Channel) (rd : Reading) : Pass :=
  passOf rd.gain ((s.chan c).offsets.at rd.gain) rd.n rd.raw.reverse

/-- A pass that is over: a gain change, or the reading stands. -/
theorem passOver_eq (on : s.runOn c = some (b, x)) (phase : x.phase = .reading) (reading : x.work.reading = some rd)
    (all : rd.raw.length = 2 + rd.n) : s.passOver c =
      (nextGain rd.changes (passInHand s c rd)).elim (s.readingStands b c x (passInHand s c rd) rd.n) fun g =>
        (s.selectGain c g).setCtx b (some { x with gain := g, work := { x.work with
          reading := some { rd with gain := g, changes := rd.changes + 1, raw := [] } } }) := by
  unfold State.passOver
  rw [on]
  dsimp only
  rw [phase, reading]
  refine (if_neg (not_not.2 all)).trans ?_
  show (match nextGain rd.changes (passInHand s c rd) with | some g => _ | none => _) = _
  cases nextGain rd.changes (passInHand s c rd) <;> rfl

/-- A pass whose samples are not all there is not over (log 5). -/
theorem passOver_early (on : s.runOn c = some (b, x)) (phase : x.phase = .reading) (reading : x.work.reading = some rd)
    (some : rd.raw.length ≠ 2 + rd.n) : s.passOver c = s := by
  unfold State.passOver
  rw [on]
  dsimp only
  rw [phase, reading]
  exact if_pos some

/-! ## The value of a pair and its judgement -/

/-- The value is HAZARD by the class limits (R118). -/
def fvHazard (e : ClassEntry) (dc ac : Int) : Bool := e.dcHazard < dc.natAbs || e.acHazard < ac.natAbs

/-- The value is SOFT by the class limits (R118). -/
def fvSoft (e : ClassEntry) (dc ac : Int) : Bool := !fvHazard e dc ac && (e.dcSoft < dc.natAbs || e.acSoft < ac.natAbs)

theorem judgeFv_eq (e : ClassEntry) (v : FvValue) : judgeFv e v =
    if fvHazard e v.dc v.ac then some .hazard else if fvSoft e v.dc v.ac then some .soft else none := by
  have hazard : fvHazard e v.dc v.ac = true ↔ e.dcHazard < v.dc.natAbs ∨ e.acHazard < v.ac.natAbs := by
    rw [fvHazard, Bool.or_eq_true, decide_eq_true_iff, decide_eq_true_iff]
  unfold judgeFv
  by_cases h : e.dcHazard < v.dc.natAbs ∨ e.acHazard < v.ac.natAbs
  · rw [if_pos h, if_pos (hazard.2 h)]
  · have soft : fvSoft e v.dc v.ac = true ↔ e.dcSoft < v.dc.natAbs ∨ e.acSoft < v.ac.natAbs := by
      have off : fvHazard e v.dc v.ac = false := Bool.eq_false_iff.2 (mt hazard.1 h)
      rw [fvSoft, off, Bool.not_false, Bool.true_and, Bool.or_eq_true, decide_eq_true_iff, decide_eq_true_iff]
    rw [if_neg h, if_neg (mt hazard.1 h)]
    exact if_congr soft.symm rfl rfl

/-- The finding of a pair's value, as the step result holds it. -/
def fvFound (e : ClassEntry) (p : Pair) (dc ac : Int) : List StepFinding :=
  if fvHazard e dc ac then [{ code := .foreignV, severity := .hazard, pair := some p }]
  else if fvSoft e dc ac then [{ code := .foreignV, severity := .soft, pair := some p }] else []

/-- The values of a pair that broke a soft limit. -/
def fvBroke (e : ClassEntry) (dc ac : Int) : List Quantity :=
  if fvSoft e dc ac then
    (if e.dcSoft < dc.natAbs then [.mvDc dc] else []) ++ (if e.acSoft < ac.natAbs then [.mvRms ac] else [])
  else []

/-- The context after the value of a pair. -/
def fvRead (x : RunContext) (e : ClassEntry) (p : Pair) (v : FvValue) : RunContext :=
  { x with
    cur := x.cur.map fun w => { w with values := putFv p v w.values, findings := w.findings ++ fvFound e p v.dc v.ac }
    work := { x.work with softValues := x.work.softValues ++ fvBroke e v.dc v.ac } }

theorem withFv_eq (x : RunContext) (e : ClassEntry) (p : Pair) (v : FvValue) : x.withFv e p v = fvRead x e p v := by
  have apart : fvHazard e v.dc v.ac = true → fvSoft e v.dc v.ac = false := fun h => by rw [fvSoft, h]; rfl
  unfold RunContext.withFv fvRead fvFound fvBroke
  rw [judgeFv_eq]
  cases hazard : fvHazard e v.dc v.ac with
  | true =>
    rw [apart hazard]
    simp [RunContext.mapCur]
  | false =>
    cases soft : fvSoft e v.dc v.ac with
    | true => simp [RunContext.mapCur, softValuesOf]
    | false => simp [RunContext.mapCur]

/-! ## What a value writes -/

/-- A HAZARD stood in the step result already. -/
def hazardBefore (x : RunContext) : Bool := x.cur.any fun w => w.findings.any fun k => k.severity = .hazard

/-- The state as a pair's value is written: a HAZARD sets the line's flag, and the first of a step is handed to the
ticket table at once (R119, R121). -/
def fvTold (s : State) (b : Bus) (x : RunContext) (e : ClassEntry) (p : Pair) (v : FvValue) : State :=
  let u := s.setCtx b (some (fvRead x e p v))
  if fvHazard e v.dc v.ac then
    if hazardBefore x then u.setHazard x.line true
    else (u.setHazard x.line true).takeFinding (x.finding .foreignV .hazard (some (hazardValue e v)) none)
  else u

theorem fvTold_frame (s : State) (b : Bus) (x : RunContext) (e : ClassEntry) (p : Pair) (v : FvValue) :
    TicketWork (s.setCtx b (some (fvRead x e p v))) (fvTold s b x e p v) := by
  have flagged := (TicketWork.refl (s.setCtx b (some (fvRead x e p v)))).setLine (n := x.line)
    (r := { (s.setCtx b (some (fvRead x e p v))).line x.line with hazard := true })
  unfold fvTold
  exact TicketWork.ite (TicketWork.ite flagged flagged.takeFinding) (.refl _)

/-- What follows a value that stands: the next pair, or the end of the step. -/
theorem fvStands_eq (s : State) (b : Bus) (c : Channel) (x : RunContext) (p : Pair) (pass : Pass) (n : Nat) :
    let e := s.cls x.cls
    let v : FvValue := { clipped := pass.clipped, dc := readingValue pass, ac := acValue pass n }
    let t := fvTold s b x e p v
    (p = .tg → s.fvStands b c x p pass n = t.beginFvPair b c .rg n) ∧
    (p = .rg → s.fvStands b c x p pass n = t.beginFvPair b c .tr n) ∧
    (p = .tr → s.fvStands b c x p pass n = t.endFv b c (fvRead x e p v) pass.gain) := by
  intro e v t
  have hazard : judgeFv e v = some .hazard ↔ fvHazard e v.dc v.ac = true := by
    rw [judgeFv_eq]
    split
    next h => simp [h]
    next h => split <;> simp [h]
  let u := s.setCtx b (some (fvRead x e p v))
  let flagged := if judgeFv e v = some .hazard then u.setHazard x.line true else u
  have told : (if judgeFv e v = some .hazard ∧ ¬ hazardBefore x = true then
      flagged.takeFinding (x.finding .foreignV .hazard (some (hazardValue e v)) none) else flagged) = t := by
    show _ = fvTold s b x e p v
    unfold fvTold
    dsimp only
    by_cases h : fvHazard e v.dc v.ac = true
    · have set : flagged = u.setHazard x.line true := if_pos (hazard.2 h)
      rw [if_pos h, set]
      by_cases before : hazardBefore x = true
      · rw [if_pos before, if_neg fun both => both.2 before]
      · rw [if_neg before, if_pos ⟨hazard.2 h, before⟩]
    · have kept : flagged = u := if_neg (mt hazard.1 h)
      rw [if_neg h, if_neg fun both => h (hazard.1 both.1), kept]
  have stands : s.fvStands b c x p pass n = match p with
      | .tg => t.beginFvPair b c .rg n
      | .rg => t.beginFvPair b c .tr n
      | .tr => t.endFv b c (fvRead x e p v) pass.gain := by
    rw [← told]
    unfold State.fvStands
    dsimp only
    rw [withFv_eq]
    rfl
  refine ⟨?_, ?_, ?_⟩ <;> rintro rfl <;> exact stands

/-! ## The next pair's reading -/

/-- After TG and RG the next pair is selected and its reading begins at gain 1 (R100). -/
theorem beginFvPair_told {t u : State} (told : TicketWork (s.setCtx b (some y)) t) (bias : (s.chan c).bias = .off)
    (activity : (s.chan c).activity ≠ .discharging) (p : Pair) (n : Nat)
    (hu : u = (t.setChan c { s.chan c with pair := some p, gain := .g1 }).setCtx b (some { y with
      phase := .reading, gain := .g1
      work := { y.work with stage := .fv p, reading := some { n := n, gain := .g1, changes := 0, raw := [] } } })) :
    t.beginFvPair b c p n = u := by
  obtain ⟨ctx, chan⟩ : t.ctx b = some y ∧ t.chan c = s.chan c := by
    obtain ⟨lrt, tkt, ports, cnt, rfl⟩ := told
    exact ⟨(State.setCtx_ctx s b b (some y)).trans (if_pos rfl), rfl⟩
  rw [hu, beginFvPair_of ctx (by rw [chan]; exact bias) (by rw [chan]; exact activity), chan, setCtx_setChan]

theorem settled_nextPair {t : State} (hs : Settled s) (told : TicketWork (s.setCtx b (some y)) t) {r : ChannelRecord}
    (state : r.state = (s.chan c).state) (z : Option RunContext) : Settled ((t.setChan c r).setCtx b z) := by
  obtain ⟨lrt, tkt, ports, cnt, rfl⟩ := told
  exact settled_setChan (s := s) hs state

/-! ## The end of an FV step before a WAIT step -/

/-- The end of a step that a WAIT step follows: its result is closed, and the WAIT step begins with no pair selected
(R116, R126). -/
theorem endStep_wait {r : StepResult} {ms : Nat} (ctx : s.ctx b = some x) (cur : x.cur = some r)
    (next : (s.program x.program)[x.stepIx + 1]? = some (.wait ms)) (bias : (s.chan c).bias = .off)
    (activity : (s.chan c).activity ≠ .discharging) : s.endStep b c = (s.setCtx b (some { x with
      stepIx := x.stepIx + 1, final := false, phase := .wait
      done := x.done ++ [r.closeTrace (s.chan c).written]
      cur := some (blankResult (.wait ms) .ok ⟨some c, (s.chan c).written, 0⟩)
      work := { StepWork.idle with waitMs := ms } })).setChan c { s.chan c with pair := none } := by
  obtain ⟨inProgram, step⟩ := List.getElem?_eq_some_iff.1 next
  have rest : (s.program x.program).drop (x.stepIx + 1) = .wait ms :: (s.program x.program).drop (x.stepIx + 1 + 1) := by
    rw [List.drop_eq_getElem_cons inProgram, step]
  let y : RunContext := { x with done := x.done ++ [r.closeTrace (s.chan c).written], cur := none, final := false,
                                 work := StepWork.idle }
  have ends : s.endStep b c = State.beginSteps b c ((s.program x.program).drop (x.stepIx + 1)) (x.stepIx + 1)
      (s.setCtx b (some y)) := by
    rw [State.endStep, ctx]
    dsimp only
    rw [cur]
    rfl
  have here : (s.setCtx b (some y)).ctx b = some y := (State.setCtx_ctx ..).trans (if_pos rfl)
  have free : ¬ ((s.chan c).bias ≠ .off ∨ (s.chan c).activity = .discharging) := by simp [bias, activity]
  rw [ends, rest, State.beginSteps, here]
  refine (if_neg fun both => Bool.false_ne_true both.1).trans ?_
  show State.selectPair ((s.setCtx b (some y)).setCtx b _) c none = _
  rw [setCtx_setCtx]
  exact if_neg free

/-- The FV step's result once its last pair is read (R100). -/
def fvResult (w : StepResult) (g : Gain) : StepResult :=
  { w with status := if anyClipped w.values then .clip else .ok, gain := some g }

/-- The context with the one SOFT finding of an FV step, where a soft limit broke and no HAZARD stands (R119). -/
def fvPended (y : RunContext) (hazard : Bool) : RunContext :=
  if ¬ hazard = true ∧ ¬ y.work.softValues.isEmpty = true then
    y.pend (y.finding .foreignV .soft (largestValue y.work.softValues) none)
  else y

theorem fvPended_frame (y : RunContext) (hazard : Bool) :
    fvPended y hazard = { y with pending := (fvPended y hazard).pending } := by
  unfold fvPended
  split <;> rfl

/-- The hazard flag of a line cleared where a step found no HAZARD (R121). -/
def fvFlagged (s : State) (line : Nat) (hazard : Bool) : State := if hazard then s else s.setHazard line false

/-- The end of an FV step that a WAIT step follows (R100, R116, R119, R121). -/
theorem endFv_wait {w : StepResult} {ms : Nat} {g : Gain} (cur : y.cur = some w)
    (next : (s.program y.program)[y.stepIx + 1]? = some (.wait ms)) (bias : (s.chan c).bias = .off)
    (activity : (s.chan c).activity ≠ .discharging) :
    s.endFv b c y g = ((fvFlagged s y.line w.hasHazard).setCtx b (some { y with
      stepIx := y.stepIx + 1, final := false, phase := .wait
      done := y.done ++ [(fvResult w g).closeTrace (s.chan c).written]
      cur := some (blankResult (.wait ms) .ok ⟨some c, (s.chan c).written, 0⟩)
      pending := (fvPended y w.hasHazard).pending
      work := { StepWork.idle with waitMs := ms } })).setChan c { s.chan c with pair := none } := by
  let x : RunContext := { y with cur := some (fvResult w g) }
  have pended : fvPended x w.hasHazard = { x with pending := (fvPended y w.hasHazard).pending } := by
    rw [fvPended_frame]
    unfold fvPended
    split <;> rfl
  let z : RunContext := { x with pending := (fvPended y w.hasHazard).pending }
  have ends : s.endFv b c y g = (fvFlagged (s.setCtx b (some z)) y.line w.hasHazard).endStep b c := by
    have mapped : (y.mapCur fun r => { r with
        status := if anyClipped r.values then .clip else .ok, gain := some g }) = x := by
      rw [RunContext.mapCur, cur]
      rfl
    unfold State.endFv
    dsimp only
    rw [mapped, show x.cur.any StepResult.hasHazard = w.hasHazard from rfl]
    show State.endStep (fvFlagged (s.setCtx b (some (fvPended x w.hasHazard))) (fvPended x w.hasHazard).line
      w.hasHazard) b c = _
    rw [pended]
  have flagged : fvFlagged (s.setCtx b (some z)) y.line w.hasHazard =
      (fvFlagged s y.line w.hasHazard).setCtx b (some z) := by
    unfold fvFlagged
    split <;> rfl
  let u := fvFlagged s y.line w.hasHazard
  have kept : u.chan c = s.chan c ∧ u.program = s.program := by
    show (fvFlagged s y.line w.hasHazard).chan c = _ ∧ (fvFlagged s y.line w.hasHazard).program = _
    unfold fvFlagged
    split <;> exact ⟨rfl, rfl⟩
  obtain ⟨chan, program⟩ := kept
  have ended := endStep_wait (s := u.setCtx b (some z)) (x := z) (c := c) (r := fvResult w g) (ms := ms)
    ((State.setCtx_ctx ..).trans (if_pos rfl)) rfl
    (by rw [show (u.setCtx b (some z)).program = s.program from program]; exact next)
    (by rw [State.setCtx_chan, chan]; exact bias) (by rw [State.setCtx_chan, chan]; exact activity)
  rw [ends, flagged, ended, setCtx_setCtx, State.setCtx_chan, chan]

end Sys2Proof
end

