-- ==== Sys2Proof/Proofs/RunSteps.lean ====
section
/-! PROOFS. How the steps of a run go on: passes, settles, captures and WAIT steps (R89, R90, R95 to R100, R102, R107, R116,
R118, R119, R121, R126). -/

namespace Sys2Proof

open Machine

variable {s : State} {c : Channel} {b : Bus} {x : RunContext} {rd : Reading}

/-! ## Settles and captures -/

/-- A settle that ends before the first Vx reading starts it at gain 1 (R102). -/
theorem settleOver_resVx {pr : Pair} {lv : Bias} {rg : SourceRange} {n : Nat} (on : s.runOn c = some (b, x))
    (activity : (s.chan c).activity = .settling) (phase : x.phase = .settle) (stage : x.work.stage = .resVx)
    (first : x.work.rangeChanges = 0) (step : (s.program x.program)[x.stepIx]? = some (.res pr lv rg n)) :
    s.settleOver c = (s.setChan c { s.chan c with activity := .quiet, timer := 0, gain := .g1 }).setCtx b
      (some { x with
        phase := .reading, gain := .g1,
        work := { x.work with stage := .resVx, reading := some { n := n, gain := .g1, changes := 0, raw := [] } } }) := by
  obtain ⟨ctx, state, bus, run, channel⟩ := runOn_some on
  let u := s.setChan c { s.chan c with activity := .quiet, timer := 0 }
  have chan : u.chan c = { s.chan c with activity := .quiet, timer := 0 } := (State.setChan_chan ..).trans (if_pos rfl)
  have onThen : u.runOn c = some (b, x) :=
    runOn_of ctx (by rw [chan]; exact state) (by rw [chan]; exact bus) (by rw [chan]; exact run) channel
  have hand : u.stepInHand x = some (.res pr lv rg n) := step
  have begun := beginReading_of (s := u) (c := c) (b := b) (x := x) ctx .resVx .g1 n
  have settles : s.settleOver c = u.beginReading b c .resVx .g1 n := by
    unfold State.settleOver
    dsimp only
    rw [if_neg (not_not.2 activity)]
    show (match u.runOn c with | none => u | some (b, x) => _) = _
    rw [onThen]
    dsimp only
    rw [phase, stage, hand]
    dsimp only
    rw [if_pos first]
  rw [settles, begun, chan, setCtx_setChan, setChan_setChan]

theorem settleOver_idle (quiet : (s.chan c).activity ≠ .settling) : s.settleOver c = s := if_pos quiet

/-- A capture that ends before its settle waits for it (R107). -/
theorem captureOver_settling (on : s.runOn c = some (b, x)) (phase : x.phase = .capture)
    (all : x.work.capture.length = 4096) (more : x.work.captureDone = false)
    (settling : (s.chan c).activity = .settling) :
    s.captureOver c = s.setCtx b (some { x with work := { x.work with captureDone := true } }) := by
  have now : x.phase = .capture ∧ x.work.capture.length = Config.captureSamples ∧ ¬ x.work.captureDone = true :=
    ⟨phase, all, by rw [more]; exact Bool.false_ne_true⟩
  unfold State.captureOver
  rw [on]
  exact (if_pos now).trans (if_pos settling)

theorem captureOver_idle (on : s.runOn c = some (b, x)) (phase : x.phase ≠ .capture) : s.captureOver c = s := by
  unfold State.captureOver
  rw [on]
  exact if_neg fun all => phase all.1

/-! ## WAIT steps -/

theorem waitOver_idle (h : ∀ x, s.ctx b = some x → x.phase ≠ .wait) : s.waitOver b = s := by
  unfold State.waitOver
  split
  · rfl
  next x ctx =>
    split
    next c phase _ => exact absurd phase (h x ctx)
    next => rfl

theorem waitOver_eq (ctx : s.ctx b = some x) (phase : x.phase = .wait) (channel : x.channel = some c) :
    s.waitOver b = s.endStep b c := by
  unfold State.waitOver
  rw [ctx]
  dsimp only
  rw [phase, channel]

/-! ## The pass of an FV step -/

/-- A value written for a pair. -/
theorem putFv_eq (p : Pair) (value : FvValue) (v : StepValues) : putFv p value v = match p, v with
    | .tg, .fv _ rg tr => .fv (some value) rg tr
    | .rg, .fv tg _ tr => .fv tg (some value) tr
    | .tr, .fv tg rg _ => .fv tg rg (some value)
    | _, other => other := by
  cases p <;> cases v <;> rfl

theorem anyClipped_eq (v : StepValues) : anyClipped v = match v with
    | .fv tg rg tr => [tg, rg, tr].any fun v => v.any fun k => k.clipped
    | _ => false := by
  cases v <;> simp [anyClipped, Bool.or_assoc]

/-- A gain change after a pass (R96). -/
theorem exec_passEnd_gain {g : Gain} (hs : Settled s) (on : s.runOn c = some (b, x)) (phase : x.phase = .reading)
    (reading : x.work.reading = some rd) (all : rd.raw.length = 2 + rd.n)
    (next : nextGain rd.changes (passInHand s c rd) = some g) :
    exec (.passEnd c) s = .next ((s.setChan c { s.chan c with gain := g }).setCtx b (some { x with
      gain := g
      work := { x.work with reading := some { rd with gain := g, changes := rd.changes + 1, raw := [] } } })) := by
  have taken := passOver_eq on phase reading all
  rw [next] at taken
  exact congrArg Host.Outcome.next ((congrArg State.settle taken).trans (settle_of_settled
    (settled_setChan (r := { s.chan c with gain := g }) hs rfl)))

/-- A pass that stands (R97). -/
theorem exec_passEnd_stands {p : Pair} (on : s.runOn c = some (b, x)) (phase : x.phase = .reading)
    (reading : x.work.reading = some rd) (all : rd.raw.length = 2 + rd.n)
    (stands : nextGain rd.changes (passInHand s c rd) = none) (stage : x.work.stage = .fv p) :
    exec (.passEnd c) s = .next (s.fvStands b c x p (passInHand s c rd) rd.n).settle := by
  have taken := passOver_eq on phase reading all
  rw [stands] at taken
  have hand : s.readingStands b c x (passInHand s c rd) rd.n = s.fvStands b c x p (passInHand s c rd) rd.n := by
    unfold State.readingStands
    rw [stage]
  exact congrArg (fun z => Host.Outcome.next (State.settle z)) (taken.trans hand)

/-- The value of a standing pass. -/
def passValue (p : Pass) (n : Nat) : FvValue := { clipped := p.clipped, dc := readingValue p, ac := acValue p n }

/-- The value of TG or RG is written, and the next pair's reading begins. -/
theorem exec_passEnd_nextPair {p next : Pair} (hs : Settled s) (on : s.runOn c = some (b, x)) (phase : x.phase = .reading)
    (reading : x.work.reading = some rd) (all : rd.raw.length = 2 + rd.n)
    (stands : nextGain rd.changes (passInHand s c rd) = none) (stage : x.work.stage = .fv p)
    (bias : (s.chan c).bias = .off) (activity : (s.chan c).activity ≠ .discharging)
    (following : (p, next) ∈ [(Pair.tg, Pair.rg), (.rg, .tr)]) :
    let v := passValue (passInHand s c rd) rd.n
    let y := fvRead x (s.cls x.cls) p v
    exec (.passEnd c) s = .next (((fvTold s b x (s.cls x.cls) p v).setChan c
      { s.chan c with pair := some next, gain := .g1 }).setCtx b (some { y with
        phase := .reading, gain := .g1
        work := { y.work with
          stage := .fv next, reading := some { n := rd.n, gain := .g1, changes := 0, raw := [] } } })) := by
  intro v y
  have frame : TicketWork (s.setCtx b (some y)) (fvTold s b x (s.cls x.cls) p v) := fvTold_frame ..
  obtain ⟨tg, rg, -⟩ := fvStands_eq s b c x p (passInHand s c rd) rd.n
  have begins : s.fvStands b c x p (passInHand s c rd) rd.n =
      (fvTold s b x (s.cls x.cls) p v).beginFvPair b c next rd.n := by
    simp only [List.mem_cons, Prod.mk.injEq, List.not_mem_nil, or_false] at following
    rcases following with ⟨here, rfl⟩ | ⟨here, rfl⟩
    · exact tg here
    · exact rg here
  refine (exec_passEnd_stands on phase reading all stands stage).trans (congrArg Host.Outcome.next ?_)
  rw [begins, beginFvPair_told frame bias activity next rd.n rfl]
  exact settle_of_settled (settled_nextPair (r := { s.chan c with pair := some next, gain := .g1 }) hs frame rfl _)

/-- The value of TR is written, the FV step ends and the WAIT step begins. -/
theorem exec_passEnd_wait {w : StepResult} {ms : Nat} (hs : Settled s) (on : s.runOn c = some (b, x))
    (phase : x.phase = .reading) (reading : x.work.reading = some rd) (all : rd.raw.length = 2 + rd.n)
    (stands : nextGain rd.changes (passInHand s c rd) = none) (stage : x.work.stage = .fv .tr)
    (bias : (s.chan c).bias = .off) (activity : (s.chan c).activity ≠ .discharging) (cur : x.cur = some w)
    (next : (s.program x.program)[x.stepIx + 1]? = some (.wait ms)) :
    let v := passValue (passInHand s c rd) rd.n
    let e := s.cls x.cls
    let y := fvRead x e .tr v
    let r : StepResult := { w with values := putFv .tr v w.values, findings := w.findings ++ fvFound e .tr v.dc v.ac }
    exec (.passEnd c) s = .next (((fvFlagged (fvTold s b x e .tr v) x.line r.hasHazard).setCtx b (some { y with
      stepIx := x.stepIx + 1, final := false, phase := .wait
      done := x.done ++ [(fvResult r rd.gain).closeTrace (s.chan c).written]
      cur := some (blankResult (.wait ms) .ok ⟨some c, (s.chan c).written, 0⟩)
      pending := (fvPended y r.hasHazard).pending
      work := { StepWork.idle with waitMs := ms } })).setChan c { s.chan c with pair := none }) := by
  intro v e y r
  have frame : TicketWork (s.setCtx b (some y)) (fvTold s b x e .tr v) := fvTold_frame ..
  obtain ⟨-, -, tr⟩ := fvStands_eq s b c x .tr (passInHand s c rd) rd.n
  obtain ⟨chan, program⟩ : (fvTold s b x e .tr v).chan c = s.chan c ∧ (fvTold s b x e .tr v).program = s.program := by
    obtain ⟨lrt, tkt, ports, cnt, told⟩ := frame
    rw [told]
    exact ⟨rfl, rfl⟩
  have here : y.cur = some r := by
    show x.cur.map _ = _
    rw [cur]
    rfl
  have ended := endFv_wait (s := fvTold s b x e .tr v) (b := b) (c := c) (y := y) (g := (passInHand s c rd).gain) here
    (by rw [program]; exact next) (by rw [chan]; exact bias) (by rw [chan]; exact activity)
  rw [chan] at ended
  refine (exec_passEnd_stands on phase reading all stands stage).trans (congrArg Host.Outcome.next ?_)
  have flagged : TicketWork (s.setCtx b (some y)) (fvFlagged (fvTold s b x e .tr v) x.line r.hasHazard) :=
    TicketWork.ite frame frame.setLine
  rw [(tr rfl).trans ended]
  exact settle_of_settled (settled_nextPair (r := { s.chan c with pair := none }) hs flagged rfl _)

/-- A HAZARD stands in the step result after a value where it stood before or the value is one. -/
theorem hasHazard_read (w : StepResult) (e : ClassEntry) (p : Pair) (dc ac : Int) (values : StepValues) :
    StepResult.hasHazard { w with values := values, findings := w.findings ++ fvFound e p dc ac } =
      (fvHazard e dc ac || w.findings.any fun k => k.severity = .hazard) := by
  unfold StepResult.hasHazard fvFound
  rw [List.any_append]
  cases fvHazard e dc ac with
  | true => simp
  | false => cases fvSoft e dc ac <;> simp

theorem fvFlagged_frame (s : State) (line : Nat) (hazard : Bool) :
    ∃ lrt, fvFlagged s line hazard = { s with lrt := lrt } := by
  unfold fvFlagged
  split
  · exact ⟨_, rfl⟩
  · exact ⟨_, rfl⟩

/-- The pending findings at the end of an FV step (R119). -/
theorem fvPended_kept {y : RunContext} {hazard : Bool} (h : hazard = true ∨ y.work.softValues = []) :
    (fvPended y hazard).pending = y.pending := by
  have nothing : ¬ (¬ hazard = true ∧ ¬ y.work.softValues.isEmpty = true) := by
    rintro ⟨clear, nonempty⟩
    rcases h with h | h
    · exact clear h
    · exact nonempty (List.isEmpty_iff.2 h)
  rw [fvPended, if_neg nothing]

theorem fvPended_soft {y : RunContext} {hazard : Bool} (clear : hazard = false) (nonempty : y.work.softValues ≠ []) :
    ∃ k ∈ y.work.softValues, (∀ l ∈ y.work.softValues, l.magnitude ≤ k.magnitude) ∧
      (fvPended y hazard).pending = y.pending ++ [y.finding .foreignV .soft (some k) none] := by
  obtain ⟨k, largest, mem, bound⟩ := largestValue_spec nonempty
  have soft : ¬ hazard = true ∧ ¬ y.work.softValues.isEmpty = true :=
    ⟨by rw [clear]; exact Bool.false_ne_true, mt List.isEmpty_iff.1 nonempty⟩
  refine ⟨k, mem, bound, ?_⟩
  rw [fvPended, if_pos soft, largest]
  rfl

/-- Settles O56. -/
theorem runStepsGoOn : Obligations.RunStepsGoOn := by
  refine ⟨?_, ?_⟩
  · intro s c b x hs on r
    refine ⟨?_, fun rd phase reading early => ?_, fun pr lv rg n activity phase stage first step => ?_, fun quiet => ?_,
      fun phase all more settling => ?_, fun phase => ?_⟩
    · intro rd phase reading all used clipped mean lower higher
      let pass := passInHand s c rd
      have isClipped : pass.clipped = true ↔ clipped := any_isClip_iff used
      refine ⟨fun g few which => ?_, ?_⟩
      · refine exec_passEnd_gain hs on phase reading all ?_
        rcases which with ⟨clip, gains⟩ | ⟨clear, small, gains⟩
        · exact nextGain_lower few (isClipped.2 clip) gains
        · exact nextGain_higher few (mt isClipped.1 clear) small gains
      · intro pair final stage bias activity spread clip
        have length : used.length = rd.n := by
          rw [List.length_take, List.length_drop, List.length_reverse, all]
          omega
        have codes : pass.codes = used.map (corrected (r.offsets.at rd.gain)) := rfl
        have codesLength : pass.codes.length = rd.n := by rw [codes, List.length_map, length]
        have mean_eq : roundDiv pass.codes.sum pass.codes.length = mean := by
          rw [codesLength]
          rfl
        have squares : (pass.codes.map fun k => ((k - mean) * (k - mean)).toNat).sum / rd.n = spread := by
          rw [codes, List.map_map]
          rfl
        have small : spread < 2 ^ 40 := by
          have := spread_lt (codes := pass.codes) fun v hv => by
            obtain ⟨k, -, rfl⟩ := List.mem_map.1 hv
            exact corrected_range _ _
          rw [mean_eq, codesLength, squares] at this
          exact this
        obtain ⟨low, high⟩ := isqrt_spec small
        refine ⟨isqrt spread, low, high, ?_⟩
        intro dc ac e hazard soft found broke value put read before handed flag told
        have stands : nextGain rd.changes pass = none := nextGain_none (final.imp_right fun none g =>
          ⟨fun h => (none g).1 ⟨isClipped.1 h.1, h.2⟩, fun h => (none g).2 ⟨mt isClipped.2 h.1, h.2⟩⟩)
        have root : acValue pass rd.n = ac := by
          show (if pass.clipped = true then 125000 else millivolts rd.gain
            (isqrt ((pass.codes.map fun k => ((k - mean) * (k - mean)).toNat).sum / rd.n))) = _
          rw [squares]
          rfl
        have isValue : passValue pass rd.n = value := by
          show ({ clipped := _, dc := _, ac := acValue pass rd.n } : FvValue) = _
          rw [root]
          rfl
        have isPut : put = putFv pair value := (funext fun v => putFv_eq pair value v).symm
        have isRead : read = fvRead x e pair value := by
          show ({ x with
            cur := x.cur.map fun w => { w with values := put w.values, findings := w.findings ++ found }
            work := { x.work with softValues := x.work.softValues ++ broke } } : RunContext) = _
          rw [isPut]
          rfl
        have isTold : told = fvTold s b x e pair value := by
          show (if hazard = true then
              if before = true then flag true (s.setCtx b (some read))
              else (flag true (s.setCtx b (some read))).takeFinding _
            else s.setCtx b (some read)) = _
          rw [isRead]
          rfl
        rw [isTold, isRead, isPut, ← isValue]
        refine ⟨fun next following => exec_passEnd_nextPair hs on phase reading all stands stage bias activity following,
          fun w ms last cur next => ?_⟩
        subst last
        intro hazardous anyClip
        let v := passValue pass rd.n
        let w' : StepResult := { w with values := putFv .tr v w.values, findings := w.findings ++ fvFound e .tr v.dc v.ac }
        have isHazard : fvHazard e v.dc v.ac = hazard := by
          rw [show v = value from isValue]
          rfl
        have isFound : fvFound e .tr v.dc v.ac = found := by
          rw [show v = value from isValue]
          rfl
        have wasHazard : (w.findings.any fun k => k.severity = .hazard) = before := by
          show _ = x.cur.any fun w => w.findings.any fun k => k.severity = .hazard
          rw [cur]
          rfl
        have isHazardous : w'.hasHazard = hazardous := by rw [hasHazard_read, isHazard, wasHazard]
        have isAnyClip : anyClipped w'.values = anyClip := anyClipped_eq _
        have taken := exec_passEnd_wait hs on phase reading all stands stage bias activity cur next
        let t := fvTold s b x e .tr v
        obtain ⟨lrt, flagged⟩ := fvFlagged_frame t x.line w'.hasHazard
        obtain ⟨_, _, _, _, frame⟩ : TicketWork _ t := fvTold_frame s b x e .tr v
        refine ⟨_, _, taken, (State.setCtx_ctx ..).trans (if_pos rfl), rfl, rfl, ?_, fun kept => ?_, fun clear soft => ?_,
          ?_, (State.setChan_chan ..).trans (if_pos rfl), ?_⟩
        · show x.done ++ [{ w' with status := if anyClipped w'.values then .clip else .ok, gain := some rd.gain,
                                    trace := _ }] = _
          rw [isAnyClip, ← isFound]
          rfl
        · exact fvPended_kept (kept.imp_left isHazardous.trans)
        · exact fvPended_soft (isHazardous.trans clear) soft
        · show (fvFlagged t x.line w'.hasHazard).lrt = _
          rw [isHazardous, fvFlagged]
          by_cases h : hazardous = true
          · rw [if_pos h, if_pos h]
          · have calm : ¬ fvHazard e v.dc v.ac = true := fun bad => h (by
              rw [show hazardous = (hazard || before) from rfl, ← isHazard, bad, Bool.true_or])
            have unchanged : t = s.setCtx b (some (fvRead x e .tr v)) := if_neg calm
            rw [if_neg h, if_neg h, unchanged]
            rfl
        · show (fvFlagged t x.line w'.hasHazard).tkt = t.tkt ∧ (fvFlagged t x.line w'.hasHazard).cnt = t.cnt ∧
            (fvFlagged t x.line w'.hasHazard).ports = t.ports ∧
            (fvFlagged t x.line w'.hasHazard).acc = _ ∧ (fvFlagged t x.line w'.hasHazard).gar = _ ∧
            (fvFlagged t x.line w'.hasHazard).exc = _ ∧ (fvFlagged t x.line w'.hasHazard).rts = _
          rw [flagged, frame]
          exact ⟨rfl, rfl, rfl, rfl, rfl, rfl, rfl⟩
    · exact congrArg Host.Outcome.next ((congrArg State.settle (passOver_early on phase reading early)).trans
        (settle_of_settled hs))
    · exact congrArg Host.Outcome.next (settleOver_resVx on activity phase stage first step)
    · exact congrArg Host.Outcome.next (settleOver_idle quiet)
    · exact congrArg Host.Outcome.next (captureOver_settling on phase all more settling)
    · exact congrArg Host.Outcome.next (captureOver_idle on phase)
  · intro s b hs
    refine ⟨fun other => ?_, fun x c r ms ctx phase channel cur next bias activity => ?_⟩
    · exact congrArg Host.Outcome.next ((congrArg State.settle (waitOver_idle other)).trans (settle_of_settled hs))
    · have ended := (waitOver_eq ctx phase channel).trans (endStep_wait ctx cur next bias activity)
      have same : ({ x with
          stepIx := x.stepIx + 1, final := false, phase := .wait
          done := x.done ++ [r.closeTrace (s.chan c).written]
          cur := some (blankResult (.wait ms) .ok ⟨some c, (s.chan c).written, 0⟩)
          work := { StepWork.idle with waitMs := ms } } : RunContext) = { x with
          stepIx := x.stepIx + 1, final := false
          done := x.done ++ [r.closeTrace (s.chan c).written]
          cur := some (blankResult (.wait ms) .ok ⟨some c, (s.chan c).written, 0⟩)
          work := { StepWork.idle with waitMs := ms } } := by rw [← phase]
      rw [same] at ended
      exact congrArg Host.Outcome.next ((congrArg State.settle ended).trans (settle_of_settled
        (settled_setChan (r := { s.chan c with pair := none }) hs rfl)))

end Sys2Proof
end
